-- ==== Sys2Proof/Word.lean ====
section
/-! DEFINITION. The word types of the 80386DX: bytes, words, doublewords, selectors, vectors and page numbers
(`00_scope.md` R5, R7). -/

namespace Sys2Proof

/-- The smallest addressable unit (`20_memory.md` R81). -/
abbrev Byte := BitVec 8

/-- A 16-bit word (`00_scope.md` R10). -/
abbrev Word := BitVec 16

/-- A 32-bit doubleword: general registers, linear and physical addresses (`00_scope.md` R5). -/
abbrev Dword := BitVec 32

/-- The visible 16-bit value of a segment register (`10_state.md` R32). -/
abbrev Selector := BitVec 16

/-- An interrupt or exception vector number, 0 to 255 (`60_exceptions.md` R293). -/
abbrev Vec := BitVec 8

/-- The 20 high-order bits of a linear or physical address (`10_state.md` R58). -/
abbrev PageNo := BitVec 20

/-- A privilege level, 0 (most privileged) to 3 (`10_state.md` R62). -/
abbrev Level := BitVec 2

end Sys2Proof
end

