-- ==== Sys2Proof/Syntax.lean ====
section
/-! DEFINITION. The instructions of `30_encoding.md` R130 as abstract syntax: one constructor of `Instr` for each
mnemonic of `spec/opcode_table.json`, with its operands. -/

namespace Sys2Proof

/-- The eight general registers, in the order of their encoding numbers (`10_state.md` R20). -/
inductive Reg
  | eax | ecx | edx | ebx | esp | ebp | esi | edi
deriving DecidableEq, Repr

/-- The six segment registers, in the order of their encoding numbers (`10_state.md` R32). -/
inductive SReg
  | es | cs | ss | ds | fs | gs
deriving DecidableEq, Repr

/-- An operand-size or address-size attribute (`30_encoding.md` R122). -/
inductive OpSize
  | w16 | w32
deriving DecidableEq, Repr

/-- The register part of a 16-bit addressing form, in the order of its `rm` number (`30_encoding.md` R125). -/
inductive Base16
  | bxSi | bxDi | bpSi | bpDi | si | di | bp | bx
deriving DecidableEq, Repr

/-- The displacement of a 16-bit addressing form: mod = 00, 01, 10 (`30_encoding.md` R125). -/
inductive Disp16
  | none
  | d8 (d : Byte)
  | d16 (d : Word)
deriving DecidableEq, Repr

/-- The displacement of a 32-bit addressing form: mod = 00, 01, 10 (`30_encoding.md` R125). -/
inductive Disp32
  | none
  | d8 (d : Byte)
  | d32 (d : Dword)
deriving DecidableEq, Repr

/-- The scale of a SIB index (`30_encoding.md` R125). -/
inductive Scale
  | x1 | x2 | x4 | x8
deriving DecidableEq, Repr

/-- The memory operand forms of `30_encoding.md` R125. -/
inductive Ea
  /-- 16-bit address size: a register form with a displacement. -/
  | based16 (b : Base16) (d : Disp16)
  /-- 16-bit address size, mod = 00 and rm = 110: a 16-bit displacement alone. -/
  | direct16 (d : Word)
  /-- 32-bit address size, rm other than 100: a base register with a displacement. -/
  | based32 (b : Reg) (d : Disp32)
  /-- 32-bit address size, mod = 00 and rm = 101: a 32-bit displacement alone. -/
  | direct32 (d : Dword)
  /-- A SIB byte with a base register; `idx = none` is the index number 100. -/
  | sib (sc : Scale) (idx : Option Reg) (b : Reg) (d : Disp32)
  /-- A SIB byte with mod = 00 and base number 101: a 32-bit displacement and no base. -/
  | sibNoBase (sc : Scale) (idx : Option Reg) (d : Dword)
deriving DecidableEq, Repr

/-- A memory operand: its addressing form and the segment override, if any (`30_encoding.md` R121). -/
structure MemOp where
  seg : Option SReg
  ea  : Ea
deriving DecidableEq, Repr

/-- A 16-bit register or memory operand, `r/m16` (`30_encoding.md` R123). -/
inductive Rm16
  | reg (r : Reg)
  | mem (m : MemOp)
deriving DecidableEq, Repr

/-- A relative displacement of the operand size (`30_encoding.md` R126). -/
inductive Rel
  | rel16 (d : Word)
  | rel32 (d : Dword)
deriving DecidableEq, Repr

/-- A direct far pointer: offset of the operand size and selector (`30_encoding.md` R126). -/
inductive FarPtr
  | ptr16 (off : Word) (sel : Selector)
  | ptr32 (off : Dword) (sel : Selector)
deriving DecidableEq, Repr

/-- The debug registers DR6 and DR7, one row of the table (`30_encoding.md` R131). -/
inductive Dr67
  | dr6 | dr7
deriving DecidableEq, Repr

/-- The instructions: one constructor for each mnemonic of `spec/opcode_table.json` (`30_encoding.md` R130, R131). -/
inductive Instr
  | jmpRel8 (sz : OpSize) (d : Byte)
  | jmpRel (d : Rel)
  | callRel (d : Rel)
  | jmpPtr (p : FarPtr)
  | callPtr (p : FarPtr)
  | jmpMem (sz : OpSize) (m : MemOp)
  | callMem (sz : OpSize) (m : MemOp)
  | movEs (src : Rm16)
  | movSs (src : Rm16)
  | movDs (src : Rm16)
  | movFs (src : Rm16)
  | movGs (src : Rm16)
  | lidt (sz : OpSize) (m : MemOp)
  | lgdt (sz : OpSize) (m : MemOp)
  | movFromCr0 (r : Reg)
  | movFromCr3 (r : Reg)
  | movToCr0 (r : Reg)
  | movToCr3 (r : Reg)
  | lmsw (src : Rm16)
  | movFromDr03 (r : Reg) (n : Fin 4)
  | movFromDr67 (r : Reg) (n : Dr67)
  | movToDr03 (n : Fin 4) (r : Reg)
  | movToDr67 (n : Dr67) (r : Reg)
  | movFromTr6 (r : Reg)
  | movFromTr7 (r : Reg)
  | movToTr6 (r : Reg)
  | movToTr7 (r : Reg)
  | int3
  | iret (sz : OpSize)
deriving DecidableEq, Repr

end Sys2Proof
end

