-- ==== Sys2Proof/WellFormed.lean ====
section
/-! DEFINITION. The checks that make a term of `Instr` an instruction the encoding of `30_encoding.md` R125 can
express. Where a check fails the term names a register in a place whose number means something else. -/

namespace Sys2Proof

/-- rm = 110 with mod = 00 is the displacement alone, so BP needs a displacement (`30_encoding.md` R125). -/
def Ea.wf : Ea → Bool
  | .based16 .bp .none => false
  | .based16 _ _ => true
  | .direct16 _ => true
  | .based32 .esp _ => false          -- rm = 100 calls for a SIB byte
  | .based32 .ebp .none => false      -- rm = 101 with mod = 00 is the displacement alone
  | .based32 _ _ => true
  | .direct32 _ => true
  | .sib _ (some .esp) _ _ => false   -- index 100 is no index
  | .sib _ _ .ebp .none => false      -- base 101 with mod = 00 is no base
  | .sib _ _ _ _ => true
  | .sibNoBase _ (some .esp) _ => false
  | .sibNoBase _ _ _ => true

/-- A register operand is always expressible; a memory operand when its addressing form is. -/
def Rm16.wf : Rm16 → Bool
  | .reg _ => true
  | .mem m => m.ea.wf

/-- The well-formed instructions: every operand has an encoding. -/
def Instr.wf : Instr → Bool
  | .jmpMem _ m | .callMem _ m | .lidt _ m | .lgdt _ m => m.ea.wf
  | .movEs s | .movSs s | .movDs s | .movFs s | .movGs s | .lmsw s => s.wf
  | .jmpRel8 _ _ | .jmpRel _ | .callRel _ | .jmpPtr _ | .callPtr _ => true
  | .movFromCr0 _ | .movFromCr3 _ | .movToCr0 _ | .movToCr3 _ => true
  | .movFromDr03 _ _ | .movFromDr67 _ _ | .movToDr03 _ _ | .movToDr67 _ _ => true
  | .movFromTr6 _ | .movFromTr7 _ | .movToTr6 _ | .movToTr7 _ => true
  | .int3 | .iret _ => true

end Sys2Proof
end

