-- ==== Sys2Proof/Decode.lean ====
section
/-! DEFINITION. The decoder of `30_encoding.md` R120 to R141, total on any bytes, and after it the encoder written
from the same tables. The decoder reads the bytes it has so far and says whether they are an instruction, the
beginning of one, an encoding that raises the invalid-opcode exception, or one the spec gives no meaning. -/

namespace Sys2Proof

/-! ## Register and field numbers -/

/-- General register numbers (`10_state.md` R20). -/
def Reg.num : Reg → BitVec 3
  | .eax => 0 | .ecx => 1 | .edx => 2 | .ebx => 3 | .esp => 4 | .ebp => 5 | .esi => 6 | .edi => 7

/-- The general register with a number (`10_state.md` R20). -/
def Reg.ofNum (n : BitVec 3) : Reg :=
  if n = 0 then .eax else if n = 1 then .ecx else if n = 2 then .edx else if n = 3 then .ebx
  else if n = 4 then .esp else if n = 5 then .ebp else if n = 6 then .esi else .edi

/-- The `rm` number of a 16-bit addressing form (`30_encoding.md` R125). -/
def Base16.num : Base16 → BitVec 3
  | .bxSi => 0 | .bxDi => 1 | .bpSi => 2 | .bpDi => 3 | .si => 4 | .di => 5 | .bp => 6 | .bx => 7

/-- The 16-bit addressing form with an `rm` number (`30_encoding.md` R125). -/
def Base16.ofNum (n : BitVec 3) : Base16 :=
  if n = 0 then .bxSi else if n = 1 then .bxDi else if n = 2 then .bpSi else if n = 3 then .bpDi
  else if n = 4 then .si else if n = 5 then .di else if n = 6 then .bp else .bx

/-- The scale field of a SIB byte: index multiplied by 1, 2, 4, 8 (`30_encoding.md` R125). -/
def Scale.num : Scale → BitVec 2
  | .x1 => 0 | .x2 => 1 | .x4 => 2 | .x8 => 3

/-- The scale with a field value (`30_encoding.md` R125). -/
def Scale.ofNum (n : BitVec 2) : Scale :=
  if n = 0 then .x1 else if n = 1 then .x2 else if n = 2 then .x4 else .x8

/-- The index number of a SIB byte; 100 is no index (`30_encoding.md` R125). -/
def idxNum : Option Reg → BitVec 3
  | none => 4
  | some r => r.num

/-- The index register with a number (`30_encoding.md` R125). -/
def idxOfNum (n : BitVec 3) : Option Reg :=
  if n = 4 then none else some (Reg.ofNum n)

/-- The other size (`30_encoding.md` R122: 66H and 67H select the other size). -/
def OpSize.other : OpSize → OpSize
  | .w16 => .w32
  | .w32 => .w16

/-! ## Bytes -/

/-- Little-endian word (`30_encoding.md` R126). -/
def word16 (b0 b1 : Byte) : Word := b1 ++ b0

/-- Little-endian doubleword (`30_encoding.md` R126). -/
def word32 (b0 b1 b2 b3 : Byte) : Dword := b3 ++ b2 ++ b1 ++ b0

/-- The bytes of a word, least significant first (`30_encoding.md` R126). -/
def bytes16 (w : Word) : List Byte := [w.extractLsb' 0 8, w.extractLsb' 8 8]

/-- The bytes of a doubleword, least significant first (`30_encoding.md` R126). -/
def bytes32 (w : Dword) : List Byte :=
  [w.extractLsb' 0 8, w.extractLsb' 8 8, w.extractLsb' 16 8, w.extractLsb' 24 8]

/-- The fields mod, reg and rm of a ModRM byte; also scale, index and base of a SIB byte (`30_encoding.md` R123,
R125). -/
def fieldHi (b : Byte) : BitVec 2 := b.extractLsb' 6 2
def fieldMid (b : Byte) : BitVec 3 := b.extractLsb' 3 3
def fieldLo (b : Byte) : BitVec 3 := b.extractLsb' 0 3

/-- A ModRM or SIB byte from its fields (`30_encoding.md` R123). -/
def modrm (hi : BitVec 2) (mid lo : BitVec 3) : Byte := hi ++ mid ++ lo

/-! ## Operands -/

/-- Read a 16-bit displacement. -/
def take16 (bs : List Byte) : Option (Word × List Byte) :=
  match bs with
  | b0 :: b1 :: t => some (word16 b0 b1, t)
  | _ => none

/-- Read a 32-bit displacement or immediate. -/
def take32 (bs : List Byte) : Option (Dword × List Byte) :=
  match bs with
  | b0 :: b1 :: b2 :: b3 :: t => some (word32 b0 b1 b2 b3, t)
  | _ => none

/-- The displacement of a 16-bit form: none, 8 or 16 bits by mod (`30_encoding.md` R125). -/
def takeDisp16 (mod : BitVec 2) (bs : List Byte) : Option (Disp16 × List Byte) :=
  if mod = 0 then some (.none, bs)
  else if mod = 1 then
    match bs with
    | b :: t => some (.d8 b, t)
    | [] => none
  else (take16 bs).map fun p => (.d16 p.1, p.2)

/-- The displacement of a 32-bit form: none, 8 or 32 bits by mod (`30_encoding.md` R125). -/
def takeDisp32 (mod : BitVec 2) (bs : List Byte) : Option (Disp32 × List Byte) :=
  if mod = 0 then some (.none, bs)
  else if mod = 1 then
    match bs with
    | b :: t => some (.d8 b, t)
    | [] => none
  else (take32 bs).map fun p => (.d32 p.1, p.2)

/-- The addressing form of a SIB byte (`30_encoding.md` R125). -/
def takeSib (mod : BitVec 2) (bs : List Byte) : Option (Ea × List Byte) :=
  match bs with
  | [] => none
  | s :: t =>
    if mod = 0 ∧ fieldLo s = 5 then
      (take32 t).map fun p => (.sibNoBase (Scale.ofNum (fieldHi s)) (idxOfNum (fieldMid s)) p.1, p.2)
    else
      (takeDisp32 mod t).map fun p =>
        (.sib (Scale.ofNum (fieldHi s)) (idxOfNum (fieldMid s)) (Reg.ofNum (fieldLo s)) p.1, p.2)

/-- A memory operand's addressing form from mod, rm and the address size; mod is not 11 (`30_encoding.md` R125). -/
def takeEa (asz : OpSize) (mod : BitVec 2) (rm : BitVec 3) (bs : List Byte) : Option (Ea × List Byte) :=
  match asz with
  | .w16 =>
    if mod = 0 ∧ rm = 6 then (take16 bs).map fun p => (.direct16 p.1, p.2)
    else (takeDisp16 mod bs).map fun p => (.based16 (Base16.ofNum rm) p.1, p.2)
  | .w32 =>
    if rm = 4 then takeSib mod bs
    else if mod = 0 ∧ rm = 5 then (take32 bs).map fun p => (.direct32 p.1, p.2)
    else (takeDisp32 mod bs).map fun p => (.based32 (Reg.ofNum rm) p.1, p.2)

/-! ## The bytes before the opcode -/

/-- What the bytes before the opcode say (`30_encoding.md` R121, R122): each of 66H and 67H toggles its size once,
the last segment override counts (log 30). -/
structure Pre where
  op    : Bool
  addr  : Bool
  seg   : Option SReg
deriving DecidableEq, Repr

/-- The segment override bytes of `30_encoding.md` R121. FS: and GS: (64H, 65H) stand in the last row of R140's refused
entries too; the model follows R121 and runs them as overrides (log 42). -/
def overrideOf (b : Byte) : Option SReg :=
  if b = 0x26 then some .es else if b = 0x2E then some .cs else if b = 0x36 then some .ss
  else if b = 0x3E then some .ds else if b = 0x64 then some .fs else if b = 0x65 then some .gs else none

/-- Take the bytes before the opcode (`30_encoding.md` R127). -/
def takePre (p : Pre) : List Byte → Pre × List Byte
  | [] => (p, [])
  | b :: t =>
    if b = 0x66 then takePre { p with op := true } t
    else if b = 0x67 then takePre { p with addr := true } t
    else match overrideOf b with
      | some s => takePre { p with seg := some s } t
      | none => (p, b :: t)

/-- The operand size under the default `d` (`30_encoding.md` R122). -/
def Pre.opSize (p : Pre) (d : OpSize) : OpSize := if p.op then d.other else d

/-- The address size under the default `d` (`30_encoding.md` R122). -/
def Pre.addrSize (p : Pre) (d : OpSize) : OpSize := if p.addr then d.other else d

/-! ## Refused encodings -/

/-- Why bytes have no meaning in this spec; a decoder names what it refuses. -/
inductive Unsupported
  /-- LOCK or a repeat (`30_encoding.md` R121). -/
  | lockOrRepeat
  /-- An instruction the source names and does not specify (`30_encoding.md` R140). -/
  | namedOnly (mnemonic : String)
  /-- A move to or from CR2, "outside this spec" (`30_encoding.md` R136). -/
  | controlRegister2
  /-- Bytes that match no row (`30_encoding.md` R138). -/
  | outsideSpec
deriving DecidableEq, Repr

/-- The conditions of the long-displacement jumps and the byte sets, by the low four opcode bits. -/
def conditionNames : List String :=
  ["O", "NO", "B", "NB", "Z", "NZ", "BE", "NBE", "S", "NS", "P", "NP", "L", "NL", "LE", "NLE"]

/-- The name of a condition. -/
def conditionName (b : Byte) : String := conditionNames.getD (b.extractLsb' 0 4).toNat ""

/-- The shifts and rotates by an immediate count, by their opcode extension (`30_encoding.md` R140). -/
def shiftName (n : BitVec 3) : Option String :=
  if n = 0 then some "ROL" else if n = 1 then some "ROR" else if n = 2 then some "RCL" else if n = 3 then some "RCR"
  else if n = 4 then some "SHL" else if n = 5 then some "SHR" else if n = 7 then some "SAR" else none

/-- The single-bit instructions with an immediate, by their opcode extension (`30_encoding.md` R140). -/
def bitName (n : BitVec 3) : Option String :=
  if n = 4 then some "BT" else if n = 5 then some "BTS" else if n = 6 then some "BTR"
  else if n = 7 then some "BTC" else none

/-- The one-byte opcodes of `30_encoding.md` R140 that need no ModRM byte to be named. -/
def namedOnlyTable : List (Byte × String) :=
  [(0x68, "PUSH"), (0x6A, "PUSH"), (0x60, "PUSHA"), (0x61, "POPA"), (0x69, "IMUL"), (0x6B, "IMUL")] ++
  [(0x6C, "INSB"), (0x6D, "INS"), (0x6E, "OUTSB"), (0x6F, "OUTS"), (0xC8, "ENTER"), (0xC9, "LEAVE"), (0x62, "BOUND")]

/-- The opcodes after 0FH of `30_encoding.md` R140 that need no ModRM byte to be named. -/
def namedOnlyTable0F : List (Byte × String) :=
  [(0xB2, "LSS"), (0xB4, "LFS"), (0xB5, "LGS"), (0xA3, "BT"), (0xAB, "BTS"), (0xB3, "BTR"), (0xBB, "BTC")] ++
  [(0xBC, "BSF"), (0xBD, "BSR"), (0xA4, "SHLD"), (0xA5, "SHLD"), (0xAC, "SHRD"), (0xAD, "SHRD"), (0xBE, "MOVSX")] ++
  [(0xBF, "MOVSX"), (0xB6, "MOVZX"), (0xB7, "MOVZX"), (0xAF, "IMUL"), (0xA0, "PUSH"), (0xA1, "POP"), (0xA8, "PUSH")] ++
  [(0xA9, "POP")]

/-- The name a table gives an opcode. -/
def nameIn (t : List (Byte × String)) (b : Byte) : Option String :=
  (t.find? fun p => p.1 == b).map (·.2)

/-! ## The decoder -/

/-- What a list of bytes is. -/
inductive DecodeResult
  /-- An instruction, the first `len` bytes of the list. -/
  | ok (i : Instr) (len : Nat)
  /-- The beginning of an instruction: more bytes are needed. -/
  | more
  /-- A reserved register number or an illegal operand form, for which the processor raises the invalid-opcode
  exception (`30_encoding.md` R136, R137; log 15). -/
  | invalid
  /-- An encoding the spec gives no meaning. -/
  | unsupported (why : Unsupported)
deriving DecidableEq, Repr

/-- Close a decoding: `total` bytes were given and `left` are left over. -/
def finish (total : Nat) (i : Instr) (left : List Byte) : DecodeResult := .ok i (total - left.length)

/-- A ModRM operand that must be memory (`30_encoding.md` R137: mod = 11 is illegal). -/
def withMem (asz : OpSize) (p : Pre) (total : Nat) (m : Byte) (bs : List Byte) (k : MemOp → Instr) : DecodeResult :=
  if fieldHi m = 3 then .invalid
  else match takeEa asz (fieldHi m) (fieldLo m) bs with
    | some (ea, t) => finish total (k { seg := p.seg, ea := ea }) t
    | none => .more

/-- A ModRM operand `r/m16` (`30_encoding.md` R123). -/
def withRm (asz : OpSize) (p : Pre) (total : Nat) (m : Byte) (bs : List Byte) (k : Rm16 → Instr) : DecodeResult :=
  if fieldHi m = 3 then finish total (k (.reg (Reg.ofNum (fieldLo m)))) bs
  else match takeEa asz (fieldHi m) (fieldLo m) bs with
    | some (ea, t) => finish total (k (.mem { seg := p.seg, ea := ea })) t
    | none => .more

/-- The loads of a segment register, by ModRM.reg: 1 (CS), 6 and 7 are illegal (`30_encoding.md` R137). -/
def movSregOf (n : BitVec 3) : Option (Rm16 → Instr) :=
  if n = 0 then some .movEs else if n = 2 then some .movSs else if n = 3 then some .movDs
  else if n = 4 then some .movFs else if n = 5 then some .movGs else none

/-- The special-register moves, by the second opcode byte, ModRM.reg and ModRM.rm (`30_encoding.md` R124, R130 rows
11, 12, 14 to 17, R136). A reserved number is no instruction whatever the level and GD are, DR4 and DR5 with GD = 1
among them (log 15). -/
def moveOf (b : Byte) (n : BitVec 3) (r : Reg) : DecodeResult :=
  let ok (i : Instr) : DecodeResult := .ok i 0
  if b = 0x20 then
    if n = 0 then ok (.movFromCr0 r) else if n = 3 then ok (.movFromCr3 r)
    else if n = 2 then .unsupported .controlRegister2 else .invalid
  else if b = 0x22 then
    if n = 0 then ok (.movToCr0 r) else if n = 3 then ok (.movToCr3 r)
    else if n = 2 then .unsupported .controlRegister2 else .invalid
  else if b = 0x21 then
    if n = 0 then ok (.movFromDr03 r 0) else if n = 1 then ok (.movFromDr03 r 1)
    else if n = 2 then ok (.movFromDr03 r 2) else if n = 3 then ok (.movFromDr03 r 3)
    else if n = 6 then ok (.movFromDr67 r .dr6) else if n = 7 then ok (.movFromDr67 r .dr7) else .invalid
  else if b = 0x23 then
    if n = 0 then ok (.movToDr03 0 r) else if n = 1 then ok (.movToDr03 1 r)
    else if n = 2 then ok (.movToDr03 2 r) else if n = 3 then ok (.movToDr03 3 r)
    else if n = 6 then ok (.movToDr67 .dr6 r) else if n = 7 then ok (.movToDr67 .dr7 r) else .invalid
  else if b = 0x24 then
    if n = 6 then ok (.movFromTr6 r) else if n = 7 then ok (.movFromTr7 r) else .invalid
  else if n = 6 then ok (.movToTr6 r) else if n = 7 then ok (.movToTr7 r) else .invalid

/-- The special-register moves are opcodes 0F 20 to 0F 24 and 0F 26. -/
def isMove (b : Byte) : Bool :=
  b == 0x20 || b == 0x21 || b == 0x22 || b == 0x23 || b == 0x24 || b == 0x26

/-- The instructions after the escape byte 0FH (`30_encoding.md` R130, R140). -/
def decode0F (dflt : OpSize) (p : Pre) (total : Nat) (bs : List Byte) : DecodeResult :=
  match bs with
  | [] => .more
  | b :: t =>
    if b = 0x01 then
      match t with
      | [] => .more
      | m :: u =>
        if fieldMid m = 2 then withMem (p.addrSize dflt) p total m u (.lgdt (p.opSize dflt))
        else if fieldMid m = 3 then withMem (p.addrSize dflt) p total m u (.lidt (p.opSize dflt))
        else if fieldMid m = 6 then withRm (p.addrSize dflt) p total m u .lmsw
        else .unsupported .outsideSpec
    else if isMove b then
      match t with
      | [] => .more
      | m :: u =>
        match moveOf b (fieldMid m) (Reg.ofNum (fieldLo m)) with
        | .ok i _ => finish total i u
        | r => r
    else if b = 0xBA then
      match t with
      | [] => .more
      | m :: _ =>
        match bitName (fieldMid m) with
        | some s => .unsupported (.namedOnly s)
        | none => .unsupported .outsideSpec
    else if b.extractLsb' 4 4 = 8 then .unsupported (.namedOnly ("J" ++ conditionName b))
    else if b.extractLsb' 4 4 = 9 then .unsupported (.namedOnly ("SET" ++ conditionName b))
    else match nameIn namedOnlyTable0F b with
      | some s => .unsupported (.namedOnly s)
      | none => .unsupported .outsideSpec

/-- The instructions with a one-byte opcode (`30_encoding.md` R130, R140). That 8E with reg 1, 6 or 7 and a memory form
is invalid as soon as ModRM is read, before the SIB and displacement bytes, is the model's choice (R137; log 15). -/
def decodeOp (dflt : OpSize) (p : Pre) (total : Nat) (bs : List Byte) : DecodeResult :=
  match bs with
  | [] => .more
  | b :: t =>
    if b = 0xEB then
      match t with
      | d :: u => finish total (.jmpRel8 (p.opSize dflt) d) u
      | [] => .more
    else if b = 0xE9 then
      match p.opSize dflt with
      | .w16 => match take16 t with | some (d, u) => finish total (.jmpRel (.rel16 d)) u | none => .more
      | .w32 => match take32 t with | some (d, u) => finish total (.jmpRel (.rel32 d)) u | none => .more
    else if b = 0xE8 then
      match p.opSize dflt with
      | .w16 => match take16 t with | some (d, u) => finish total (.callRel (.rel16 d)) u | none => .more
      | .w32 => match take32 t with | some (d, u) => finish total (.callRel (.rel32 d)) u | none => .more
    else if b = 0xEA ∨ b = 0x9A then
      let k : FarPtr → Instr := if b = 0xEA then .jmpPtr else .callPtr
      match p.opSize dflt with
      | .w16 =>
        match take16 t with
        | some (o, u) => match take16 u with | some (s, v) => finish total (k (.ptr16 o s)) v | none => .more
        | none => .more
      | .w32 =>
        match take32 t with
        | some (o, u) => match take16 u with | some (s, v) => finish total (k (.ptr32 o s)) v | none => .more
        | none => .more
    else if b = 0xFF then
      match t with
      | [] => .more
      | m :: u =>
        if fieldMid m = 5 then withMem (p.addrSize dflt) p total m u (.jmpMem (p.opSize dflt))
        else if fieldMid m = 3 then withMem (p.addrSize dflt) p total m u (.callMem (p.opSize dflt))
        else .unsupported .outsideSpec
    else if b = 0x8E then
      match t with
      | [] => .more
      | m :: u =>
        match movSregOf (fieldMid m) with
        | some k => withRm (p.addrSize dflt) p total m u k
        | none => .invalid
    else if b = 0xCC then finish total .int3 t
    else if b = 0xCF then finish total (.iret (p.opSize dflt)) t
    else if b = 0x0F then decode0F dflt p total t
    else if b = 0xF0 ∨ b = 0xF2 ∨ b = 0xF3 then .unsupported .lockOrRepeat
    else if b = 0xC0 ∨ b = 0xC1 then
      match t with
      | [] => .more
      | m :: _ =>
        match shiftName (fieldMid m) with
        | some s => .unsupported (.namedOnly s)
        | none => .unsupported .outsideSpec
    else if b = 0x8C then
      match t with
      | [] => .more
      | m :: _ =>
        if fieldMid m = 4 ∨ fieldMid m = 5 then .unsupported (.namedOnly "MOV") else .unsupported .outsideSpec
    else match nameIn namedOnlyTable b with
      | some s => .unsupported (.namedOnly s)
      | none => .unsupported .outsideSpec

/-- The decoder (`30_encoding.md` R127): `dflt` is the default operand and address size (R122). -/
def decode (dflt : OpSize) (bs : List Byte) : DecodeResult :=
  let q := takePre { op := false, addr := false, seg := none } bs
  decodeOp dflt q.1 bs.length q.2

/-! ## The encoder -/

/-- The override byte of a segment register (`30_encoding.md` R121). -/
def overrideByte : SReg → Byte
  | .es => 0x26 | .cs => 0x2E | .ss => 0x36 | .ds => 0x3E | .fs => 0x64 | .gs => 0x65

/-- The override bytes of a memory operand. -/
def encSeg : Option SReg → List Byte
  | none => []
  | some s => [overrideByte s]

/-- 66H where the operand size is not the default (`30_encoding.md` R122). -/
def encOp (dflt sz : OpSize) : List Byte := if sz = dflt then [] else [0x66]

/-- 67H where the address size is not the default (`30_encoding.md` R122). -/
def encAddr (dflt sz : OpSize) : List Byte := if sz = dflt then [] else [0x67]

/-- The address size of an addressing form. -/
def Ea.size : Ea → OpSize
  | .based16 _ _ | .direct16 _ => .w16
  | .based32 _ _ | .direct32 _ | .sib _ _ _ _ | .sibNoBase _ _ _ => .w32

/-- mod of a 16-bit displacement (`30_encoding.md` R125). -/
def Disp16.mod : Disp16 → BitVec 2
  | .none => 0 | .d8 _ => 1 | .d16 _ => 2

/-- The bytes of a 16-bit form's displacement. -/
def Disp16.bytes : Disp16 → List Byte
  | .none => [] | .d8 d => [d] | .d16 d => bytes16 d

/-- mod of a 32-bit displacement (`30_encoding.md` R125). -/
def Disp32.mod : Disp32 → BitVec 2
  | .none => 0 | .d8 _ => 1 | .d32 _ => 2

/-- The bytes of a 32-bit form's displacement. -/
def Disp32.bytes : Disp32 → List Byte
  | .none => [] | .d8 d => [d] | .d32 d => bytes32 d

/-- The ModRM byte of a memory operand with `reg` in its middle field, and what follows it (`30_encoding.md` R125). -/
def encEa (reg : BitVec 3) : Ea → List Byte
  | .based16 b d => modrm d.mod reg b.num :: d.bytes
  | .direct16 d => modrm 0 reg 6 :: bytes16 d
  | .based32 b d => modrm d.mod reg b.num :: d.bytes
  | .direct32 d => modrm 0 reg 5 :: bytes32 d
  | .sib sc i b d => modrm d.mod reg 4 :: modrm sc.num (idxNum i) b.num :: d.bytes
  | .sibNoBase sc i d => modrm 0 reg 4 :: modrm sc.num (idxNum i) 5 :: bytes32 d

/-- An instruction with a memory operand: override, 67H, 66H, opcode, ModRM (`30_encoding.md` R120). -/
def encMem (dflt : OpSize) (op : List Byte) (opcode : List Byte) (reg : BitVec 3) (m : MemOp) : List Byte :=
  encSeg m.seg ++ encAddr dflt m.ea.size ++ op ++ opcode ++ encEa reg m.ea

/-- An instruction with an `r/m16` operand. -/
def encRm (dflt : OpSize) (opcode : List Byte) (reg : BitVec 3) : Rm16 → List Byte
  | .reg r => opcode ++ [modrm 3 reg r.num]
  | .mem m => encMem dflt [] opcode reg m

/-- A special-register move; assemblers emit mod = 11 (`30_encoding.md` R124). -/
def encMove (b : Byte) (n : BitVec 3) (r : Reg) : List Byte := [0x0F, b, modrm 3 n r.num]

/-- The number of DR6 or DR7 (`30_encoding.md` R124). -/
def Dr67.num : Dr67 → BitVec 3
  | .dr6 => 6 | .dr7 => 7

/-- The bytes of an instruction under the default size `dflt` (`30_encoding.md` R130). -/
def encode (dflt : OpSize) : Instr → List Byte
  | .jmpRel8 sz d => encOp dflt sz ++ [0xEB, d]
  | .jmpRel (.rel16 d) => encOp dflt .w16 ++ 0xE9 :: bytes16 d
  | .jmpRel (.rel32 d) => encOp dflt .w32 ++ 0xE9 :: bytes32 d
  | .callRel (.rel16 d) => encOp dflt .w16 ++ 0xE8 :: bytes16 d
  | .callRel (.rel32 d) => encOp dflt .w32 ++ 0xE8 :: bytes32 d
  | .jmpPtr (.ptr16 o s) => encOp dflt .w16 ++ 0xEA :: (bytes16 o ++ bytes16 s)
  | .jmpPtr (.ptr32 o s) => encOp dflt .w32 ++ 0xEA :: (bytes32 o ++ bytes16 s)
  | .callPtr (.ptr16 o s) => encOp dflt .w16 ++ 0x9A :: (bytes16 o ++ bytes16 s)
  | .callPtr (.ptr32 o s) => encOp dflt .w32 ++ 0x9A :: (bytes32 o ++ bytes16 s)
  | .jmpMem sz m => encMem dflt (encOp dflt sz) [0xFF] 5 m
  | .callMem sz m => encMem dflt (encOp dflt sz) [0xFF] 3 m
  | .movEs s => encRm dflt [0x8E] 0 s
  | .movSs s => encRm dflt [0x8E] 2 s
  | .movDs s => encRm dflt [0x8E] 3 s
  | .movFs s => encRm dflt [0x8E] 4 s
  | .movGs s => encRm dflt [0x8E] 5 s
  | .lidt sz m => encMem dflt (encOp dflt sz) [0x0F, 0x01] 3 m
  | .lgdt sz m => encMem dflt (encOp dflt sz) [0x0F, 0x01] 2 m
  | .lmsw s => encRm dflt [0x0F, 0x01] 6 s
  | .movFromCr0 r => encMove 0x20 0 r
  | .movFromCr3 r => encMove 0x20 3 r
  | .movToCr0 r => encMove 0x22 0 r
  | .movToCr3 r => encMove 0x22 3 r
  | .movFromDr03 r n => encMove 0x21 (BitVec.ofNat 3 n.val) r
  | .movFromDr67 r n => encMove 0x21 n.num r
  | .movToDr03 n r => encMove 0x23 (BitVec.ofNat 3 n.val) r
  | .movToDr67 n r => encMove 0x23 n.num r
  | .movFromTr6 r => encMove 0x24 6 r
  | .movFromTr7 r => encMove 0x24 7 r
  | .movToTr6 r => encMove 0x26 6 r
  | .movToTr7 r => encMove 0x26 7 r
  | .int3 => [0xCC]
  | .iret sz => encOp dflt sz ++ [0xCF]

/-! ## Words of the opcode table -/

/-- The longest instruction (`30_encoding.md` R120). -/
def maxLen : Nat := 15

/-- The `k` bytes of `w` from its least significant byte up. -/
def wordBytes : Nat → Nat → List Byte
  | 0, _ => []
  | k + 1, w => BitVec.ofNat 8 w :: wordBytes k (w / 256)

/-- The bytes of an instruction whose first `nbits` bits are `w`, first byte least significant, zeros after them. -/
def tableBytes (nbits w : Nat) : List Byte :=
  wordBytes maxLen (w % 2 ^ (8 * ((nbits + 7) / 8)))

/-- The instruction the decoder reads from the bits `w`, with the 16-bit default size of real-address mode. -/
def decodeTableWord (nbits w : Nat) : Option Instr :=
  match decode .w16 (tableBytes nbits w) with
  | .ok i _ => some i
  | .more | .invalid | .unsupported _ => none

end Sys2Proof
end

