-- ==== Sys2Proof/Machine/Registers.lean ====
section
/-! DEFINITION. The register types of the machine and the one place where each is read and written
(`10_state.md` R20 to R58). EFLAGS, CR0, TR6 and TR7 are records of their fields, reserved bits included where
the register stores them (log 36); `Machine/Flags.lean` gives their 32-bit words. -/

namespace Sys2Proof.Machine

/-- The eight general registers (`10_state.md` R20). -/
structure GRegs where
  eax : Dword
  ecx : Dword
  edx : Dword
  ebx : Dword
  esp : Dword
  ebp : Dword
  esi : Dword
  edi : Dword
deriving DecidableEq, Repr, Inhabited

/-- `x[i]` (`00_scope.md` R8): the general register `r`. No register is hardwired (`10_state.md` R20). -/
def GRegs.get (g : GRegs) : Reg → Dword
  | .eax => g.eax
  | .ecx => g.ecx
  | .edx => g.edx
  | .ebx => g.ebx
  | .esp => g.esp
  | .ebp => g.ebp
  | .esi => g.esi
  | .edi => g.edi

/-- `x[i] <- v` (`00_scope.md` R8). -/
def GRegs.set (g : GRegs) (r : Reg) (v : Dword) : GRegs :=
  match r with
  | .eax => { g with eax := v }
  | .ecx => { g with ecx := v }
  | .edx => { g with edx := v }
  | .ebx => { g with ebx := v }
  | .esp => { g with esp := v }
  | .ebp => { g with ebp := v }
  | .esi => { g with esi := v }
  | .edi => { g with edi := v }

/-- A segment register (`10_state.md` R32, R33): the visible selector and the hidden part. `big` is the
default-size bit of the descriptor it was loaded from (`30_encoding.md` R122), `usable` is false after the null
load of `43_v86.md` R262 (`70_reset_and_hazards.md` R358 (d)). -/
structure SegReg where
  selector : Selector
  base     : Dword
  limit    : Dword
  rights   : Word
  big      : Bool
  usable   : Bool
deriving DecidableEq, Repr, Inhabited

/-- The six segment registers (`10_state.md` R32). -/
structure SegFile where
  es : SegReg
  cs : SegReg
  ss : SegReg
  ds : SegReg
  fs : SegReg
  gs : SegReg
deriving DecidableEq, Repr, Inhabited

/-- The segment register named `r`. -/
def SegFile.get (f : SegFile) : SReg → SegReg
  | .es => f.es
  | .cs => f.cs
  | .ss => f.ss
  | .ds => f.ds
  | .fs => f.fs
  | .gs => f.gs

/-- Load the segment register named `r`. -/
def SegFile.set (f : SegFile) (r : SReg) (v : SegReg) : SegFile :=
  match r with
  | .es => { f with es := v }
  | .cs => { f with cs := v }
  | .ss => { f with ss := v }
  | .ds => { f with ds := v }
  | .fs => { f with fs := v }
  | .gs => { f with gs := v }

/-- A load as the 8086 would make it (`20_memory.md` R84): the base is the selector shifted left four bits. The
segment is 16-bit (`30_encoding.md` R122); limit and access rights are not touched (log 2). -/
def SegReg.load8086 (r : SegReg) (sel : Selector) : SegReg :=
  { r with selector := sel, base := sel.setWidth 32 <<< 4, big := false, usable := true }

/-- The null load of `43_v86.md` R262: selector 0, unusable for addressing until loaded again
(`70_reset_and_hazards.md` R358 (d); log 28). -/
def SegReg.loadNull (r : SegReg) : SegReg :=
  { r with selector := 0, base := 0, big := false, usable := false }

/-- IDTR or GDTR: base and limit (`10_state.md` R42, R43). -/
structure TableReg where
  base  : Dword
  limit : Word
deriving DecidableEq, Repr, Inhabited

/-- The task register (named in `10_state.md` R65): the selector of the current TSS, and the hidden part that finds it
in memory, its linear address and its format (R45; log 40). -/
structure TaskReg where
  selector : Selector
  base     : Dword
  is386    : Bool
deriving DecidableEq, Repr, Inhabited

/-- EFLAGS (`10_state.md` R26 to R31). Bit 1 and the bits that read 0 are in no field: `Eflags.toWord` puts them
in. -/
structure Eflags where
  cf   : Bool
  pf   : Bool
  af   : Bool
  zf   : Bool
  sf   : Bool
  tf   : Bool
  ifl  : Bool
  df   : Bool
  ovf  : Bool
  iopl : Level
  nt   : Bool
  rf   : Bool
  vm   : Bool
deriving DecidableEq, Repr, Inhabited

/-- CR0 (`10_state.md` R35 to R39). -/
structure Cr0 where
  pe       : Bool
  mp       : Bool
  em       : Bool
  ts       : Bool
  et       : Bool
  reserved : BitVec 26
  pg       : Bool
deriving DecidableEq, Repr, Inhabited

/-- TR6, the test command register (`10_state.md` R46). `dn`, `un`, `wn` are D#, U#, W#. -/
structure Tr6 where
  lin      : PageNo
  v        : Bool
  d        : Bool
  dn       : Bool
  u        : Bool
  un       : Bool
  w        : Bool
  wn       : Bool
  reserved : BitVec 4
  c        : Bool
deriving DecidableEq, Repr, Inhabited

/-- TR7, the test data register (`10_state.md` R49). -/
structure Tr7 where
  phys       : PageNo
  reservedHi : BitVec 7
  ht         : Bool
  rep        : BitVec 2
  reservedLo : BitVec 2
deriving DecidableEq, Repr, Inhabited

/-- A TLB entry (`10_state.md` R58). `written` says that the entry has been written since RESET, which the lookup
rule needs (`41_tlb_test.md` R188, R192). -/
structure TlbEntry where
  lin     : PageNo
  v       : Bool
  d       : Bool
  u       : Bool
  w       : Bool
  phys    : PageNo
  written : Bool
deriving DecidableEq, Repr, Inhabited

/-- The three operating modes (`10_state.md` R63). -/
inductive Mode
  | real | prot | v86
deriving DecidableEq, Repr

/-- The run state (`10_state.md` R64). -/
inductive RunState
  | running | shutdown
deriving DecidableEq, Repr

end Sys2Proof.Machine
end

