-- ==== Sys2Proof/Config.lean ====
section
/-! DEFINITION. What the part, the board or the moment of RESET fixes (`00_scope.md` R5), and the free values:
constants WITHOUT A BODY, so that nothing in Lean can evaluate one or prove a value of it (log 6, log 7). A free
value is applied to a counter that the machine advances at every use, so that no two uses are known to agree. -/

namespace Sys2Proof.Config

open Sys2Proof.Machine

/-! ## Parameters -/

/-- The places of a task's images in its TSS, as offsets from its base; FS and GS have images in an 80386 TSS only. The
spec gives no layout (`10_state.md` R45), so the two formats' layouts are data of the part (log 40). -/
structure TssLayout where
  eip   : Dword
  flags : Dword
  gprs  : GRegs
  es    : Dword
  cs    : Dword
  ss    : Dword
  ds    : Dword
  fs    : Dword
  gs    : Dword
deriving DecidableEq, Repr, Inhabited

/-- The 80386 family's layout of an 80386 TSS (log 40). -/
def TssLayout.tss386 : TssLayout :=
  { eip := 0x20, flags := 0x24,
    gprs := { eax := 0x28, ecx := 0x2C, edx := 0x30, ebx := 0x34, esp := 0x38, ebp := 0x3C, esi := 0x40, edi := 0x44 },
    es := 0x48, cs := 0x4C, ss := 0x50, ds := 0x54, fs := 0x58, gs := 0x5C }

/-- The family's layout of an 80286 TSS (log 40). -/
def TssLayout.tss286 : TssLayout :=
  { eip := 0x0E, flags := 0x10,
    gprs := { eax := 0x12, ecx := 0x14, edx := 0x16, ebx := 0x18, esp := 0x1A, ebp := 0x1C, esi := 0x1E, edi := 0x20 },
    es := 0x22, cs := 0x24, ss := 0x26, ds := 0x28, fs := 0, gs := 0 }

/-- The implementation parameters of `00_scope.md` R5 that the running machine consults. State holds them, no step
changes them, and a statement about every state holds for every value of them (log 9). The two layouts of a TSS stand
with them (log 40). -/
structure Params where
  /-- DR7.GD is cleared when the debug handler is entered (`42_debug.md` R229). -/
  gdClearedOnEntry  : Bool
  /-- Data breakpoints watch the processor's implicit accesses (`42_debug.md` R220). -/
  bpOnImplicit      : Bool
  /-- B0 to B3 are set for a matching breakpoint that is not enabled (`42_debug.md` R230). -/
  bSetWhenDisabled  : Bool
  /-- A nonmaskable interrupt brings the processor out of shutdown (`60_exceptions.md` R318). -/
  nmiLeavesShutdown : Bool
  /-- TLB_INDEX: the linear-address bits, highest first, that pick the entry inside a block (`10_state.md` R57). -/
  tlbBit2           : Nat
  tlbBit1           : Nat
  tlbBit0           : Nat
  tss386            : TssLayout
  tss286            : TssLayout
deriving DecidableEq, Repr

/-- The defaults `00_scope.md` R5 gives for these parameters, and the family's layouts of a TSS (log 40). -/
def Params.standard : Params :=
  { gdClearedOnEntry := true, bpOnImplicit := false, bSetWhenDisabled := false, nmiLeavesShutdown := false,
    tlbBit2 := 14, tlbBit1 := 13, tlbBit0 := 12, tss386 := .tss386, tss286 := .tss286 }

/-- SELFTEST of `00_scope.md` R5: the verdict of the power-on self test. A failed test leaves some nonzero value
in EAX, `code` if it is not 0 (`93_implementation_defined.md` U15). -/
inductive SelfTest
  | passed
  | failed (code : Dword)
  | notRun
deriving DecidableEq, Repr

/-- The parameters of a RESET (`70_reset_and_hazards.md` R340). -/
structure ResetParams where
  selfTest  : SelfTest
  revId     : Byte
  etAtReset : Bool
deriving DecidableEq, Repr

/-- REV_ID: the revision level in DL after RESET (`10_state.md` R65); open, so it has no body. -/
opaque revId : Byte

/-- ET_AT_RESET: CR0.ET after RESET (`10_state.md` R65); open, so it has no body. -/
opaque etAtReset : Bool

/-- The RESET parameters of `State.reset`: a part that passed its self test (log 3). -/
def launch : ResetParams := { selfTest := .passed, revId := revId, etAtReset := etAtReset }

/-! ## Free values -/

/-- `draw` (`00_scope.md` R8): the `n`-th value the spec does not state (log 6). -/
opaque freeWord : Nat → Dword

/-! ## Open interfaces (`92_eei_decisions.md` D23, D25)

What the source does not describe is what each of these answers; the types say what an answer can be, and the
machine adds the facts the source does fix. A `reads` list names table bytes the processor reads on its own, by linear
address and length, and a `stores` list single bytes it writes on its own: accessed bits of descriptors
(`20_memory.md` R96). A `fault` answer names the vector, the error code the exception carries if its vector has one,
and the address a page fault records (`60_exceptions.md` R291; log 7). -/

/-- The answer of `LoadDescriptor` for a segment register other than CS (`20_memory.md` R89): the hidden part of
the segment, or an exception. -/
inductive Descriptor
  | loaded (base limit : Dword) (rights : Word) (big usable : Bool) (reads : List (Dword × Nat))
      (stores : List (Dword × Byte))
  | fault (v : Vec) (code lin : Dword)
deriving DecidableEq, Repr, Inhabited

/-- What a task switch finds outside the images of the new TSS (`10_state.md` R45, `43_v86.md` R256, R260): the task
register for the new task, what its segment registers hold if they are loaded through descriptors (their selectors are
the TSS's images), its level, its LDT and page directory. -/
structure TaskSwitch where
  taskReg : TaskReg
  segs    : SegFile
  cpl     : Level
  ldtReg  : Selector
  cr3     : Option Dword
  reads   : List (Dword × Nat)
  stores  : List (Dword × Byte)
deriving DecidableEq, Repr, Inhabited

/-- The code a far transfer within the task leads to: the new CS, instruction pointer and level. -/
structure FarCode where
  cs     : SegReg
  eip    : Dword
  cpl    : Level
  reads  : List (Dword × Nat)
  stores : List (Dword × Byte)
deriving DecidableEq, Repr, Inhabited

/-- The answer of `FarTransfer` for a far JMP (`40_init_mode_switch.md` R154: "it may load CS from a code-segment
descriptor, pass a gate, or switch tasks"). A JMP within the task leaves the stack pointer alone (`10_state.md` R22). -/
inductive FarJump
  | code (c : FarCode)
  | task (t : TaskSwitch)
  | fault (v : Vec) (code lin : Dword)
deriving DecidableEq, Repr, Inhabited

/-- The answer of `FarTransfer` for a far CALL: `size` is the size of the items pushed; `inner` is the stack of a more
privileged procedure, on which the old one's SS and ESP and the parameters `args` are pushed first
(`40_init_mode_switch.md` R155; log 22). -/
inductive FarCall
  | code (c : FarCode) (size : OpSize) (inner : Option (SegReg × Dword)) (args : List Dword)
  | task (t : TaskSwitch)
  | fault (v : Vec) (code lin : Dword)
deriving DecidableEq, Repr, Inhabited

/-- What an IRET within protected mode does after its pops (`43_v86.md` R258): `outer` is the stack segment of a less
privileged level, whose ESP and SS are then popped as well (log 22). -/
inductive FarReturn
  | code (c : FarCode) (outer : Option SegReg)
  | fault (v : Vec) (code lin : Dword)
deriving DecidableEq, Repr, Inhabited

/-- The task an IRET with NT = 1 returns to (`43_v86.md` R258), or an exception. -/
inductive TaskReturn
  | task (t : TaskSwitch)
  | fault (v : Vec) (code lin : Dword)
deriving DecidableEq, Repr, Inhabited

/-- A trap or interrupt gate and the procedure it leads to (`43_v86.md` R262, R263, `60_exceptions.md` R302):
`cs` and `eip` are its target, `dpl` and `conforming` belong to the target code segment, `gate32` is the size of
the frame's items, `inner` says that the stack changes to `ss`:`esp`, `cpl` is the level the handler runs at. -/
structure ProcGate where
  cs         : SegReg
  eip        : Dword
  dpl        : Level
  conforming : Bool
  interrupt  : Bool
  gate32     : Bool
  cpl        : Level
  inner      : Bool
  ss         : SegReg
  esp        : Dword
  reads      : List (Dword × Nat)
  stores     : List (Dword × Byte)
deriving DecidableEq, Repr, Inhabited

/-- The answer of `GateTransfer`: a procedure, a task switch, general protection because a software interrupt's
gate has too low a privilege (`42_debug.md` R232), or another exception while the gate is read. -/
inductive GateTransfer
  | procedure (g : ProcGate)
  | task (t : TaskSwitch)
  | denied (err : Dword)
  | fault (v : Vec) (code lin : Dword)
deriving DecidableEq, Repr, Inhabited

/-- The kinds of memory access (`00_scope.md` R8, `Phys`). -/
inductive Access
  | fetch | read | write
deriving DecidableEq, Repr

/-- The answer of `PageWalk` on a TLB miss: the frame with its dirty, U/S and R/W bits, and the TLB block the
processor fills with the translation, if it does; or a page fault with its error code. `reads` are the linear addresses
at which the part sees the tables it reads (log 8). -/
inductive PageWalk
  | page (frame : PageNo) (d u w : Bool) (fill : Option (BitVec 2)) (reads : List (Dword × Nat))
  | fault (err : Dword)
deriving DecidableEq, Repr, Inhabited

/-- `LoadDescriptor(selector)`. -/
opaque loadDescriptor : Nat → Selector → Level → Descriptor

/-- `FarTransfer` of a far JMP in protected mode. -/
opaque farJump : Nat → Selector → Dword → Level → FarJump

/-- `FarTransfer` of a far CALL in protected mode. -/
opaque farCall : Nat → Selector → Dword → Level → FarCall

/-- `FarTransfer` of an IRET within protected mode, after the three pops. -/
opaque farReturn : Nat → Selector → Dword → Level → FarReturn

/-- The task an IRET with NT = 1 returns to, or the exception it meets. -/
opaque taskReturn : Nat → TaskReturn

/-- `GateTransfer(vector)` through the protected-mode IDT. -/
opaque gateTransfer : Nat → Vec → Level → GateTransfer

/-- `PageWalk(lin, access, CPL)`. -/
opaque pageWalk : Nat → Dword → Access → Level → PageWalk

/-- The check of an access against the D, U and W bits of a TLB hit (`41_tlb_test.md` R194): a page fault's error
code, or none where the access is allowed. -/
opaque tlbHitCheck : Nat → (d u w : Bool) → Access → Level → Option Dword

end Sys2Proof.Config
end

