-- ==== Sys2Proof/Machine/Memory.lean ====
section
/-! DEFINITION. Physical memory as plain data: a list of (address, byte) pairs in one canonical form
(`20_memory.md` R81), and the launch's map of ROM and RAM (`70_reset_and_hazards.md` R343). -/

namespace Sys2Proof.Machine

/-- Memory: the bytes that hold a value, by physical address, addresses strictly rising. An address that is not
listed holds no value (`70_reset_and_hazards.md` R343, `92_eei_decisions.md` D36; log 4). -/
abbrev Memory := List Host.Cell

/-- What an unlisted address reads as: no value (log 4). -/
def Memory.unlisted : Option Byte := none

/-- The byte at an address, if it holds a value. -/
def Memory.read : Memory → Nat → Option Byte
  | [], _ => Memory.unlisted
  | c :: m, x => if c.1 = x then some c.2 else Memory.read m x

/-- The memory after `v` is stored at `x`; the canonical form is kept. -/
def Memory.write : Memory → Nat → Byte → Memory
  | [], x, v => [(x, v)]
  | c :: m, x, v =>
    if x < c.1 then (x, v) :: c :: m
    else if x = c.1 then (x, v) :: m
    else c :: Memory.write m x v

/-- Every address of `m` is above `lo` and below 2^32, and they rise strictly. -/
def Memory.wfFrom : Nat → Memory → Bool
  | _, [] => true
  | lo, c :: m => decide (lo ≤ c.1) && decide (c.1 < 2 ^ 32) && Memory.wfFrom (c.1 + 1) m

/-- The canonical form: addresses strictly rising, inside the physical address space. -/
def Memory.wf (m : Memory) : Bool := Memory.wfFrom 0 m

/-- ROM ("writes have no effect") or RAM (`70_reset_and_hazards.md` R343). -/
inductive RegionKind
  | rom | ram
deriving DecidableEq, Repr

/-- A region of the launch's memory map: `size` bytes from `base`. -/
structure Region where
  base : Nat
  size : Nat
  kind : RegionKind
deriving DecidableEq, Repr

/-- Does a region hold a physical address? -/
def Region.has (r : Region) (p : Nat) : Bool := decide (r.base ≤ p) && decide (p < r.base + r.size)

/-- What the launch declared at a physical address: the first region that holds it. -/
def kindAt (map : List Region) (p : Nat) : Option RegionKind :=
  (map.find? fun r => r.has p).map (·.kind)

end Sys2Proof.Machine
end

