-- ==== Sys2Proof/Machine/State.lean ====
section
/-! DEFINITION. The state of the machine as plain data, the reasons it can stop, and the state after RESET
(`10_state.md` R20 to R68, `70_reset_and_hazards.md` R340). -/

namespace Sys2Proof.Machine

/-- What the environment presents at one step boundary (`60_exceptions.md` R293, `70_reset_and_hazards.md` R340). -/
structure Presented where
  nmi   : Bool
  intr  : Option Vec
  reset : Option Config.ResetParams
deriving DecidableEq, Repr

/-- Why the MODEL stops. Neither is an exception of the processor. -/
inductive Fault
  /-- Raised by `readPhys`: a read of a byte the launch did not supply and nothing has written
  (`93_implementation_defined.md` U11, `92_eei_decisions.md` D36). Safe. -/
  | noValue (addr : Dword)
  /-- Raised by `step`: the processor is in shutdown and the environment presents nothing more, so it has no next
  state (`60_exceptions.md` R318, R294 step 0). Safe. -/
  | shutdown
deriving DecidableEq, Repr

/-- Why the model has no meaning for what the processor is asked to do. All are safe: the model stops. -/
inductive Refusal
  /-- Raised by `exec` for an instruction whose meaning is not written yet. -/
  | notModelled (mnemonic : String)
  /-- Raised by the fetch: an instruction the source names and does not specify (`30_encoding.md` R140). -/
  | namedOnly (mnemonic : String)
  /-- Raised by the fetch: LOCK or a repeat (`30_encoding.md` R121). -/
  | lockOrRepeat
  /-- Raised by the fetch: a move to or from CR2, "outside this spec" (`30_encoding.md` R136). -/
  | controlRegister2
  /-- Raised by the fetch: bytes that match no row (`30_encoding.md` R138). -/
  | outsideSpec
  /-- Raised by the fetch: more than 15 bytes (`30_encoding.md` R120). -/
  | tooLong
  /-- Raised by the fetch, by data accesses, by pushes and by pops: a byte past offset FFFFH in real-address or V86
  mode (`20_memory.md` R87, `93_implementation_defined.md` U21). -/
  | pastSegmentEnd
  /-- Raised by every instruction but a JMP while `prefetchStale` (`93_implementation_defined.md` U10). -/
  | notJumpAfterPe
  /-- Raised by MOV CR0: clearing PE (`93_implementation_defined.md` U23). -/
  | clearingPe
  /-- Raised by MOV TR6: two valid entries with one linear address (`93_implementation_defined.md` U2). -/
  | duplicateTlbTags
  /-- Raised by MOV TR6: a TLB write with TR7.HT = 0 (`93_implementation_defined.md` U6). -/
  | tlbWriteWithoutHt
  /-- Raised by MOV DR7: an enabled breakpoint with LEN or RW = 10 (`93_implementation_defined.md` U8). -/
  | reservedBreakpoint
  /-- Raised by MOV DR7: an enabled instruction breakpoint with LEN other than 00
  (`93_implementation_defined.md` U16). -/
  | instructionBreakpointLength
  /-- Raised by IRET with VM = 1 (`43_v86.md` R258). -/
  | iretInV86
  /-- Raised by stores: an address the launch did not declare (`70_reset_and_hazards.md` R343). -/
  | writeUndeclared (addr : Dword)
  /-- Raised by data accesses in protected mode through a segment register that holds the null load
  (`70_reset_and_hazards.md` R358 (d)). -/
  | unusableSegment (r : SReg)
deriving DecidableEq, Repr

/-- The state: everything the spec gives the machine, and the model's own `inputs`, `map`, `params`, `next` and
`free` (INVENTORY.md, State). -/
structure State where
  /-- General registers (`10_state.md` R20). -/
  gpr  : GRegs
  /-- EIP (`10_state.md` R24). -/
  eip  : Dword
  /-- EFLAGS (`10_state.md` R26). -/
  flags : Eflags
  /-- Segment registers with their hidden parts (`10_state.md` R32, R33). -/
  seg  : SegFile
  /-- The A31-20 latch: up from RESET until CS is first loaded (`10_state.md` R61). -/
  latch : Bool
  /-- CPL (`10_state.md` R62). -/
  cpl  : Level
  /-- CR0 (`10_state.md` R35). -/
  cr0  : Cr0
  /-- CR2 (named in `10_state.md` R65, R67). -/
  cr2  : Dword
  /-- CR3, the PDBR (`10_state.md` R41). -/
  cr3  : Dword
  /-- GDTR (`10_state.md` R43). -/
  gdtr : TableReg
  /-- IDTR (`10_state.md` R42). -/
  idtr : TableReg
  /-- The LDT selection (named in `10_state.md` R65). -/
  ldtReg : Selector
  /-- The task register and its hidden part (named in `10_state.md` R65; log 40). -/
  taskReg : TaskReg
  /-- TR6 (`10_state.md` R46). -/
  tr6  : Tr6
  /-- TR7 (`10_state.md` R49). -/
  tr7  : Tr7
  /-- DR0 to DR3 (`10_state.md` R52). -/
  dr0  : Dword
  dr1  : Dword
  dr2  : Dword
  dr3  : Dword
  /-- DR6 (`10_state.md` R56). -/
  dr6  : Dword
  /-- DR7 (`10_state.md` R53). -/
  dr7  : Dword
  /-- The TLB: entry `8 * block + index` (`10_state.md` R57). -/
  tlb  : Vector TlbEntry 32
  /-- The last TLB command was a lookup that missed (`41_tlb_test.md` R183). -/
  tlbMissed : Bool
  /-- The prefetch queue may hold stale instructions (`10_state.md` R60). -/
  prefetchStale : Bool
  /-- The run state (`10_state.md` R64). -/
  run  : RunState
  /-- T, the debug trap conditions gathered so far (`42_debug.md` R222). -/
  traps : Dword
  /-- B bits of matched breakpoints that are not enabled (`42_debug.md` R230; log 27). -/
  quiet : Dword
  /-- SS was loaded by the last instruction (`40_init_mode_switch.md` R157). -/
  holdOff : Bool
  /-- A pending nonmaskable interrupt (`10_state.md` R68). -/
  nmi  : Bool
  /-- A pending maskable interrupt and its vector (`10_state.md` R68). -/
  intr : Option Vec
  /-- What the environment will present at the coming step boundaries (log 10). -/
  inputs : List Presented
  /-- Physical memory. -/
  mem  : Memory
  /-- The launch's map of ROM and RAM. -/
  map  : List Region
  /-- The implementation parameters (`00_scope.md` R5). -/
  params : Config.Params
  /-- `next` of `40_init_mode_switch.md` R150 (c), set at the fetch (log 11). -/
  next : Dword
  /-- How many free values have been drawn (log 6). -/
  free : Nat
deriving DecidableEq, Repr

/-- A segment register after RESET: selector 0000H, the given base (`10_state.md` R34, R65). That SS, DS, ES, FS and GS
are 16-bit and usable then, which shows once PE is set before they are loaded, is the model's choice; for CS
`30_encoding.md` R122 says it (log 2). -/
def resetSegment (base : Dword) : SegReg :=
  { selector := 0, base := base, limit := 0xFFFF, rights := 0x0093, big := false, usable := true }

/-- A TLB entry after RESET: V = 0, never written (`10_state.md` R59). -/
def resetEntry : TlbEntry :=
  { lin := 0, v := false, d := false, u := false, w := false, phys := 0, written := false }

/-- EAX after RESET: 0 if the self test passed, nonzero if the unit is faulty (`10_state.md` R65); where it was not
run, log 3. -/
def resetEax : Config.SelfTest → Dword
  | .passed => 0
  | .failed code => if code = 0 then 1 else code
  | .notRun => 0

/-- EDX after RESET: DH = 3, DL = REV_ID (`10_state.md` R65); the high word is log 1. -/
def resetEdx (revId : Byte) : Dword := (0 : Word) ++ (3 : Byte) ++ revId

/-- RESET (`70_reset_and_hazards.md` R340): every register, the TLB and every hidden item at the value of
`10_state.md` R65, or, where that table gives none, at the value of log 1; memory, what the launch declared of the
board and the part, and what the environment will present later are given. -/
def resetFrom (p : Config.ResetParams) (mem : Memory) (map : List Region) (params : Config.Params)
    (inputs : List Presented) (free : Nat) : State :=
  { gpr := { eax := resetEax p.selfTest, ecx := 0, edx := resetEdx p.revId, ebx := 0, esp := 0, ebp := 0, esi := 0,
             edi := 0 }
    eip := 0x0000FFF0
    flags := { cf := false, pf := false, af := false, zf := false, sf := false, tf := false, ifl := false,
               df := false, ovf := false, iopl := 0, nt := false, rf := false, vm := false }
    seg := { es := resetSegment 0, cs := resetSegment 0xFFFF0000, ss := resetSegment 0, ds := resetSegment 0,
             fs := resetSegment 0, gs := resetSegment 0 }
    latch := true
    cpl := 0
    cr0 := { pe := false, mp := false, em := false, ts := false, et := p.etAtReset, reserved := 0, pg := false }
    cr2 := 0
    cr3 := 0
    gdtr := { base := 0, limit := 0 }
    idtr := { base := 0, limit := 0x03FF }
    ldtReg := 0
    taskReg := { selector := 0, base := 0, is386 := true }
    tr6 := { lin := 0, v := false, d := false, dn := false, u := false, un := false, w := false, wn := false,
             reserved := 0, c := false }
    tr7 := { phys := 0, reservedHi := 0, ht := false, rep := 0, reservedLo := 0 }
    dr0 := 0
    dr1 := 0
    dr2 := 0
    dr3 := 0
    dr6 := 0
    dr7 := 0
    tlb := Vector.replicate 32 resetEntry
    tlbMissed := false
    prefetchStale := false
    run := .running
    traps := 0
    quiet := 0
    holdOff := false
    nmi := false
    intr := none
    inputs := inputs
    mem := mem
    map := map
    params := params
    next := 0
    free := free }

/-- RESET as an event in a state: "memory is not changed" (`70_reset_and_hazards.md` R340). -/
def State.resetEvent (p : Config.ResetParams) (s : State) : State :=
  resetFrom p s.mem s.map s.params s.inputs s.free

/-- The whole physical space as RAM: the map of `State.reset` (log 4). -/
def allRam : List Region := [{ base := 0, size := 2 ^ 32, kind := .ram }]

/-- The machine right after RESET: nothing in memory, the standard parameters, nothing presented (log 1 to 4, 9). -/
def State.reset : State := resetFrom Config.launch [] allRam Config.Params.standard [] 0

end Sys2Proof.Machine
end

