-- ==== Sys2Proof/Machine/Flags.lean ====
section
/-! DEFINITION. The 32-bit words of EFLAGS, CR0, TR6 and TR7, every change an instruction or a delivery makes to
EFLAGS, and the operating mode (`10_state.md` R26 to R31, R35 to R39, R46, R49, R62, R63). -/

namespace Sys2Proof.Machine

/-- One bit as a bit vector. -/
def bit (b : Bool) : BitVec 1 := BitVec.ofBool b

/-! ## EFLAGS -/

/-- EFLAGS as a doubleword: bit 1 reads 1; bits 3, 5, 15 and 31:18 read 0 (`10_state.md` R26). -/
def Eflags.toWord (f : Eflags) : Dword :=
  0#14 ++ bit f.vm ++ bit f.rf ++ 0#1 ++ bit f.nt ++ f.iopl ++ bit f.ovf ++ bit f.df ++ bit f.ifl ++ bit f.tf ++
    bit f.sf ++ bit f.zf ++ 0#1 ++ bit f.af ++ 0#1 ++ bit f.pf ++ 1#1 ++ bit f.cf

/-- EFLAGS from an image (`10_state.md` R26). -/
def Eflags.ofWord (w : Dword) : Eflags :=
  { cf := w.getLsbD 0, pf := w.getLsbD 2, af := w.getLsbD 4, zf := w.getLsbD 6, sf := w.getLsbD 7,
    tf := w.getLsbD 8, ifl := w.getLsbD 9, df := w.getLsbD 10, ovf := w.getLsbD 11, iopl := w.extractLsb' 12 2,
    nt := w.getLsbD 14, rf := w.getLsbD 16, vm := w.getLsbD 17 }

/-- `EFLAGS[15:0] <- w[15:0]`: RF and VM lie in the high-order word and stay (`43_v86.md` R258). -/
def Eflags.loadLow (f : Eflags) (w : Dword) : Eflags :=
  { Eflags.ofWord w with rf := f.rf, vm := f.vm }

/-- The flags an IRET in real-address mode leaves: the low word, and RF from a 32-bit image (`43_v86.md` R258). -/
def Eflags.iretReal (f : Eflags) (sz : OpSize) (w : Dword) : Eflags :=
  match sz with
  | .w16 => f.loadLow w
  | .w32 => { f.loadLow w with rf := w.getLsbD 16 }

/-- The flags an IRET within protected mode leaves: "the processor does not change VM"; a 16-bit image has no high
word (`43_v86.md` R258). -/
def Eflags.iretProt (f : Eflags) (sz : OpSize) (w : Dword) : Eflags :=
  match sz with
  | .w16 => f.loadLow w
  | .w32 => { Eflags.ofWord w with vm := f.vm }

/-- The six arithmetic status flags replaced by the bits `w` has at their positions: after a move to or from a
control, debug or test register they are undefined (`40_init_mode_switch.md` R150 (f)), so `w` is a free value. -/
def Eflags.setStatus (f : Eflags) (w : Dword) : Eflags :=
  { f with cf := w.getLsbD 0, pf := w.getLsbD 2, af := w.getLsbD 4, zf := w.getLsbD 6, sf := w.getLsbD 7,
           ovf := w.getLsbD 11 }

/-- The image a delivery saves: a fault sets RF in it (`42_debug.md` R224). -/
def Eflags.image (f : Eflags) (isFault : Bool) : Eflags := { f with rf := f.rf || isFault }

/-- EFLAGS after a delivery: TF, RF and VM cleared, IF cleared in real-address mode and through an interrupt gate
(`60_exceptions.md` R303). -/
def Eflags.entered (f : Eflags) (clearIf : Bool) : Eflags :=
  { f with tf := false, rf := false, vm := false, ifl := f.ifl && !clearIf }

/-! ## CR0, TR6, TR7 -/

/-- CR0 as a doubleword (`10_state.md` R36, R37, R39). -/
def Cr0.toWord (c : Cr0) : Dword :=
  bit c.pg ++ c.reserved ++ bit c.et ++ bit c.ts ++ bit c.em ++ bit c.mp ++ bit c.pe

/-- CR0 from a doubleword (`10_state.md` R36, R37, R39). -/
def Cr0.ofWord (w : Dword) : Cr0 :=
  { pe := w.getLsbD 0, mp := w.getLsbD 1, em := w.getLsbD 2, ts := w.getLsbD 3, et := w.getLsbD 4,
    reserved := w.extractLsb' 5 26, pg := w.getLsbD 31 }

/-- TR6 as a doubleword (`10_state.md` R46). -/
def Tr6.toWord (t : Tr6) : Dword :=
  t.lin ++ bit t.v ++ bit t.d ++ bit t.dn ++ bit t.u ++ bit t.un ++ bit t.w ++ bit t.wn ++ t.reserved ++ bit t.c

/-- TR6 from a doubleword (`10_state.md` R46). -/
def Tr6.ofWord (w : Dword) : Tr6 :=
  { lin := w.extractLsb' 12 20, v := w.getLsbD 11, d := w.getLsbD 10, dn := w.getLsbD 9, u := w.getLsbD 8,
    un := w.getLsbD 7, w := w.getLsbD 6, wn := w.getLsbD 5, reserved := w.extractLsb' 1 4, c := w.getLsbD 0 }

/-- TR7 as a doubleword (`10_state.md` R49). -/
def Tr7.toWord (t : Tr7) : Dword :=
  t.phys ++ t.reservedHi ++ bit t.ht ++ t.rep ++ t.reservedLo

/-- TR7 from a doubleword (`10_state.md` R49). -/
def Tr7.ofWord (w : Dword) : Tr7 :=
  { phys := w.extractLsb' 12 20, reservedHi := w.extractLsb' 5 7, ht := w.getLsbD 4, rep := w.extractLsb' 2 2,
    reservedLo := w.extractLsb' 0 2 }

/-- `v` with the bits of `mask` taken from the free value `w`: a reserved bit reads as `draw`
(`92_eei_decisions.md` D29). -/
def drawBits (v w mask : Dword) : Dword := (v &&& ~~~mask) ||| (w &&& mask)

/-! ## Mode and privilege -/

/-- The operating mode (`10_state.md` R63). -/
def State.mode (s : State) : Mode :=
  if s.cr0.pe then (if s.flags.vm then .v86 else .prot) else .real

/-- CPL as the privilege checks see it: 0 in real-address mode, 3 in V86 mode (`10_state.md` R62). -/
def State.level (s : State) : Level :=
  match s.mode with
  | .real => 0
  | .v86 => 3
  | .prot => s.cpl

/-- Addresses are formed as the 8086 would: real-address mode and V86 mode (`20_memory.md` R84). -/
def State.like8086 (s : State) : Bool :=
  match s.mode with
  | .real | .v86 => true
  | .prot => false

/-- The default operand and address size (`30_encoding.md` R122). -/
def State.defaultSize (s : State) : OpSize :=
  if !s.like8086 && s.seg.cs.big then .w32 else .w16

/-- The stack pointer is SP: in real-address and V86 mode, and in protected mode on a 16-bit stack segment
(`10_state.md` R23). -/
def State.stack16 (s : State) : Bool := s.like8086 || !s.seg.ss.big

/-! ## Sub-registers -/

/-- AX, CX, DX, BX, SP, BP, SI, DI: the low word (`10_state.md` R21). -/
def low16 (v : Dword) : Word := v.extractLsb' 0 16

/-- Write the low word; the other bits stay (`10_state.md` R21). -/
def setLow16 (v : Dword) (w : Word) : Dword := v.extractLsb' 16 16 ++ w

/-- AL, CL, DL, BL (`10_state.md` R21). -/
def low8 (v : Dword) : Byte := v.extractLsb' 0 8

/-- AH, CH, DH, BH (`10_state.md` R21). -/
def high8 (v : Dword) : Byte := v.extractLsb' 8 8

/-- Write AL, CL, DL or BL; the other bits stay (`10_state.md` R21). -/
def setLow8 (v : Dword) (b : Byte) : Dword := v.extractLsb' 8 24 ++ b

/-- Write AH, CH, DH or BH; the other bits stay (`10_state.md` R21). -/
def setHigh8 (v : Dword) (b : Byte) : Dword := v.extractLsb' 16 16 ++ b ++ v.extractLsb' 0 8

/-- `zext_32` of the low word. -/
def zext16 (v : Dword) : Dword := (low16 v).setWidth 32

/-- The instruction pointer `len` bytes on: 16 bits in real-address and V86 mode (`10_state.md` R25). In protected mode
R25 gives no modulus, and the sum is taken modulo 2^32 (log 41). -/
def State.advance (s : State) (len : Nat) : Dword :=
  let e := s.eip + BitVec.ofNat 32 len
  if s.like8086 then zext16 e else e

end Sys2Proof.Machine
end

