-- ==== Sys2Proof/Machine/Breakpoints.lean ====
section
/-! DEFINITION. The fields of DR6 and DR7 and the matching of breakpoints (`10_state.md` R52 to R56,
`42_debug.md` R215 to R220). -/

namespace Sys2Proof.Machine

/-- DR6.BD, BS and BT (`10_state.md` R56). -/
def bdBit : Dword := 0x2000
def bsBit : Dword := 0x4000
def btBit : Dword := 0x8000

/-- DR6.B[n] (`10_state.md` R56). -/
def bBit (n : Fin 4) : Dword := 1#32 <<< n.val

/-- The reserved bits of DR6 and DR7, read as `draw` (`42_debug.md` R212). -/
def dr6Reserved : Dword := 0xFFFF1FF0
def dr7Reserved : Dword := 0x0000DC00

/-- DR7.GD and the local enable bits (`10_state.md` R53). -/
def gdBit : Dword := 0x2000
def localBits : Dword := 0x55

/-- DR[n] for n = 0 to 3. -/
def State.dr (s : State) (n : Fin 4) : Dword :=
  match n with
  | 0 => s.dr0
  | 1 => s.dr1
  | 2 => s.dr2
  | 3 => s.dr3

/-- Write DR[n] for n = 0 to 3. -/
def State.setDr (s : State) (n : Fin 4) (v : Dword) : State :=
  match n with
  | 0 => { s with dr0 := v }
  | 1 => { s with dr1 := v }
  | 2 => { s with dr2 := v }
  | 3 => { s with dr3 := v }

/-- Breakpoint `n` is enabled: L[n] or G[n] (`10_state.md` R53). -/
def bpEnabled (dr7 : Dword) (n : Fin 4) : Bool := dr7.getLsbD (2 * n.val) || dr7.getLsbD (2 * n.val + 1)

/-- DR7.RW[n] (`10_state.md` R55). -/
def bpRw (dr7 : Dword) (n : Fin 4) : BitVec 2 := dr7.extractLsb' (16 + 4 * n.val) 2

/-- DR7.LEN[n] (`10_state.md` R54). -/
def bpLen (dr7 : Dword) (n : Fin 4) : BitVec 2 := dr7.extractLsb' (18 + 4 * n.val) 2

/-- DR7.GD (`10_state.md` R53). -/
def gd (dr7 : Dword) : Bool := dr7.getLsbD 13

/-- A DR7 value that enables a breakpoint with the reserved LEN or RW 10 (`10_state.md` R54, R55). -/
def bpReserved (dr7 : Dword) : Bool :=
  (List.finRange 4).any fun n => bpEnabled dr7 n && (bpLen dr7 n == 2 || bpRw dr7 n == 2)

/-- A DR7 value that enables an instruction breakpoint with LEN other than 00 (`42_debug.md` R219). -/
def bpBadLength (dr7 : Dword) : Bool :=
  (List.finRange 4).any fun n => bpEnabled dr7 n && bpRw dr7 n == 0 && bpLen dr7 n != 0

/-- The address bits a range ignores: none, bit 0, bits 1:0 for LEN 00, 01, 11 (`42_debug.md` R216, R218). -/
def lenMask (len : BitVec 2) : Dword := if len = 0 then 0 else if len = 1 then 1 else 3

/-- The byte at linear address `a` lies in the range of breakpoint `n` (`42_debug.md` R216, R218). -/
def inRange (s : State) (n : Fin 4) (a : Dword) : Bool :=
  let m := ~~~lenMask (bpLen s.dr7 n)
  a &&& m == s.dr n &&& m

/-- RW[n] watches accesses of kind `k`: 01 writes, 11 reads and writes; a fetch is never a data access
(`42_debug.md` R220). -/
def rwWatches (rw : BitVec 2) : Config.Access → Bool
  | .fetch => false
  | .read => rw == 3
  | .write => rw == 1 || rw == 3

/-- The condition of data breakpoint `n` is met by an access of `width` bytes at `lin`: its kind fits and one of its
bytes is in the range (`42_debug.md` R218, R220). The reserved LEN 10 and RW 10, which only a breakpoint that is not
enabled can hold, watch nothing (log 27). -/
def dataMatch (s : State) (lin : Dword) (width : Nat) (k : Config.Access) (n : Fin 4) : Bool :=
  rwWatches (bpRw s.dr7 n) k && bpLen s.dr7 n != 2 &&
    (List.range width).any fun i => inRange s n (lin + BitVec.ofNat 32 i)

/-- The condition of instruction breakpoint `n` is met by an instruction at `lin` (`42_debug.md` R219). With a LEN other
than 00, which R219 calls undefined and only a breakpoint that is not enabled can hold, it never is: the model's choice
(log 27). -/
def fetchMatch (s : State) (lin : Dword) (n : Fin 4) : Bool :=
  bpRw s.dr7 n == 0 && bpLen s.dr7 n == 0 && s.dr n == lin

/-- The B bits of the breakpoints that satisfy `p`. -/
def bBits (p : Fin 4 → Bool) : Dword :=
  (if p 0 then bBit 0 else 0) ||| (if p 1 then bBit 1 else 0) ||| (if p 2 then bBit 2 else 0) |||
    (if p 3 then bBit 3 else 0)

/-- The B bits of the enabled data breakpoints an access matches (`42_debug.md` R220, R222). -/
def dataHits (s : State) (lin : Dword) (width : Nat) (k : Config.Access) : Dword :=
  bBits fun n => bpEnabled s.dr7 n && dataMatch s lin width k n

/-- The B bits of the disabled ones, where the part reports them (`42_debug.md` R230). -/
def dataQuiet (s : State) (lin : Dword) (width : Nat) (k : Config.Access) : Dword :=
  if s.params.bSetWhenDisabled then bBits fun n => !bpEnabled s.dr7 n && dataMatch s lin width k n else 0

/-- The B bits of the enabled instruction breakpoints at `lin` (`42_debug.md` R219, R223). -/
def fetchHits (s : State) (lin : Dword) : Dword :=
  bBits fun n => bpEnabled s.dr7 n && fetchMatch s lin n

/-- The B bits of the disabled ones, where the part reports them (`42_debug.md` R230). -/
def fetchQuiet (s : State) (lin : Dword) : Dword :=
  if s.params.bSetWhenDisabled then bBits fun n => !bpEnabled s.dr7 n && fetchMatch s lin n else 0

/-- A data access adds the breakpoints it matches to T (`42_debug.md` R222). -/
def State.noteAccess (s : State) (lin : Dword) (width : Nat) (k : Config.Access) : State :=
  { s with traps := s.traps ||| dataHits s lin width k, quiet := s.quiet ||| dataQuiet s lin width k }

/-- An access no instruction operand asks for is watched only under BP_ON_IMPLICIT (`42_debug.md` R220). -/
def State.noteImplicit (s : State) (lin : Dword) (width : Nat) (k : Config.Access) : State :=
  if s.params.bpOnImplicit then s.noteAccess lin width k else s

/-- The processor reads table bytes of its own accord: descriptors, gates, a TSS, page tables
(`00_scope.md` R5, `42_debug.md` R220). -/
def State.noteReads (s : State) : List (Dword × Nat) → State
  | [] => s
  | (a, n) :: t => (s.noteImplicit a n .read).noteReads t

/-- On entry to the debug handler GD is cleared, where the part does so (`42_debug.md` R229). -/
def State.clearGd (s : State) : State :=
  if s.params.gdClearedOnEntry then { s with dr7 := s.dr7 &&& ~~~gdBit } else s

/-- At every task switch L0 to L3 are cleared (`42_debug.md` R215). -/
def State.clearLocal (s : State) : State := { s with dr7 := s.dr7 &&& ~~~localBits }

end Sys2Proof.Machine
end

