-- ==== Sys2Proof/Machine/Access.lean ====
section
/-! DEFINITION. How an instruction runs inside (a computation over State that can end early), and every access to
memory: address formation, translation, bytes, data operands and the stack (`20_memory.md` R80 to R105,
`10_state.md` R23). -/

namespace Sys2Proof.Machine

/-- An exception of the processor on its way to delivery (`60_exceptions.md` R290, R291): vector, error code if it
has one, the address a page fault records, and the DR6 bits a debug fault sets. -/
structure Exn where
  vector : Vec
  err    : Option Dword
  cr2    : Option Dword
  dr6    : Dword
deriving DecidableEq, Repr

/-- How a computation ends early: an exception of the processor, or a stop of the model. -/
inductive Stop
  | exn (e : Exn)
  | fault (f : Fault)
  | refused (r : Refusal)
deriving DecidableEq, Repr

/-- A computation over the state that ends with a value or early; the state it reached is kept both ways. -/
abbrev M := EStateM Stop State

/-- Read something of the state. -/
def asks {α : Type} (f : State → α) : M α := fun s => .ok (f s) s

/-- Change the state. -/
def update (f : State → State) : M Unit := fun s => .ok () (f s)

/-- Raise an exception of the processor. -/
def raise {α : Type} (e : Exn) : M α := fun s => .error (.exn e) s

/-- Stop with a fault of the model. -/
def stop {α : Type} (f : Fault) : M α := fun s => .error (.fault f) s

/-- Refuse. -/
def refuse {α : Type} (r : Refusal) : M α := fun s => .error (.refused r) s

/-- The index of the next free value; no index is used twice (log 6). -/
def drawIndex : M Nat := fun s => .ok s.free { s with free := s.free + 1 }

/-- `draw` (`00_scope.md` R8). -/
def draw : M Dword := fun s => .ok (Config.freeWord s.free) { s with free := s.free + 1 }

/-- A plain exception. -/
def Exn.plain (v : Vec) (err : Option Dword) : Exn := { vector := v, err := err, cr2 := none, dr6 := 0 }

/-- The vectors with an error code: double fault, invalid TSS, segment not present, stack exception, general
protection, page fault (`60_exceptions.md` R290, R291). -/
def hasErrorCode (v : Vec) : Bool := v == 8 || v == 10 || v == 11 || v == 12 || v == 13 || v == 14

/-- An exception an open interface answers (`60_exceptions.md` R291): the error code is `code` where the vector has
one, and 0 for the double fault; a page fault records `lin` (log 7, log 21). -/
def Exn.ofVector (v : Vec) (code lin : Dword) : Exn :=
  { vector := v, err := if hasErrorCode v then some (if v = 8 then 0 else code) else none,
    cr2 := if v = 14 then some lin else none, dr6 := 0 }

/-- `GeneralProtection(code)` (`60_exceptions.md` R308). -/
def generalProtection (code : Dword) : Exn := Exn.plain 13 (some code)

/-- The exception a page-level refusal raises: vector 14 (`20_memory.md` R99), with the linear address recorded
(log 21). -/
def pageFault (lin err : Dword) : Exn := { vector := 14, err := some err, cr2 := some lin, dr6 := 0 }

/-- `require CPL = 0` (`41_tlb_test.md` R181, `40_init_mode_switch.md` R150 (g)). -/
def requireLevel0 : M Unit := fun s =>
  if s.level = 0 then .ok () s else .error (.exn (generalProtection 0)) s

/-! ## The TLB -/

/-- TLB_INDEX: the three bits of the linear address that pick the entry inside a block (`10_state.md` R57). -/
def tlbIndex (p : Config.Params) (page : PageNo) : BitVec 3 :=
  let lin : Dword := page ++ 0#12
  bit (lin.getLsbD p.tlbBit2) ++ bit (lin.getLsbD p.tlbBit1) ++ bit (lin.getLsbD p.tlbBit0)

/-- The position of entry `idx` of block `blk` (`10_state.md` R57). -/
def tlbSlot (blk : BitVec 2) (idx : BitVec 3) : Fin 32 :=
  ⟨8 * blk.toNat + idx.toNat, by have := blk.isLt; have := idx.isLt; omega⟩

/-- The valid entries that hold a linear page (`20_memory.md` R90). -/
def State.tlbHits (s : State) (page : PageNo) : List TlbEntry :=
  s.tlb.toList.filter fun e => e.v && e.lin == page

/-- Put an entry at a position. -/
def State.setTlb (s : State) (i : Fin 32) (e : TlbEntry) : State :=
  { s with tlb := s.tlb.set i.val e }

/-- "All valid bits can be cleared by writing to CR3" (`10_state.md` R41): CR3 and every entry's V. -/
def State.writeCr3 (s : State) (v : Dword) : State :=
  { s with cr3 := v, tlb := s.tlb.map fun e => { e with v := false } }

/-- The processor fills a translation into a block (`10_state.md` R59; log 8). -/
def State.fillTlb (s : State) (blk : Option (BitVec 2)) (page frame : PageNo) (d u w : Bool) : State :=
  match blk with
  | none => s
  | some b =>
    s.setTlb (tlbSlot b (tlbIndex s.params page))
      { lin := page, v := true, d := d, u := u, w := w, phys := frame, written := true }

/-! ## Translation -/

/-- The page of a linear address and the offset in it (`10_state.md` R58). -/
def pageOf (lin : Dword) : PageNo := lin.extractLsb' 12 20
def inPage (lin : Dword) : BitVec 12 := lin.extractLsb' 0 12

/-- A TLB hit: a supervisor entry refuses CPL 3 (`20_memory.md` R99); the rest of the check is open
(`41_tlb_test.md` R194). -/
def translateHit (lin : Dword) (k : Config.Access) (cpl : Level) (e : TlbEntry) : M Dword := do
  if cpl = 3 && !e.u then do
    let code ← draw
    raise (pageFault lin code)
  else do
    let n ← drawIndex
    match Config.tlbHitCheck n e.d e.u e.w k cpl with
    | some err => raise (pageFault lin err)
    | none => pure (e.phys ++ inPage lin)

/-- A TLB miss: the open interface PageWalk (`20_memory.md` R90, `92_eei_decisions.md` D25), whose supervisor pages
refuse CPL 3 (R99). -/
def translateMiss (lin : Dword) (k : Config.Access) (cpl : Level) : M Dword := do
  let n ← drawIndex
  match Config.pageWalk n lin k cpl with
  | .fault err => raise (pageFault lin err)
  | .page frame d u w fill reads => do
    update fun s => s.noteReads reads
    if cpl = 3 && !u then do
      let code ← draw
      raise (pageFault lin code)
    else do
      update fun s => s.fillTlb fill (pageOf lin) frame d u w
      pure (frame ++ inPage lin)

/-- `Phys(lin, kind)` (`20_memory.md` R90): the linear address itself without paging; a unique valid TLB entry
translates; otherwise the page tables do (log 33). -/
def translate (lin : Dword) (k : Config.Access) (cpl : Level) : M Dword := do
  let pg ← asks (·.cr0.pg)
  if pg then
    let hits ← asks (·.tlbHits (pageOf lin))
    match hits with
    | [e] => translateHit lin k cpl e
    | [] | _ :: _ :: _ => translateMiss lin k cpl
  else pure lin

/-! ## Bytes -/

/-- Read the byte at a physical address; one that holds no value is a model fault (`93_implementation_defined.md`
U11). -/
def readPhys (p : Dword) : M Byte := fun s =>
  match s.mem.read p.toNat with
  | some b => .ok b s
  | none => .error (.fault (.noValue p)) s

/-- Write the byte at a physical address: RAM stores it, on ROM "writes have no effect", and an address the launch
did not declare is refused (`70_reset_and_hazards.md` R343; log 5). -/
def writePhys (p : Dword) (b : Byte) : M Unit := fun s =>
  match kindAt s.map p.toNat with
  | some .ram => .ok () { s with mem := s.mem.write p.toNat b }
  | some .rom => .ok () s
  | none => .error (.refused (.writeUndeclared p)) s

/-- Read `n` bytes at a linear address, lowest address first, as a little-endian number (`20_memory.md` R92, R94). The
byte after FFFFFFFFH is the one at 0, which the spec leaves open and the model chooses (log 41). -/
def readLin (k : Config.Access) (cpl : Level) : Nat → Dword → M Dword
  | 0, _ => pure 0
  | n + 1, lin => do
    let p ← translate lin k cpl
    let b ← readPhys p
    let hi ← readLin k cpl n (lin + 1)
    pure ((hi <<< 8) ||| b.setWidth 32)

/-- Write the low `n` bytes of `v` at a linear address, lowest address first (`20_memory.md` R92, R94); after FFFFFFFFH
as `readLin` (log 41). -/
def writeLin (cpl : Level) : Nat → Dword → Dword → M Unit
  | 0, _, _ => pure ()
  | n + 1, lin, v => do
    let p ← translate lin .write cpl
    writePhys p (v.setWidth 8)
    writeLin cpl n (lin + 1) (v >>> 8)

/-! ## Data operands -/

/-- `Lin(seg, off)` (`20_memory.md` R86). -/
def State.lin (s : State) (r : SReg) (off : Dword) : Dword := (s.seg.get r).base + off

/-- The linear address of a data access: as `Lin`, but the high base that the A31-20 latch gives CS "affects code
fetches only" (`10_state.md` R61, `92_eei_decisions.md` D5). -/
def State.dataLin (s : State) (r : SReg) (off : Dword) : Dword :=
  if r = .cs && s.latch then (s.seg.cs.selector.setWidth 32 <<< 4) + off else s.lin r off

/-- `n` bytes from `off` pass offset FFFFH (`92_eei_decisions.md` D2). -/
def pastEnd (off : Dword) (n : Nat) : Bool := decide (0x10000 < off.toNat + n)

/-- The checks of a data access: the null load of `43_v86.md` R262 is unusable in protected mode, and no byte passes
offset FFFFH in real-address or V86 mode (`93_implementation_defined.md` U21). -/
def checkAccess (r : SReg) (off : Dword) (n : Nat) : M Unit := fun s =>
  if s.like8086 then
    if pastEnd off n then .error (.refused .pastSegmentEnd) s else .ok () s
  else if (s.seg.get r).usable then .ok () s
  else .error (.refused (.unusableSegment r)) s

/-- Read a data operand of `n` bytes; data breakpoints watch it (`42_debug.md` R220). -/
def readData (r : SReg) (off : Dword) (n : Nat) : M Dword := do
  checkAccess r off n
  let lin ← asks (·.dataLin r off)
  update fun s => s.noteAccess lin n .read
  let cpl ← asks State.level
  readLin .read cpl n lin

/-- Write single bytes by linear address: what the processor writes on its own (`20_memory.md` R96). -/
def storeBytes : List (Dword × Byte) → M Unit
  | [] => pure ()
  | (a, b) :: t => do
    update fun s => s.noteImplicit a 1 .write
    writeLin 0 1 a (b.setWidth 32)
    storeBytes t

/-- Write `n` bytes by linear address as an implicit access. -/
def storeImplicit (n : Nat) (a v : Dword) : M Unit := do
  update fun s => s.noteImplicit a n .write
  writeLin 0 n a v

/-- Read `n` bytes by linear address as an implicit access. -/
def readImplicit (n : Nat) (a : Dword) : M Dword := do
  update fun s => s.noteImplicit a n .read
  readLin .read 0 n a

/-! ## The stack -/

/-- The size of an item of the operand size, in bytes. -/
def sizeBytes : OpSize → Nat
  | .w16 => 2
  | .w32 => 4

/-- The offset of the top of the stack: SP or ESP (`10_state.md` R23). -/
def State.sp (s : State) : Dword := if s.stack16 then zext16 s.gpr.esp else s.gpr.esp

/-- The offset `n` bytes below the top of the stack, in the stack's width (`40_init_mode_switch.md` R153). -/
def State.spBelow (s : State) (n : Nat) : Dword :=
  if s.stack16 then zext16 (s.gpr.esp - BitVec.ofNat 32 n) else s.gpr.esp - BitVec.ofNat 32 n

/-- Write SP or ESP (`10_state.md` R21, R23). -/
def State.setSp (s : State) (v : Dword) : State :=
  { s with gpr := { s.gpr with esp := if s.stack16 then setLow16 s.gpr.esp (low16 v) else v } }

/-- A push of `n` bytes crosses the end of the stack: offset FFFFH of a 16-bit one, FFFFFFFFH of a 32-bit one
(`40_init_mode_switch.md` R153; log 14). -/
def State.pushCrosses (s : State) (n : Nat) : Bool :=
  if s.stack16 then pastEnd (s.spBelow n) n else decide (2 ^ 32 < (s.spBelow n).toNat + n)

/-- A push that crosses the end of the stack is refused in real-address and V86 mode, where it passes offset FFFFH
(`20_memory.md` R87, `93_implementation_defined.md` U21, `92_eei_decisions.md` D2). In protected mode it raises the
stack exception, vector 12 (`40_init_mode_switch.md` R153; log 14), whose error code the spec does not state. -/
def checkPush (n : Nat) : M Unit := do
  let bad ← asks (·.pushCrosses n)
  let as8086 ← asks State.like8086
  if bad then
    if as8086 then refuse .pastSegmentEnd
    else do
      let code ← draw
      raise (Exn.plain 12 (some code))
  else pure ()

/-- Push `n` bytes (`10_state.md` R23). A push of an instruction is a data access; one of a delivery is implicit
(`42_debug.md` R220). Supervisor pages are checked against the level the machine has then, which in a delivery is the
handler's or the new task's (log 8). -/
def push (implicit : Bool) (n : Nat) (v : Dword) : M Unit := do
  checkPush n
  let off ← asks (·.spBelow n)
  let lin ← asks (·.lin .ss off)
  update fun s => if implicit then s.noteImplicit lin n .write else s.noteAccess lin n .write
  let cpl ← asks State.level
  writeLin cpl n lin v
  update fun s => s.setSp off

/-- A pop past offset FFFFH in real-address or V86 mode is refused (`93_implementation_defined.md` U21,
`92_eei_decisions.md` D2). In protected mode it reads at `Lin(SS, SP)` and on, whatever the size of the stack
(`43_v86.md` R258; log 19). -/
def checkPop (n : Nat) : M Unit := fun s =>
  if s.like8086 && pastEnd s.sp n then .error (.refused .pastSegmentEnd) s else .ok () s

/-- Pop `n` bytes: read, then add (`10_state.md` R23). -/
def pop (n : Nat) : M Dword := do
  checkPop n
  let off ← asks State.sp
  let lin ← asks (·.lin .ss off)
  update fun s => s.noteAccess lin n .read
  let cpl ← asks State.level
  let v ← readLin .read cpl n lin
  update fun s => s.setSp (off + BitVec.ofNat 32 n)
  pure v

end Sys2Proof.Machine
end

