-- ==== Sys2Proof/Machine/Operands.lean ====
section
/-! DEFINITION. Every operand form: effective addresses of both address sizes with their default segments, `r/m16`
operands, far pointers and the six-byte operand of the table-register loads (`30_encoding.md` R121, R125, R126). -/

namespace Sys2Proof.Machine

/-- The register sum of a 16-bit addressing form (`30_encoding.md` R125). -/
def base16 (g : GRegs) : Base16 → Dword
  | .bxSi => g.ebx + g.esi
  | .bxDi => g.ebx + g.edi
  | .bpSi => g.ebp + g.esi
  | .bpDi => g.ebp + g.edi
  | .si => g.esi
  | .di => g.edi
  | .bp => g.ebp
  | .bx => g.ebx

/-- The displacement of a 16-bit form; an 8-bit one is sign-extended (`30_encoding.md` R125). -/
def disp16 : Disp16 → Dword
  | .none => 0
  | .d8 d => d.signExtend 32
  | .d16 d => d.setWidth 32

/-- The displacement of a 32-bit form; an 8-bit one is sign-extended (`30_encoding.md` R125). -/
def disp32 : Disp32 → Dword
  | .none => 0
  | .d8 d => d.signExtend 32
  | .d32 d => d

/-- The scaled index of a SIB byte (`30_encoding.md` R125). -/
def scaledIndex (g : GRegs) (sc : Scale) : Option Reg → Dword
  | none => 0
  | some r =>
    match sc with
    | .x1 => g.get r
    | .x2 => g.get r <<< 1
    | .x4 => g.get r <<< 2
    | .x8 => g.get r <<< 3

/-- The effective address (`30_encoding.md` R125): a 16-bit address size takes the low 16 bits of the sum. With a 32-bit
one R125 gives no modulus, and the sum is taken modulo 2^32 (log 41). -/
def effAddr (g : GRegs) : Ea → Dword
  | .based16 b d => zext16 (base16 g b + disp16 d)
  | .direct16 d => d.setWidth 32
  | .based32 b d => g.get b + disp32 d
  | .direct32 d => d
  | .sib sc i b d => g.get b + scaledIndex g sc i + disp32 d
  | .sibNoBase sc i d => scaledIndex g sc i + d

/-- Does a base register select SS by default? -/
def ssBase : Reg → Bool
  | .esp | .ebp => true
  | .eax | .ecx | .edx | .ebx | .esi | .edi => false

/-- The default segment of an addressing form (`30_encoding.md` R125). -/
def defaultSeg : Ea → SReg
  | .based16 b _ =>
    match b with
    | .bpSi | .bpDi | .bp => .ss
    | .bxSi | .bxDi | .si | .di | .bx => .ds
  | .direct16 _ => .ds
  | .based32 b _ => if ssBase b then .ss else .ds
  | .direct32 _ => .ds
  | .sib _ _ b _ => if ssBase b then .ss else .ds
  | .sibNoBase _ _ _ => .ds

/-- The segment a memory operand uses: the override, or the default (`30_encoding.md` R121). -/
def memSegment (m : MemOp) : SReg :=
  match m.seg with
  | some r => r
  | none => defaultSeg m.ea

/-- Read `n` bytes of a memory operand, `k` bytes after its address (`30_encoding.md` R126; log 38). -/
def readMem (m : MemOp) (k n : Nat) : M Dword := do
  let ea ← asks fun s => effAddr s.gpr m.ea
  readData (memSegment m) (ea + BitVec.ofNat 32 k) n

/-- Read an `r/m16` operand: the low word of a register, or a memory word. -/
def readRm16 : Rm16 → M Word
  | .reg r => asks fun s => low16 (s.gpr.get r)
  | .mem m => do
    let v ← readMem m 0 2
    pure (low16 v)

/-- Read a far pointer in memory: the offset, then the selector (`40_init_mode_switch.md` R154). -/
def readFarPtr (sz : OpSize) (m : MemOp) : M (Dword × Selector) := do
  let off ← readMem m 0 (sizeBytes sz)
  let sel ← readMem m (sizeBytes sz) 2
  pure (off, low16 sel)

/-- The offset, selector and operand size of a direct far pointer (`30_encoding.md` R126). -/
def farPtrOffset : FarPtr → Dword
  | .ptr16 off _ => off.setWidth 32
  | .ptr32 off _ => off
def farPtrSelector : FarPtr → Selector
  | .ptr16 _ sel => sel
  | .ptr32 _ sel => sel
def farPtrSize : FarPtr → OpSize
  | .ptr16 _ _ => .w16
  | .ptr32 _ _ => .w32

/-- The operand size and the displacement, sign-extended to 32 bits, of a relative operand (`30_encoding.md` R126). -/
def relSize : Rel → OpSize
  | .rel16 _ => .w16
  | .rel32 _ => .w32
def relDisp : Rel → Dword
  | .rel16 d => d.signExtend 32
  | .rel32 d => d

/-- Read the six-byte operand of LIDT and LGDT: limit, then base; a 16-bit operand size takes 24 bits of the base
(`40_init_mode_switch.md` R158). -/
def readTable (sz : OpSize) (m : MemOp) : M TableReg := do
  let limit ← readMem m 0 2
  let base ← readMem m 2 4
  pure { base := if sz = .w16 then base &&& 0x00FFFFFF else base, limit := low16 limit }

end Sys2Proof.Machine
end

