-- ==== Sys2Proof/Machine/Ops.lean ====
section
/-! DEFINITION. Taking an exception or interrupt as ONE shared operation (`deliver`, `60_exceptions.md` R300 to R318,
`43_v86.md` R260 to R263), the task switch beside it, the return from it (`iretBody`, `43_v86.md` R258), and the
frame every instruction runs in (`runInstr`, `40_init_mode_switch.md` R150, `60_exceptions.md` R294 steps 5 to 8). -/

namespace Sys2Proof.Machine

/-! ## Segment CS -/

/-- Load CS; the first load of CS drops the A31-20 latch (`10_state.md` R61). -/
def State.setCs (s : State) (r : SegReg) : State := { s with seg := s.seg.set .cs r, latch := false }

/-- Load CS as the 8086 would and go to `off` (`40_init_mode_switch.md` R154). -/
def State.farTo8086 (s : State) (sel : Selector) (off : Dword) : State :=
  { s.setCs (s.seg.cs.load8086 sel) with eip := off }

/-! ## Task switch -/

/-- The layout of a TSS of the format. -/
def tssLayout (p : Config.Params) (is386 : Bool) : Config.TssLayout := if is386 then p.tss386 else p.tss286

/-- The images a task switch saves, each with its size and its address in the TSS of the outgoing task. An 80386 TSS
takes all of EFLAGS and of the registers, an 80286 TSS "does not store the high-order word of EFLAGS" (`10_state.md`
R45). The rest is the model's choice (log 40): the low words of EIP and the general registers in an 80286 TSS, two
bytes for every selector, the selectors of FS and GS in an 80386 TSS only. -/
def State.taskImages (s : State) (image ip : Dword) : List (Nat × Dword × Dword) :=
  let n := if s.taskReg.is386 then 4 else 2
  let b := s.taskReg.base
  let l := tssLayout s.params s.taskReg.is386
  let sel (r : SegReg) : Dword := r.selector.setWidth 32
  [(n, b + l.eip, ip), (n, b + l.flags, image), (n, b + l.gprs.eax, s.gpr.eax), (n, b + l.gprs.ecx, s.gpr.ecx),
    (n, b + l.gprs.edx, s.gpr.edx), (n, b + l.gprs.ebx, s.gpr.ebx), (n, b + l.gprs.esp, s.gpr.esp),
    (n, b + l.gprs.ebp, s.gpr.ebp), (n, b + l.gprs.esi, s.gpr.esi), (n, b + l.gprs.edi, s.gpr.edi),
    (2, b + l.es, sel s.seg.es), (2, b + l.cs, sel s.seg.cs), (2, b + l.ss, sel s.seg.ss),
    (2, b + l.ds, sel s.seg.ds)] ++
    if s.taskReg.is386 then [(2, b + l.fs, sel s.seg.fs), (2, b + l.gs, sel s.seg.gs)] else []

/-- Write several images as implicit accesses. -/
def storeImages : List (Nat × Dword × Dword) → M Unit
  | [] => pure ()
  | (n, a, v) :: t => do
    storeImplicit n a v
    storeImages t

/-- Save the outgoing task in its TSS (`10_state.md` R45, `43_v86.md` R260; log 40). -/
def saveTask (image ip : Dword) : M Unit := do
  let l ← asks (·.taskImages image ip)
  storeImages l

/-- The images of a task in its TSS; `mark` is the debug mark (`42_debug.md` R227). -/
structure TaskImages where
  eip   : Dword
  flags : Dword
  gprs  : GRegs
  es    : Selector
  cs    : Selector
  ss    : Selector
  ds    : Selector
  fs    : Selector
  gs    : Selector
  mark  : Bool
deriving DecidableEq, Repr

/-- The image of a general register: a doubleword of an 80386 TSS; a word of an 80286 TSS, beside which the high word is
a free value (log 40). -/
def readRegImage (is386 : Bool) (a : Dword) : M Dword :=
  if is386 then readImplicit 4 a
  else do
    let v ← readImplicit 2 a
    let w ← draw
    pure ((w &&& 0xFFFF0000) ||| v)

/-- The images of the eight general registers. -/
def readRegImages (is386 : Bool) (b : Dword) (l : GRegs) : M GRegs := do
  let eax ← readRegImage is386 (b + l.eax)
  let ecx ← readRegImage is386 (b + l.ecx)
  let edx ← readRegImage is386 (b + l.edx)
  let ebx ← readRegImage is386 (b + l.ebx)
  let esp ← readRegImage is386 (b + l.esp)
  let ebp ← readRegImage is386 (b + l.ebp)
  let esi ← readRegImage is386 (b + l.esi)
  let edi ← readRegImage is386 (b + l.edi)
  pure { eax := eax, ecx := ecx, edx := edx, ebx := ebx, esp := esp, ebp := ebp, esi := esi, edi := edi }

/-- The image of a selector. -/
def readSelector (a : Dword) : M Selector := do
  let v ← readImplicit 2 a
  pure (low16 v)

/-- The selector of FS or GS: an image in an 80386 TSS; in an 80286 TSS, which has none, the interface's (log 40). -/
def readSelector386 (is386 : Bool) (a : Dword) (other : Selector) : M Selector :=
  if is386 then readSelector a else pure other

/-- The debug mark: bit 0 of the word at offset 64H of an 80386 TSS (`10_state.md` R45 (f)); an 80286 TSS has none
(log 40). The sum with the base is taken modulo 2^32 (log 41). -/
def readMark (is386 : Bool) (b : Dword) : M Bool :=
  if is386 then do
    let v ← readImplicit 2 (b + 0x64)
    pure (v.getLsbD 0)
  else pure false

/-- Read the images of the incoming task from its TSS (`10_state.md` R45, `43_v86.md` R256; log 40). -/
def readTask (t : Config.TaskSwitch) : M TaskImages := do
  let big := t.taskReg.is386
  let b := t.taskReg.base
  let l ← asks fun s => tssLayout s.params big
  let n := if big then 4 else 2
  let eip ← readImplicit n (b + l.eip)
  let flags ← readImplicit n (b + l.flags)
  let gprs ← readRegImages big b l.gprs
  let es ← readSelector (b + l.es)
  let cs ← readSelector (b + l.cs)
  let ss ← readSelector (b + l.ss)
  let ds ← readSelector (b + l.ds)
  let fs ← readSelector386 big (b + l.fs) t.segs.fs.selector
  let gs ← readSelector386 big (b + l.gs) t.segs.gs.selector
  let mark ← readMark big b
  pure { eip := eip, flags := flags, gprs := gprs, es := es, cs := cs, ss := ss, ds := ds, fs := fs, gs := gs,
         mark := mark }

/-- The EFLAGS a task switch loads: all 32 bits of an 80386 TSS's image; an 80286 TSS has no high-order word
(`43_v86.md` R256). -/
def taskFlags (t : Config.TaskSwitch) (i : TaskImages) : Eflags :=
  Eflags.ofWord (if t.taskReg.is386 then i.flags else zext16 i.flags)

/-- Load the segment registers as the 8086 would (`43_v86.md` R256). -/
def segs8086 (f : SegFile) (es cs ss ds fs gs : Selector) : SegFile :=
  { es := f.es.load8086 es, cs := f.cs.load8086 cs, ss := f.ss.load8086 ss, ds := f.ds.load8086 ds,
    fs := f.fs.load8086 fs, gs := f.gs.load8086 gs }

/-- The segment registers of a task outside V86 mode: the images, and the hidden parts of their descriptors
(`43_v86.md` R260). -/
def segsOfTask (f : SegFile) (i : TaskImages) : SegFile :=
  { es := { f.es with selector := i.es }, cs := { f.cs with selector := i.cs }, ss := { f.ss with selector := i.ss },
    ds := { f.ds with selector := i.ds }, fs := { f.fs with selector := i.fs }, gs := { f.gs with selector := i.gs } }

/-- The incoming task's state (`43_v86.md` R256, R260): VM = 1 in the image of an 80386 TSS makes it a V86 task,
whose segment registers are loaded as the 8086 would and whose CPL is 3; otherwise VM is clear and the segment
registers come from descriptors. CS is loaded either way (`10_state.md` R61). L0 to L3 are cleared
(`42_debug.md` R215), after the images are read and before an error code is pushed, which the spec does not order
(log 40); and the debug mark adds BT to T (R227). -/
def State.loadTask (s : State) (t : Config.TaskSwitch) (i : TaskImages) : State :=
  let fl := taskFlags t i
  let s1 : State :=
    if fl.vm then
      { s with flags := fl, seg := segs8086 s.seg i.es i.cs i.ss i.ds i.fs i.gs, cpl := 3, eip := zext16 i.eip,
               latch := false }
    else { s with flags := fl, seg := segsOfTask t.segs i, cpl := t.cpl, eip := i.eip, latch := false }
  let s2 : State :=
    { s1 with gpr := i.gprs, ldtReg := t.ldtReg, taskReg := t.taskReg,
              traps := if i.mark then s.traps ||| btBit else s.traps }
  let s3 := match t.cr3 with
    | some v => s2.writeCr3 v
    | none => s2
  s3.clearLocal

/-- A task switch: the outgoing task is saved with the EFLAGS image `image` and the instruction pointer `ip`, and the
incoming task is read from its TSS and loaded (log 40). The images are read through the outgoing task's mapping: CR3 is
loaded and the TLB's valid bits are cleared after them, which the spec does not order (log 40). -/
def taskSwitch (t : Config.TaskSwitch) (image ip : Dword) : M Unit := do
  saveTask image ip
  update fun s => s.noteReads t.reads
  storeBytes t.stores
  let i ← readTask t
  update fun s => s.loadTask t i

/-! ## Delivery -/

/-- The classes of events (`60_exceptions.md` R292, R293). -/
inductive EventClass
  | fault | trap | interrupt
deriving DecidableEq, Repr

/-- An event to deliver: its vector, class and error code, the instruction pointer to save, and the one to save if
delivering it raises general protection instead (`60_exceptions.md` R292). -/
structure Event where
  vector  : Vec
  cls     : EventClass
  err     : Option Dword
  ip      : Dword
  restart : Dword
deriving DecidableEq, Repr

/-- How an attempt to deliver ended: in a handler of this task, in another task, or refused by the gate with general
protection (`43_v86.md` R263, `42_debug.md` R232). -/
inductive Attempt
  | handler
  | task
  | denied (code : Dword)
deriving DecidableEq, Repr

/-- The EFLAGS image an event saves (`42_debug.md` R224). -/
def Event.image (e : Event) (f : Eflags) : Dword := (f.image (e.cls = .fault)).toWord

/-- The entry for `v` lies beyond IDTR.Limit in real-address mode (`60_exceptions.md` R301). -/
def beyondTable (limit : Word) (v : Vec) : Bool := decide (limit.toNat < 4 * v.toNat + 3)

/-- An event that cannot be delivered: it becomes a double fault (`60_exceptions.md` R315, R316). -/
def undeliverable {α : Type} : M α := raise (Exn.plain 8 (some 0))

/-- Delivery in real-address mode (`60_exceptions.md` R301). The entry's address, which R301 writes as a sum without a
modulus, is taken modulo 2^32 (log 41). -/
def deliverReal (e : Event) : M Attempt := do
  let t ← asks (·.idtr)
  if beyondTable t.limit e.vector then undeliverable
  else do
    let a := t.base + 4 * e.vector.setWidth 32
    update fun s => s.noteImplicit a 4 .read
    let entry ← readLin .read 0 4 a
    let f ← asks (·.flags)
    let cs ← asks (·.seg.cs.selector)
    push true 2 (e.image f)
    push true 2 (cs.setWidth 32)
    push true 2 e.ip
    update fun s =>
      { s.farTo8086 (entry.extractLsb' 16 16) (zext16 entry) with flags := s.flags.entered true }
    pure .handler

/-- Push the error code, if the exception has one (`60_exceptions.md` R302, R306). -/
def pushErr (n : Nat) : Option Dword → M Unit
  | none => pure ()
  | some code => push true n code

/-- Leave V86 mode to a privilege-level-zero procedure (`43_v86.md` R262). The table accesses come before the pushes
(log 7). -/
def enterFromV86 (g : Config.ProcGate) (e : Event) : M Attempt := do
  let f ← asks (·.flags)
  let old ← asks (·.seg)
  let esp ← asks (·.gpr.esp)
  update fun s => s.noteReads g.reads
  storeBytes g.stores
  update fun s =>
    { s with flags := s.flags.entered g.interrupt, cpl := 0, seg := s.seg.set .ss g.ss,
             gpr := { s.gpr with esp := g.esp } }
  push true 4 (old.gs.selector.setWidth 32)
  push true 4 (old.fs.selector.setWidth 32)
  push true 4 (old.ds.selector.setWidth 32)
  push true 4 (old.es.selector.setWidth 32)
  push true 4 (old.ss.selector.setWidth 32)
  push true 4 esp
  push true 4 (e.image f)
  push true 4 (old.cs.selector.setWidth 32)
  push true 4 e.ip
  pushErr 4 e.err
  update fun s =>
    { s with seg := { s.seg with cs := g.cs, ds := s.seg.ds.loadNull, es := s.seg.es.loadNull,
                                 fs := s.seg.fs.loadNull, gs := s.seg.gs.loadNull },
             latch := false, eip := g.eip }
  pure .handler

/-- To a more privileged procedure: its stack, with the old one's SS and ESP pushed on it. -/
def switchStack (g : Config.ProcGate) (n : Nat) (ss : Selector) (esp : Dword) : M Unit :=
  if g.inner then do
    update fun s => { s with seg := s.seg.set .ss g.ss, gpr := { s.gpr with esp := g.esp } }
    push true n (ss.setWidth 32)
    push true n esp
  else pure ()

/-- Deliver to a procedure from protected mode (`60_exceptions.md` R302, R303; the frame is log 22, the level its pushes
run at log 8, the table accesses before them log 7). -/
def enterProcedure (g : Config.ProcGate) (e : Event) : M Attempt := do
  let f ← asks (·.flags)
  let old ← asks (·.seg)
  let esp ← asks (·.gpr.esp)
  let n := if g.gate32 then 4 else 2
  update fun s => s.noteReads g.reads
  storeBytes g.stores
  update fun s => { s with flags := s.flags.entered g.interrupt, cpl := g.cpl }
  switchStack g n old.ss.selector esp
  push true n (e.image f)
  push true n (old.cs.selector.setWidth 32)
  push true n e.ip
  pushErr n e.err
  update fun s => { s.setCs g.cs with eip := g.eip }
  pure .handler

/-- Delivery to another task: EFLAGS with its VM is saved in the old TSS, and an error code is pushed on the new task's
stack (`60_exceptions.md` R302, `43_v86.md` R260). The model's choices (log 22): the error code is four bytes for an
80386 TSS and two for an 80286 TSS, pushed at the new task's level (log 8), and TF stays as the new TSS has it, where
R303's "TF <- 0 always" and R256's load of EFLAGS have no order. -/
def enterTask (t : Config.TaskSwitch) (e : Event) : M Attempt := do
  let f ← asks (·.flags)
  taskSwitch t (e.image f) e.ip
  pushErr (if t.taskReg.is386 then 4 else 2) e.err
  pure .task

/-- Does a handler entered from V86 mode break `43_v86.md` R263: a conforming segment, or a level other than zero? -/
def badV86Handler (g : Config.ProcGate) : Bool := g.conforming || g.dpl != 0

/-- Delivery through the protected-mode IDT, from protected mode (`60_exceptions.md` R302) or V86 mode (R304). With
IDTR.Limit = 0 "no entry fits" (R316). -/
def deliverGate (e : Event) : M Attempt := do
  let limit ← asks (·.idtr.limit)
  if limit = 0 then undeliverable
  else do
    let n ← drawIndex
    let lvl ← asks State.level
    let v86 ← asks State.like8086
    match Config.gateTransfer n e.vector lvl with
    | .task t => enterTask t e
    | .denied code => pure (.denied code)
    | .fault v code lin => raise (Exn.ofVector v code lin)
    | .procedure g =>
      if v86 then
        if badV86Handler g then pure (.denied (g.cs.selector.setWidth 32)) else enterFromV86 g e
      else enterProcedure g e

/-- One attempt to deliver, by mode (`60_exceptions.md` R300). -/
def attempt (e : Event) : M Attempt := do
  let m ← asks State.mode
  match m with
  | .real => deliverReal e
  | .prot | .v86 => deliverGate e

/-- What a computation that reached `s'` leaves when its effects and T are discarded: the state `s` with nothing
changed but the count of free values drawn (`60_exceptions.md` R292, R294 step 6; log 26). A CR2 and the TLB entries the
computation filled are discarded too (log 21, log 8). -/
def State.rollback (s s' : State) : State := { s with free := s'.free, traps := 0, quiet := 0 }

/-- Where a delivery ended: in a handler, in another task, or in a fault taken in place of the event. -/
inductive Entry
  | handler | task | replaced
deriving DecidableEq, Repr

/-- What a delivery answers. -/
abbrev Delivery := Host.Outcome (Entry × State) Fault Refusal

/-- Shutdown: nothing else changes (`60_exceptions.md` R318). -/
def State.shutDown (s : State) : State := { s with run := .shutdown }

/-- The double fault, vector 8 with error code 0; a fault while it is delivered is shutdown (`60_exceptions.md` R291,
R315, R316). The spec gives vector 8 no class: that it is delivered as a fault, so that RF = 1 stands in the saved image
whatever event failed, is the model's choice (log 23). -/
def doubleFault (ip : Dword) (s : State) : Delivery :=
  match attempt { vector := 8, cls := .fault, err := some 0, ip := ip, restart := ip } s with
  | .ok (.denied _) s' => .next (.replaced, (s.rollback s').shutDown)
  | .ok .handler s' => .next (.replaced, s')
  | .ok .task s' => .next (.replaced, s')
  | .error (.exn _) s' => .next (.replaced, (s.rollback s').shutDown)
  | .error (.fault f) _ => .fault f
  | .error (.refused r) _ => .refused r

/-- General protection raised by a delivery (`43_v86.md` R263, `42_debug.md` R232); a fault while it is delivered
becomes a double fault (`60_exceptions.md` R315). -/
def deniedFault (code ip : Dword) (s : State) : Delivery :=
  match attempt { vector := 13, cls := .fault, err := some code, ip := ip, restart := ip } s with
  | .ok (.denied _) s' => doubleFault ip (s.rollback s')
  | .ok .handler s' => .next (.replaced, s')
  | .ok .task s' => .next (.replaced, s')
  | .error (.exn _) s' => doubleFault ip (s.rollback s')
  | .error (.fault f) _ => .fault f
  | .error (.refused r) _ => .refused r

/-- `Deliver(v, class, errcode)` (`60_exceptions.md` R300): the one operation that takes an exception or interrupt. A
page fault met on the way becomes a double fault like every other (R315), and its address is not recorded (log 21). -/
def deliver (e : Event) (s : State) : Delivery :=
  match attempt e s with
  | .ok (.denied code) s' => deniedFault code e.restart (s.rollback s')
  | .ok .handler s' => .next (.handler, s')
  | .ok .task s' => .next (.task, s')
  | .error (.exn _) s' => doubleFault e.restart (s.rollback s')
  | .error (.fault f) _ => .fault f
  | .error (.refused r) _ => .refused r

/-- The outcome of a delivery as an outcome of a step. -/
def Delivery.outcome (d : Delivery) (k : Entry → State → State) : Host.Outcome State Fault Refusal :=
  match d with
  | .next (e, s) => .next (k e s)
  | .fault f => .fault f
  | .refused r => .refused r

/-- Nothing more happens once a delivery has ended. -/
def entered (_ : Entry) (s : State) : State := s

/-- Delivery of the debug exception drops GD (`42_debug.md` R229), unless a fault was taken in its place. -/
def debugEntered (e : Entry) (s : State) : State :=
  match e with
  | .handler | .task => s.clearGd
  | .replaced => s

/-- The debug exception (`42_debug.md` R221, R231): DR6 collects the conditions, and vector 1 is delivered with no
error code. -/
def raiseDebug (cls : EventClass) (conditions : Dword) (s : State) : Host.Outcome State Fault Refusal :=
  Delivery.outcome
    (deliver { vector := 1, cls := cls, err := none, ip := s.eip, restart := s.eip }
      { s with dr6 := s.dr6 ||| conditions })
    debugEntered

/-- Take a fault: the effects of the instruction (`s'` is where they led) and T are discarded, the saved pointer is
the instruction's own (`60_exceptions.md` R292, R294 step 6). A fault with DR6 bits is the debug exception; it shows the
disabled breakpoints met as well (log 27). -/
def takeFault (e : Exn) (s s' : State) : Host.Outcome State Fault Refusal :=
  if e.dr6 = 0 then
    Delivery.outcome
      (deliver { vector := e.vector, cls := .fault, err := e.err, ip := s.eip, restart := s.eip }
        { s.rollback s' with cr2 := e.cr2.getD s.cr2 })
      entered
  else raiseDebug .fault (e.dr6 ||| s.quiet) (s.rollback s')

/-! ## The frame of an instruction -/

/-- The end of a completed instruction (`60_exceptions.md` R294 steps 7, 8): RF is cleared unless the instruction
loaded it (IRET, a task switch), and BS joins T if TF was 1 when the instruction started. -/
def complete (s0 : State) (loadedRf : Bool) (s : State) : State :=
  { s with flags := { s.flags with rf := s.flags.rf && loadedRf },
           traps := if s0.flags.tf then s.traps ||| bsBit else s.traps }

/-- Run an instruction's body (`40_init_mode_switch.md` R150). While the prefetch queue may be stale only a JMP has a
meaning (`20_memory.md` R104). The body says whether it loaded RF. Where it faults, the TLB entries the body filled are
undone and those of the instruction's fetch, which came before, stay (log 8). -/
def runInstr (isJmp : Bool) (body : M Bool) (s : State) : Host.Outcome State Fault Refusal :=
  if s.prefetchStale && !isJmp then .refused .notJumpAfterPe
  else match body s with
    | .ok loadedRf s' => .next (complete s loadedRf s')
    | .error (.exn e) s' => takeFault e s s'
    | .error (.fault f) _ => .fault f
    | .error (.refused r) _ => .refused r

/-- `pc <- next` (`40_init_mode_switch.md` R150 (d)). -/
def toNext : M Bool := fun s => .ok false { s with eip := s.next }

/-- The status flags become free values (`40_init_mode_switch.md` R150 (f)). -/
def drawStatus : M Unit := fun s =>
  .ok () { s with flags := s.flags.setStatus (Config.freeWord s.free), free := s.free + 1 }

/-! ## Transfers -/

/-- The target of a near transfer (`40_init_mode_switch.md` R152). -/
def nearTarget (next disp : Dword) : OpSize → Dword
  | .w16 => zext16 (next + disp)
  | .w32 => next + disp

/-- A target above FFFFH in real-address or V86 mode is beyond the segment and raises general protection
(`40_init_mode_switch.md` R152, R154; log 13). -/
def checkTarget (off : Dword) : M Unit := fun s =>
  if s.like8086 && decide (0xFFFF < off.toNat) then .error (.exn (generalProtection 0)) s else .ok () s

/-- Go to the code a far transfer within the task leads to. -/
def State.farToCode (s : State) (c : Config.FarCode) : State := { s.setCs c.cs with eip := c.eip, cpl := c.cpl }

/-- What the processor reads and writes in its tables for a far transfer: before a CALL's pushes, and after the first
three pops of an IRET, which the spec does not order (`20_memory.md` R96; log 7). -/
def farTables (c : Config.FarCode) : M Unit := do
  update fun s => s.noteReads c.reads
  storeBytes c.stores

/-- A task switch by an instruction: the saved instruction pointer is that of the next instruction. RF and NT are
saved as they were when the instruction began, so NT = 1 by an IRET, where the spec is silent (log 22). -/
def instrTaskSwitch (t : Config.TaskSwitch) : M Unit := do
  let f ← asks (·.flags)
  let ip ← asks (·.next)
  taskSwitch t f.toWord ip

/-- What `FarTransfer` answers for a far JMP takes effect (`40_init_mode_switch.md` R154): the value says whether it
switched tasks. The stack pointer stays (`10_state.md` R22). -/
def farJumpOutcome (r : Config.FarJump) : M Bool :=
  match r with
  | .code c => do
    farTables c
    update fun s => s.farToCode c
    pure false
  | .task t => do
    instrTaskSwitch t
    pure true
  | .fault v code lin => raise (Exn.ofVector v code lin)

/-- Several pushes of an instruction, the first of the list first. -/
def pushList (n : Nat) : List Dword → M Unit
  | [] => pure ()
  | v :: t => do
    push false n v
    pushList n t

/-- The state in which a far CALL within the task pushes: the level of the procedure, and its stack if it has one of its
own (log 22). -/
def State.toCallStack (s : State) (c : Config.FarCode) (inner : Option (SegReg × Dword)) : State :=
  match inner with
  | some (ss, esp) => { s with cpl := c.cpl, seg := s.seg.set .ss ss, gpr := { s.gpr with esp := esp } }
  | none => { s with cpl := c.cpl }

/-- What a far CALL within the task pushes: on a new stack the old one's SS and ESP and the parameters, then CS and the
return offset (`40_init_mode_switch.md` R155; log 22). -/
def State.callFrame (s : State) (inner : Option (SegReg × Dword)) (args : List Dword) : List Dword :=
  (match inner with
    | some _ => [s.seg.ss.selector.setWidth 32, s.gpr.esp] ++ args
    | none => []) ++ [s.seg.cs.selector.setWidth 32, s.next]

/-- A far CALL within the task. Its pushes are pushes of an instruction, which data breakpoints watch
(`42_debug.md` R220). -/
def farCallCode (c : Config.FarCode) (size : OpSize) (inner : Option (SegReg × Dword)) (args : List Dword) :
    M Unit := do
  farTables c
  let frame ← asks (·.callFrame inner args)
  update fun s => s.toCallStack c inner
  pushList (sizeBytes size) frame
  update fun s => s.farToCode c

/-- What `FarTransfer` answers for a far CALL takes effect (`40_init_mode_switch.md` R155). -/
def farCallOutcome (r : Config.FarCall) : M Bool :=
  match r with
  | .code c size inner args => do
    farCallCode c size inner args
    pure false
  | .task t => do
    instrTaskSwitch t
    pure true
  | .fault v code lin => raise (Exn.ofVector v code lin)

/-- The transfer of a far JMP (`40_init_mode_switch.md` R154). -/
def farJumpTo (sel : Selector) (off : Dword) : M Bool := do
  let real ← asks State.like8086
  if real then do
    checkTarget off
    update fun s => s.farTo8086 sel off
    pure false
  else do
    let n ← drawIndex
    let lvl ← asks State.level
    farJumpOutcome (Config.farJump n sel off lvl)

/-- A far JMP: the transfer, and the prefetch queue is flushed (`40_init_mode_switch.md` R154). -/
def farJump (sel : Selector) (off : Dword) : M Bool := do
  let sw ← farJumpTo sel off
  update fun s => { s with prefetchStale := false }
  pure sw

/-- A far CALL (`40_init_mode_switch.md` R155): the old CS is pushed first, then the return offset. -/
def farCall (sz : OpSize) (sel : Selector) (off : Dword) : M Bool := do
  let real ← asks State.like8086
  if real then do
    let cs ← asks (·.seg.cs.selector)
    push false (sizeBytes sz) (cs.setWidth 32)
    let ip ← asks (·.next)
    push false (sizeBytes sz) ip
    checkTarget off
    update fun s => s.farTo8086 sel off
    pure false
  else do
    let n ← drawIndex
    let lvl ← asks State.level
    farCallOutcome (Config.farCall n sel off lvl)

/-! ## Return -/

/-- IRET in real-address mode (`43_v86.md` R258). -/
def iretReal (sz : OpSize) : M Bool := do
  let off ← pop (sizeBytes sz)
  let sel ← pop (sizeBytes sz)
  let fl ← pop (sizeBytes sz)
  checkTarget off
  update fun s => { (s.farTo8086 (low16 sel) off) with flags := s.flags.iretReal sz fl }
  pure true

/-- The return to V86 mode, after the first three pops (`43_v86.md` R258). -/
def iretToV86 (off sel fl : Dword) : M Bool := do
  let esp ← pop 4
  let ss ← pop 4
  let es ← pop 4
  let ds ← pop 4
  let fs ← pop 4
  let gs ← pop 4
  update fun s =>
    { s with flags := Eflags.ofWord fl, eip := zext16 off, cpl := 3, latch := false,
             seg := segs8086 s.seg (low16 es) (low16 sel) (low16 ss) (low16 ds) (low16 fs) (low16 gs),
             gpr := { s.gpr with esp := esp } }
  pure true

/-- The return to a less privileged level: ESP and SS are popped too, and SS is the segment the interface answers
under the popped selector (`43_v86.md` R258, `42_debug.md` R220; log 22). -/
def iretStack (n : Nat) : Option SegReg → M Unit
  | none => pure ()
  | some ss => do
    let esp ← pop n
    let sel ← pop n
    update fun s => { s with seg := s.seg.set .ss { ss with selector := low16 sel } }
    update fun s => s.setSp esp

/-- The return within protected mode, after the three pops: EFLAGS from the image "with VM left unchanged", the rest
by the open interface (`43_v86.md` R258). -/
def iretWithin (sz : OpSize) (off sel fl : Dword) : M Bool := do
  let n ← drawIndex
  let lvl ← asks State.level
  update fun s => { s with flags := s.flags.iretProt sz fl }
  match Config.farReturn n (low16 sel) off lvl with
  | .code c outer => do
    farTables c
    iretStack (sizeBytes sz) outer
    update fun s => s.farToCode c
    pure true
  | .fault v code lin => raise (Exn.ofVector v code lin)

/-- IRET in protected mode (`43_v86.md` R258, R259). As in R258's pseudocode, the format of the current TSS is not
looked at, although its prose speaks of "a procedure of an 80386 task" (log 45). -/
def iretProt (sz : OpSize) : M Bool := do
  let nt ← asks (·.flags.nt)
  if nt then do
    let n ← drawIndex
    match Config.taskReturn n with
    | .task t => do
      instrTaskSwitch t
      pure true
    | .fault v code lin => raise (Exn.ofVector v code lin)
  else do
    let off ← pop (sizeBytes sz)
    let sel ← pop (sizeBytes sz)
    let fl ← pop (sizeBytes sz)
    let lvl ← asks State.level
    if sz = .w32 && (Eflags.ofWord fl).vm && lvl = 0 then iretToV86 off sel fl
    else iretWithin sz off sel fl

/-- The return from an exception or interrupt, by mode (`43_v86.md` R258). -/
def iretBody (sz : OpSize) : M Bool := do
  let m ← asks State.mode
  match m with
  | .real => iretReal sz
  | .v86 => refuse .iretInV86
  | .prot => iretProt sz

end Sys2Proof.Machine
end

