-- ==== Sys2Proof/Machine/Boundary.lean ====
section
/-! DEFINITION. What a step does before it executes an instruction: the environment's events, debug traps, the
instruction breakpoint, and the fetch (`60_exceptions.md` R294 steps 0 to 4); and the placing of an instruction where
the next fetch reads. -/

namespace Sys2Proof.Machine

/-! ## Events -/

/-- The environment's next presentation joins the pending events (`60_exceptions.md` R293, `10_state.md` R68; log 10,
log 39); the first component is a RESET, if it presents one. -/
def State.takeInput (s : State) : Option Config.ResetParams × State :=
  match s.inputs with
  | [] => (none, s)
  | p :: t =>
    (p.reset, { s with inputs := t, nmi := s.nmi || p.nmi,
                       intr := match p.intr with
                         | some v => some v
                         | none => s.intr })

/-- The external event to deliver now, and the state in which it is no longer pending: the nonmaskable interrupt,
vector 2, or else a maskable one if IF = 1 (`60_exceptions.md` R293, R294 step 2). -/
def State.external (s : State) : Option (Vec × State) :=
  if s.nmi then some (2, { s with nmi := false })
  else match s.intr with
    | some v => if s.flags.ifl then some (v, { s with intr := none }) else none
    | none => none

/-- Deliver an external event: the saved pointer is that of the next instruction (`60_exceptions.md` R300). -/
def deliverExternal (v : Vec) (s : State) : Host.Outcome State Fault Refusal :=
  Delivery.outcome (deliver { vector := v, cls := .interrupt, err := none, ip := s.eip, restart := s.eip } s) entered

/-- A step in shutdown (`60_exceptions.md` R294 step 0, R318): only RESET leaves it, and a nonmaskable interrupt where
the part does so; without anything presented there is no next state (log 25). -/
def atShutdown (presented : Bool) (s : State) : Host.Outcome State Fault Refusal :=
  if s.nmi && s.params.nmiLeavesShutdown then deliverExternal 2 { s with run := .running, nmi := false }
  else if presented then .next s
  else .fault .shutdown

/-! ## Fetch -/

/-- The linear address of the instruction to execute, `Lin(CS, EIP)`. -/
def State.linPc (s : State) : Dword := s.lin .cs s.eip

/-- Fetch byte `i` of the instruction (`40_init_mode_switch.md` R150 (b)). In real-address and V86 mode a byte past
offset FFFFH is refused (`10_state.md` R25). -/
def fetchByte (i : Nat) : M Byte := do
  let past ← asks fun s => s.like8086 && decide (0xFFFF < s.eip.toNat + i)
  if past then refuse .pastSegmentEnd
  else do
    let pc ← asks State.linPc
    let cpl ← asks State.level
    let p ← translate (pc + BitVec.ofNat 32 i) .fetch cpl
    readPhys p

/-- The refusal of an encoding without a meaning. -/
def refusalOf : Unsupported → Refusal
  | .namedOnly m => .namedOnly m
  | .lockOrRepeat => .lockOrRepeat
  | .controlRegister2 => .controlRegister2
  | .outsideSpec => .outsideSpec

/-- The invalid-opcode exception (`30_encoding.md` R136, R137; log 15); while the prefetch queue may be stale it has
no meaning, like everything that is not a JMP (`20_memory.md` R104). -/
def invalidOpcode {α : Type} : M α := fun s =>
  if s.prefetchStale then .error (.refused .notJumpAfterPe) s else .error (.exn (Exn.plain 6 none)) s

/-- Fetch at most `fuel` more bytes after `got`, until they are an instruction: it and its length
(`30_encoding.md` R120, R127). -/
def fetchLoop : Nat → List Byte → M (Instr × Nat)
  | 0, _ => refuse .tooLong
  | fuel + 1, got => do
    let b ← fetchByte got.length
    let dflt ← asks State.defaultSize
    match decode dflt (got ++ [b]) with
    | .ok i len => pure (i, len)
    | .more => fetchLoop fuel (got ++ [b])
    | .invalid => invalidOpcode
    | .unsupported why => refuse (refusalOf why)

/-- The instruction at `Lin(CS, EIP)` (`60_exceptions.md` R294 step 4). -/
def fetchInstr : M (Instr × Nat) := fetchLoop maxLen []

/-! ## The boundary -/

/-- What comes before the execution of an instruction ends in one of two ways: the step is over, or an instruction is
to be executed. -/
inductive Boundary
  | done (o : Host.Outcome State Fault Refusal)
  | run (i : Instr) (s : State)

/-- Fetch and decode, and set `next` (`60_exceptions.md` R294 step 4, `40_init_mode_switch.md` R150 (c)). -/
def fetchStep (s : State) : Boundary :=
  match fetchInstr s with
  | .ok (i, len) s' => .run i { s' with next := s'.advance len }
  | .error (.exn e) s' => .done (takeFault e s s')
  | .error (.fault f) _ => .done (.fault f)
  | .error (.refused r) _ => .done (.refused r)

/-- The instruction that starts meets the conditions of disabled breakpoints too, where the part reports them: they join
`quiet`. With RF = 1 its breakpoints are not looked at (`42_debug.md` R224, R230; log 27). -/
def State.noteFetch (s : State) : State :=
  { s with quiet := if s.flags.rf then s.quiet else s.quiet ||| fetchQuiet s s.linPc }

/-- The instruction breakpoint, and what follows where none is hit (`60_exceptions.md` R294 step 3, `42_debug.md` R223,
R224). -/
def breakpointStep (k : State → Boundary) (s : State) : Boundary :=
  if s.flags.rf = false ∧ fetchHits s s.linPc ≠ 0 then
    .done (raiseDebug .fault (fetchHits s s.linPc ||| fetchQuiet s s.linPc) s)
  else k s

/-- The instruction starts: the fetch. -/
def startStep (s : State) : Boundary := fetchStep s.noteFetch

/-- An external event, or else the instruction (`60_exceptions.md` R294 step 2). -/
def externalStep (s : State) : Boundary :=
  match s.external with
  | some (v, s') => .done (deliverExternal v s')
  | none => startStep s

/-- Debug traps, the instruction breakpoint, external events, in the order of `60_exceptions.md` R312 and
`92_eei_decisions.md` D11, where the steps of R294 put the second after the third (log 43). After a load of SS the traps
and the external events wait for one instruction (`40_init_mode_switch.md` R157). -/
def eventStep (s : State) : Boundary :=
  if s.holdOff then breakpointStep startStep { s with holdOff := false }
  else if s.traps ≠ 0 then
    .done (raiseDebug .trap (s.traps ||| s.quiet) { s with traps := 0, quiet := 0 })
  else breakpointStep externalStep { s with quiet := 0 }

/-- Everything of a step that comes before an instruction is executed (`60_exceptions.md` R294 steps 0 to 4). RESET
is possible in every state (`70_reset_and_hazards.md` R340). -/
def boundary (s : State) : Boundary :=
  match s.takeInput with
  | (some p, s') => .done (.next (s'.resetEvent p))
  | (none, s') =>
    if s'.run = .shutdown then .done (atShutdown (!s.inputs.isEmpty) s') else eventStep s'

/-! ## Placing an instruction -/

/-- Put bytes into memory from a physical address on. -/
def placeBytes (m : Memory) : Nat → List Byte → Memory
  | _, [] => m
  | a, b :: t => placeBytes (m.write (a % 2 ^ 32) b) (a + 1) t

/-- The launch's placing of an instruction at `Lin(CS, EIP)`, paging off (`70_reset_and_hazards.md` R343; log 35). -/
def State.placeInstr (s : State) (bs : List Byte) : State :=
  { s with mem := placeBytes s.mem s.linPc.toNat bs }

end Sys2Proof.Machine
end

