-- ==== Sys2Proof/Machine/ControlRegs.lean ====
section
/-! DEFINITION. Moves to and from CR0 and CR3, LMSW, and the switch to protected mode
(`40_init_mode_switch.md` R160 to R164). -/

namespace Sys2Proof.Machine

/-- The reserved bits of CR0 and CR3, read as `draw` (`40_init_mode_switch.md` R160). -/
def cr0Reserved : Dword := 0x7FFFFFE0
def cr3Reserved : Dword := 0x00000FFF

/-- The end of a move from a special register: `v` into `r` with the bits of `mask` drawn, the status flags drawn,
and on to the next instruction. -/
def finishRead (r : Reg) (v mask : Dword) : M Bool := do
  let w ← draw
  update fun s => { s with gpr := s.gpr.set r (drawBits v w mask) }
  drawStatus
  toNext

/-- The end of a move to a special register: the status flags drawn, and on to the next instruction. -/
def finishWrite : M Bool := do
  drawStatus
  toNext

/-- MOV r32, CR0 (`40_init_mode_switch.md` R160). -/
def movFromCr0 (r : Reg) : M Bool := do
  requireLevel0
  let v ← asks (·.cr0.toWord)
  finishRead r v cr0Reserved

/-- MOV r32, CR0. -/
def execMovFromCr0 (r : Reg) (s : State) : Host.Outcome State Fault Refusal :=
  runInstr false (movFromCr0 r) s

/-- MOV r32, CR3 (`40_init_mode_switch.md` R160). -/
def movFromCr3 (r : Reg) : M Bool := do
  requireLevel0
  let v ← asks (·.cr3)
  finishRead r v cr3Reserved

/-- MOV r32, CR3. -/
def execMovFromCr3 (r : Reg) (s : State) : Host.Outcome State Fault Refusal :=
  runInstr false (movFromCr3 r) s

/-- Write CR0; when PE goes from 0 to 1, CPL starts at zero and the prefetch queue may be stale, and nothing else
changes (`40_init_mode_switch.md` R163). -/
def State.writeCr0 (s : State) (v : Cr0) : State :=
  if !s.cr0.pe && v.pe then { s with cr0 := v, cpl := 0, prefetchStale := true } else { s with cr0 := v }

/-- The two writes CR0 does not take: PG = 1 with PE = 0 raises general protection (`40_init_mode_switch.md` R161;
log 12), and clearing PE has no meaning in the spec (`92_eei_decisions.md` D30). -/
def checkCr0 (v : Cr0) : M Unit := fun s =>
  if v.pg && !v.pe then .error (.exn (generalProtection 0)) s
  else if s.cr0.pe && !v.pe then .error (.refused .clearingPe) s
  else .ok () s

/-- MOV CR0, r32 (`40_init_mode_switch.md` R161). -/
def movToCr0 (r : Reg) : M Bool := do
  requireLevel0
  let v ← asks fun s => Cr0.ofWord (s.gpr.get r)
  checkCr0 v
  update fun s => s.writeCr0 v
  finishWrite

/-- MOV CR0, r32. -/
def execMovToCr0 (r : Reg) (s : State) : Host.Outcome State Fault Refusal :=
  runInstr false (movToCr0 r) s

/-- MOV CR3, r32: CR3, and no TLB entry is valid afterwards (`40_init_mode_switch.md` R161). -/
def movToCr3 (r : Reg) : M Bool := do
  requireLevel0
  update fun s => s.writeCr3 (s.gpr.get r)
  finishWrite

/-- MOV CR3, r32. -/
def execMovToCr3 (r : Reg) (s : State) : Host.Outcome State Fault Refusal :=
  runInstr false (movToCr3 r) s

/-- CR0 after LMSW: bits 3:1 from the operand, PE set or left (`40_init_mode_switch.md` R162). -/
def Cr0.lmsw (c : Cr0) (w : Word) : Cr0 :=
  { c with pe := c.pe || w.getLsbD 0, mp := w.getLsbD 1, em := w.getLsbD 2, ts := w.getLsbD 3 }

/-- LMSW r/m16 (`40_init_mode_switch.md` R162). -/
def lmswBody (src : Rm16) : M Bool := do
  requireLevel0
  let w ← readRm16 src
  update fun s => s.writeCr0 (Cr0.lmsw s.cr0 w)
  toNext

/-- LMSW r/m16. -/
def execLmsw (src : Rm16) (s : State) : Host.Outcome State Fault Refusal :=
  runInstr false (lmswBody src) s

end Sys2Proof.Machine
end

