-- ==== Sys2Proof/Machine/DebugRegs.lean ====
section
/-! DEFINITION. Moves to and from the debug registers (`42_debug.md` R212, R213, R228). -/

namespace Sys2Proof.Machine

/-- The general detect fault: BD in DR6, nothing else (`42_debug.md` R228). -/
def generalDetect : Exn := { vector := 1, err := none, cr2 := none, dr6 := bdBit }

/-- With DR7.GD = 1 any move to or from a debug register raises the debug fault (`42_debug.md` R228); the CPL check
comes first (`60_exceptions.md` R312). -/
def requireDebugAccess : M Unit := fun s =>
  if s.level = 0 then
    if gd s.dr7 then .error (.exn generalDetect) s else .ok () s
  else .error (.exn (generalProtection 0)) s

/-- MOV r32, DR0..DR3 (`42_debug.md` R212). -/
def movFromDr03 (r : Reg) (n : Fin 4) : M Bool := do
  requireDebugAccess
  let v ← asks (·.dr n)
  update fun s => { s with gpr := s.gpr.set r v }
  finishWrite

/-- MOV r32, DR0..DR3. -/
def execMovFromDr03 (r : Reg) (n : Fin 4) (s : State) : Host.Outcome State Fault Refusal :=
  runInstr false (movFromDr03 r n) s

/-- DR6 or DR7, and its reserved bits (`42_debug.md` R212). -/
def State.dr67 (s : State) : Dr67 → Dword
  | .dr6 => s.dr6
  | .dr7 => s.dr7
def dr67Reserved : Dr67 → Dword
  | .dr6 => dr6Reserved
  | .dr7 => dr7Reserved

/-- MOV r32, DR6..DR7 (`42_debug.md` R212). -/
def movFromDr67 (r : Reg) (n : Dr67) : M Bool := do
  requireDebugAccess
  let v ← asks (·.dr67 n)
  finishRead r v (dr67Reserved n)

/-- MOV r32, DR6..DR7. -/
def execMovFromDr67 (r : Reg) (n : Dr67) (s : State) : Host.Outcome State Fault Refusal :=
  runInstr false (movFromDr67 r n) s

/-- MOV DR0..DR3, r32 (`42_debug.md` R213). -/
def movToDr03 (n : Fin 4) (r : Reg) : M Bool := do
  requireDebugAccess
  update fun s => s.setDr n (s.gpr.get r)
  finishWrite

/-- MOV DR0..DR3, r32. -/
def execMovToDr03 (n : Fin 4) (r : Reg) (s : State) : Host.Outcome State Fault Refusal :=
  runInstr false (movToDr03 n r) s

/-- A DR7 value that enables a breakpoint with a reserved LEN or RW, or an instruction breakpoint with a LEN other
than 00, is refused (`42_debug.md` R213). -/
def checkDr7 (v : Dword) : M Unit := fun s =>
  if bpReserved v then .error (.refused .reservedBreakpoint) s
  else if bpBadLength v then .error (.refused .instructionBreakpointLength) s
  else .ok () s

/-- Write DR6 or DR7 (`42_debug.md` R213). -/
def writeDr67 (n : Dr67) (v : Dword) : M Unit :=
  match n with
  | .dr6 => update fun s => { s with dr6 := v }
  | .dr7 => do
    checkDr7 v
    update fun s => { s with dr7 := v }

/-- MOV DR6..DR7, r32 (`42_debug.md` R213). -/
def movToDr67 (n : Dr67) (r : Reg) : M Bool := do
  requireDebugAccess
  let v ← asks (·.gpr.get r)
  writeDr67 n v
  finishWrite

/-- MOV DR6..DR7, r32. -/
def execMovToDr67 (n : Dr67) (r : Reg) (s : State) : Host.Outcome State Fault Refusal :=
  runInstr false (movToDr67 n r) s

end Sys2Proof.Machine
end

