-- ==== Sys2Proof/Machine/FarTransfer.lean ====
section
/-! DEFINITION. Far transfers: JMP and CALL, direct and through memory (`40_init_mode_switch.md` R154, R155). -/

namespace Sys2Proof.Machine

/-- JMP ptr16:16, JMP ptr16:32 (`40_init_mode_switch.md` R154). -/
def execJmpPtr (p : FarPtr) (s : State) : Host.Outcome State Fault Refusal :=
  runInstr true (farJump (farPtrSelector p) (farPtrOffset p)) s

/-- CALL ptr16:16, CALL ptr16:32 (`40_init_mode_switch.md` R155). -/
def execCallPtr (p : FarPtr) (s : State) : Host.Outcome State Fault Refusal :=
  runInstr false (farCall (farPtrSize p) (farPtrSelector p) (farPtrOffset p)) s

/-- A far jump through memory. -/
def farJumpMem (sz : OpSize) (m : MemOp) : M Bool := do
  let p ← readFarPtr sz m
  farJump p.2 p.1

/-- JMP m16:16, JMP m16:32 (`40_init_mode_switch.md` R154). -/
def execJmpMem (sz : OpSize) (m : MemOp) (s : State) : Host.Outcome State Fault Refusal :=
  runInstr true (farJumpMem sz m) s

/-- A far call through memory: the pointer is read before the pushes, which the spec does not order (log 44). -/
def farCallMem (sz : OpSize) (m : MemOp) : M Bool := do
  let p ← readFarPtr sz m
  farCall sz p.2 p.1

/-- CALL m16:16, CALL m16:32 (`40_init_mode_switch.md` R155). -/
def execCallMem (sz : OpSize) (m : MemOp) (s : State) : Host.Outcome State Fault Refusal :=
  runInstr false (farCallMem sz m) s

end Sys2Proof.Machine
end

