-- ==== Sys2Proof/Machine/Interrupt.lean ====
section
/-! DEFINITION. INT 3 and IRET (`42_debug.md` R232, `43_v86.md` R258). -/

namespace Sys2Proof.Machine

/-- The breakpoint exception of INT 3: vector 3, a trap, no error code; the saved pointer is the byte after the CC
(`42_debug.md` R232). -/
def breakpointEvent (s : State) : Event :=
  { vector := 3, cls := .trap, err := none, ip := s.next, restart := s.eip }

/-- INT 3 (`42_debug.md` R232): its effect is to take the breakpoint exception; what the end of an instruction adds
comes after it (`60_exceptions.md` R312). -/
def execInt3 (s : State) : Host.Outcome State Fault Refusal :=
  if s.prefetchStale then .refused .notJumpAfterPe
  else match deliver (breakpointEvent s) { s with eip := s.next } with
    | .next (.handler, s') => .next (complete s false s')
    | .next (.task, s') => .next (complete s true s')
    | .next (.replaced, s') => .next s'
    | .fault f => .fault f
    | .refused r => .refused r

/-- IRET, IRETD (`43_v86.md` R258). -/
def execIret (sz : OpSize) (s : State) : Host.Outcome State Fault Refusal :=
  runInstr false (iretBody sz) s

end Sys2Proof.Machine
end

