-- ==== Sys2Proof/Machine/NearTransfer.lean ====
section
/-! DEFINITION. Near transfers: JMP rel8, JMP rel16/32, CALL rel16/32 (`40_init_mode_switch.md` R152, R153). -/

namespace Sys2Proof.Machine

/-- A near jump by a sign-extended displacement (`40_init_mode_switch.md` R152). -/
def nearJump (sz : OpSize) (disp : Dword) : M Bool := do
  let next ← asks (·.next)
  let target := nearTarget next disp sz
  checkTarget target
  update fun s => { s with eip := target, prefetchStale := false }
  pure false

/-- JMP rel8 (`40_init_mode_switch.md` R152). -/
def execJmpRel8 (sz : OpSize) (d : Byte) (s : State) : Host.Outcome State Fault Refusal :=
  runInstr true (nearJump sz (d.signExtend 32)) s

/-- JMP rel16, JMP rel32 (`40_init_mode_switch.md` R152). -/
def execJmpRel (d : Rel) (s : State) : Host.Outcome State Fault Refusal :=
  runInstr true (nearJump (relSize d) (relDisp d)) s

/-- A near call (`40_init_mode_switch.md` R153): the return offset is pushed, then the jump; `prefetchStale` is not
cleared. -/
def nearCall (sz : OpSize) (disp : Dword) : M Bool := do
  let next ← asks (·.next)
  push false (sizeBytes sz) next
  let target := nearTarget next disp sz
  checkTarget target
  update fun s => { s with eip := target }
  pure false

/-- CALL rel16, CALL rel32 (`40_init_mode_switch.md` R153). -/
def execCallRel (d : Rel) (s : State) : Host.Outcome State Fault Refusal :=
  runInstr false (nearCall (relSize d) (relDisp d)) s

end Sys2Proof.Machine
end

