-- ==== Sys2Proof/Machine/SegmentLoad.lean ====
section
/-! DEFINITION. Loads of a segment register: MOV ES, SS, DS, FS, GS from r/m16 (`40_init_mode_switch.md` R157). -/

namespace Sys2Proof.Machine

/-- Load a segment register: as the 8086 would in real-address and V86 mode, through the open interface
LoadDescriptor in protected mode, where the processor may write the descriptor's accessed bit
(`40_init_mode_switch.md` R157, `20_memory.md` R96). -/
def loadSegment (r : SReg) (v : Selector) : M Unit := do
  let real ← asks State.like8086
  if real then update fun s => { s with seg := s.seg.set r ((s.seg.get r).load8086 v) }
  else do
    let n ← drawIndex
    let lvl ← asks State.level
    match Config.loadDescriptor n v lvl with
    | .fault x code lin => raise (Exn.ofVector x code lin)
    | .loaded base limit rights big usable reads stores => do
      update fun s => s.noteReads reads
      storeBytes stores
      update fun s =>
        { s with seg := s.seg.set r { selector := v, base := base, limit := limit, rights := rights, big := big,
                                      usable := usable } }

/-- MOV Sreg, r/m16 (`40_init_mode_switch.md` R157). -/
def movSreg (r : SReg) (src : Rm16) : M Bool := do
  let v ← readRm16 src
  loadSegment r v
  toNext

/-- MOV ES, r/m16. -/
def execMovEs (src : Rm16) (s : State) : Host.Outcome State Fault Refusal :=
  runInstr false (movSreg .es src) s

/-- MOV SS, r/m16: it holds off events and debug traps until after the next instruction
(`40_init_mode_switch.md` R157). -/
def movSs (src : Rm16) : M Bool := do
  let k ← movSreg .ss src
  update fun s => { s with holdOff := true }
  pure k

/-- MOV SS, r/m16. -/
def execMovSs (src : Rm16) (s : State) : Host.Outcome State Fault Refusal :=
  runInstr false (movSs src) s

/-- MOV DS, r/m16. -/
def execMovDs (src : Rm16) (s : State) : Host.Outcome State Fault Refusal :=
  runInstr false (movSreg .ds src) s

/-- MOV FS, r/m16. -/
def execMovFs (src : Rm16) (s : State) : Host.Outcome State Fault Refusal :=
  runInstr false (movSreg .fs src) s

/-- MOV GS, r/m16. -/
def execMovGs (src : Rm16) (s : State) : Host.Outcome State Fault Refusal :=
  runInstr false (movSreg .gs src) s

end Sys2Proof.Machine
end

