-- ==== Sys2Proof/Machine/TableLoad.lean ====
section
/-! DEFINITION. LIDT and LGDT (`40_init_mode_switch.md` R158, R159). -/

namespace Sys2Proof.Machine

/-- LIDT: six bytes of memory into IDTR, at CPL 0 (`40_init_mode_switch.md` R158). -/
def lidtBody (sz : OpSize) (m : MemOp) : M Bool := do
  requireLevel0
  let t ← readTable sz m
  update fun s => { s with idtr := t }
  toNext

/-- LIDT m16&32. -/
def execLidt (sz : OpSize) (m : MemOp) (s : State) : Host.Outcome State Fault Refusal :=
  runInstr false (lidtBody sz m) s

/-- LGDT: six bytes of memory into GDTR, at CPL 0 (`40_init_mode_switch.md` R159). -/
def lgdtBody (sz : OpSize) (m : MemOp) : M Bool := do
  requireLevel0
  let t ← readTable sz m
  update fun s => { s with gdtr := t }
  toNext

/-- LGDT m16&32. -/
def execLgdt (sz : OpSize) (m : MemOp) (s : State) : Host.Outcome State Fault Refusal :=
  runInstr false (lgdtBody sz m) s

end Sys2Proof.Machine
end

