-- ==== Sys2Proof/Machine/TestRegs.lean ====
section
/-! DEFINITION. Moves to and from TR6 and TR7, and the two TLB commands (`41_tlb_test.md` R180 to R194). -/

namespace Sys2Proof.Machine

/-- A bit pair X, X#: the bit it asks for, or none where the pair is undefined (`41_tlb_test.md` R187). -/
def pairOf (x xn : Bool) : Option Bool :=
  match x, xn with
  | false, true => some false
  | true, false => some true
  | false, false => none
  | true, true => none

/-- The bit a TLB write stores for a pair; for an undefined pair "the value of bit X in the entry" is undefined, a
free value (`10_state.md` R48; log 16). -/
def storedBit (x xn : Bool) : M Bool :=
  match pairOf x xn with
  | some b => pure b
  | none => do
    let w ← draw
    pure (w.getLsbD 0)

/-- Another valid entry holds the linear page: duplicate tags (`41_tlb_test.md` R186). -/
def State.hasOther (s : State) (i : Fin 32) (page : PageNo) : Bool :=
  (List.finRange 32).any fun j => j != i && s.tlb[j.val].v && s.tlb[j.val].lin == page

/-- The write command (`41_tlb_test.md` R186). -/
def tlbWrite : M Unit := do
  let t6 ← asks (·.tr6)
  let t7 ← asks (·.tr7)
  if !t7.ht then refuse .tlbWriteWithoutHt
  else do
    let d ← storedBit t6.d t6.dn
    let u ← storedBit t6.u t6.un
    let w ← storedBit t6.w t6.wn
    let p ← asks (·.params)
    let i := tlbSlot t7.rep (tlbIndex p t6.lin)
    let dup ← asks (·.hasOther i t6.lin)
    if t6.v && dup then refuse .duplicateTlbTags
    else update fun s =>
      { s.setTlb i { lin := t6.lin, v := t6.v, d := d, u := u, w := w, phys := t7.phys, written := true } with
        tlbMissed := false }

/-- An entry matches the request in TR6 (`41_tlb_test.md` R189). -/
def entryMatches (t : Tr6) (e : TlbEntry) : Bool :=
  e.lin == t.lin && e.v == t.v && pairOf t.d t.dn == some e.d && pairOf t.u t.un == some e.u &&
    pairOf t.w t.wn == some e.w

/-- The positions of the entries that match (`41_tlb_test.md` R189). -/
def State.tlbMatches (s : State) : List (Fin 32) :=
  (List.finRange 32).filter fun i => entryMatches s.tr6 s.tlb[i.val]

/-- The outcome of a lookup is determined: every pair is 01 or 10, and with V = 0 every entry has been written
(`41_tlb_test.md` R188). -/
def State.lookupDetermined (s : State) : Bool :=
  (pairOf s.tr6.d s.tr6.dn).isSome && (pairOf s.tr6.u s.tr6.un).isSome && (pairOf s.tr6.w s.tr6.wn).isSome &&
    (s.tr6.v || s.tlb.toList.all (·.written))

/-- A hit: TR6 and TR7 are set from the matching entry (`41_tlb_test.md` R188). -/
def State.lookupHit (s : State) (i : Fin 32) : State :=
  let e := s.tlb[i.val]
  { s with tr6 := { s.tr6 with d := e.d, dn := !e.d, u := e.u, un := !e.u, w := e.w, wn := !e.w },
           tr7 := { s.tr7 with ht := true, phys := e.phys, rep := BitVec.ofNat 2 (i.val / 8) },
           tlbMissed := false }

/-- A miss: HT is 0, the physical address and REP are free values, TR6 keeps the value written
(`41_tlb_test.md` R188). -/
def State.lookupMiss (s : State) (w : Dword) : State :=
  { s with tr7 := { s.tr7 with ht := false, phys := w.extractLsb' 12 20, rep := w.extractLsb' 2 2 },
           tlbMissed := true }

/-- A bit pair after an undetermined lookup: a defined pair can only be confirmed, an undefined one is set from the
entry that was found, if one was. -/
def pairAfter (hit x xn free : Bool) : Bool × Bool :=
  if hit && (pairOf x xn).isNone then (free, !free) else (x, xn)

/-- A lookup whose result the spec leaves open (U4, U5, U7): HT is a free value, and with it what TR6 and TR7 then
show (log 16). -/
def State.lookupOpen (s : State) (w v : Dword) : State :=
  let hit := w.getLsbD 4
  let d := pairAfter hit s.tr6.d s.tr6.dn (v.getLsbD 0)
  let u := pairAfter hit s.tr6.u s.tr6.un (v.getLsbD 1)
  let x := pairAfter hit s.tr6.w s.tr6.wn (v.getLsbD 2)
  { s with tr6 := { s.tr6 with d := d.1, dn := d.2, u := u.1, un := u.2, w := x.1, wn := x.2 },
           tr7 := { s.tr7 with ht := hit, phys := w.extractLsb' 12 20, rep := w.extractLsb' 2 2 },
           tlbMissed := !hit }

/-- A lookup the spec leaves open draws its result. -/
def lookupUndetermined : M Unit := do
  let w ← draw
  let v ← draw
  update fun s => s.lookupOpen w v

/-- The lookup command (`41_tlb_test.md` R188): the TLB is not changed. -/
def tlbLookup : M Unit := do
  let ok ← asks State.lookupDetermined
  if ok then do
    let found ← asks State.tlbMatches
    match found with
    | [i] => update fun s => s.lookupHit i
    | [] => do
      let w ← draw
      update fun s => s.lookupMiss w
    | _ :: _ :: _ => lookupUndetermined
  else lookupUndetermined

/-- The reserved bits of TR6 and TR7, and the fields of TR7 that are undefined after a miss, read as `draw`
(`41_tlb_test.md` R182, R183). -/
def tr6Reserved : Dword := 0x0000001E
def tr7Reserved : Dword := 0x00000FE3
def tr7Undefined : Dword := 0xFFFFF00C

/-- MOV r32, TR6 (`41_tlb_test.md` R182). -/
def movFromTr6 (r : Reg) : M Bool := do
  requireLevel0
  let v ← asks (·.tr6.toWord)
  finishRead r v tr6Reserved

/-- MOV r32, TR6. -/
def execMovFromTr6 (r : Reg) (s : State) : Host.Outcome State Fault Refusal :=
  runInstr false (movFromTr6 r) s

/-- The bits of TR7 that a read draws (`41_tlb_test.md` R183; log 34). -/
def State.tr7Mask (s : State) : Dword :=
  if s.tlbMissed && !s.tr7.ht then tr7Reserved ||| tr7Undefined else tr7Reserved

/-- MOV r32, TR7 (`41_tlb_test.md` R183). -/
def movFromTr7 (r : Reg) : M Bool := do
  requireLevel0
  let v ← asks (·.tr7.toWord)
  let mask ← asks State.tr7Mask
  finishRead r v mask

/-- MOV r32, TR7. -/
def execMovFromTr7 (r : Reg) (s : State) : Host.Outcome State Fault Refusal :=
  runInstr false (movFromTr7 r) s

/-- The command C selects (`10_state.md` R47). -/
def tlbCommand (c : Bool) : M Unit := if c then tlbLookup else tlbWrite

/-- MOV TR6, r32: TR6, then the command its C bit selects (`41_tlb_test.md` R184). -/
def movToTr6 (r : Reg) : M Bool := do
  requireLevel0
  update fun s => { s with tr6 := Tr6.ofWord (s.gpr.get r) }
  let c ← asks (·.tr6.c)
  tlbCommand c
  finishWrite

/-- MOV TR6, r32. -/
def execMovToTr6 (r : Reg) (s : State) : Host.Outcome State Fault Refusal :=
  runInstr false (movToTr6 r) s

/-- MOV TR7, r32: no TLB command is performed (`41_tlb_test.md` R185). -/
def movToTr7 (r : Reg) : M Bool := do
  requireLevel0
  update fun s => { s with tr7 := Tr7.ofWord (s.gpr.get r) }
  finishWrite

/-- MOV TR7, r32. -/
def execMovToTr7 (r : Reg) (s : State) : Host.Outcome State Fault Refusal :=
  runInstr false (movToTr7 r) s

end Sys2Proof.Machine
end

