-- ==== Sys2Proof/Machine/Dispatch.lean ====
section
/-! DEFINITION. One arm per instruction of `30_encoding.md` R130. -/

namespace Sys2Proof.Machine

def exec (i : Instr) (s : State) : Host.Outcome State Fault Refusal :=
  match i with
  -- near transfers
  | .jmpRel8 sz d => Sys2Proof.Machine.execJmpRel8 sz d s
  | .jmpRel d => Sys2Proof.Machine.execJmpRel d s
  | .callRel d => Sys2Proof.Machine.execCallRel d s
  -- far transfers
  | .jmpPtr p => Sys2Proof.Machine.execJmpPtr p s
  | .callPtr p => Sys2Proof.Machine.execCallPtr p s
  | .jmpMem sz m => Sys2Proof.Machine.execJmpMem sz m s
  | .callMem sz m => Sys2Proof.Machine.execCallMem sz m s
  -- segment loads
  | .movEs src => Sys2Proof.Machine.execMovEs src s
  | .movSs src => Sys2Proof.Machine.execMovSs src s
  | .movDs src => Sys2Proof.Machine.execMovDs src s
  | .movFs src => Sys2Proof.Machine.execMovFs src s
  | .movGs src => Sys2Proof.Machine.execMovGs src s
  -- table registers
  | .lidt sz m => Sys2Proof.Machine.execLidt sz m s
  | .lgdt sz m => Sys2Proof.Machine.execLgdt sz m s
  -- control registers
  | .movFromCr0 r => Sys2Proof.Machine.execMovFromCr0 r s
  | .movFromCr3 r => Sys2Proof.Machine.execMovFromCr3 r s
  | .movToCr0 r => Sys2Proof.Machine.execMovToCr0 r s
  | .movToCr3 r => Sys2Proof.Machine.execMovToCr3 r s
  | .lmsw src => Sys2Proof.Machine.execLmsw src s
  -- debug registers
  | .movFromDr03 r n => Sys2Proof.Machine.execMovFromDr03 r n s
  | .movFromDr67 r n => Sys2Proof.Machine.execMovFromDr67 r n s
  | .movToDr03 n r => Sys2Proof.Machine.execMovToDr03 n r s
  | .movToDr67 n r => Sys2Proof.Machine.execMovToDr67 n r s
  -- test registers
  | .movFromTr6 r => Sys2Proof.Machine.execMovFromTr6 r s
  | .movFromTr7 r => Sys2Proof.Machine.execMovFromTr7 r s
  | .movToTr6 r => Sys2Proof.Machine.execMovToTr6 r s
  | .movToTr7 r => Sys2Proof.Machine.execMovToTr7 r s
  -- interrupts and return
  | .int3 => Sys2Proof.Machine.execInt3 s
  | .iret sz => Sys2Proof.Machine.execIret sz s

end Sys2Proof.Machine
end

