-- ==== Sys2Proof/Machine/Step.lean ====
section
/-! DEFINITION. One step of the processor (`60_exceptions.md` R294): `boundary` is what comes before an instruction is
executed, `exec` executes it. -/

namespace Sys2Proof.Machine

/-- One step (`60_exceptions.md` R294). -/
def step (s : State) : Host.Outcome State Fault Refusal :=
  match boundary s with
  | .done o => o
  | .run i s' => exec i s'

/-- `s` with the instruction whose bits are `w` where `step` fetches its next instruction (log 35). -/
def State.withFetchWord (s : State) (nbits w : Nat) : State := s.placeInstr (tableBytes nbits w)

end Sys2Proof.Machine
end

