-- ==== Sys2Proof/Safety.lean ====
section
/-! DEFINITION. The terms in which claims speak: bytes of memory, what a store leaves, when memory can be written, and
the invariants of the machine. -/

namespace Sys2Proof.Machine

/-! ## Memory as claims see it -/

/-- The byte at a physical address, if it holds a value. -/
def State.byteAt (s : State) (a : Dword) : Option Byte := s.mem.read a.toNat

/-- The `n` bytes from `a` on as a little-endian number, if all of them hold a value (`20_memory.md` R92). -/
def Memory.load (m : Memory) : Nat → Dword → Option Dword
  | 0, _ => some 0
  | n + 1, a =>
    match m.read a.toNat with
    | none => none
    | some b =>
      match Memory.load m n (a + 1) with
      | none => none
      | some hi => some ((hi <<< 8) ||| b.setWidth 32)

/-- Memory after the low `n` bytes of `v` are stored from `a` on, least significant first (`20_memory.md` R92). -/
def Memory.store : Memory → Nat → Dword → Dword → Memory
  | m, 0, _, _ => m
  | m, n + 1, a, v => Memory.store (m.write a.toNat (v.setWidth 8)) n (a + 1) (v >>> 8)

/-- The launch declared the `n` bytes from `a` on as RAM (`70_reset_and_hazards.md` R343). -/
def State.ramAt (s : State) (a : Dword) (n : Nat) : Prop :=
  ∀ i, i < n → kindAt s.map (a + BitVec.ofNat 32 i).toNat = some .ram

/-- The physical address `x` is none of the `n` bytes from `a` on. -/
def outside (a : Dword) (n : Nat) (x : Dword) : Prop := ∀ i, i < n → x ≠ a + BitVec.ofNat 32 i

/-- The linear address a push of `n` bytes stores to (`10_state.md` R23). -/
def State.pushLin (s : State) (n : Nat) : Dword := s.lin .ss (s.spBelow n)

/-- A push of `n` bytes fits: paging is off, it does not cross the end of the stack, and it goes to RAM
(`40_init_mode_switch.md` R153, `70_reset_and_hazards.md` R343, R346). -/
def State.canPush (s : State) (n : Nat) : Prop :=
  s.cr0.pg = false ∧ s.pushCrosses n = false ∧ s.ramAt (s.pushLin n) n

/-- The state a push of `n` bytes of `v` leaves (`10_state.md` R23): an instruction's push is watched by the data
breakpoints, a delivery's only under BP_ON_IMPLICIT (`42_debug.md` R220). -/
def State.pushed (s : State) (implicit : Bool) (n : Nat) (v : Dword) : State :=
  let noted := if implicit then s.noteImplicit (s.pushLin n) n .write else s.noteAccess (s.pushLin n) n .write
  { noted.setSp (s.spBelow n) with mem := s.mem.store n (s.pushLin n) v }

/-- The linear address of the top of the stack. -/
def State.topLin (s : State) : Dword := s.lin .ss s.sp

/-- A pop of `n` bytes reads `v`: paging is off, it does not pass offset FFFFH in real-address or V86 mode, and the
bytes hold values (`10_state.md` R23). -/
def State.canPop (s : State) (n : Nat) (v : Dword) : Prop :=
  s.cr0.pg = false ∧ (s.like8086 && pastEnd s.sp n) = false ∧ s.mem.load n s.topLin = some v

/-- The state a pop of `n` bytes leaves (`10_state.md` R23). -/
def State.popped (s : State) (n : Nat) : State :=
  (s.noteAccess s.topLin n .read).setSp (s.sp + BitVec.ofNat 32 n)

/-- The first `n` bytes at `Lin(CS, EIP)` are those of `bs`, and none of them passes offset FFFFH where that is
refused. -/
def State.codeIs (s : State) (bs : List Byte) (n : Nat) : Prop :=
  ∀ k (h : k < bs.length), k < n →
    s.byteAt (s.linPc + BitVec.ofNat 32 k) = some bs[k] ∧ (s.like8086 = true → s.eip.toNat + k ≤ 0xFFFF)

/-! ## Several pushes and pops -/

/-- The state several pushes of `n` bytes leave, the first of the list first. -/
def State.pushedAll (implicit : Bool) (n : Nat) : List Dword → State → State
  | [], s => s
  | v :: t, s => State.pushedAll implicit n t (s.pushed implicit n v)

/-- Each of several pushes fits. -/
def State.canPushAll (implicit : Bool) (n : Nat) : List Dword → State → Prop
  | [], _ => True
  | v :: t, s => s.canPush n ∧ State.canPushAll implicit n t (s.pushed implicit n v)

/-- Several pops of `n` bytes read these values, the first of the list first. -/
def State.canPopAll (n : Nat) : List Dword → State → Prop
  | [], _ => True
  | v :: t, s => s.canPop n v ∧ State.canPopAll n t (s.popped n)

/-- The state `k` pops of `n` bytes leave. -/
def State.poppedAll (n : Nat) : Nat → State → State
  | 0, s => s
  | k + 1, s => State.poppedAll n k (s.popped n)

/-- The memory several images leave, the first of the list first. -/
def Memory.storeImages (m : Memory) : List (Nat × Dword × Dword) → Memory
  | [] => m
  | (n, a, v) :: t => (m.store n a v).storeImages t

/-- The images lie apart: no byte of one is a byte of another. -/
def imagesApart : List (Nat × Dword × Dword) → Prop :=
  List.Pairwise fun x y => ∀ i, i < y.1 → outside x.2.1 x.1 (y.2.1 + BitVec.ofNat 32 i)

/-- A physical address outside the bytes that `k` pushes of `n` bytes store. -/
def State.outsidePushes (n : Nat) (x : Dword) : Nat → State → Prop
  | 0, _ => True
  | k + 1, s => outside (s.pushLin n) n x ∧ State.outsidePushes n x k (s.setSp (s.spBelow n))

/-! ## Memory operands -/

/-- The `n` bytes of a memory operand, `k` bytes after its address, read as `v`: paging is off, the access is one the
mode allows, and the bytes hold values (`20_memory.md` R86, R92). -/
def State.operandIs (s : State) (m : MemOp) (k n : Nat) (v : Dword) : Prop :=
  let off := effAddr s.gpr m.ea + BitVec.ofNat 32 k
  s.cr0.pg = false ∧ (s.like8086 = true → pastEnd off n = false) ∧
    (s.like8086 = false → (s.seg.get (memSegment m)).usable = true) ∧
    s.mem.load n (s.dataLin (memSegment m) off) = some v

/-- The state reading them leaves: only the data breakpoints see it (`42_debug.md` R220). -/
def State.sawOperand (s : State) (m : MemOp) (k n : Nat) : State :=
  s.noteAccess (s.dataLin (memSegment m) (effAddr s.gpr m.ea + BitVec.ofNat 32 k)) n .read

/-! ## Delivery in real-address mode -/

/-- The linear address of the table entry of a vector (`60_exceptions.md` R301). -/
def State.entryLin (s : State) (v : Vec) : Dword := s.idtr.base + 4 * v.setWidth 32

/-- What a delivery in real-address mode pushes: FLAGS, CS and the saved pointer (`60_exceptions.md` R301). -/
def State.realFrame (s : State) (e : Event) : List Dword :=
  [e.image s.flags, s.seg.cs.selector.setWidth 32, e.ip]

/-- An event can be delivered in real-address mode: its entry lies in the table and reads as `entry`, and the three
pushes fit. -/
def State.canEnterReal (s : State) (e : Event) (entry : Dword) : Prop :=
  s.mode = .real ∧ s.cr0.pg = false ∧ 4 * e.vector.toNat + 3 ≤ s.idtr.limit.toNat ∧
    s.mem.load 4 (s.entryLin e.vector) = some entry ∧
    State.canPushAll true 2 (s.realFrame e) (s.noteImplicit (s.entryLin e.vector) 4 .read)

/-- The state that delivery leaves (`60_exceptions.md` R301, R303). -/
def State.enteredReal (s : State) (e : Event) (entry : Dword) : State :=
  let t := State.pushedAll true 2 (s.realFrame e) (s.noteImplicit (s.entryLin e.vector) 4 .read)
  { t with flags := { s.flags with ifl := false, tf := false, rf := false, vm := false },
           seg := { s.seg with cs := s.seg.cs.load8086 (entry.extractLsb' 16 16) }, latch := false,
           eip := zext16 entry }

/-! ## The boundary -/

/-- Nothing is taken at the step boundary: the processor runs, the environment presents nothing, and either the events
are held off or there are none; and no instruction breakpoint is hit (`60_exceptions.md` R294 steps 0 to 3). -/
def State.goesOn (s : State) : Prop :=
  s.run = .running ∧ s.inputs = [] ∧ (s.holdOff = true ∨ (s.traps = 0 ∧ s.external = none)) ∧
    (s.flags.rf = true ∨ fetchHits s s.linPc = 0)

/-- The state past the events of the boundary. -/
def State.pastEvents (s : State) : State :=
  { s with holdOff := false, quiet := if s.holdOff then s.quiet else 0 }

/-- The state in which the instruction is fetched. -/
def State.pastBoundary (s : State) : State := s.pastEvents.noteFetch

/-! ## Groups of registers -/

/-- The system registers: control, table, test and debug registers, the LDT and task registers. -/
structure SystemRegs where
  cr0  : Cr0
  cr2  : Dword
  cr3  : Dword
  gdtr : TableReg
  idtr : TableReg
  ldtReg  : Selector
  taskReg : TaskReg
  tr6  : Tr6
  tr7  : Tr7
  dr0  : Dword
  dr1  : Dword
  dr2  : Dword
  dr3  : Dword
  dr6  : Dword
  dr7  : Dword
deriving DecidableEq, Repr

/-- The system registers of a state. -/
def State.system (s : State) : SystemRegs :=
  { cr0 := s.cr0, cr2 := s.cr2, cr3 := s.cr3, gdtr := s.gdtr, idtr := s.idtr, ldtReg := s.ldtReg,
    taskReg := s.taskReg, tr6 := s.tr6, tr7 := s.tr7, dr0 := s.dr0, dr1 := s.dr1, dr2 := s.dr2, dr3 := s.dr3,
    dr6 := s.dr6, dr7 := s.dr7 }

/-- Every byte of memory is the same. -/
def State.sameMemory (s t : State) : Prop := ∀ x : Dword, t.byteAt x = s.byteAt x

/-- Every flag but the six status flags and RF is the same, and RF is clear (`40_init_mode_switch.md` R150 (f)). -/
def Eflags.sameControl (f g : Eflags) : Prop :=
  g.tf = f.tf ∧ g.ifl = f.ifl ∧ g.df = f.df ∧ g.iopl = f.iopl ∧ g.nt = f.nt ∧ g.vm = f.vm ∧ g.rf = false

/-- The flags an instruction that "computes no flag" leaves: RF clear, the rest the same (`40_init_mode_switch.md`
R150 (f), `42_debug.md` R225). -/
def Eflags.resumed (f : Eflags) : Eflags := { f with rf := false }

/-- The instructions that need privilege level 0 (`40_init_mode_switch.md` R150 (g), R158 to R162, `41_tlb_test.md`
R181, `42_debug.md` R212, R213). -/
def needsLevel0 : Instr → Bool
  | .jmpRel8 _ _ | .jmpRel _ | .callRel _ | .jmpPtr _ | .callPtr _ | .jmpMem _ _ | .callMem _ _ => false
  | .movEs _ | .movSs _ | .movDs _ | .movFs _ | .movGs _ | .int3 | .iret _ => false
  | .lidt _ _ | .lgdt _ _ | .movFromCr0 _ | .movFromCr3 _ | .movToCr0 _ | .movToCr3 _ | .lmsw _ => true
  | .movFromDr03 _ _ | .movFromDr67 _ _ | .movToDr03 _ _ | .movToDr67 _ _ => true
  | .movFromTr6 _ | .movFromTr7 _ | .movToTr6 _ | .movToTr7 _ => true

/-- The JMP instructions, the only ones with a meaning while the prefetch queue may be stale (`20_memory.md` R104). -/
def isJump : Instr → Bool
  | .jmpRel8 _ _ | .jmpRel _ | .jmpPtr _ | .jmpMem _ _ => true
  | .callRel _ | .callPtr _ | .callMem _ _ | .movEs _ | .movSs _ | .movDs _ | .movFs _ | .movGs _ => false
  | .lidt _ _ | .lgdt _ _ | .movFromCr0 _ | .movFromCr3 _ | .movToCr0 _ | .movToCr3 _ | .lmsw _ => false
  | .movFromDr03 _ _ | .movFromDr67 _ _ | .movToDr03 _ _ | .movToDr67 _ _ => false
  | .movFromTr6 _ | .movFromTr7 _ | .movToTr6 _ | .movToTr7 _ | .int3 | .iret _ => false

/-! ## Invariants -/

/-- Memory is in its canonical form. -/
def State.MemOk (s : State) : Prop := s.mem.wf = true

/-- Real-address mode: no paging, no V86, level 0, no stale prefetch (`10_state.md` R37, R30, R62, R60); V86 mode:
level 3 (R62). -/
def State.ModeOk (s : State) : Prop :=
  (s.mode = .real → s.cr0.pg = false ∧ s.flags.vm = false ∧ s.cpl = 0 ∧ s.prefetchStale = false) ∧
  (s.mode = .v86 → s.cpl = 3)

/-- In real-address and V86 mode the instruction pointer has 16 bits (`10_state.md` R25). -/
def State.PcOk (s : State) : Prop := s.like8086 = true → s.eip.toNat ≤ 0xFFFF

/-- The base of a segment register is the one the 8086 would form (`20_memory.md` R84), in a 16-bit segment. -/
def SegReg.Is8086 (r : SegReg) : Prop :=
  r.base = r.selector.setWidth 32 <<< 4 ∧ r.big = false ∧ r.usable = true

/-- CS as RESET leaves it (`10_state.md` R34). -/
def SegReg.IsResetCs (r : SegReg) : Prop :=
  r.selector = 0 ∧ r.base = 0xFFFF0000 ∧ r.big = false ∧ r.usable = true

/-- In real-address and V86 mode every segment register has its 8086 base; only CS in real-address mode may still
have the base of RESET, and then the A31-20 latch is up (`10_state.md` R33, R34, R61, `20_memory.md` R84). -/
def State.SegOk (s : State) : Prop :=
  s.like8086 = true →
    (s.seg.es.Is8086 ∧ s.seg.ss.Is8086 ∧ s.seg.ds.Is8086 ∧ s.seg.fs.Is8086 ∧ s.seg.gs.Is8086) ∧
    (s.seg.cs.Is8086 ∨ (s.mode = .real ∧ s.latch = true ∧ s.seg.cs.IsResetCs))

/-- DR7 enables no breakpoint with a reserved LEN or RW, and no instruction breakpoint with LEN other than 00
(`42_debug.md` R213). -/
def State.Dr7Ok (s : State) : Prop := bpReserved s.dr7 = false ∧ bpBadLength s.dr7 = false

/-- T holds only DR6 bits that can be debug trap conditions: B0 to B3, BS, BT (`42_debug.md` R222). -/
def State.TrapsOk (s : State) : Prop := s.traps &&& 0xFFFF3FF0 = 0 ∧ s.quiet &&& 0xFFFFFFF0 = 0

/-- No two valid TLB entries hold one linear page (`41_tlb_test.md` R186, `93_implementation_defined.md` U2). -/
def State.TlbUnique (s : State) : Prop :=
  ∀ i j : Fin 32, s.tlb[i.val].v = true → s.tlb[j.val].v = true → s.tlb[i.val].lin = s.tlb[j.val].lin → i = j

/-- Every entry that has been written stands, in its block, at the position its linear address selects
(`41_tlb_test.md` R189), and only such an entry is valid (`10_state.md` R59). -/
def State.TlbPlaced (s : State) : Prop :=
  ∀ i : Fin 32, (s.tlb[i.val].v = true → s.tlb[i.val].written = true) ∧
    (s.tlb[i.val].written = true → (tlbIndex s.params s.tlb[i.val].lin).toNat = i.val % 8)

/-- The invariant of the machine: everything above. -/
structure State.Inv (s : State) : Prop where
  mem    : s.MemOk
  mode   : s.ModeOk
  pc     : s.PcOk
  seg    : s.SegOk
  dr7    : s.Dr7Ok
  traps  : s.TrapsOk
  unique : s.TlbUnique
  placed : s.TlbPlaced

end Sys2Proof.Machine
end

