-- ==== Sys2Proof/Certificates/Slice0/Obligations.lean ====
section
/-! DEFINITION. The statements for the provers. `exec i s` starts in a state whose `next` is the instruction pointer of
the next instruction; `complete s rf t` is the end of an instruction that began in `s` and led to `t`: RF cleared
unless `rf`, and BS in T if TF was 1 (`60_exceptions.md` R294 steps 7, 8). A statement about `Config.freeWord` holds for
every free value: the constant has no body. -/

open Sys2Proof Sys2Proof.Machine

/-! ## Encoding -/

/-- Every well-formed instruction decodes from its encoding, whatever follows it (`30_encoding.md` R120 to R131). -/
def Obligations.DecodeEncodeRoundTrip : Prop :=
  ∀ (dflt : OpSize) (i : Instr) (rest : List Byte), i.wf = true →
    decode dflt (encode dflt i ++ rest) = .ok i (encode dflt i).length

/-- Twelve words written out from the encodings decode to the instructions they stand for (`30_encoding.md` R130). -/
def Obligations.WrittenOutWordsDecode : Prop :=
  decode .w16 [0xEB, 0x0E] = .ok (.jmpRel8 .w16 0x0E) 2 ∧
  decode .w16 [0xE8, 0x10, 0x00] = .ok (.callRel (.rel16 0x0010)) 3 ∧
  decode .w16 [0xEA, 0x00, 0x05, 0x00, 0x00] = .ok (.jmpPtr (.ptr16 0x0500 0x0000)) 5 ∧
  decode .w16 [0x9A, 0x00, 0x02, 0x00, 0x30] = .ok (.callPtr (.ptr16 0x0200 0x3000)) 5 ∧
  decode .w16 [0x8E, 0xD0] = .ok (.movSs (.reg .eax)) 2 ∧
  decode .w16 [0x0F, 0x01, 0x1E, 0x00, 0x06] = .ok (.lidt .w16 { seg := none, ea := .direct16 0x0600 }) 5 ∧
  decode .w16 [0x0F, 0x22, 0xC0] = .ok (.movToCr0 .eax) 3 ∧
  decode .w16 [0x0F, 0x01, 0xF0] = .ok (.lmsw (.reg .eax)) 3 ∧
  decode .w16 [0x0F, 0x21, 0xF0] = .ok (.movFromDr67 .eax .dr6) 3 ∧
  decode .w16 [0x0F, 0x26, 0xF3] = .ok (.movToTr6 .ebx) 3 ∧
  decode .w16 [0xCC] = .ok .int3 1 ∧
  decode .w16 [0x66, 0xCF] = .ok (.iret .w32) 2

/-! ## The step -/

/-- A step runs the instruction the decoder reads from the bytes at `Lin(CS, EIP)`, with `next` set past it, 16 bits
wide in real-address and V86 mode; and with paging on, the instruction that the fetch finds
(`40_init_mode_switch.md` R150, `60_exceptions.md` R294, `10_state.md` R25). That the instruction pointer of protected
mode, for which R25 gives no modulus, advances modulo 2^32 is the model's choice of log 41, and what the start of the
instruction adds to the bits of disabled breakpoints that of log 27. -/
def Obligations.StepRunsDecodedInstruction : Prop :=
  (∀ (s : State) (bs : List Byte) (i : Instr) (n : Nat), s.goesOn → s.cr0.pg = false →
    decode s.defaultSize bs = .ok i n → i.wf = true → n ≤ 15 → s.codeIs bs n →
    step s = exec i { s.pastBoundary with
      next := if s.like8086 then zext16 (s.eip + BitVec.ofNat 32 n) else s.eip + BitVec.ofNat 32 n }) ∧
  (∀ (s t : State) (i : Instr) (n : Nat), s.goesOn → fetchInstr s.pastBoundary = .ok (i, n) t →
    step s = exec i { t with next := t.advance n })

/-- Reserved register numbers in the special-register moves and illegal operand forms are no instructions; a step that
meets such bytes takes the invalid-opcode exception, vector 6 without an error code, and while the prefetch queue may be
stale it refuses (`30_encoding.md` R136, R137; taking the exception, where `92_eei_decisions.md` D18 has a model refuse,
and taking it as soon as ModRM is read are the model's choices of log 15). -/
def Obligations.IllegalEncodingsTakeVectorSix : Prop :=
  (∀ (dflt : OpSize) (m : Byte) (rest : List Byte),
    (fieldMid m = 1 ∨ 4 ≤ (fieldMid m).toNat →
      decode dflt (0x0F :: 0x20 :: m :: rest) = .invalid ∧ decode dflt (0x0F :: 0x22 :: m :: rest) = .invalid) ∧
    (fieldMid m = 2 →
      decode dflt (0x0F :: 0x20 :: m :: rest) = .unsupported .controlRegister2 ∧
      decode dflt (0x0F :: 0x22 :: m :: rest) = .unsupported .controlRegister2) ∧
    (fieldMid m = 4 ∨ fieldMid m = 5 →
      decode dflt (0x0F :: 0x21 :: m :: rest) = .invalid ∧ decode dflt (0x0F :: 0x23 :: m :: rest) = .invalid) ∧
    ((fieldMid m).toNat < 6 →
      decode dflt (0x0F :: 0x24 :: m :: rest) = .invalid ∧ decode dflt (0x0F :: 0x26 :: m :: rest) = .invalid) ∧
    (fieldHi m = 3 → fieldMid m = 3 ∨ fieldMid m = 5 → decode dflt (0xFF :: m :: rest) = .invalid) ∧
    (fieldHi m = 3 → fieldMid m = 2 ∨ fieldMid m = 3 → decode dflt (0x0F :: 0x01 :: m :: rest) = .invalid) ∧
    (fieldMid m = 1 ∨ fieldMid m = 6 ∨ fieldMid m = 7 → decode dflt (0x8E :: m :: rest) = .invalid)) ∧
  ∀ (s : State) (bs : List Byte), s.goesOn → s.cr0.pg = false →
    decode s.defaultSize bs = .invalid → (∀ k, k < bs.length → decode s.defaultSize (bs.take k) = .more) →
    bs.length ≤ 15 → s.codeIs bs bs.length →
    (s.prefetchStale = false → step s = takeFault (Exn.plain 6 none) s.pastBoundary s.pastBoundary) ∧
    (s.prefetchStale = true → step s = .refused .notJumpAfterPe)

/-- What the environment presents at the boundary joins the pending events. Of the debug traps, an instruction
breakpoint, the nonmaskable interrupt and a maskable interrupt under IF = 1, a step takes the first; after a load of SS
the traps and the interrupts wait; where there is none to take, the instruction is fetched and run, and a maskable
interrupt under IF = 0 stays pending (`60_exceptions.md` R293, R294, R312, `40_init_mode_switch.md` R157). The order is
that of R312 and `92_eei_decisions.md` D11, where the steps of R294 look at the instruction breakpoint after the
interrupts: the model's choice of log 43. Which bits of disabled breakpoints DR6 shows is the model's choice of log 27,
that a newly presented vector replaces a pending one that of log 39. An interrupt is delivered without an error code,
with EIP as the saved pointer (`60_exceptions.md` R300). -/
def Obligations.EventsAreTakenInOrder : Prop :=
  (∀ s : State, s.run = .running → (∀ p ∈ s.inputs.head?, p.reset = none) →
    let u : State :=
      match s.inputs with
      | [] => s
      | p :: rest =>
        { s with inputs := rest, nmi := s.nmi || p.nmi,
                 intr := match p.intr with
                   | some v => some v
                   | none => s.intr }
    let hit : Prop := u.flags.rf = false ∧ fetchHits u u.linPc ≠ 0
    (u.holdOff = false → u.traps ≠ 0 →
      step s = raiseDebug .trap (u.traps ||| u.quiet) { u with traps := 0, quiet := 0 }) ∧
    (u.holdOff = true ∨ u.traps = 0 → hit →
      step s = raiseDebug .fault (fetchHits u u.linPc ||| fetchQuiet u u.linPc) u.pastEvents) ∧
    (u.holdOff = false → u.traps = 0 → ¬hit → u.nmi = true →
      step s = deliverExternal 2 { u with nmi := false, quiet := 0 }) ∧
    (∀ v, u.holdOff = false → u.traps = 0 → ¬hit → u.nmi = false → u.intr = some v → u.flags.ifl = true →
      step s = deliverExternal v { u with intr := none, quiet := 0 }) ∧
    (¬hit → u.holdOff = true ∨ (u.traps = 0 ∧ u.nmi = false ∧ (u.intr = none ∨ u.flags.ifl = false)) →
      let w := u.pastBoundary
      (w.nmi = u.nmi ∧ w.intr = u.intr ∧ w.traps = u.traps ∧ w.inputs = u.inputs) ∧
      step s =
        match fetchInstr w with
        | .ok (i, n) t => exec i { t with next := t.advance n }
        | .error (.exn x) t => takeFault x w t
        | .error (.fault f) _ => .fault f
        | .error (.refused r) _ => .refused r)) ∧
  ∀ (v : Vec) (t : State),
    deliverExternal v t =
      match deliver { vector := v, cls := .interrupt, err := none, ip := t.eip, restart := t.eip } t with
      | .next (_, u) => .next u
      | .fault f => .fault f
      | .refused r => .refused r

/-! ## Reset -/

/-- RESET, in every state, shutdown included: every value the spec gives, and memory, the map and the parameters as
they were (`10_state.md` R65, `70_reset_and_hazards.md` R340). -/
def Obligations.ResetEventSetsGivenValues : Prop :=
  ∀ (s : State) (p : Presented) (rest : List Presented) (q : Config.ResetParams),
    s.inputs = p :: rest → p.reset = some q → ∃ t, step s = .next t ∧
      ((q.selfTest = .passed → t.gpr.eax = 0) ∧ ∀ c, q.selfTest = .failed c → t.gpr.eax ≠ 0) ∧
      (high8 t.gpr.edx = 3 ∧ low8 t.gpr.edx = q.revId) ∧ t.flags.toWord = 2 ∧ t.eip = 0xFFF0 ∧
      (∀ r, (t.seg.get r).selector = 0) ∧ t.seg.cs.base = 0xFFFF0000 ∧ (∀ r, r ≠ .cs → (t.seg.get r).base = 0) ∧
      t.idtr = { base := 0, limit := 0x03FF } ∧
      (t.cr0.pe = false ∧ t.cr0.pg = false ∧ t.cr0.et = q.etAtReset ∧ t.cr0.ts = false ∧ t.cr0.em = false ∧
        t.cr0.mp = false) ∧
      t.dr7 &&& 0x20FF = 0 ∧ (∀ i : Fin 32, t.tlb[i.val].v = false) ∧ t.mode = .real ∧ t.cpl = 0 ∧
      t.latch = true ∧ t.run = .running ∧ t.prefetchStale = false ∧ t.traps = 0 ∧ t.nmi = false ∧ t.intr = none ∧
      t.mem = s.mem ∧ t.map = s.map ∧ t.params = s.params ∧ t.inputs = rest

/-- After RESET: real-address mode, level 0 (the spec's own reading of real-address mode), IF = 0, TF = 0, paging off;
and a nonmaskable interrupt that is pending then is taken at once, IF being 0 (`70_reset_and_hazards.md` R342). -/
def Obligations.InitialModeAndMasks : Prop :=
  (∀ (q : Config.ResetParams) (s : State),
    (s.resetEvent q).mode = .real ∧ (s.resetEvent q).level = 0 ∧ (s.resetEvent q).flags.ifl = false ∧
      (s.resetEvent q).flags.tf = false ∧ (s.resetEvent q).cr0.pg = false) ∧
  ∀ (q : Config.ResetParams) (s : State), s.inputs = [] →
    step { s.resetEvent q with nmi := true } = deliverExternal 2 (s.resetEvent q)

/-- The first instruction after RESET is the one the bytes from physical FFFFFFF0H on hold, that is CS base FFFF0000H
plus IP FFF0H; and a near jump made with that base goes to an address in FFFF0000H to FFFFFFFFH
(`70_reset_and_hazards.md` R341). -/
def Obligations.FirstFetchIsAtFFFFFFF0 : Prop :=
  (∀ (q : Config.ResetParams) (s : State), (s.resetEvent q).linPc = 0xFFFFFFF0 ∧
    (s.resetEvent q).seg.cs.base = 0xFFFF0000 ∧ (s.resetEvent q).eip = 0xFFF0) ∧
  (∀ (q : Config.ResetParams) (s : State) (bs : List Byte) (i : Instr) (n : Nat), s.inputs = [] →
    decode .w16 bs = .ok i n → n ≤ 15 →
    (∀ k (h : k < bs.length), k < n → s.byteAt (0xFFFFFFF0 + BitVec.ofNat 32 k) = some bs[k]) →
    step (s.resetEvent q) = exec i { s.resetEvent q with next := 0xFFF0 + BitVec.ofNat 32 n }) ∧
  ∀ (s : State) (d : Word), s.seg.cs.base = 0xFFFF0000 → ∃ t, exec (.jmpRel (.rel16 d)) s = .next t ∧
    t.seg.cs = s.seg.cs ∧ 0xFFFF0000 ≤ t.linPc.toNat

/-! ## State -/

/-- The EFLAGS word: bit 1 reads 1, bits 3, 5, 15 and 31:18 read 0, every named flag stands at its bit, and EFLAGS is
00000002H after RESET (`10_state.md` R26). -/
def Obligations.EflagsWordLayout : Prop :=
  (∀ f : Eflags,
    f.toWord &&& 0xFFFC802A = 2 ∧ f.toWord.getLsbD 0 = f.cf ∧ f.toWord.getLsbD 2 = f.pf ∧ f.toWord.getLsbD 4 = f.af ∧
      f.toWord.getLsbD 6 = f.zf ∧ f.toWord.getLsbD 7 = f.sf ∧ f.toWord.getLsbD 8 = f.tf ∧ f.toWord.getLsbD 9 = f.ifl ∧
      f.toWord.getLsbD 10 = f.df ∧ f.toWord.getLsbD 11 = f.ovf ∧ f.toWord.extractLsb' 12 2 = f.iopl ∧
      f.toWord.getLsbD 14 = f.nt ∧ f.toWord.getLsbD 16 = f.rf ∧ f.toWord.getLsbD 17 = f.vm ∧
      Eflags.ofWord f.toWord = f) ∧
  ∀ (q : Config.ResetParams) (s : State), (s.resetEvent q).flags.toWord = 0x00000002

/-! ## Memory -/

/-- What is stored to RAM is read back, byte by byte least significant first, at any alignment; every other byte stays;
a write to an address the launch did not declare is refused (`20_memory.md` R92, R94, R100, `70_reset_and_hazards.md`
R343). That a write to ROM has no effect and the instruction goes on is the model's choice, a reading of R343 in log 5;
that the byte after FFFFFFFFH is the one at 0 is the model's choice of log 41. -/
def Obligations.StoreThenReadIsLittleEndian : Prop :=
  (∀ (s : State) (cpl : Level) (k : Config.Access) (n : Nat) (a v : Dword), s.cr0.pg = false → n ≤ 4 → s.ramAt a n →
    ∃ t, writeLin cpl n a v s = .ok () t ∧
      (∀ i, i < n → t.byteAt (a + BitVec.ofNat 32 i) = some (v.extractLsb' (8 * i) 8)) ∧
      (∀ x, outside a n x → t.byteAt x = s.byteAt x) ∧
      readLin k cpl n a t = .ok (v &&& BitVec.ofNat 32 (2 ^ (8 * n) - 1)) t) ∧
  ∀ (s : State) (p : Dword) (b : Byte),
    (kindAt s.map p.toNat = some .rom → writePhys p b s = .ok () s) ∧
    (kindAt s.map p.toNat = none → writePhys p b s = .error (.refused (.writeUndeclared p)) s)

/-- The 8086 sum is exact, at most 10FFEFH with the carry out of bit 19 kept; so every byte that V86 code can reach has
a linear address in 0 to 10FFEFH (`20_memory.md` R85). -/
def Obligations.V86AddressesStayInRange : Prop :=
  (∀ (s : State) (r : SReg) (off : Word), (s.seg.get r).Is8086 →
    (s.lin r (off.setWidth 32)).toNat = (s.seg.get r).selector.toNat * 16 + off.toNat ∧
    (s.lin r (off.setWidth 32)).toNat ≤ 0x10FFEF) ∧
  ∀ (s : State) (r : SReg) (off : Dword) (n : Nat), s.Inv → s.mode = .v86 → 0 < n → n ≤ 4 →
    off.toNat + n ≤ 0x10000 →
    checkAccess r off n s = .ok () s ∧ s.dataLin r off = s.lin r off ∧
      ∀ i, i < n → (s.lin r off + BitVec.ofNat 32 i).toNat ≤ 0x10FFEF

/-- Without paging, and in real-address mode always, a linear address is the physical address. With paging, one valid
TLB entry with the page's tag translates without the page tables: its frame and the offset, unless the open permission
check answers a page fault; a supervisor entry refuses CPL 3 with vector 14, whose error code is a free value. On a miss
the open walk answers the frame, and the block of the TLB that takes the translation, or a page fault; a supervisor page
refuses CPL 3 and fills nothing (`20_memory.md` R82, R90, R99, `10_state.md` R59, `41_tlb_test.md` R194; the walk's
shape is the model's choice of log 8). That the walk answers as well where two or more valid entries hold the page is
the model's reading, log 33. -/
def Obligations.LinearAddressesTranslate : Prop :=
  (∀ (s : State) (lin : Dword) (k : Config.Access) (cpl : Level),
    s.cr0.pg = false ∨ (s.Inv ∧ s.mode = .real) → Machine.translate lin k cpl s = .ok lin s) ∧
  (∀ (s : State) (lin : Dword) (k : Config.Access) (cpl : Level) (e : TlbEntry), s.cr0.pg = true →
    s.tlbHits (lin.extractLsb' 12 20) = [e] →
    ((cpl ≠ 3 ∨ e.u = true) →
      Machine.translate lin k cpl s =
        match Config.tlbHitCheck s.free e.d e.u e.w k cpl with
        | none => .ok (e.phys ++ lin.extractLsb' 0 12) { s with free := s.free + 1 }
        | some err => .error (.exn (pageFault lin err)) { s with free := s.free + 1 }) ∧
    (cpl = 3 → e.u = false →
      Machine.translate lin k cpl s =
        .error (.exn (pageFault lin (Config.freeWord s.free))) { s with free := s.free + 1 })) ∧
  ∀ (s : State) (lin : Dword) (k : Config.Access) (cpl : Level), s.cr0.pg = true →
    let page : PageNo := lin.extractLsb' 12 20
    (∀ e, s.tlbHits page ≠ [e]) →
    match Config.pageWalk s.free lin k cpl with
    | .fault err =>
      Machine.translate lin k cpl s = .error (.exn (pageFault lin err)) { s with free := s.free + 1 }
    | .page frame d u w fill reads =>
      let t : State := ({ s with free := s.free + 1 } : State).noteReads reads
      (cpl = 3 ∧ u = false →
        Machine.translate lin k cpl s =
          .error (.exn (pageFault lin (Config.freeWord (s.free + 1)))) { t with free := s.free + 2 }) ∧
      (cpl ≠ 3 ∨ u = true →
        Machine.translate lin k cpl s = .ok (frame ++ lin.extractLsb' 0 12)
          { t with tlb := match fill with
              | none => s.tlb
              | some b => s.tlb.set (tlbSlot b (tlbIndex s.params page)).val
                  { lin := page, v := true, d := d, u := u, w := w, phys := frame, written := true } })

/-! ## Operands -/

/-- An `r/m16` operand is the low word of a register or the word at its address; a far pointer in memory is the offset
at its address and the selector behind it. In real-address and V86 mode an access that passes offset FFFFH is refused
(`30_encoding.md` R123, R125, R126, `40_init_mode_switch.md` R154, `92_eei_decisions.md` D2; log 19, and log 38 for the
address of the selector). -/
def Obligations.OperandsReadTheirBytes : Prop :=
  (∀ (s : State) (r : Reg), readRm16 (.reg r) s = .ok (low16 (s.gpr.get r)) s) ∧
  (∀ (s : State) (m : MemOp) (v : Dword), s.operandIs m 0 2 v →
    readRm16 (.mem m) s = .ok (low16 v) (s.sawOperand m 0 2)) ∧
  (∀ (s : State) (m : MemOp) (off sel : Dword),
    (s.operandIs m 0 2 off → s.operandIs m 2 2 sel →
      readFarPtr .w16 m s = .ok (off, low16 sel) ((s.sawOperand m 0 2).sawOperand m 2 2)) ∧
    (s.operandIs m 0 4 off → s.operandIs m 4 2 sel →
      readFarPtr .w32 m s = .ok (off, low16 sel) ((s.sawOperand m 0 4).sawOperand m 4 2))) ∧
  ∀ (s : State) (r : SReg) (off : Dword) (n : Nat), s.like8086 = true → 0x10000 < off.toNat + n →
    readData r off n s = .error (.refused .pastSegmentEnd) s

/-- Effective addresses, in every form: the low 16 bits of the register sum and the displacement with a 16-bit address
size; base, scaled index and displacement modulo 2^32 with a 32-bit one; 8-bit displacements are sign-extended. SS is
the default segment with BP, EBP or ESP as base, DS otherwise; an override replaces it (`30_encoding.md` R125, R121).
That the 32-bit sum, for which R125 gives no modulus, is taken modulo 2^32 is the model's choice of log 41. -/
def Obligations.EffectiveAddresses : Prop :=
  ∀ g : GRegs,
    let n (r : Reg) : Int := (g.get r).toNat
    let base (b : Base16) : Int :=
      match b with
      | .bxSi => n .ebx + n .esi
      | .bxDi => n .ebx + n .edi
      | .bpSi => n .ebp + n .esi
      | .bpDi => n .ebp + n .edi
      | .si => n .esi
      | .di => n .edi
      | .bp => n .ebp
      | .bx => n .ebx
    let short (d : Disp16) : Int :=
      match d with
      | .none => 0
      | .d8 x => x.toInt
      | .d16 x => x.toNat
    let long (d : Disp32) : Int :=
      match d with
      | .none => 0
      | .d8 x => x.toInt
      | .d32 x => x.toNat
    let index (sc : Scale) (x : Option Reg) : Int :=
      match x, sc with
      | none, _ => 0
      | some r, .x1 => n r
      | some r, .x2 => 2 * n r
      | some r, .x4 => 4 * n r
      | some r, .x8 => 8 * n r
    let at' (e : Ea) (v : Int) (r : SReg) : Prop :=
      ((effAddr g e).toNat : Int) = v ∧ memSegment { seg := none, ea := e } = r ∧
        ∀ o, memSegment { seg := some o, ea := e } = o
    (∀ b d, at' (.based16 b d) ((base b + short d) % 2 ^ 16)
      (if b = .bpSi ∨ b = .bpDi ∨ b = .bp then .ss else .ds)) ∧
    (∀ d, at' (.direct16 d) d.toNat .ds) ∧
    (∀ b d, at' (.based32 b d) ((n b + long d) % 2 ^ 32) (if b = .esp ∨ b = .ebp then .ss else .ds)) ∧
    (∀ d, at' (.direct32 d) d.toNat .ds) ∧
    (∀ sc x b d, at' (.sib sc x b d) ((n b + index sc x + long d) % 2 ^ 32)
      (if b = .esp ∨ b = .ebp then .ss else .ds)) ∧
    ∀ sc x d, at' (.sibNoBase sc x d) ((index sc x + d.toNat) % 2 ^ 32) .ds

/-! ## Near and far transfers -/

/-- Near jumps: IP plus the displacement, modulo 2^16 with a 16-bit operand size; the prefetch queue is flushed. Near
calls: the return offset is pushed in the operand size, then the same transfer; where the push would cross the end of
the stack, that is with SP (or ESP) = 1, 2 or 3 and less than the item's size, it is refused in real-address and V86
mode and takes the stack exception, vector 12, in protected mode (`40_init_mode_switch.md` R152, R153, `20_memory.md`
R87; that R153's refusal stops at protected mode, the end of a 32-bit stack and the free error code are the model's
choices of log 14). -/
def Obligations.NearTransfers : Prop :=
  ∀ (s : State) (b : Byte) (w : Word) (d : Dword),
    exec (.jmpRel8 .w16 b) s = .next (complete s false
      { s with eip := zext16 (s.next + b.signExtend 32), prefetchStale := false }) ∧
    exec (.jmpRel (.rel16 w)) s = .next (complete s false
      { s with eip := zext16 (s.next + w.signExtend 32), prefetchStale := false }) ∧
    ((s.like8086 = true → (s.next + b.signExtend 32).toNat ≤ 0xFFFF) →
      exec (.jmpRel8 .w32 b) s = .next (complete s false
        { s with eip := s.next + b.signExtend 32, prefetchStale := false })) ∧
    ((s.like8086 = true → (s.next + d).toNat ≤ 0xFFFF) →
      exec (.jmpRel (.rel32 d)) s = .next (complete s false
        { s with eip := s.next + d, prefetchStale := false })) ∧
    (s.prefetchStale = false → s.canPush 2 →
      exec (.callRel (.rel16 w)) s = .next (complete s false
        { s.pushed false 2 s.next with eip := zext16 (s.next + w.signExtend 32) })) ∧
    (s.prefetchStale = false → s.canPush 4 → (s.like8086 = true → (s.next + d).toNat ≤ 0xFFFF) →
      exec (.callRel (.rel32 d)) s = .next (complete s false
        { s.pushed false 4 s.next with eip := s.next + d })) ∧
    (s.prefetchStale = false → 0 < s.sp.toNat →
      let crossing : Host.Outcome State Fault Refusal :=
        if s.like8086 then .refused .pastSegmentEnd
        else takeFault (Exn.plain 12 (some (Config.freeWord s.free))) s { s with free := s.free + 1 }
      (s.sp.toNat < 2 → exec (.callRel (.rel16 w)) s = crossing) ∧
      (s.sp.toNat < 4 → exec (.callRel (.rel32 d)) s = crossing))

/-- Far jumps in real-address and V86 mode: CS as the 8086 loads it, the A31-20 latch dropped, the offset, and the
prefetch queue flushed. Far calls: CS, then the return offset are pushed, then the same transfer, the prefetch state
staying; where the first or the second push would cross the end of the stack, the call is refused
(`40_init_mode_switch.md` R153 to R155, `20_memory.md` R87, `10_state.md` R61). The model's choices: reading a pointer in
memory before the pushes (log 44), and what the load leaves of the hidden part (log 2). -/
def Obligations.FarTransfersAsThe8086 : Prop :=
  ∀ (s : State) (sz : OpSize) (m : MemOp) (w : Word) (off : Dword) (sel : Selector), s.like8086 = true →
    let cs : SegReg := { s.seg.cs with selector := sel, base := sel.setWidth 32 <<< 4, big := false, usable := true }
    let frame : List Dword := [s.seg.cs.selector.setWidth 32, s.next]
    let crosses (t : State) (n : Nat) : Prop :=
      (0 < t.sp.toNat ∧ t.sp.toNat < n) ∨ (n < t.sp.toNat ∧ t.sp.toNat < 2 * n ∧ t.canPush n)
    exec (.jmpPtr (.ptr16 w sel)) s = .next (complete s false
      { s with seg := { s.seg with cs := cs }, latch := false, eip := w.setWidth 32, prefetchStale := false }) ∧
    (off.toNat ≤ 0xFFFF → exec (.jmpPtr (.ptr32 off sel)) s = .next (complete s false
      { s with seg := { s.seg with cs := cs }, latch := false, eip := off, prefetchStale := false })) ∧
    (∀ t, readFarPtr sz m s = .ok (off, sel) t → off.toNat ≤ 0xFFFF →
      exec (.jmpMem sz m) s = .next (complete s false
        { t with seg := { s.seg with cs := cs }, latch := false, eip := off, prefetchStale := false })) ∧
    (s.prefetchStale = false → State.canPushAll false 2 frame s →
      exec (.callPtr (.ptr16 w sel)) s = .next (complete s false
        { State.pushedAll false 2 frame s with seg := { s.seg with cs := cs }, latch := false,
                                               eip := w.setWidth 32 })) ∧
    (s.prefetchStale = false → State.canPushAll false 4 frame s → off.toNat ≤ 0xFFFF →
      exec (.callPtr (.ptr32 off sel)) s = .next (complete s false
        { State.pushedAll false 4 frame s with seg := { s.seg with cs := cs }, latch := false, eip := off })) ∧
    (∀ t, s.prefetchStale = false → readFarPtr sz m s = .ok (off, sel) t →
      State.canPushAll false (sizeBytes sz) frame t → off.toNat ≤ 0xFFFF →
      exec (.callMem sz m) s = .next (complete s false
        { State.pushedAll false (sizeBytes sz) frame t with seg := { s.seg with cs := cs }, latch := false,
                                                            eip := off })) ∧
    (s.prefetchStale = false → crosses s 2 → exec (.callPtr (.ptr16 w sel)) s = .refused .pastSegmentEnd) ∧
    (s.prefetchStale = false → crosses s 4 → exec (.callPtr (.ptr32 off sel)) s = .refused .pastSegmentEnd) ∧
    (∀ t, s.prefetchStale = false → readFarPtr sz m s = .ok (off, sel) t → crosses t (sizeBytes sz) →
      exec (.callMem sz m) s = .refused .pastSegmentEnd)

/-- A 32-bit target above FFFFH in real-address and V86 mode raises general protection with error code 0 and changes
nothing (`40_init_mode_switch.md` R152, R154, R155, `43_v86.md` R258; the model's choice of log 13 where the spec's
model refuses, and for IRETD is silent). -/
def Obligations.TargetsBeyondSegmentFault : Prop :=
  ∀ (s : State) (b : Byte) (d off fl : Dword) (sel : Selector) (m : MemOp), s.like8086 = true →
    (0xFFFF < (s.next + b.signExtend 32).toNat →
      exec (.jmpRel8 .w32 b) s = takeFault (generalProtection 0) s s) ∧
    (0xFFFF < (s.next + d).toNat → exec (.jmpRel (.rel32 d)) s = takeFault (generalProtection 0) s s) ∧
    (0xFFFF < (s.next + d).toNat → s.prefetchStale = false → s.canPush 4 →
      exec (.callRel (.rel32 d)) s = takeFault (generalProtection 0) s s) ∧
    (0xFFFF < off.toNat → exec (.jmpPtr (.ptr32 off sel)) s = takeFault (generalProtection 0) s s) ∧
    (0xFFFF < off.toNat → s.prefetchStale = false →
      State.canPushAll false 4 [s.seg.cs.selector.setWidth 32, s.next] s →
      exec (.callPtr (.ptr32 off sel)) s = takeFault (generalProtection 0) s s) ∧
    (∀ t, 0xFFFF < off.toNat → readFarPtr .w32 m s = .ok (off, sel) t →
      exec (.jmpMem .w32 m) s = takeFault (generalProtection 0) s t) ∧
    (∀ t, 0xFFFF < off.toNat → s.prefetchStale = false → readFarPtr .w32 m s = .ok (off, sel) t →
      State.canPushAll false 4 [s.seg.cs.selector.setWidth 32, s.next] t →
      exec (.callMem .w32 m) s = takeFault (generalProtection 0) s t) ∧
    (0xFFFF < off.toNat → s.mode = .real → s.prefetchStale = false →
      State.canPopAll 4 [off, sel.setWidth 32, fl] s →
      exec (.iret .w32) s = takeFault (generalProtection 0) s s)

/-- Far transfers in protected mode, direct and through memory, are what the open interface answers. A JMP: new code,
the stack pointer staying, or a task switch, or an exception; it flushes the prefetch queue. A CALL: new code, with the
old CS and the return offset pushed by the instruction, on a new stack after the old SS and ESP and the parameters; or a
task switch, or an exception. Loads of a segment register there are what LoadDescriptor answers, and the processor may
write to the descriptor table. An exception carries an error code where its vector has one. What the processor writes
of its own accord it writes byte by byte, at level 0 (log 8). `u` is the state after the operand is read
(`40_init_mode_switch.md` R154, R155, R157, `20_memory.md` R89, R96, `42_debug.md` R220, `60_exceptions.md` R291,
`92_eei_decisions.md` D23; the answers' shape is the model's choice of log 7, the frame of a CALL that of log 22). -/
def Obligations.ProtectedTransfersFollowInterfaces : Prop :=
  (∀ (s u : State) (sz : OpSize) (m : MemOp) (src : Rm16) (w : Word) (off : Dword) (sel : Selector),
    s.like8086 = false →
    let u1 : State := { u with free := u.free + 1 }
    let ends (o : EStateM.Result Stop State State) : Host.Outcome State Fault Refusal :=
      match o with
      | .ok t _ => .next t
      | .error (.exn x) t => takeFault x s t
      | .error (.fault f) _ => .fault f
      | .error (.refused q) _ => .refused q
    let arrive (c : Config.FarCode) (t : State) : State :=
      { t with seg := { t.seg with cs := c.cs }, latch := false, eip := c.eip, cpl := c.cpl }
    (∀ i : Instr,
      (i = .jmpPtr (.ptr16 w sel) ∧ off = w.setWidth 32 ∧ u = s) ∨ (i = .jmpPtr (.ptr32 off sel) ∧ u = s) ∨
        (i = .jmpMem sz m ∧ readFarPtr sz m s = .ok (off, sel) u) →
      exec i s =
        match Config.farJump u.free sel off s.cpl with
        | .code c => ends ((do
            storeBytes c.stores
            asks fun t => complete s false { arrive c t with prefetchStale := false }) (u1.noteReads c.reads))
        | .task k => ends ((do
            instrTaskSwitch k
            asks fun t => complete s true { t with prefetchStale := false }) u1)
        | .fault x code lin => takeFault (Exn.ofVector x code lin) s u1) ∧
    (∀ i : Instr, s.prefetchStale = false →
      (i = .callPtr (.ptr16 w sel) ∧ off = w.setWidth 32 ∧ u = s) ∨ (i = .callPtr (.ptr32 off sel) ∧ u = s) ∨
        (i = .callMem sz m ∧ readFarPtr sz m s = .ok (off, sel) u) →
      exec i s =
        match Config.farCall u.free sel off s.cpl with
        | .code c size inner args =>
          let ret : List Dword := [s.seg.cs.selector.setWidth 32, s.next]
          ends ((do
            storeBytes c.stores
            match inner with
            | some (ss, esp) => do
              update fun t => { t with cpl := c.cpl, seg := { t.seg with ss := ss }, gpr := { t.gpr with esp := esp } }
              pushList (sizeBytes size) ([s.seg.ss.selector.setWidth 32, s.gpr.esp] ++ args ++ ret)
            | none => do
              update fun t => { t with cpl := c.cpl }
              pushList (sizeBytes size) ret
            asks fun t => complete s false (arrive c t)) (u1.noteReads c.reads))
        | .task k => ends ((do
            instrTaskSwitch k
            asks fun t => complete s true t) u1)
        | .fault x code lin => takeFault (Exn.ofVector x code lin) s u1) ∧
    ∀ (i : Instr) (q : SReg), s.prefetchStale = false → readRm16 src s = .ok sel u →
      (i = .movEs src ∧ q = .es) ∨ (i = .movSs src ∧ q = .ss) ∨ (i = .movDs src ∧ q = .ds) ∨
        (i = .movFs src ∧ q = .fs) ∨ (i = .movGs src ∧ q = .gs) →
      exec i s =
        match Config.loadDescriptor u.free sel s.cpl with
        | .loaded base limit rights big usable reads stores => ends ((do
            storeBytes stores
            asks fun t => complete s false
              { t with seg := t.seg.set q { selector := sel, base := base, limit := limit, rights := rights,
                                            big := big, usable := usable },
                       eip := t.next, holdOff := t.holdOff || decide (q = SReg.ss) }) (u1.noteReads reads))
        | .fault x code lin => takeFault (Exn.ofVector x code lin) s u1) ∧
  (∀ (n : Nat) (l : List Dword) (s : State), State.canPushAll false n l s →
    pushList n l s = .ok () (State.pushedAll false n l s)) ∧
  (∀ s : State, storeBytes [] s = .ok () s) ∧
  (∀ (a : Dword) (b : Byte) (l : List (Dword × Byte)) (s : State),
    storeBytes ((a, b) :: l) s = (do
      update fun t => t.noteImplicit a 1 .write
      writeLin 0 1 a (b.setWidth 32)
      storeBytes l) s) ∧
  ∀ (v : Vec) (code lin : Dword),
    Exn.ofVector v code lin =
      { vector := v, dr6 := 0, cr2 := if v = 14 then some lin else none,
        err := if v = 8 then some 0 else if v ∈ [10, 11, 12, 13, 14] then some code else none }

/-! ## Segment and table registers -/

/-- Loads of ES, SS, DS, FS, GS in real-address and V86 mode: selector, and base = selector * 16; SS holds off events
for one instruction (`40_init_mode_switch.md` R157, `20_memory.md` R84). What the load leaves of the hidden part is the
model's choice of log 2. -/
def Obligations.SegmentLoadsAsThe8086 : Prop :=
  ∀ (s t : State) (src : Rm16) (v : Selector), s.like8086 = true → s.prefetchStale = false →
    readRm16 src s = .ok v t →
    let seg' (r : SegReg) : SegReg :=
      { r with selector := v, base := v.setWidth 32 <<< 4, big := false, usable := true }
    exec (.movEs src) s = .next (complete s false
      { t with seg := { s.seg with es := seg' s.seg.es }, eip := s.next }) ∧
    exec (.movSs src) s = .next (complete s false
      { t with seg := { s.seg with ss := seg' s.seg.ss }, eip := s.next, holdOff := true }) ∧
    exec (.movDs src) s = .next (complete s false
      { t with seg := { s.seg with ds := seg' s.seg.ds }, eip := s.next }) ∧
    exec (.movFs src) s = .next (complete s false
      { t with seg := { s.seg with fs := seg' s.seg.fs }, eip := s.next }) ∧
    exec (.movGs src) s = .next (complete s false
      { t with seg := { s.seg with gs := seg' s.seg.gs }, eip := s.next })

/-- LIDT and LGDT at level 0: the limit from the operand's first word, the base from the doubleword behind it, its
low 24 bits with a 16-bit operand size (`40_init_mode_switch.md` R158, R159; log 38 for the address of the base). -/
def Obligations.TableLoadsReadSixBytes : Prop :=
  ∀ (s : State) (sz : OpSize) (m : MemOp) (limit base : Dword), s.level = 0 → s.prefetchStale = false →
    s.operandIs m 0 2 limit → s.operandIs m 2 4 base →
    let table : TableReg :=
      { base := match sz with
          | .w16 => base &&& 0x00FFFFFF
          | .w32 => base,
        limit := low16 limit }
    exec (.lidt sz m) s = .next (complete s false
      { (s.sawOperand m 0 2).sawOperand m 2 4 with idtr := table, eip := s.next }) ∧
    exec (.lgdt sz m) s = .next (complete s false
      { (s.sawOperand m 0 2).sawOperand m 2 4 with gdtr := table, eip := s.next })

/-! ## Control registers and the mode switch -/

/-- MOV from CR0 and CR3 at level 0: the register, its reserved bits and the status flags free values
(`40_init_mode_switch.md` R150 (f), R160; log 6). -/
def Obligations.ControlRegisterReads : Prop :=
  ∀ (s : State) (r : Reg), s.level = 0 → s.prefetchStale = false →
    exec (.movFromCr0 r) s = .next (complete s false
      { s with gpr := s.gpr.set r (drawBits s.cr0.toWord (Config.freeWord s.free) 0x7FFFFFE0),
               flags := s.flags.setStatus (Config.freeWord (s.free + 1)), free := s.free + 2, eip := s.next }) ∧
    exec (.movFromCr3 r) s = .next (complete s false
      { s with gpr := s.gpr.set r (drawBits s.cr3 (Config.freeWord s.free) 0x00000FFF),
               flags := s.flags.setStatus (Config.freeWord (s.free + 1)), free := s.free + 2, eip := s.next })

/-- MOV to CR0 and CR3 at level 0: CR0 takes a value that neither sets PG without PE nor clears PE; CR3 takes any, and
no TLB entry is valid afterwards, every other field of each staying. PG = 1 with PE = 0 raises general protection with
error code 0 (the model's choice of log 12 for U9), and clearing PE is refused (`40_init_mode_switch.md` R161,
`10_state.md` R41, `20_memory.md` R105, `92_eei_decisions.md` D30); that the check of PG comes first is the model's
reading, log 20. -/
def Obligations.ControlRegisterWrites : Prop :=
  ∀ (s : State) (r : Reg), s.level = 0 → s.prefetchStale = false →
    let v := Cr0.ofWord (s.gpr.get r)
    let f := s.flags.setStatus (Config.freeWord s.free)
    ((v.pg = true → v.pe = true) → v.pe = s.cr0.pe → exec (.movToCr0 r) s = .next (complete s false
      { s with cr0 := v, flags := f, free := s.free + 1, eip := s.next })) ∧
    (v.pe = true → s.cr0.pe = false → exec (.movToCr0 r) s = .next (complete s false
      { s with cr0 := v, cpl := 0, prefetchStale := true, flags := f, free := s.free + 1, eip := s.next })) ∧
    (v.pg = true → v.pe = false → exec (.movToCr0 r) s = takeFault (generalProtection 0) s s) ∧
    (v.pg = false → v.pe = false → s.cr0.pe = true → exec (.movToCr0 r) s = .refused .clearingPe) ∧
    ∃ t, exec (.movToCr3 r) s = .next t ∧ t.cr3 = s.gpr.get r ∧
      (∀ i : Fin 32, t.tlb[i.val] = { s.tlb[i.val] with v := false }) ∧
      t = complete s false
        { s with cr3 := s.gpr.get r, tlb := t.tlb, flags := f, free := s.free + 1, eip := s.next }

/-- LMSW at level 0: bits 3:1 of CR0 from the operand, PE set or left, nothing else of CR0; it cannot clear PE
(`40_init_mode_switch.md` R162). -/
def Obligations.LmswLoadsStatusWord : Prop :=
  ∀ (s t : State) (src : Rm16) (w : Word), s.level = 0 → s.prefetchStale = false → readRm16 src s = .ok w t →
    let v : Cr0 := { s.cr0 with pe := s.cr0.pe || w.getLsbD 0, mp := w.getLsbD 1, em := w.getLsbD 2,
                                ts := w.getLsbD 3 }
    (v.pe = s.cr0.pe → exec (.lmsw src) s = .next (complete s false { t with cr0 := v, eip := s.next })) ∧
    (v.pe = true → s.cr0.pe = false → exec (.lmsw src) s = .next (complete s false
      { t with cr0 := v, cpl := 0, prefetchStale := true, eip := s.next }))

/-- Setting PE, by MOV CR0 or by LMSW from a register or memory: protected mode at level 0; every segment register, the
general registers, IDTR, GDTR, CR3, the debug and test registers, the TLB, memory and EIP's course stay; of EFLAGS RF is
cleared as after every instruction, MOV CR0 leaves the six status flags open, and the others stay; the prefetch queue
may be stale (`40_init_mode_switch.md` R150 (f), R161 to R163). -/
def Obligations.SettingPeEntersProtectedMode : Prop :=
  ∀ (s u : State) (r : Reg) (src : Rm16) (w : Word) (i : Instr), s.Inv → s.cr0.pe = false →
    (i = .movToCr0 r ∧ (s.gpr.get r).getLsbD 0 = true) ∨
      (i = .lmsw src ∧ readRm16 src s = .ok w u ∧ w.getLsbD 0 = true) →
    ∃ t, exec i s = .next t ∧ t.mode = .prot ∧ t.cpl = 0 ∧ t.cr0.pe = true ∧ t.seg = s.seg ∧ t.gpr = s.gpr ∧
      t.eip = s.next ∧ t.latch = s.latch ∧ t.idtr = s.idtr ∧ t.gdtr = s.gdtr ∧ t.cr3 = s.cr3 ∧
      s.flags.sameControl t.flags ∧ (i = .lmsw src → t.flags = s.flags.resumed) ∧
      t.system = { s.system with cr0 := t.cr0 } ∧ t.tlb = s.tlb ∧ s.sameMemory t ∧ t.prefetchStale = true

/-- After PE is set only a JMP has a meaning, and a JMP clears the condition (`20_memory.md` R104); that one
which faults does not is the model's reading, log 18. -/
def Obligations.OnlyJumpsRunWhileStale : Prop :=
  (∀ (s : State) (v : Cr0), s.cr0.pe = false → v.pe = true → (s.writeCr0 v).prefetchStale = true) ∧
  (∀ (i : Instr) (s : State), s.prefetchStale = true → isJump i = false → exec i s = .refused .notJumpAfterPe) ∧
  (∀ (s : State) (b : Byte), ∃ t, exec (.jmpRel8 .w16 b) s = .next t ∧ t.prefetchStale = false ∧
    t.eip = zext16 (s.next + b.signExtend 32)) ∧
  (∀ (i : Instr) (s t : State), isJump i = true → s.prefetchStale = true → exec i s = .next t →
    t.prefetchStale = false ∨ ∃ e u, takeFault e s u = .next t)

/-! ## Privilege -/

/-- At a level other than 0, V86 mode included, an instruction that needs level 0 raises general protection with error
code 0 and changes nothing; in real-address mode the level is 0. For the test registers that is the source's own
sentence, for the control and debug moves, LIDT, LGDT and LMSW the spec's decision (`40_init_mode_switch.md` R150 (g),
R158 to R162, `41_tlb_test.md` R181, `42_debug.md` R212, R213, `43_v86.md` R266, `92_eei_decisions.md` D28). `takeFault`
of an exception other than the debug exception delivers its vector as a fault with its error code: the instruction's own
EIP is the saved pointer, its effects and T are discarded, and nothing else changes but CR2 for a page fault and the
count of free values (`60_exceptions.md` R292, R294 step 6, R308; log 21, log 26). -/
def Obligations.PrivilegedInstructionsFaultOutsideLevelZero : Prop :=
  (∀ (i : Instr) (s : State), needsLevel0 i = true → s.level ≠ 0 → s.prefetchStale = false →
    exec i s = takeFault (generalProtection 0) s s) ∧
  (∀ s : State, s.mode = .v86 → s.level = 3) ∧ (∀ s : State, s.mode = .real → s.level = 0) ∧
  (∀ code, generalProtection code = { vector := 13, err := some code, cr2 := none, dr6 := 0 }) ∧
  ∀ (e : Exn) (s t : State), e.dr6 = 0 →
    takeFault e s t =
      match deliver { vector := e.vector, cls := .fault, err := e.err, ip := s.eip, restart := s.eip }
        { s with traps := 0, quiet := 0, free := t.free, cr2 := e.cr2.getD s.cr2 } with
      | .next (_, u) => .next u
      | .fault f => .fault f
      | .refused r => .refused r

/-- Without RESET, no step made at a level other than 0 changes CR0, GDTR, IDTR, TR6, TR7, DR0 to DR3 or, of DR7, more
than the GD and L bits, which the processor itself clears; CR2 and CR3 are not among them, since a page fault and a
task switch write them (`40_init_mode_switch.md` R150 (g), `41_tlb_test.md` R181, `42_debug.md` R215, R229,
`43_v86.md` R266). -/
def Obligations.OnlyLevelZeroChangesPrivilegedRegisters : Prop :=
  ∀ s t : State, s.level ≠ 0 → (∀ p ∈ s.inputs, p.reset = none) → step s = .next t →
    t.cr0 = s.cr0 ∧ t.gdtr = s.gdtr ∧ t.idtr = s.idtr ∧ t.tr6 = s.tr6 ∧ t.tr7 = s.tr7 ∧
      (∀ n, t.dr n = s.dr n) ∧ t.dr7 &&& 0xFFFFDFAA = s.dr7 &&& 0xFFFFDFAA

/-! ## Debug registers and breakpoints -/

/-- Moves of DR0 to DR3, DR6 and DR7 at level 0 with GD = 0: reserved bits of DR6 and DR7 read as free values, and so
do the status flags; DR7 takes every value whose enabled breakpoints are legal, the others are refused
(`42_debug.md` R212, R213, R219, `10_state.md` R54, R55; log 6, log 17). -/
def Obligations.DebugRegisterMoves : Prop :=
  ∀ (s : State) (r : Reg) (n : Fin 4), s.level = 0 → s.dr7.getLsbD 13 = false → s.prefetchStale = false →
    let v := s.gpr.get r
    let f := s.flags.setStatus (Config.freeWord s.free)
    exec (.movFromDr03 r n) s = .next (complete s false
      { s with gpr := s.gpr.set r (s.dr n), flags := f, free := s.free + 1, eip := s.next }) ∧
    exec (.movFromDr67 r .dr6) s = .next (complete s false
      { s with gpr := s.gpr.set r (drawBits s.dr6 (Config.freeWord s.free) 0xFFFF1FF0),
               flags := s.flags.setStatus (Config.freeWord (s.free + 1)), free := s.free + 2, eip := s.next }) ∧
    exec (.movFromDr67 r .dr7) s = .next (complete s false
      { s with gpr := s.gpr.set r (drawBits s.dr7 (Config.freeWord s.free) 0x0000DC00),
               flags := s.flags.setStatus (Config.freeWord (s.free + 1)), free := s.free + 2, eip := s.next }) ∧
    exec (.movToDr03 n r) s = .next (complete s false
      { s.setDr n v with flags := f, free := s.free + 1, eip := s.next }) ∧
    exec (.movToDr67 .dr6 r) s = .next (complete s false
      { s with dr6 := v, flags := f, free := s.free + 1, eip := s.next }) ∧
    ((∀ k, bpEnabled v k = true → bpLen v k ≠ 2 ∧ bpRw v k ≠ 2 ∧ (bpRw v k = 0 → bpLen v k = 0)) →
      exec (.movToDr67 .dr7 r) s = .next (complete s false
        { s with dr7 := v, flags := f, free := s.free + 1, eip := s.next })) ∧
    ((∃ k, bpEnabled v k = true ∧ (bpLen v k = 2 ∨ bpRw v k = 2)) →
      exec (.movToDr67 .dr7 r) s = .refused .reservedBreakpoint) ∧
    ((∀ k, bpEnabled v k = true → bpLen v k ≠ 2 ∧ bpRw v k ≠ 2) →
      (∃ k, bpEnabled v k = true ∧ bpRw v k = 0 ∧ bpLen v k ≠ 0) →
      exec (.movToDr67 .dr7 r) s = .refused .instructionBreakpointLength)

/-- With GD = 1 every move to or from a debug register sets BD and raises the debug fault on itself, after the level
check, and is not performed; the bits of disabled breakpoints that the instruction met are shown as well, which is the
model's choice of log 27. Every debug exception adds its conditions to DR6 and delivers vector 1 without an error code;
where the part does so GD is cleared when its handler or task is entered, and nothing else then; GD stays where another
fault is taken in its place, which is the model's reading of log 37 (`42_debug.md` R221, R228 to R231). -/
def Obligations.GeneralDetectProtectsDebugRegisters : Prop :=
  (∀ (s : State) (r : Reg) (n : Fin 4) (k : Dr67) (i : Instr),
    i = .movFromDr03 r n ∨ i = .movFromDr67 r k ∨ i = .movToDr03 n r ∨ i = .movToDr67 k r →
    s.level = 0 → s.dr7.getLsbD 13 = true → s.prefetchStale = false →
    exec i s = raiseDebug .fault (0x2000 ||| s.quiet) { s with traps := 0, quiet := 0 }) ∧
  (∀ (cls : EventClass) (conditions : Dword) (s : State),
    raiseDebug cls conditions s = Delivery.outcome
      (deliver { vector := 1, cls := cls, err := none, ip := s.eip, restart := s.eip }
        { s with dr6 := s.dr6 ||| conditions })
      debugEntered) ∧
  (∀ (d : Delivery) (k : Entry → State → State),
    d.outcome k =
      match d with
      | .next (x, t) => .next (k x t)
      | .fault f => .fault f
      | .refused r => .refused r) ∧
  ∀ (x : Entry) (t : State),
    ((x = .handler ∨ x = .task) → t.params.gdClearedOnEntry = true →
      debugEntered x t = { t with dr7 := t.dr7 &&& 0xFFFFDFFF }) ∧
    ((x = .handler ∨ x = .task) → t.params.gdClearedOnEntry = false → debugEntered x t = t) ∧
    (x = .replaced → debugEntered x t = t)

/-- The range of breakpoint n: 1, 2 or 4 bytes from DR[n] aligned down to that length. A data access adds B[n] to T for
exactly the enabled breakpoints whose kind fits and whose range one of its bytes lies in; a fetch adds none. An access
of the processor's own does the same under BP_ON_IMPLICIT and nothing otherwise. Under B_SET_WHEN_DISABLED a breakpoint
that is not enabled is kept for DR6 where its condition is met, by a data access or by the start of an instruction with
RF = 0 (`42_debug.md` R216, R218, R220, R222, R230; that keeping is the model's choice of log 27). -/
def Obligations.DataBreakpointsMatchOverlap : Prop :=
  (∀ (s : State) (n : Fin 4) (a : Dword) (len : Nat),
    (bpLen s.dr7 n = 0 ∧ len = 1) ∨ (bpLen s.dr7 n = 1 ∧ len = 2) ∨ (bpLen s.dr7 n = 3 ∧ len = 4) →
    let lo := (s.dr n).toNat - (s.dr n).toNat % len
    inRange s n a = true ↔ lo ≤ a.toNat ∧ a.toNat ≤ lo + len - 1) ∧
  (∀ (s : State) (lin : Dword) (width : Nat) (k : Config.Access) (n : Fin 4), bpLen s.dr7 n ≠ 2 →
    let met : Prop := ((bpRw s.dr7 n = 1 ∧ k = .write) ∨ (bpRw s.dr7 n = 3 ∧ (k = .read ∨ k = .write))) ∧
      ∃ i, i < width ∧ inRange s n (lin + BitVec.ofNat 32 i) = true
    let t := s.noteAccess lin width k
    (t.traps.getLsbD n.val = true ↔ s.traps.getLsbD n.val = true ∨ (bpEnabled s.dr7 n = true ∧ met)) ∧
    (t.quiet.getLsbD n.val = true ↔ s.quiet.getLsbD n.val = true ∨
      (s.params.bSetWhenDisabled = true ∧ bpEnabled s.dr7 n = false ∧ met)) ∧
    s.noteImplicit lin width k = if s.params.bpOnImplicit then t else s) ∧
  ∀ (s : State) (n : Fin 4),
    (s.noteFetch.quiet.getLsbD n.val = true ↔ s.quiet.getLsbD n.val = true ∨
      (s.flags.rf = false ∧ s.params.bSetWhenDisabled = true ∧ bpEnabled s.dr7 n = false ∧ bpRw s.dr7 n = 0 ∧
        bpLen s.dr7 n = 0 ∧ s.dr n = s.linPc))

/-- An instruction breakpoint: with RF = 0, the B bits of the enabled breakpoints with RW = 00 and DR[n] = Lin(CS, EIP)
are set and the debug fault is raised on the instruction itself, which is not executed; the saved image has RF = 1
(`42_debug.md` R223, R219). That it is raised before a pending interrupt is the model's choice of log 43. -/
def Obligations.InstructionBreakpointFaults : Prop :=
  (∀ s : State, s.run = .running → s.inputs = [] → s.holdOff = false → s.traps = 0 →
    s.params.bSetWhenDisabled = false → s.flags.rf = false → fetchHits s s.linPc ≠ 0 →
    step s = Delivery.outcome
      (deliver { vector := 1, cls := .fault, err := none, ip := s.eip, restart := s.eip }
        { s with quiet := 0, dr6 := s.dr6 ||| fetchHits s s.linPc })
      debugEntered) ∧
  (∀ (s : State) (n : Fin 4), s.Dr7Ok → ((fetchHits s s.linPc).getLsbD n.val = true ↔
    bpEnabled s.dr7 n = true ∧ bpRw s.dr7 n = 0 ∧ s.dr n = s.linPc)) ∧
  (∀ (e : Event) (f : Eflags), e.image f = if e.cls = .fault then f.toWord ||| 0x00010000 else f.toWord)

/-- In real-address mode RF is clear after every instruction other than IRET, unless the processor has shut down
(`42_debug.md` R225, `60_exceptions.md` R303). -/
def Obligations.RfLastsOneInstruction : Prop :=
  ∀ (i : Instr) (s t : State), s.mode = .real → (∀ sz, i ≠ .iret sz) → exec i s = .next t →
    t.flags.rf = false ∨ t.run = .shutdown

/-- Every instruction that starts with TF = 1 and completes leaves BS in T; one that starts with TF = 0 does not add it.
A fault, and an INT 3 whose delivery turned into a fault, do not complete. The step after it takes the trap, with the
instruction pointer of the next instruction saved, which after a jump is the target (`42_debug.md` R222, R226,
`60_exceptions.md` R294; the bits of disabled breakpoints that DR6 shows are the model's choice of log 27). The end of
an instruction clears RF, unless it loaded RF, adds BS and changes nothing else (`42_debug.md` R225). -/
def Obligations.SingleStepTrapFollows : Prop :=
  (∀ (i : Instr) (s t : State), exec i s = .next t →
    (s.flags.tf = true →
      t.traps.getLsbD 14 = true ∨ (∃ e u, takeFault e s u = .next t) ∨
        (i = .int3 ∧ deliver { vector := 3, cls := .trap, err := none, ip := s.next, restart := s.eip }
          { s with eip := s.next } = .next (.replaced, t))) ∧
    (s.flags.tf = false → s.traps.getLsbD 14 = false → t.traps.getLsbD 14 = false)) ∧
  (∀ (s : State) (d : Word), s.flags.tf = true → ∃ t, exec (.jmpRel (.rel16 d)) s = .next t ∧
    t.traps = s.traps ||| 0x4000 ∧ t.eip = zext16 (s.next + d.signExtend 32)) ∧
  (∀ (s t : State) (loadedRf : Bool),
    complete s loadedRf t =
      { t with flags := { t.flags with rf := t.flags.rf && loadedRf },
               traps := if s.flags.tf then t.traps ||| 0x4000 else t.traps }) ∧
  ∀ t : State, t.run = .running → t.inputs = [] → t.holdOff = false → t.traps ≠ 0 →
    step t = Delivery.outcome
      (deliver { vector := 1, cls := .trap, err := none, ip := t.eip, restart := t.eip }
        { t with traps := 0, quiet := 0, dr6 := t.dr6 ||| (t.traps ||| t.quiet) })
      debugEntered

/-! ## Test registers and the TLB -/

/-- MOV from TR6 and TR7 at level 0, and MOV to TR7: reserved bits read as free values, and so do the physical address
and REP after a lookup that missed; a write to TR7 performs no command (`41_tlb_test.md` R182, R183, R185; log 6,
log 34). -/
def Obligations.TestRegisterMoves : Prop :=
  ∀ (s : State) (r : Reg), s.level = 0 → s.prefetchStale = false →
    exec (.movFromTr6 r) s = .next (complete s false
      { s with gpr := s.gpr.set r (drawBits s.tr6.toWord (Config.freeWord s.free) 0x0000001E),
               flags := s.flags.setStatus (Config.freeWord (s.free + 1)), free := s.free + 2, eip := s.next }) ∧
    exec (.movFromTr7 r) s = .next (complete s false
      { s with gpr := s.gpr.set r (drawBits s.tr7.toWord (Config.freeWord s.free)
                 (if s.tlbMissed = true ∧ s.tr7.ht = false then 0xFFFFFFEF else 0x00000FE3)),
               flags := s.flags.setStatus (Config.freeWord (s.free + 1)), free := s.free + 2, eip := s.next }) ∧
    exec (.movToTr7 r) s = .next (complete s false
      { s with tr7 := Tr7.ofWord (s.gpr.get r), flags := s.flags.setStatus (Config.freeWord s.free),
               free := s.free + 1, eip := s.next })

/-- The TLB write command: with HT = 1 and no other valid entry for the page, the entry at REP and TLB_INDEX is set
from TR6 and TR7 and nothing else of the TLB changes; a bit whose pair is undefined becomes a free value (log 16). With
HT = 0, and where a second valid entry would hold the page, it has no meaning (`41_tlb_test.md` R184, R186, R187,
`93_implementation_defined.md` U2, U6; log 17). -/
def Obligations.TlbWriteSetsTheEntry : Prop :=
  ∀ (s : State) (r : Reg), s.level = 0 → s.prefetchStale = false →
    let q := Tr6.ofWord (s.gpr.get r)
    let i := tlbSlot s.tr7.rep (tlbIndex s.params q.lin)
    q.c = false →
    (s.tr7.ht = true → (q.v = true → ∀ j : Fin 32, j ≠ i → s.tlb[j.val].v = true → s.tlb[j.val].lin ≠ q.lin) →
      ∃ (t : State) (e : TlbEntry), exec (.movToTr6 r) s = .next t ∧ t.tlb = s.tlb.set i.val e ∧
        e.lin = q.lin ∧ e.v = q.v ∧ e.phys = s.tr7.phys ∧ e.written = true ∧ (q.dn = !q.d → e.d = q.d) ∧
        (q.un = !q.u → e.u = q.u) ∧ (q.wn = !q.w → e.w = q.w) ∧
        t = complete s false
          { s with tr6 := q, tlb := t.tlb, tlbMissed := false, flags := t.flags, free := t.free, eip := s.next } ∧
        s.flags.sameControl t.flags) ∧
    (s.tr7.ht = false → exec (.movToTr6 r) s = .refused .tlbWriteWithoutHt) ∧
    (s.tr7.ht = true → q.v = true → (∃ j : Fin 32, j ≠ i ∧ s.tlb[j.val].v = true ∧ s.tlb[j.val].lin = q.lin) →
      exec (.movToTr6 r) s = .refused .duplicateTlbTags)

/-- The TLB lookup command: one matching entry sets HT, the physical address, REP and the bit pairs from it; none
clears HT, and the physical address and REP are free values; the TLB is not changed, also where the spec leaves the
result open and the model reads it as free values (`41_tlb_test.md` R188, R189; log 16). -/
def Obligations.TlbLookupReportsTheEntry : Prop :=
  ∀ (s : State) (r : Reg), s.level = 0 → s.prefetchStale = false →
    let q := Tr6.ofWord (s.gpr.get r)
    let match' (e : TlbEntry) : Prop := e.lin = q.lin ∧ e.v = q.v ∧ e.d = q.d ∧ e.u = q.u ∧ e.w = q.w
    q.c = true →
    (∃ t, exec (.movToTr6 r) s = .next t ∧ t.tlb = s.tlb ∧ t.eip = s.next ∧ t.tr6.lin = q.lin) ∧
    (q.dn = !q.d → q.un = !q.u → q.wn = !q.w → (q.v = true ∨ ∀ i : Fin 32, s.tlb[i.val].written = true) →
    (∀ i : Fin 32, match' s.tlb[i.val] → (∀ j : Fin 32, match' s.tlb[j.val] → j = i) →
      exec (.movToTr6 r) s = .next (complete s false
        { s with tr6 := q,
                 tr7 := { s.tr7 with ht := true, phys := s.tlb[i.val].phys, rep := BitVec.ofNat 2 (i.val / 8) },
                 tlbMissed := false, flags := s.flags.setStatus (Config.freeWord s.free), free := s.free + 1,
                 eip := s.next })) ∧
    ((∀ i : Fin 32, ¬ match' s.tlb[i.val]) →
      exec (.movToTr6 r) s = .next (complete s false
        { s with tr6 := q,
                 tr7 := { s.tr7 with ht := false, phys := (Config.freeWord s.free).extractLsb' 12 20,
                                     rep := (Config.freeWord s.free).extractLsb' 2 2 },
                 tlbMissed := true, flags := s.flags.setStatus (Config.freeWord (s.free + 1)), free := s.free + 2,
                 eip := s.next })))

/-- What the write command wrote, the lookup command for the same tag finds: HT, the physical address and the block
(`41_tlb_test.md` R186, R188, R190, R191). -/
def Obligations.TlbWriteThenLookupHits : Prop :=
  ∀ (s t u : State) (r q : Reg), s.level = 0 → s.prefetchStale = false →
    let w := Tr6.ofWord (s.gpr.get r)
    w.c = false → w.v = true → w.dn = !w.d → w.un = !w.u → w.wn = !w.w → s.tr7.ht = true →
    exec (.movToTr6 r) s = .next t →
    u.tlb = t.tlb → u.level = 0 → u.prefetchStale = false → u.gpr.get q = s.gpr.get r ||| 1 →
    ∃ x, exec (.movToTr6 q) u = .next x ∧ x.tr7.ht = true ∧ x.tr7.phys = s.tr7.phys ∧ x.tr7.rep = s.tr7.rep ∧
      x.tlb = t.tlb

/-! ## Delivery -/

/-- Delivery in real-address mode: FLAGS, CS and the saved pointer are pushed as words, no error code; IF and TF are
cleared; CS and IP come from the table; beyond the table, see the next statement (`60_exceptions.md` R301). That the
entry's address IDTR.Base + 4*v is taken modulo 2^32 is the model's choice of log 41, what the load of CS leaves of the
hidden part that of log 2. -/
def Obligations.RealModeDelivery : Prop :=
  ∀ (s : State) (e : Event) (entry : Dword), s.canEnterReal e entry →
    deliver e s = .next (.handler, s.enteredReal e entry)

/-- A vector outside the table: with IDTR.Limit = 0 every delivery, in every mode, is shutdown; in real-address mode a
nonzero limit that excludes the vector delivers the double fault, vector 8, on the interrupted instruction, and shutdown
where that entry is outside too. An exception that an attempt to deliver an event raises becomes the double fault on the
interrupted instruction, with the attempt's effects discarded, and one raised while that is delivered becomes shutdown
(`60_exceptions.md` R315, R316). The double fault's saved pointer and its class, a fault, are the model's choices of log
23, the discarded T that of log 26. -/
def Obligations.UndeliverableEvents : Prop :=
  (∀ (s : State) (e : Event),
    (s.idtr.limit = 0 → deliver e s = .next (.replaced, { s with run := .shutdown, traps := 0, quiet := 0 })) ∧
    (s.mode = .real → s.idtr.limit.toNat < 4 * e.vector.toNat + 3 → s.idtr.limit.toNat < 4 * 8 + 3 →
      deliver e s = .next (.replaced, { s with run := .shutdown, traps := 0, quiet := 0 })) ∧
    (s.idtr.limit.toNat < 4 * e.vector.toNat + 3 → ∀ entry,
      let d : Event := { vector := 8, cls := .fault, err := some 0, ip := e.restart, restart := e.restart }
      let u : State := { s with traps := 0, quiet := 0 }
      u.canEnterReal d entry → deliver e s = .next (.replaced, u.enteredReal d entry))) ∧
  (∀ (s : State) (e : Event),
    match attempt e s with
    | .ok .handler t => deliver e s = .next (.handler, t)
    | .ok .task t => deliver e s = .next (.task, t)
    | .ok (.denied code) t =>
      deliver e s = deniedFault code e.restart { s with free := t.free, traps := 0, quiet := 0 }
    | .error (.exn _) t => deliver e s = doubleFault e.restart { s with free := t.free, traps := 0, quiet := 0 }
    | .error (.fault f) _ => deliver e s = .fault f
    | .error (.refused r) _ => deliver e s = .refused r) ∧
  ∀ (s : State) (ip : Dword),
    match attempt { vector := 8, cls := .fault, err := some 0, ip := ip, restart := ip } s with
    | .ok .handler t => doubleFault ip s = .next (.replaced, t)
    | .ok .task t => doubleFault ip s = .next (.replaced, t)
    | .ok (.denied _) t =>
      doubleFault ip s = .next (.replaced, { s with free := t.free, traps := 0, quiet := 0, run := .shutdown })
    | .error (.exn _) t =>
      doubleFault ip s = .next (.replaced, { s with free := t.free, traps := 0, quiet := 0, run := .shutdown })
    | .error (.fault f) _ => doubleFault ip s = .fault f
    | .error (.refused r) _ => doubleFault ip s = .refused r

/-- Shutdown: nothing is executed and nothing changes but that what the environment presents joins the pending events
(log 39); RESET leaves it, and a nonmaskable interrupt where the part has NMI_LEAVES_SHUTDOWN; when the environment has
nothing more to present there is no next state (`60_exceptions.md` R318, R294 step 0; log 25). -/
def Obligations.ShutdownIsLeftOnlyByReset : Prop :=
  ∀ s : State, s.run = .shutdown →
    (s.inputs = [] → (s.nmi = false ∨ s.params.nmiLeavesShutdown = false) → step s = .fault .shutdown) ∧
    (∀ p rest, s.inputs = p :: rest → p.reset = none →
      let u : State :=
        { s with inputs := rest, nmi := s.nmi || p.nmi,
                 intr := match p.intr with
                   | some v => some v
                   | none => s.intr }
      (u.nmi = false ∨ s.params.nmiLeavesShutdown = false → step s = .next u) ∧
      (u.nmi = true → s.params.nmiLeavesShutdown = true →
        step s = deliverExternal 2 { u with run := .running, nmi := false })) ∧
    (∀ p rest q, s.inputs = p :: rest → p.reset = some q → ∃ t, step s = .next t ∧ t.run = .running) ∧
    (s.inputs = [] → s.nmi = true → s.params.nmiLeavesShutdown = true →
      step s = deliverExternal 2 { s with run := .running, nmi := false })

/-- The flags a handler of this task starts with: TF, RF and VM clear; IF clear in real-address mode and through an
interrupt gate, unchanged through a trap gate; the others as they were (`60_exceptions.md` R303). -/
def Obligations.FlagsOnDelivery : Prop :=
  ∀ (s t : State) (e : Event) (g : Config.ProcGate),
    (deliverReal e s = .ok .handler t →
      t.flags = { s.flags with tf := false, rf := false, vm := false, ifl := false }) ∧
    (enterProcedure g e s = .ok .handler t ∨ enterFromV86 g e s = .ok .handler t →
      t.flags = { s.flags with tf := false, rf := false, vm := false,
                               ifl := if g.interrupt then false else s.flags.ifl })

/-- INT 3: the breakpoint exception, vector 3, a trap without error code, with the byte after it as the saved pointer;
DR6 is not touched, and in real-address mode the whole state it leaves (`42_debug.md` R232, R306). The pointer kept for
a delivery that fails is the model's reading, log 23; the entry's address and the load of CS as in the statement of
real-address delivery (log 41, log 2). -/
def Obligations.BreakpointInstruction : Prop :=
  ∀ s : State, s.prefetchStale = false →
    let e : Event := { vector := 3, cls := .trap, err := none, ip := s.next, restart := s.eip }
    let s1 : State := { s with eip := s.next }
    (∀ entry, s1.canEnterReal e entry → exec .int3 s = .next (complete s false (s1.enteredReal e entry))) ∧
    exec .int3 s =
      match deliver e s1 with
      | .next (.handler, t) => .next (complete s false t)
      | .next (.task, t) => .next (complete s true t)
      | .next (.replaced, t) => .next t
      | .fault f => .fault f
      | .refused r => .refused r

/-- In V86 mode every event goes through the protected-mode IDT: to another task, or to a procedure, which must lie in a
non-conforming segment of level 0, else general protection with the segment's selector as error code (`60_exceptions.md`
R304, R308, `43_v86.md` R261, R263; `90_conflicts.md` C8): vector 13 as a fault with that code and the interrupted
instruction's pointer, and where that in turn cannot be delivered the double fault. The answers' shape is the model's
choice of log 7, and the pointer that general protection saves and the double fault after it those of log 23. -/
def Obligations.V86EventsGoThroughTheIdt : Prop :=
  (∀ (s : State) (e : Event), s.mode = .v86 → s.idtr.limit ≠ 0 →
    let s1 : State := { s with free := s.free + 1 }
    attempt e s = (match Config.gateTransfer s.free e.vector 3 with
      | .procedure g =>
        if g.conforming = true ∨ g.dpl ≠ 0 then .ok (.denied (g.cs.selector.setWidth 32)) s1
        else enterFromV86 g e s1
      | .task t => enterTask t e s1
      | .denied code => .ok (.denied code) s1
      | .fault v code lin => .error (.exn (Exn.ofVector v code lin)) s1) ∧
    match Config.gateTransfer s.free e.vector 3 with
    | .procedure g => g.conforming = true ∨ g.dpl ≠ 0 →
      deliver e s = deniedFault (g.cs.selector.setWidth 32) e.restart (s.rollback s1)
    | .denied code => deliver e s = deniedFault code e.restart (s.rollback s1)
    | .task _ => True
    | .fault _ _ _ => True) ∧
  ∀ (s : State) (code ip : Dword),
    match attempt { vector := 13, cls := .fault, err := some code, ip := ip, restart := ip } s with
    | .ok .handler t => deniedFault code ip s = .next (.replaced, t)
    | .ok .task t => deniedFault code ip s = .next (.replaced, t)
    | .ok (.denied _) t => deniedFault code ip s = doubleFault ip { s with free := t.free, traps := 0, quiet := 0 }
    | .error (.exn _) t => deniedFault code ip s = doubleFault ip { s with free := t.free, traps := 0, quiet := 0 }
    | .error (.fault f) _ => deniedFault code ip s = .fault f
    | .error (.refused r) _ => deniedFault code ip s = .refused r

/-- Leaving V86 mode to a level-0 procedure: on its stack GS, FS, DS, ES, SS, ESP, EFLAGS with VM = 1, CS, EIP and the
error code if there is one, as doublewords; VM and TF cleared, IF through an interrupt gate, CPL 0, DS, ES, FS and GS
null, CS:EIP the gate's target (`43_v86.md` R262). That the processor's table accesses come before the pushes is the
model's choice of log 7, what the null load leaves of the hidden part that of log 28. -/
def Obligations.V86ExitFrame : Prop :=
  ∀ (s t : State) (g : Config.ProcGate) (e : Event), s.mode = .v86 →
    storeBytes g.stores (s.noteReads g.reads) = .ok () t →
    let z (r : SegReg) : Dword := r.selector.setWidth 32
    let frame : List Dword :=
      [z s.seg.gs, z s.seg.fs, z s.seg.ds, z s.seg.es, z s.seg.ss, s.gpr.esp, e.image s.flags, z s.seg.cs, e.ip] ++
        e.err.toList
    let u : State :=
      { t with flags := { s.flags with tf := false, rf := false, vm := false, ifl := s.flags.ifl && !g.interrupt },
               cpl := 0, seg := { s.seg with ss := g.ss }, gpr := { s.gpr with esp := g.esp } }
    let null (r : SegReg) : SegReg := { r with selector := 0, base := 0, big := false, usable := false }
    State.canPushAll true 4 frame u →
    enterFromV86 g e s = .ok .handler
      { State.pushedAll true 4 frame u with
        seg := { es := null s.seg.es, cs := g.cs, ss := g.ss, ds := null s.seg.ds, fs := null s.seg.fs,
                 gs := null s.seg.gs },
        latch := false, eip := g.eip } ∧
    (e.image s.flags).getLsbD 17 = true

/-- Entering a procedure from protected mode: on its stack, which an inner level brings with the old SS and ESP pushed
first, the image of EFLAGS, CS, the saved pointer and the error code if there is one, in items of the gate's size; the
frame's layout is the model's (`60_exceptions.md` R302; log 22). Which procedure or task an event goes to, or that the
gate refuses, is the open interface's answer (`92_eei_decisions.md` D23; the answers' shape, and that the table accesses
come before the pushes, are the model's, log 7). -/
def Obligations.ProtectedEntryFrame : Prop :=
  (∀ (s : State) (e : Event), s.mode = .prot → s.idtr.limit ≠ 0 →
    let s1 : State := { s with free := s.free + 1 }
    attempt e s =
      match Config.gateTransfer s.free e.vector s.cpl with
      | .procedure g => enterProcedure g e s1
      | .task t => enterTask t e s1
      | .denied code => .ok (.denied code) s1
      | .fault v code lin => .error (.exn (Exn.ofVector v code lin)) s1) ∧
  ∀ (s t : State) (g : Config.ProcGate) (e : Event), s.mode = .prot →
    storeBytes g.stores (s.noteReads g.reads) = .ok () t →
    let n : Nat := if g.gate32 then 4 else 2
    let z (r : SegReg) : Dword := r.selector.setWidth 32
    let frame : List Dword :=
      (if g.inner then [z s.seg.ss, s.gpr.esp] else []) ++ [e.image s.flags, z s.seg.cs, e.ip] ++ e.err.toList
    let u : State :=
      { t with flags := { s.flags with tf := false, rf := false, vm := false, ifl := s.flags.ifl && !g.interrupt },
               cpl := g.cpl, seg := { s.seg with ss := if g.inner then g.ss else s.seg.ss },
               gpr := { s.gpr with esp := if g.inner then g.esp else s.gpr.esp } }
    State.canPushAll true n frame u →
    enterProcedure g e s = .ok .handler
      { State.pushedAll true n frame u with
        seg := { s.seg with cs := g.cs, ss := if g.inner then g.ss else s.seg.ss }, latch := false, eip := g.eip }

/-- A task switch. The images it loads: VM from an 80386 TSS makes a V86 task, with 8086 bases, a 16-bit instruction
pointer and CPL 3; otherwise, and from an 80286 TSS always, VM is clear and the segments have the hidden parts of their
descriptors. It loads the LDT and task registers, CR3 with no TLB entry valid if it brings one, clears L0 to L3 and
nothing else of DR7, and the debug mark adds BT to T. The images it saves in the outgoing TSS: EFLAGS with VM and, for a
fault, RF set, the saved pointer, the registers and selectors; and they read back, so a later switch back re-enters V86
mode (`10_state.md` R45, `43_v86.md` R256, R260, `42_debug.md` R215, R224, R227, `60_exceptions.md` R302 (c)). The
layout, what an 80286 TSS holds, the size of a selector's image and the order of saving, reading and loading are the
model's choices of log 40, the sums of a TSS's base and an offset, taken modulo 2^32, that of log 41, what a load as the
8086 would make it leaves of the hidden part that of log 2, the 16-bit instruction pointer and CR3 those of log 32, the
size of the error code and that a JMP, CALL or IRET saves RF and NT as they were those of log 22. -/
def Obligations.TaskSwitchLoadsTheTask : Prop :=
  (∀ (s : State) (t : Config.TaskSwitch) (i : TaskImages),
    let f := Eflags.ofWord i.flags
    let u := s.loadTask t i
    (t.taskReg.is386 = true → u.flags = f) ∧
    (t.taskReg.is386 = false → u.flags = { f with rf := false, vm := false }) ∧
    (t.taskReg.is386 = true → f.vm = true →
      u.cpl = 3 ∧ u.eip = zext16 i.eip ∧
        (u.seg.es.selector = i.es ∧ u.seg.cs.selector = i.cs ∧ u.seg.ss.selector = i.ss ∧ u.seg.ds.selector = i.ds ∧
          u.seg.fs.selector = i.fs ∧ u.seg.gs.selector = i.gs) ∧
        ∀ r, (u.seg.get r).base = (u.seg.get r).selector.setWidth 32 <<< 4) ∧
    (t.taskReg.is386 = false ∨ f.vm = false →
      u.flags.vm = false ∧ u.cpl = t.cpl ∧ u.eip = i.eip ∧
        u.seg = { es := { t.segs.es with selector := i.es }, cs := { t.segs.cs with selector := i.cs },
                  ss := { t.segs.ss with selector := i.ss }, ds := { t.segs.ds with selector := i.ds },
                  fs := { t.segs.fs with selector := i.fs }, gs := { t.segs.gs with selector := i.gs } }) ∧
    u.gpr = i.gprs ∧ u.ldtReg = t.ldtReg ∧ u.taskReg = t.taskReg ∧ u.latch = false ∧
    (t.cr3 = none → u.cr3 = s.cr3 ∧ u.tlb = s.tlb) ∧
    (∀ v, t.cr3 = some v → u.cr3 = v ∧ ∀ k : Fin 32, u.tlb[k.val] = { s.tlb[k.val] with v := false }) ∧
    (∀ k, k < 32 → u.dr7.getLsbD k = (s.dr7.getLsbD k && !(k = 0 || k = 2 || k = 4 || k = 6))) ∧
    u.traps = (if i.mark then s.traps ||| 0x8000 else s.traps)) ∧
  (∀ (s : State) (image ip : Dword), s.cr0.pg = false →
    let b := s.taskReg.base
    let l := if s.taskReg.is386 then s.params.tss386 else s.params.tss286
    let z (r : SegReg) : Dword := r.selector.setWidth 32
    let words (n : Nat) : List (Nat × Dword × Dword) :=
      [(n, b + l.eip, ip), (n, b + l.flags, image), (n, b + l.gprs.eax, s.gpr.eax), (n, b + l.gprs.ecx, s.gpr.ecx),
        (n, b + l.gprs.edx, s.gpr.edx), (n, b + l.gprs.ebx, s.gpr.ebx), (n, b + l.gprs.esp, s.gpr.esp),
        (n, b + l.gprs.ebp, s.gpr.ebp), (n, b + l.gprs.esi, s.gpr.esi), (n, b + l.gprs.edi, s.gpr.edi),
        (2, b + l.es, z s.seg.es), (2, b + l.cs, z s.seg.cs), (2, b + l.ss, z s.seg.ss), (2, b + l.ds, z s.seg.ds)]
    let all := if s.taskReg.is386 then words 4 ++ [(2, b + l.fs, z s.seg.fs), (2, b + l.gs, z s.seg.gs)] else words 2
    (∀ x ∈ all, s.ramAt x.2.1 x.1) →
    (∃ u, saveTask image ip s = .ok () u ∧
      u = { s with mem := s.mem.storeImages all, traps := u.traps, quiet := u.quiet }) ∧
    (imagesApart all → ∀ (t : Config.TaskSwitch) (w : Dword), t.taskReg = s.taskReg →
      (s.taskReg.is386 = true → s.mem.load 2 (b + 0x64) = some w ∧
        ∀ x ∈ all, outside x.2.1 x.1 (b + 0x64) ∧ outside x.2.1 x.1 (b + 0x65)) →
      ∃ u x v, saveTask image ip s = .ok () u ∧ readTask t u = .ok x v ∧
        (x.es = s.seg.es.selector ∧ x.cs = s.seg.cs.selector ∧ x.ss = s.seg.ss.selector ∧
          x.ds = s.seg.ds.selector) ∧
        (s.taskReg.is386 = true → x.eip = ip ∧ x.flags = image ∧ x.gprs = s.gpr ∧ x.fs = s.seg.fs.selector ∧
          x.gs = s.seg.gs.selector ∧ x.mark = w.getLsbD 0 ∧
          (image.getLsbD 17 = true → (v.loadTask t x).flags.vm = true ∧ (v.loadTask t x).cpl = 3 ∧
            (v.loadTask t x).eip = zext16 ip ∧ ∀ r, ((v.loadTask t x).seg.get r).selector = (s.seg.get r).selector)) ∧
        (s.taskReg.is386 = false → x.eip = zext16 ip ∧ x.flags = zext16 image ∧ x.mark = false ∧
          ∀ r, low16 (x.gprs.get r) = low16 (s.gpr.get r)))) ∧
  ∀ (s : State) (t : Config.TaskSwitch) (e : Event),
    enterTask t e s = (do
      taskSwitch t (e.image s.flags) e.ip
      pushErr (if t.taskReg.is386 then 4 else 2) e.err
      pure Attempt.task) s ∧
    (∀ n, pushErr n none s = .ok () s) ∧ (∀ n code, pushErr n (some code) s = push true n code s) ∧
    instrTaskSwitch t s = taskSwitch t s.flags.toWord s.next s ∧
    (∀ image ip, taskSwitch t image ip s = (do
      saveTask image ip
      update fun u => u.noteReads t.reads
      storeBytes t.stores
      let i ← readTask t
      update fun u => u.loadTask t i) s) ∧
    (s.flags.vm = true → (e.image s.flags).getLsbD 17 = true) ∧ (e.cls = .fault → (e.image s.flags).getLsbD 16 = true)

/-! ## Return -/

/-- IRET in real-address mode: offset, CS and FLAGS are popped in the operand size; a 32-bit image also loads RF. The
first, second or third pop is refused if it passes offset FFFFH (`43_v86.md` R258, `93_implementation_defined.md` U21;
log 19). That a 16-bit IRET keeps RF as it was is the model's reading, log 29; what the load of CS leaves of the hidden
part is the model's choice of log 2. -/
def Obligations.IretInRealMode : Prop :=
  ∀ (s : State) (off sel fl : Dword), s.mode = .real → s.prefetchStale = false → off.toNat ≤ 0xFFFF →
    let f := Eflags.ofWord fl
    let cs : SegReg := s.seg.cs.load8086 (low16 sel)
    (State.canPopAll 2 [off, sel, fl] s → exec (.iret .w16) s = .next (complete s true
      { State.poppedAll 2 3 s with seg := { s.seg with cs := cs }, latch := false, eip := off,
                                   flags := { f with rf := s.flags.rf, vm := s.flags.vm } })) ∧
    (State.canPopAll 4 [off, sel, fl] s → exec (.iret .w32) s = .next (complete s true
      { State.poppedAll 4 3 s with seg := { s.seg with cs := cs }, latch := false, eip := off,
                                   flags := { f with vm := s.flags.vm } })) ∧
    ∀ l : List Dword, l.length < 3 →
      (State.canPopAll 2 l s → 0x10000 < (State.poppedAll 2 l.length s).sp.toNat + 2 →
        exec (.iret .w16) s = .refused .pastSegmentEnd) ∧
      (State.canPopAll 4 l s → 0x10000 < (State.poppedAll 4 l.length s).sp.toNat + 4 →
        exec (.iret .w32) s = .refused .pastSegmentEnd)

/-- IRETD at level 0 with VM = 1 in the image: nine doublewords are popped and V86 mode is entered at CPL 3. Any other
return with NT = 0 takes EFLAGS with VM left unchanged and the rest from the open interface, and to a less privileged
level pops ESP and SS as well; with NT = 1 a task is returned to (`43_v86.md` R258, `42_debug.md` R220,
`60_exceptions.md` R291, `92_eei_decisions.md` D23). The answers' shape, and that the table accesses come after the
first three pops, are the model's choices of log 7, the stack of the outer level that of log 22, what a load as the 8086
would make it leaves of the hidden part that of log 2, and that V86 mode is entered whatever the format of the current
TSS that of log 45; that a 16-bit IRET keeps RF as it was is the model's reading, log 29,
and that an IRET with NT = 1 saves NT and RF as they were, in the image of the task it leaves, the model's choice, log 22.
-/
def Obligations.IretInProtectedMode : Prop :=
  (∀ (s : State) (off sel fl esp ss es ds fs gs : Dword), s.mode = .prot → s.level = 0 → s.flags.nt = false →
    s.prefetchStale = false → fl.getLsbD 17 = true →
    State.canPopAll 4 [off, sel, fl, esp, ss, es, ds, fs, gs] s →
    exec (.iret .w32) s = .next (complete s true
      { State.poppedAll 4 9 s with
        flags := Eflags.ofWord fl, eip := zext16 off, cpl := 3, latch := false,
        seg := { es := s.seg.es.load8086 (low16 es), cs := s.seg.cs.load8086 (low16 sel),
                 ss := s.seg.ss.load8086 (low16 ss), ds := s.seg.ds.load8086 (low16 ds),
                 fs := s.seg.fs.load8086 (low16 fs), gs := s.seg.gs.load8086 (low16 gs) },
        gpr := { s.gpr with esp := esp } })) ∧
  (∀ (s : State) (sz : OpSize) (off sel fl : Dword), s.mode = .prot → s.flags.nt = false → s.prefetchStale = false →
    sz = .w16 ∨ fl.getLsbD 17 = false ∨ s.level ≠ 0 → State.canPopAll (sizeBytes sz) [off, sel, fl] s →
    let n := sizeBytes sz
    let t : State := State.poppedAll n 3 s
    let f : Eflags := match sz with
      | .w16 => { Eflags.ofWord fl with rf := s.flags.rf, vm := s.flags.vm }
      | .w32 => { Eflags.ofWord fl with vm := s.flags.vm }
    let u : State := { t with flags := f, free := s.free + 1 }
    let arrive (c : Config.FarCode) (v : State) : State :=
      { v with seg := { v.seg with cs := c.cs }, latch := false, eip := c.eip, cpl := c.cpl }
    match Config.farReturn s.free (low16 sel) off s.level with
    | .code c outer =>
      match storeBytes c.stores (u.noteReads c.reads) with
      | .ok _ v =>
        match outer with
        | none => exec (.iret sz) s = .next (complete s true (arrive c v))
        | some ss => ∀ esp sel', State.canPopAll n [esp, sel'] v →
          let w : State := State.poppedAll n 2 v
          let x : State := { w with seg := { w.seg with ss := { ss with selector := low16 sel' } } }
          exec (.iret sz) s = .next (complete s true (arrive c (x.setSp esp)))
      | .error (.exn x) v => exec (.iret sz) s = takeFault x s v
      | .error (.fault x) _ => exec (.iret sz) s = .fault x
      | .error (.refused q) _ => exec (.iret sz) s = .refused q
    | .fault x code lin => exec (.iret sz) s = takeFault (Exn.ofVector x code lin) s u) ∧
  (∀ (s : State) (sz : OpSize), s.mode = .prot → s.flags.nt = true → s.prefetchStale = false →
    let u : State := { s with free := s.free + 1 }
    exec (.iret sz) s =
      match Config.taskReturn s.free with
      | .task k =>
        match instrTaskSwitch k u with
        | .ok _ v => .next (complete s true v)
        | .error (.exn x) v => takeFault x s v
        | .error (.fault x) _ => .fault x
        | .error (.refused q) _ => .refused q
      | .fault x code lin => takeFault (Exn.ofVector x code lin) s u)

/-- IRET changes VM from 0 to 1 only at CPL 0; at any other level the VM bit of the image is ignored; a return to
another task is the task switch's. IRET executed with VM = 1 is refused (`43_v86.md` R258, R259; `iretBody` is the
instruction before its end). -/
def Obligations.IretSetsVmOnlyAtLevelZero : Prop :=
  (∀ (s t : State) (sz : OpSize) (rf : Bool), s.flags.nt = false ∨ s.mode = .real → iretBody sz s = .ok rf t →
    s.flags.vm = false →
    (t.flags.vm = true → s.level = 0 ∧ s.mode = .prot ∧ sz = .w32) ∧
    (s.level ≠ 0 → t.flags.vm = false)) ∧
  ∀ (s : State) (sz : OpSize), s.mode = .v86 → s.prefetchStale = false → exec (.iret sz) s = .refused .iretInV86

/-! ## Frames -/

/-- A move from a special register changes its general register, the status flags, RF and EIP, and nothing else of the
registers and of memory. -/
def Obligations.FrameOfSpecialRegisterReads : Prop :=
  ∀ (s : State) (r : Reg) (n : Fin 4) (k : Dr67) (i : Instr),
    i = .movFromCr0 r ∨ i = .movFromCr3 r ∨ i = .movFromDr03 r n ∨ i = .movFromDr67 r k ∨ i = .movFromTr6 r ∨
      i = .movFromTr7 r →
    s.level = 0 → s.dr7.getLsbD 13 = false → s.prefetchStale = false →
    ∃ t, exec i s = .next t ∧ (∀ q, q ≠ r → t.gpr.get q = s.gpr.get q) ∧ s.flags.sameControl t.flags ∧
      t.seg = s.seg ∧ t.latch = s.latch ∧ t.cpl = s.cpl ∧ t.system = s.system ∧ t.tlb = s.tlb ∧ s.sameMemory t ∧
      t.eip = s.next

/-- A move to a special register changes that register, the status flags, RF and EIP; MOV CR0 also CPL where it sets PE,
MOV CR3 also the valid bits of the TLB, MOV TR6 also TR7 and the TLB; no general register, no segment register and no
byte of memory. -/
def Obligations.FrameOfSpecialRegisterWrites : Prop :=
  (∀ (s t : State) (r : Reg) (n : Fin 4) (i : Instr), s.level = 0 → s.dr7.getLsbD 13 = false →
    i = .movToCr3 r ∨ i = .movToDr03 n r ∨ i = .movToDr67 .dr6 r ∨ i = .movToDr67 .dr7 r ∨ i = .movToTr6 r ∨
      i = .movToTr7 r →
    exec i s = .next t →
    t.gpr = s.gpr ∧ s.flags.sameControl t.flags ∧ t.seg = s.seg ∧ t.latch = s.latch ∧ t.cpl = s.cpl ∧ s.sameMemory t ∧
      t.eip = s.next ∧
      (i = .movToCr3 r → t.system = { s.system with cr3 := s.gpr.get r }) ∧
      (i = .movToDr03 n r → t.system = (s.setDr n (s.gpr.get r)).system) ∧
      (i = .movToDr67 .dr6 r → t.system = { s.system with dr6 := s.gpr.get r }) ∧
      (i = .movToDr67 .dr7 r → t.system = { s.system with dr7 := s.gpr.get r }) ∧
      (i = .movToTr6 r → t.system = { s.system with tr6 := t.tr6, tr7 := t.tr7 }) ∧
      (i = .movToTr7 r → t.system = { s.system with tr7 := Tr7.ofWord (s.gpr.get r) }) ∧
      (i ≠ .movToCr3 r → i ≠ .movToTr6 r → t.tlb = s.tlb)) ∧
  ∀ (s : State) (r : Reg), s.level = 0 → s.prefetchStale = false →
    (Cr0.ofWord (s.gpr.get r)).pe = true ∨ (s.cr0.pe = false ∧ (Cr0.ofWord (s.gpr.get r)).pg = false) →
    ∃ t, exec (.movToCr0 r) s = .next t ∧ t.gpr = s.gpr ∧ s.flags.sameControl t.flags ∧ t.seg = s.seg ∧
      t.system = { s.system with cr0 := Cr0.ofWord (s.gpr.get r) } ∧ t.tlb = s.tlb ∧ s.sameMemory t ∧
      (s.cr0.pe = (Cr0.ofWord (s.gpr.get r)).pe → t.cpl = s.cpl) ∧ t.eip = s.next

/-- An instruction that reads an operand changes only its own register: a segment register in real-address and V86
mode, IDTR, GDTR or CR0; no general register, no flag but RF, no byte of memory. With paging on, that a page walk
stores nothing is the model's choice of log 8. -/
def Obligations.FrameOfOperandReaders : Prop :=
  ∀ (s u : State) (src : Rm16) (w : Word) (sz : OpSize) (m : MemOp) (limit base : Dword), s.prefetchStale = false →
    (s.like8086 = true → readRm16 src s = .ok w u → ∀ i,
      i = .movEs src ∨ i = .movSs src ∨ i = .movDs src ∨ i = .movFs src ∨ i = .movGs src →
      ∃ t, exec i s = .next t ∧ t.gpr = s.gpr ∧ t.flags = s.flags.resumed ∧ t.cpl = s.cpl ∧ t.system = s.system ∧
        s.sameMemory t ∧ t.seg.cs = s.seg.cs ∧ t.latch = s.latch ∧ (i ≠ .movEs src → t.seg.es = s.seg.es) ∧
        (i ≠ .movSs src → t.seg.ss = s.seg.ss) ∧ (i ≠ .movDs src → t.seg.ds = s.seg.ds) ∧
        (i ≠ .movFs src → t.seg.fs = s.seg.fs) ∧ (i ≠ .movGs src → t.seg.gs = s.seg.gs)) ∧
    (s.level = 0 → readRm16 src s = .ok w u →
      ∃ t, exec (.lmsw src) s = .next t ∧ t.gpr = s.gpr ∧ t.flags = s.flags.resumed ∧ t.seg = s.seg ∧
        s.sameMemory t ∧ t.system = { s.system with cr0 := t.cr0 } ∧ (s.cr0.pe = true → t.cpl = s.cpl)) ∧
    (s.level = 0 → s.operandIs m 0 2 limit → s.operandIs m 2 4 base →
      ∃ t v, exec (.lidt sz m) s = .next t ∧ exec (.lgdt sz m) s = .next v ∧ t.gpr = s.gpr ∧ v.gpr = s.gpr ∧
        t.flags = s.flags.resumed ∧ v.flags = s.flags.resumed ∧ t.seg = s.seg ∧ v.seg = s.seg ∧ t.cpl = s.cpl ∧
        v.cpl = s.cpl ∧ s.sameMemory t ∧ s.sameMemory v ∧ t.system = { s.system with idtr := t.idtr } ∧
        v.system = { s.system with gdtr := v.gdtr } ∧ t.tlb = s.tlb ∧ v.tlb = s.tlb)

/-- Jumps in real-address and V86 mode store nothing: only EIP, a far jump's CS and RF change. With paging on, that the
walk for a pointer in memory stores nothing is the model's choice of log 8. -/
def Obligations.FrameOfJumps : Prop :=
  ∀ (s u : State) (sz : OpSize) (m : MemOp) (b : Byte) (d w : Word) (e off : Dword) (sel : Selector) (i : Instr),
    s.like8086 = true → off.toNat ≤ 0xFFFF →
    i = .jmpRel8 .w16 b ∨ i = .jmpRel (.rel16 d) ∨ (i = .jmpRel8 .w32 b ∧ (s.next + b.signExtend 32).toNat ≤ 0xFFFF) ∨
      (i = .jmpRel (.rel32 e) ∧ (s.next + e).toNat ≤ 0xFFFF) ∨ i = .jmpPtr (.ptr16 w sel) ∨
      i = .jmpPtr (.ptr32 off sel) ∨ (i = .jmpMem sz m ∧ readFarPtr sz m s = .ok (off, sel) u) →
    ∃ t, exec i s = .next t ∧ t.gpr = s.gpr ∧ t.flags = s.flags.resumed ∧ t.cpl = s.cpl ∧ t.system = s.system ∧
      s.sameMemory t ∧ t.seg = { s.seg with cs := t.seg.cs } ∧
      ((∃ z x, i = .jmpRel8 z x) ∨ (∃ x, i = .jmpRel x) → t.seg = s.seg ∧ t.latch = s.latch)

/-- Calls in real-address and V86 mode store to the stack and nowhere else: the bytes of the operand size at `pushLin`,
twice for a far call; of the general registers only ESP changes. That a pointer in memory is read before the pushes is
the model's choice of log 44. -/
def Obligations.FrameOfCalls : Prop :=
  ∀ (s u : State) (sz : OpSize) (m : MemOp) (d w : Word) (e off : Dword) (sel : Selector) (i : Instr),
    s.like8086 = true → s.prefetchStale = false → off.toNat ≤ 0xFFFF →
    let n := sizeBytes sz
    let frame : List Dword := [s.seg.cs.selector.setWidth 32, s.next]
    (i = .callRel (.rel16 d) ∧ sz = .w16 ∧ s.canPush n) ∨
      (i = .callRel (.rel32 e) ∧ sz = .w32 ∧ s.canPush n ∧ (s.next + e).toNat ≤ 0xFFFF) ∨
      (i = .callPtr (.ptr16 w sel) ∧ sz = .w16 ∧ State.canPushAll false n frame s) ∨
      (i = .callPtr (.ptr32 off sel) ∧ sz = .w32 ∧ State.canPushAll false n frame s) ∨
      (i = .callMem sz m ∧ readFarPtr sz m s = .ok (off, sel) u ∧ State.canPushAll false n frame u) →
    ∃ t, exec i s = .next t ∧ (∀ q, q ≠ .esp → t.gpr.get q = s.gpr.get q) ∧ t.flags = s.flags.resumed ∧
      t.cpl = s.cpl ∧ t.system = s.system ∧ t.seg = { s.seg with cs := t.seg.cs } ∧
      ((∃ x, i = .callRel x) → t.seg = s.seg ∧ t.latch = s.latch ∧
        ∀ x, s.outsidePushes n x 1 → t.byteAt x = s.byteAt x) ∧
      ((¬ ∃ x, i = .callRel x) → ∀ x, s.outsidePushes n x 2 → t.byteAt x = s.byteAt x)

/-- INT 3 and IRET in real-address mode: INT 3 stores three words on the stack and nothing else, IRET stores nothing;
of the general registers only ESP changes, of the segment registers only CS, and no system register. -/
def Obligations.FrameOfInterruptAndReturn : Prop :=
  ∀ (s : State) (sz : OpSize) (entry off sel fl : Dword), s.prefetchStale = false →
    (({ s with eip := s.next } : State).canEnterReal
        { vector := 3, cls := .trap, err := none, ip := s.next, restart := s.eip } entry →
      ∃ t, exec .int3 s = .next t ∧ (∀ q, q ≠ .esp → t.gpr.get q = s.gpr.get q) ∧ t.cpl = s.cpl ∧
        t.system = s.system ∧ t.seg = { s.seg with cs := t.seg.cs } ∧
        t.flags = { s.flags with ifl := false, tf := false, rf := false, vm := false } ∧
        ∀ x, s.outsidePushes 2 x 3 → t.byteAt x = s.byteAt x) ∧
    (s.mode = .real → State.canPopAll (sizeBytes sz) [off, sel, fl] s → off.toNat ≤ 0xFFFF →
      ∃ t, exec (.iret sz) s = .next t ∧ (∀ q, q ≠ .esp → t.gpr.get q = s.gpr.get q) ∧ t.cpl = s.cpl ∧
        t.system = s.system ∧ t.seg = { s.seg with cs := t.seg.cs } ∧ s.sameMemory t)

/-! ## Invariants -/

/-- The state after RESET meets the invariant. -/
def Obligations.ResetMeetsInvariant : Prop := State.reset.Inv

/-- Memory stays in its canonical form, and no step changes what the launch declared: the memory map and the
implementation parameters (`00_scope.md` R5, `70_reset_and_hazards.md` R343). -/
def Obligations.StepKeepsMemoryCanonical : Prop :=
  ∀ s t : State, s.MemOk → step s = .next t → t.MemOk ∧ t.map = s.map ∧ t.params = s.params

/-- Mode, level, instruction pointer and segments stay consistent: no paging and no V86 flag in real-address mode, level
3 in V86 mode, a 16-bit instruction pointer and 8086 bases in both (`10_state.md` R25, R33, R37, R61, R62,
`20_memory.md` R84). -/
def Obligations.StepKeepsModeAndSegments : Prop :=
  ∀ s t : State, s.ModeOk → s.PcOk → s.SegOk → step s = .next t → t.ModeOk ∧ t.PcOk ∧ t.SegOk

/-- DR7 never enables a breakpoint the spec calls reserved or undefined, and T holds only bits that a debug trap can set
(`42_debug.md` R213, R222). -/
def Obligations.StepKeepsDebugStateLegal : Prop :=
  ∀ s t : State, s.Dr7Ok → s.TrapsOk → step s = .next t → t.Dr7Ok ∧ t.TrapsOk

/-- No two valid TLB entries hold one page, and every written entry stands where its address says (`41_tlb_test.md`
R186, R189). That this holds of the processor's own fills rests on their shape, log 8. -/
def Obligations.StepKeepsTlbUniqueAndPlaced : Prop :=
  ∀ s t : State, s.TlbUnique → s.TlbPlaced → step s = .next t → t.TlbUnique ∧ t.TlbPlaced
end

