-- ==== Sys2Proof/Laws/Memory.lean ====
section
/-! SUPPORT. Memory: read after write, the canonical form, loads and stores. -/

namespace Sys2Proof.Machine

/-- The byte after byte `i` of a range is byte `i` of the range that starts one byte on. -/
theorem addr_succ (a : Dword) (i : Nat) : a + 1 + BitVec.ofNat 32 i = a + BitVec.ofNat 32 (i + 1) := by
  rw [BitVec.ofNat_add, BitVec.add_assoc]
  congr 1
  exact BitVec.add_comm _ _

/-- The first byte of a range is not among the up to 2^32 - 1 that follow it. -/
theorem addr_ne (a : Dword) {i : Nat} (h : i < 2 ^ 32 - 1) : a ≠ a + 1 + BitVec.ofNat 32 i := by
  rw [addr_succ]
  intro e
  have e2 := congrArg BitVec.toNat e
  rw [BitVec.toNat_add, BitVec.toNat_ofNat] at e2
  have := a.isLt
  rw [Nat.mod_eq_of_lt (a := i + 1) (by omega)] at e2
  by_cases hc : a.toNat + (i + 1) < 2 ^ 32
  · rw [Nat.mod_eq_of_lt hc] at e2; omega
  · rw [Nat.mod_eq_sub_mod (by omega), Nat.mod_eq_of_lt (by omega)] at e2; omega

theorem Memory.read_write_same (m : Memory) (x : Nat) (v : Byte) : (m.write x v).read x = some v := by
  induction m with
  | nil => simp [Memory.write, Memory.read]
  | cons c m ih =>
    simp only [Memory.write]
    split
    · simp [Memory.read]
    · split
      · simp [Memory.read]
      · have : c.1 ≠ x := by omega
        simp [Memory.read, this, ih]

theorem Memory.read_write_other (m : Memory) {x y : Nat} (v : Byte) (h : y ≠ x) :
    (m.write x v).read y = m.read y := by
  induction m with
  | nil => simp [Memory.write, Memory.read, h.symm]
  | cons c m ih =>
    simp only [Memory.write]
    split
    · simp [Memory.read, h.symm]
    · split
      · subst_vars
        simp [Memory.read, h.symm]
      · simp only [Memory.read]
        split <;> simp [ih]

/-- Above every listed address there is nothing to read. -/
theorem Memory.read_below {m : Memory} {lo x : Nat} (h : Memory.wfFrom lo m = true) (hx : x < lo) :
    m.read x = none := by
  induction m generalizing lo with
  | nil => rfl
  | cons c m ih =>
    simp only [Memory.wfFrom, Bool.and_eq_true, decide_eq_true_eq] at h
    have : c.1 ≠ x := by omega
    simp [Memory.read, this, ih h.2 (by omega)]

theorem Memory.wfFrom_write {m : Memory} {lo x : Nat} (v : Byte) (h : Memory.wfFrom lo m = true) (hlo : lo ≤ x)
    (hx : x < 2 ^ 32) : Memory.wfFrom lo (m.write x v) = true := by
  induction m generalizing lo with
  | nil => simp [Memory.write, Memory.wfFrom, hlo]; omega
  | cons c m ih =>
    simp only [Memory.wfFrom, Bool.and_eq_true, decide_eq_true_eq] at h
    simp only [Memory.write]
    split
    · simp only [Memory.wfFrom, Bool.and_eq_true, decide_eq_true_eq]
      exact ⟨⟨hlo, hx⟩, ⟨by omega, h.1.2⟩, h.2⟩
    · split
      · subst_vars
        simp only [Memory.wfFrom, Bool.and_eq_true, decide_eq_true_eq]
        exact ⟨⟨hlo, hx⟩, h.2⟩
      · simp only [Memory.wfFrom, Bool.and_eq_true, decide_eq_true_eq]
        exact ⟨h.1, ih h.2 (by omega)⟩

/-- A write keeps the canonical form. -/
theorem Memory.wf_write {m : Memory} {x : Nat} (v : Byte) (h : m.wf = true) (hx : x < 2 ^ 32) :
    (m.write x v).wf = true := Memory.wfFrom_write v h (Nat.zero_le x) hx

/-- A store keeps the canonical form. -/
theorem Memory.wf_store {m : Memory} (n : Nat) (a v : Dword) (h : m.wf = true) : (m.store n a v).wf = true := by
  induction n generalizing m a v with
  | zero => exact h
  | succ n ih => exact ih _ _ (Memory.wf_write _ h a.isLt)

/-- Placing bytes keeps the canonical form. -/
theorem Memory.wf_placeBytes {m : Memory} (a : Nat) (bs : List Byte) (h : m.wf = true) :
    (placeBytes m a bs).wf = true := by
  induction bs generalizing m a with
  | nil => exact h
  | cons b t ih => exact ih _ (Memory.wf_write _ h (Nat.mod_lt _ (by decide)))

/-- The memory of the reset state is in its canonical form. -/
theorem Memory.wf_reset : State.reset.mem.wf = true := rfl

/-- Two memories in canonical form that read alike everywhere are equal: equal memories are equal data. -/
theorem Memory.eq_of_read {m n : Memory} {lo : Nat} (hm : Memory.wfFrom lo m = true) (hn : Memory.wfFrom lo n = true)
    (h : ∀ x, m.read x = n.read x) : m = n := by
  induction m generalizing n lo with
  | nil =>
    cases n with
    | nil => rfl
    | cons d n =>
      have := h d.1
      simp [Memory.read, Memory.unlisted] at this
  | cons c m ih =>
    simp only [Memory.wfFrom, Bool.and_eq_true, decide_eq_true_eq] at hm
    cases n with
    | nil =>
      have := h c.1
      simp [Memory.read, Memory.unlisted] at this
    | cons d n =>
      simp only [Memory.wfFrom, Bool.and_eq_true, decide_eq_true_eq] at hn
      have h1 := h c.1
      have h2 := h d.1
      have hcd : c.1 = d.1 := by
        rcases Nat.lt_trichotomy c.1 d.1 with hl | he | hg
        · have : Memory.read n c.1 = none := Memory.read_below hn.2 (by omega)
          have hne : ¬ d.1 = c.1 := by omega
          simp [Memory.read, hne, this] at h1
        · exact he
        · have : Memory.read m d.1 = none := Memory.read_below hm.2 (by omega)
          have hne : ¬ c.1 = d.1 := by omega
          simp [Memory.read, hne, this] at h2
      have hv : c.2 = d.2 := by simpa [Memory.read, hcd] using h1
      have hc : c = d := Prod.ext hcd hv
      have : m = n := by
        refine ih hm.2 (by rw [hcd]; exact hn.2) fun x => ?_
        by_cases hx : x < c.1 + 1
        · rw [Memory.read_below hm.2 hx, Memory.read_below hn.2 (by omega)]
        · have hx' := h x
          have n1 : ¬ c.1 = x := by omega
          have n2 : ¬ d.1 = x := by omega
          simpa [Memory.read, n1, n2] using hx'
      rw [hc, this]

/-- A store leaves every byte alone that is not one of the `n` bytes from `a` on. -/
theorem Memory.read_store_outside (m : Memory) (n : Nat) (a v x : Dword) (h : outside a n x) :
    (m.store n a v).read x.toNat = m.read x.toNat := by
  induction n generalizing m a v with
  | zero => rfl
  | succ n ih =>
    have h0 : x ≠ a := by simpa using h 0 (by omega)
    rw [Memory.store, ih]
    · exact Memory.read_write_other _ _ fun e => h0 (BitVec.eq_of_toNat_eq e)
    · intro i hi
      rw [addr_succ]
      exact h (i + 1) (by omega)

/-- Byte `i` of a store is byte `i` of the value (`20_memory.md` R92). -/
theorem Memory.read_store_byte (m : Memory) (n : Nat) (a v : Dword) (i : Nat) (hi : i < n) (hn : n ≤ 4) :
    (m.store n a v).read (a + BitVec.ofNat 32 i).toNat = some (v.extractLsb' (8 * i) 8) := by
  induction n generalizing m a v i with
  | zero => omega
  | succ n ih =>
    rw [Memory.store]
    cases i with
    | zero =>
      rw [Memory.read_store_outside]
      · simp only [BitVec.add_zero, Memory.read_write_same, Nat.mul_zero]
        congr 1
      · intro j hj
        rw [show a + BitVec.ofNat 32 0 = a by simp]
        exact addr_ne a (by omega)
    | succ i =>
      have := ih (m.write a.toNat (v.setWidth 8)) (a + 1) (v >>> 8) i (by omega) (by omega)
      rw [← addr_succ, this]
      congr 1
      ext j hj
      simp only [BitVec.getElem_extractLsb', BitVec.getLsbD_ushiftRight]
      congr 1
      omega

/-- What a store of 1 to 4 bytes leaves is read back as the value it stored (`20_memory.md` R92, R100). -/
theorem Memory.load_store (m : Memory) (n : Nat) (a v : Dword) (hn : n ≤ 4) :
    (m.store n a v).load n a = some (v &&& BitVec.ofNat 32 (2 ^ (8 * n) - 1)) := by
  have key : ∀ k j, j + k = n → (m.store n a v).load k (a + BitVec.ofNat 32 j)
      = some ((v >>> (8 * j)) &&& BitVec.ofNat 32 (2 ^ (8 * k) - 1)) := by
    intro k
    induction k with
    | zero => intro j _; simp [Memory.load]
    | succ k ih =>
      intro j hj
      have h1 := Memory.read_store_byte m n a v j (by omega) hn
      have h2 := ih (j + 1) (by omega)
      have ha : a + BitVec.ofNat 32 j + 1 = a + BitVec.ofNat 32 (j + 1) := by
        rw [BitVec.ofNat_add, BitVec.add_assoc]
        rfl
      rw [Memory.load, h1]
      simp only [ha, h2]
      congr 1
      ext q hq
      by_cases h8 : q < 8
      · have : q < 8 * (k + 1) := by omega
        simp [BitVec.getElem_or, h8, BitVec.getElem_setWidth, BitVec.getLsbD_ofNat, this, hq]
      · have e : q - 8 < 8 * k ↔ q < 8 * (k + 1) := by omega
        have hs : 8 * (j + 1) + (q - 8) = 8 * j + q := by omega
        have m1 : (BitVec.ofNat 32 (2 ^ (8 * k) - 1))[q - 8] = decide (q - 8 < 8 * k) := by
          rw [← BitVec.getLsbD_eq_getElem, BitVec.getLsbD_ofNat]
          simp [show q - 8 < 32 by omega]
        have m2 : (BitVec.ofNat 32 (2 ^ (8 * (k + 1)) - 1))[q] = decide (q < 8 * (k + 1)) := by
          rw [← BitVec.getLsbD_eq_getElem, BitVec.getLsbD_ofNat]
          simp [hq]
        simp [BitVec.getElem_or, h8, BitVec.getElem_setWidth, hs, m1, m2, e]
  have := key n 0 (by omega)
  simpa using this

end Sys2Proof.Machine
end

