-- ==== Sys2Proof/Laws/Run.lean ====
section
/-! SUPPORT. How a computation of `M` runs: one equation for each way to build one, and what the frame of an
instruction answers. -/

namespace Sys2Proof.Machine

variable {α β : Type}

@[simp] theorem bind_run (x : M α) (f : α → M β) (s : State) :
    (x >>= f) s = match x s with
      | .ok a s' => f a s'
      | .error e s' => .error e s' := by
  change EStateM.bind x f s = _
  unfold EStateM.bind
  cases x s <;> rfl

@[simp] theorem map_run (f : α → β) (x : M α) (s : State) :
    (f <$> x) s = match x s with
      | .ok a s' => .ok (f a) s'
      | .error e s' => .error e s' := by
  change EStateM.map f x s = _
  unfold EStateM.map
  cases x s <;> rfl

@[simp] theorem pure_run (a : α) (s : State) : (pure a : M α) s = .ok a s := rfl
@[simp] theorem asks_run (f : State → α) (s : State) : asks f s = .ok (f s) s := rfl
@[simp] theorem update_run (f : State → State) (s : State) : update f s = .ok () (f s) := rfl
@[simp] theorem raise_run (e : Exn) (s : State) : (raise e : M α) s = .error (.exn e) s := rfl
@[simp] theorem stop_run (f : Fault) (s : State) : (stop f : M α) s = .error (.fault f) s := rfl
@[simp] theorem refuse_run (r : Refusal) (s : State) : (refuse r : M α) s = .error (.refused r) s := rfl
@[simp] theorem drawIndex_run (s : State) : drawIndex s = .ok s.free { s with free := s.free + 1 } := rfl
@[simp] theorem draw_run (s : State) : draw s = .ok (Config.freeWord s.free) { s with free := s.free + 1 } := rfl
@[simp] theorem toNext_run (s : State) : toNext s = .ok false { s with eip := s.next } := rfl
@[simp] theorem drawStatus_run (s : State) :
    drawStatus s = .ok () { s with flags := s.flags.setStatus (Config.freeWord s.free), free := s.free + 1 } := rfl

/-- A bind that ends well ended well in both parts. -/
theorem bind_ok {x : M α} {f : α → M β} {s s' : State} {b : β} (h : (x >>= f) s = .ok b s') :
    ∃ a s1, x s = .ok a s1 ∧ f a s1 = .ok b s' := by
  simp only [bind_run] at h
  split at h
  · exact ⟨_, _, ‹_›, h⟩
  · cases h

/-! ## Checks that change nothing -/

theorem requireLevel0_run {s : State} (h : s.level = 0) : requireLevel0 s = .ok () s := by
  simp [requireLevel0, h]

theorem requireLevel0_raise {s : State} (h : s.level ≠ 0) :
    requireLevel0 s = .error (.exn (generalProtection 0)) s := by
  unfold requireLevel0
  rw [if_neg h]

theorem requireLevel0_ok {s s' : State} {u : Unit} (h : requireLevel0 s = .ok u s') : s' = s ∧ s.level = 0 := by
  unfold requireLevel0 at h
  split at h
  · cases h; exact ⟨rfl, ‹_›⟩
  · cases h

theorem checkTarget_run {s : State} {off : Dword} (h : s.like8086 = true → off.toNat ≤ 0xFFFF) :
    checkTarget off s = .ok () s := by
  unfold checkTarget
  rw [if_neg]
  simp only [Bool.and_eq_true, decide_eq_true_eq, not_and, Nat.not_lt]
  exact h

theorem checkTarget_raise {s : State} {off : Dword} (h : s.like8086 = true) (h2 : 0xFFFF < off.toNat) :
    checkTarget off s = .error (.exn (generalProtection 0)) s := by
  simp [checkTarget, h, h2]

theorem checkTarget_ok {s s' : State} {off : Dword} {u : Unit} (h : checkTarget off s = .ok u s') :
    s' = s ∧ (s.like8086 = true → off.toNat ≤ 0xFFFF) := by
  unfold checkTarget at h
  split at h
  · cases h
  · cases h
    refine ⟨rfl, fun h8 => ?_⟩
    simp_all

theorem checkAccess_ok {s s' : State} {r : SReg} {off : Dword} {n : Nat} {u : Unit}
    (h : checkAccess r off n s = .ok u s') : s' = s := by
  unfold checkAccess at h
  repeat' split at h
  all_goals cases h
  all_goals rfl

theorem checkPop_ok {s s' : State} {n : Nat} {u : Unit} (h : checkPop n s = .ok u s') : s' = s := by
  unfold checkPop at h
  split at h <;> cases h
  rfl

/-! ## The frame of an instruction -/

/-- An instruction whose body ends well completes. -/
theorem runInstr_ok {isJmp : Bool} {body : M Bool} {s s' : State} {rf : Bool}
    (h : (s.prefetchStale && !isJmp) = false) (hb : body s = .ok rf s') :
    runInstr isJmp body s = .next (complete s rf s') := by
  unfold runInstr
  rw [if_neg (by simp [h])]
  simp [hb]

/-- An instruction whose body raises takes the exception. -/
theorem runInstr_raise {isJmp : Bool} {body : M Bool} {s s' : State} {e : Exn}
    (h : (s.prefetchStale && !isJmp) = false) (hb : body s = .error (.exn e) s') :
    runInstr isJmp body s = takeFault e s s' := by
  unfold runInstr
  rw [if_neg (by simp [h])]
  simp [hb]

/-- An instruction whose body is refused is refused. -/
theorem runInstr_refused {isJmp : Bool} {body : M Bool} {s s' : State} {r : Refusal}
    (h : (s.prefetchStale && !isJmp) = false) (hb : body s = .error (.refused r) s') :
    runInstr isJmp body s = .refused r := by
  unfold runInstr
  rw [if_neg (by simp [h])]
  simp [hb]

/-- While the prefetch queue may be stale, an instruction that is not a JMP has no meaning. -/
theorem runInstr_stale {body : M Bool} {s : State} (h : s.prefetchStale = true) :
    runInstr false body s = .refused .notJumpAfterPe := by
  simp [runInstr, h]

/-- All ways an instruction can answer a next state: its body ended well, or it raised an exception that was taken. -/
theorem runInstr_next {isJmp : Bool} {body : M Bool} {s t : State} (h : runInstr isJmp body s = .next t) :
    (s.prefetchStale && !isJmp) = false ∧
      ((∃ rf s', body s = .ok rf s' ∧ t = complete s rf s') ∨
        ∃ e s', body s = .error (.exn e) s' ∧ takeFault e s s' = .next t) := by
  unfold runInstr at h
  split at h
  · cases h
  · rename_i hs
    refine ⟨by simpa using hs, ?_⟩
    split at h
    · cases h; exact .inl ⟨_, _, ‹_›, rfl⟩
    · exact .inr ⟨_, _, ‹_›, h⟩
    · cases h
    · cases h

end Sys2Proof.Machine
end

