-- ==== Sys2Proof/Laws/Access.lean ====
section
/-! SUPPORT. One lemma for each access to memory, with paging off: bytes, data operands, push and pop. -/

namespace Sys2Proof.Machine

/-- Without paging a linear address is the physical address (`20_memory.md` R82). -/
theorem translate_off {s : State} (lin : Dword) (k : Config.Access) (cpl : Level) (h : s.cr0.pg = false) :
    translate lin k cpl s = .ok lin s := by
  simp [translate, h]

theorem readPhys_run {s : State} {p : Dword} {b : Byte} (h : s.mem.read p.toNat = some b) :
    readPhys p s = .ok b s := by
  simp [readPhys, h]

theorem writePhys_run {s : State} {p : Dword} (b : Byte) (h : kindAt s.map p.toNat = some .ram) :
    writePhys p b s = .ok () { s with mem := s.mem.write p.toNat b } := by
  simp [writePhys, h]

theorem readLin_run {s : State} {k : Config.Access} {cpl : Level} {n : Nat} {a v : Dword} (h : s.cr0.pg = false)
    (hv : s.mem.load n a = some v) : readLin k cpl n a s = .ok v s := by
  induction n generalizing a v with
  | zero =>
    simp only [Memory.load, Option.some.injEq] at hv
    subst hv
    rfl
  | succ n ih =>
    simp only [Memory.load] at hv
    split at hv
    · cases hv
    · split at hv
      · cases hv
      · cases hv
        simp only [readLin, bind_run, translate_off a k cpl h, readPhys_run ‹_›, ih ‹_›, pure_run]

theorem writeLin_run {s : State} {cpl : Level} {n : Nat} {a v : Dword} (h : s.cr0.pg = false) (hr : s.ramAt a n) :
    writeLin cpl n a v s = .ok () { s with mem := s.mem.store n a v } := by
  induction n generalizing s a v with
  | zero => rfl
  | succ n ih =>
    have h0 : kindAt s.map a.toNat = some .ram := by simpa using hr 0 (by omega)
    have ht : ({ s with mem := s.mem.write a.toNat (v.setWidth 8) } : State).ramAt (a + 1) n := by
      intro i hi
      have := hr (i + 1) (by omega)
      rw [← addr_succ] at this
      exact this
    simp only [writeLin, bind_run, translate_off a .write cpl h, writePhys_run _ h0]
    rw [ih (by exact h) ht]
    rfl

/-- What a data read leaves, with paging off. -/
theorem readData_run {s : State} {r : SReg} {off v : Dword} {n : Nat} (h : s.cr0.pg = false)
    (hc : checkAccess r off n s = .ok () s) (hv : s.mem.load n (s.dataLin r off) = some v) :
    readData r off n s = .ok v (s.noteAccess (s.dataLin r off) n .read) := by
  simp only [readData, bind_run, hc, asks_run, update_run]
  exact readLin_run (by exact h) hv

/-- What a push leaves, with paging off. -/
theorem push_run {s : State} (implicit : Bool) {n : Nat} (v : Dword) (h : s.canPush n) :
    push implicit n v s = .ok () (s.pushed implicit n v) := by
  obtain ⟨hpg, hend, hram⟩ := h
  cases implicit with
  | false =>
    simp only [push, checkPush, bind_run, asks_run, hend, update_run, pure_run, Bool.false_eq_true, if_false]
    rw [writeLin_run (by exact hpg) (by exact hram)]
    rfl
  | true =>
    simp only [push, checkPush, bind_run, asks_run, hend, update_run, pure_run, Bool.false_eq_true, if_false, if_true]
    rw [writeLin_run (by unfold State.noteImplicit; split <;> exact hpg)
      (by unfold State.noteImplicit; split <;> exact hram)]
    simp only [State.pushed, State.noteImplicit]
    split <;> rfl

/-- What a pop leaves, with paging off. -/
theorem pop_run {s : State} {n : Nat} {v : Dword} (h : s.canPop n v) : pop n s = .ok v (s.popped n) := by
  obtain ⟨hpg, hend, hv⟩ := h
  have hc : checkPop n s = .ok () s := by simp [checkPop, hend]
  simp only [pop, bind_run, hc, asks_run, update_run]
  rw [show readLin .read (s.noteAccess (s.lin .ss s.sp) n .read).level n (s.lin .ss s.sp)
      (s.noteAccess (s.lin .ss s.sp) n .read) = .ok v (s.noteAccess (s.lin .ss s.sp) n .read) from
    readLin_run (by exact hpg) (by exact hv)]
  rfl

end Sys2Proof.Machine
end

