-- ==== Sys2Proof/Laws/Decode.lean ====
section
/-! SUPPORT. The decoder reads no further than the instruction it finds, and the operand encoders are inverse to the
operand decoders (`30_encoding.md` R125 to R127). -/

namespace Sys2Proof

/-! ## Fields and bytes -/

@[simp] theorem fieldHi_modrm (a : BitVec 2) (b c : BitVec 3) : fieldHi (modrm a b c) = a := by
  revert a b c; decide
@[simp] theorem fieldMid_modrm (a : BitVec 2) (b c : BitVec 3) : fieldMid (modrm a b c) = b := by
  revert a b c; decide
@[simp] theorem fieldLo_modrm (a : BitVec 2) (b c : BitVec 3) : fieldLo (modrm a b c) = c := by
  revert a b c; decide

@[simp] theorem Reg.ofNum_num (r : Reg) : Reg.ofNum r.num = r := by cases r <;> rfl
@[simp] theorem Base16.ofNum_num (b : Base16) : Base16.ofNum b.num = b := by cases b <;> rfl
@[simp] theorem Scale.ofNum_num (s : Scale) : Scale.ofNum s.num = s := by cases s <;> rfl

theorem idxOfNum_num {i : Option Reg} (h : i ≠ some .esp) : idxOfNum (idxNum i) = i := by
  cases i with
  | none => rfl
  | some r => cases r <;> first | rfl | exact absurd rfl h

@[simp] theorem word16_bytes (w : Word) : word16 (w.extractLsb' 0 8) (w.extractLsb' 8 8) = w := by
  apply BitVec.eq_of_getLsbD_eq
  intro i hi
  simp only [word16, BitVec.getLsbD_append, BitVec.getLsbD_extractLsb']
  by_cases h : i < 8
  · simp [h]
  · simp only [h, if_false, show i - 8 < 8 by omega, decide_true, Bool.true_and]
    congr 1
    omega

@[simp] theorem word32_bytes (w : Dword) :
    word32 (w.extractLsb' 0 8) (w.extractLsb' 8 8) (w.extractLsb' 16 8) (w.extractLsb' 24 8) = w := by
  apply BitVec.eq_of_getLsbD_eq
  intro i hi
  simp only [word32, BitVec.getLsbD_append, BitVec.getLsbD_extractLsb']
  by_cases h : i < 8
  · simp [h]
  · by_cases h1 : i - 8 < 8
    · simp only [h, h1, if_false, if_true, decide_true, Bool.true_and]
      congr 1
      omega
    · by_cases h2 : i - 8 - 8 < 8
      · simp only [h, h1, h2, if_false, if_true, decide_true, Bool.true_and]
        congr 1
        omega
      · simp only [h, h1, h2, if_false, show i - 8 - 8 - 8 < 8 by omega, decide_true, Bool.true_and]
        congr 1
        omega

@[simp] theorem take16_bytes16 (w : Word) (t : List Byte) : take16 (bytes16 w ++ t) = some (w, t) := by
  simp [bytes16, take16]

@[simp] theorem take32_bytes32 (w : Dword) (t : List Byte) : take32 (bytes32 w ++ t) = some (w, t) := by
  simp [bytes32, take32]

/-! ## Addressing forms -/

theorem takeDisp16_bytes (d : Disp16) (t : List Byte) : takeDisp16 d.mod (d.bytes ++ t) = some (d, t) := by
  cases d <;> simp [takeDisp16, Disp16.mod, Disp16.bytes]

theorem takeDisp32_bytes (d : Disp32) (t : List Byte) : takeDisp32 d.mod (d.bytes ++ t) = some (d, t) := by
  cases d <;> simp [takeDisp32, Disp32.mod, Disp32.bytes]

/-- The bytes of an addressing form are a ModRM byte that is not a register form and what `takeEa` reads back
(`30_encoding.md` R125). -/
theorem takeEa_encEa (reg : BitVec 3) {ea : Ea} (h : ea.wf = true) (t : List Byte) :
    ∃ m u, encEa reg ea = m :: u ∧ fieldHi m ≠ 3 ∧ fieldMid m = reg ∧
      takeEa ea.size (fieldHi m) (fieldLo m) (u ++ t) = some (ea, t) := by
  cases ea with
  | based16 b d =>
    refine ⟨_, _, rfl, ?_, ?_, ?_⟩
    · cases d <;> simp [Disp16.mod]
    · simp
    · have hn : ¬ (d.mod = 0 ∧ b.num = 6) := by
        cases b <;> cases d <;> first | (simp [Ea.wf] at h; done) | simp [Disp16.mod, Base16.num]
      simp only [takeEa, Ea.size, fieldHi_modrm, fieldLo_modrm]
      rw [if_neg hn, takeDisp16_bytes]
      simp
  | direct16 d =>
    refine ⟨_, _, rfl, ?_, ?_, ?_⟩ <;> simp [takeEa, Ea.size]
  | based32 b d =>
    refine ⟨_, _, rfl, ?_, ?_, ?_⟩
    · cases d <;> simp [Disp32.mod]
    · simp
    · have h4 : ¬ b.num = 4 := by cases b <;> cases d <;> first | (simp [Ea.wf] at h; done) | simp [Reg.num]
      have hn : ¬ (d.mod = 0 ∧ b.num = 5) := by
        cases b <;> cases d <;> first | (simp [Ea.wf] at h; done) | simp [Disp32.mod, Reg.num]
      simp only [takeEa, Ea.size, fieldHi_modrm, fieldLo_modrm]
      rw [if_neg h4, if_neg hn, takeDisp32_bytes]
      simp
  | direct32 d =>
    refine ⟨_, _, rfl, ?_, ?_, ?_⟩ <;> simp [takeEa, Ea.size]
  | sib sc i b d =>
    have hi : i ≠ some .esp := by rintro rfl; simp [Ea.wf] at h
    refine ⟨_, _, rfl, ?_, ?_, ?_⟩
    · cases d <;> simp [Disp32.mod]
    · simp
    · have hn : ¬ (d.mod = 0 ∧ b.num = 5) := by
        cases i with
        | none => cases b <;> cases d <;> first | (simp [Ea.wf] at h; done) | simp [Disp32.mod, Reg.num]
        | some q =>
          cases b <;> cases d <;>
            first | (cases q <;> simp [Ea.wf] at h; done) | simp [Disp32.mod, Reg.num]
      simp only [takeEa, Ea.size, fieldHi_modrm, fieldLo_modrm, if_true, takeSib, List.cons_append]
      rw [if_neg (by simpa using hn)]
      simp [takeDisp32_bytes, idxOfNum_num hi]
  | sibNoBase sc i d =>
    have hi : i ≠ some .esp := by rintro rfl; simp [Ea.wf] at h
    refine ⟨_, _, rfl, ?_, ?_, ?_⟩ <;> simp [takeEa, Ea.size, takeSib, idxOfNum_num hi]

/-! ## Nothing after the instruction is read

An operand reader that succeeds has read some bytes `c`, and answers the same whatever follows them. -/

theorem take16_exact {bs t : List Byte} {w : Word} (h : take16 bs = some (w, t)) :
    ∃ c, bs = c ++ t ∧ ∀ r, take16 (c ++ r) = some (w, r) := by
  unfold take16 at h
  split at h
  · cases h
    exact ⟨[_, _], rfl, fun _ => rfl⟩
  · cases h

theorem take32_exact {bs t : List Byte} {w : Dword} (h : take32 bs = some (w, t)) :
    ∃ c, bs = c ++ t ∧ ∀ r, take32 (c ++ r) = some (w, r) := by
  unfold take32 at h
  split at h
  · cases h
    exact ⟨[_, _, _, _], rfl, fun _ => rfl⟩
  · cases h

theorem takeDisp16_exact {mod : BitVec 2} {bs t : List Byte} {d : Disp16} (h : takeDisp16 mod bs = some (d, t)) :
    ∃ c, bs = c ++ t ∧ ∀ r, takeDisp16 mod (c ++ r) = some (d, r) := by
  unfold takeDisp16 at h ⊢
  split at h
  · cases h
    exact ⟨[], rfl, fun _ => by simp [*]⟩
  · split at h
    · split at h
      · cases h
        exact ⟨[_], rfl, fun _ => by simp [*]⟩
      · cases h
    · simp only [Option.map_eq_some_iff] at h
      obtain ⟨⟨w, u⟩, hw, he⟩ := h
      cases he
      obtain ⟨c, rfl, hc⟩ := take16_exact hw
      rename_i h0 h1
      exact ⟨c, rfl, fun r => by rw [if_neg h0, if_neg h1, hc]; rfl⟩

theorem takeDisp32_exact {mod : BitVec 2} {bs t : List Byte} {d : Disp32} (h : takeDisp32 mod bs = some (d, t)) :
    ∃ c, bs = c ++ t ∧ ∀ r, takeDisp32 mod (c ++ r) = some (d, r) := by
  unfold takeDisp32 at h ⊢
  split at h
  · cases h
    exact ⟨[], rfl, fun _ => by simp [*]⟩
  · split at h
    · split at h
      · cases h
        exact ⟨[_], rfl, fun _ => by simp [*]⟩
      · cases h
    · simp only [Option.map_eq_some_iff] at h
      obtain ⟨⟨w, u⟩, hw, he⟩ := h
      cases he
      obtain ⟨c, rfl, hc⟩ := take32_exact hw
      rename_i h0 h1
      exact ⟨c, rfl, fun r => by rw [if_neg h0, if_neg h1, hc]; rfl⟩

theorem takeSib_exact {mod : BitVec 2} {bs t : List Byte} {ea : Ea} (h : takeSib mod bs = some (ea, t)) :
    ∃ c, bs = c ++ t ∧ ∀ r, takeSib mod (c ++ r) = some (ea, r) := by
  unfold takeSib at h
  split at h
  · cases h
  · split at h
    all_goals
      simp only [Option.map_eq_some_iff] at h
      obtain ⟨⟨w, u⟩, hw, he⟩ := h
      cases he
    · obtain ⟨c, rfl, hc⟩ := take32_exact hw
      exact ⟨_ :: c, rfl, fun r => by simp [takeSib, *]⟩
    · obtain ⟨c, rfl, hc⟩ := takeDisp32_exact hw
      rename_i hn
      refine ⟨_ :: c, rfl, fun r => ?_⟩
      simp only [takeSib, List.cons_append]
      rw [if_neg hn, hc]
      rfl

theorem takeEa_exact {asz : OpSize} {mod : BitVec 2} {rm : BitVec 3} {bs t : List Byte} {ea : Ea}
    (h : takeEa asz mod rm bs = some (ea, t)) :
    ∃ c, bs = c ++ t ∧ ∀ r, takeEa asz mod rm (c ++ r) = some (ea, r) := by
  cases asz with
  | w16 =>
    simp only [takeEa] at h ⊢
    split at h
    all_goals
      simp only [Option.map_eq_some_iff] at h
      obtain ⟨⟨w, u⟩, hw, he⟩ := h
      cases he
    · obtain ⟨c, rfl, hc⟩ := take16_exact hw
      exact ⟨c, rfl, fun r => by simp [*]⟩
    · obtain ⟨c, rfl, hc⟩ := takeDisp16_exact hw
      rename_i hn
      exact ⟨c, rfl, fun r => by rw [if_neg hn, hc]; rfl⟩
  | w32 =>
    simp only [takeEa] at h ⊢
    split at h
    · obtain ⟨c, rfl, hc⟩ := takeSib_exact h
      rename_i h4
      exact ⟨c, rfl, fun r => by rw [if_pos h4, hc]⟩
    · rename_i h4
      split at h
      all_goals
        simp only [Option.map_eq_some_iff] at h
        obtain ⟨⟨w, u⟩, hw, he⟩ := h
        cases he
      · obtain ⟨c, rfl, hc⟩ := take32_exact hw
        rename_i h5
        exact ⟨c, rfl, fun r => by rw [if_neg h4, if_pos h5, hc]; rfl⟩
      · obtain ⟨c, rfl, hc⟩ := takeDisp32_exact hw
        rename_i h5
        exact ⟨c, rfl, fun r => by rw [if_neg h4, if_neg h5, hc]; rfl⟩

/-- The decision `res`, come to by the reader `g` on the bytes `bs` of an instruction of `total` bytes, stands whatever
follows the bytes read, and the length in it counts exactly those. -/
def Stands (g : Nat → List Byte → DecodeResult) (total : Nat) (bs : List Byte) (res : DecodeResult) : Prop :=
  match res with
  | .more => True
  | .ok i n => ∃ c t, bs = c ++ t ∧ n = total - t.length ∧
      ∀ total' r, g total' (c ++ r) = .ok i (total' - r.length)
  | .invalid => ∀ total' r, g total' (bs ++ r) = .invalid
  | .unsupported w => ∀ total' r, g total' (bs ++ r) = .unsupported w

/-- Every decision of the reader stands. -/
def Stable (g : Nat → List Byte → DecodeResult) : Prop := ∀ total bs, Stands g total bs (g total bs)

theorem Stable.finish (i : Instr) : Stable fun total bs => Sys2Proof.finish total i bs :=
  fun _ bs => ⟨[], bs, rfl, rfl, fun _ _ => rfl⟩

theorem Stable.invalid : Stable fun _ _ => .invalid := fun _ _ _ _ => rfl

theorem Stable.unsupported (w : Unsupported) : Stable fun _ _ => .unsupported w := fun _ _ _ _ => rfl

theorem Stable.ite {c : Prop} [Decidable c] {g h : Nat → List Byte → DecodeResult} (hg : Stable g) (hh : Stable h) :
    Stable fun total bs => if c then g total bs else h total bs := by
  by_cases hc : c
  · simpa only [if_pos hc] using hg
  · simpa only [if_neg hc] using hh

/-- Read one byte, then go on. -/
theorem Stable.cons {g : Byte → Nat → List Byte → DecodeResult} (hg : ∀ b, Stable (g b)) :
    Stable fun total bs =>
      match bs with
      | [] => .more
      | b :: t => g b total t := by
  intro total bs
  cases bs with
  | nil => trivial
  | cons b t =>
    have := hg b total t
    change Stands _ total (b :: t) (g b total t)
    revert this
    generalize hr : g b total t = res
    cases res with
    | more => exact fun _ => trivial
    | invalid => exact fun h => h
    | unsupported w => exact fun h => h
    | ok i n => exact fun ⟨c, u, e, hn, h⟩ => ⟨b :: c, u, by rw [e]; rfl, hn, h⟩

/-- Read an operand, then go on: `G` is the reader that does so. -/
theorem Stable.bind {α : Type} {f : List Byte → Option (α × List Byte)} {G : Nat → List Byte → DecodeResult}
    (g : α → Nat → List Byte → DecodeResult)
    (hf : ∀ bs x t, f bs = some (x, t) → ∃ c, bs = c ++ t ∧ ∀ r, f (c ++ r) = some (x, r))
    (hs : ∀ total bs x t, f bs = some (x, t) → G total bs = g x total t)
    (hn : ∀ total bs, f bs = none → G total bs = .more)
    (hg : ∀ x, Stable (g x)) : Stable G := by
  intro total bs
  cases hb : f bs with
  | none => rw [hn _ _ hb]; trivial
  | some p =>
    obtain ⟨x, t⟩ := p
    obtain ⟨c, rfl, hc⟩ := hf _ _ _ hb
    have := hg x total t
    rw [hs _ _ _ _ hb]
    revert this
    generalize g x total t = res
    cases res with
    | more => exact fun _ => trivial
    | invalid =>
      exact fun h total' r => by rw [List.append_assoc, hs _ _ _ _ (hc _)]; exact h _ _
    | unsupported w =>
      exact fun h total' r => by rw [List.append_assoc, hs _ _ _ _ (hc _)]; exact h _ _
    | ok i n =>
      rintro ⟨c', u, rfl, rfl, h⟩
      exact ⟨c ++ c', u, by simp, rfl, fun total' r => by
        rw [List.append_assoc, hs _ _ _ _ (hc _)]; exact h _ _⟩

theorem Stable.withMem (asz : OpSize) (p : Pre) (m : Byte) (k : MemOp → Instr) :
    Stable fun total bs => Sys2Proof.withMem asz p total m bs k := by
  unfold Sys2Proof.withMem
  refine .ite .invalid ?_
  exact .bind (f := takeEa asz (fieldHi m) (fieldLo m)) (fun ea total t => Sys2Proof.finish total (k { seg := p.seg, ea := ea }) t)
    (fun _ _ _ h => takeEa_exact h) (fun _ _ _ _ h => by simp [h]) (fun _ _ h => by simp [h]) fun _ => .finish _

theorem Stable.withRm (asz : OpSize) (p : Pre) (m : Byte) (k : Rm16 → Instr) :
    Stable fun total bs => Sys2Proof.withRm asz p total m bs k := by
  unfold Sys2Proof.withRm
  refine .ite (.finish _) ?_
  exact .bind (f := takeEa asz (fieldHi m) (fieldLo m)) (fun ea total t => Sys2Proof.finish total (k (.mem { seg := p.seg, ea := ea })) t)
    (fun _ _ _ h => takeEa_exact h) (fun _ _ _ _ h => by simp [h]) (fun _ _ h => by simp [h]) fun _ => .finish _

theorem Stable.decode0F (d : OpSize) (p : Pre) : Stable fun total bs => Sys2Proof.decode0F d p total bs := by
  unfold Sys2Proof.decode0F
  refine .cons fun b => .ite (.cons fun m => ?_) (.ite (.cons fun m => ?_) (.ite (.cons fun m => ?_) ?_))
  · exact .ite (.withMem _ _ _ _) (.ite (.withMem _ _ _ _) (.ite (.withRm _ _ _ _) (.unsupported _)))
  · cases h : moveOf b (fieldMid m) (Reg.ofNum (fieldLo m)) with
    | ok i n => exact .finish i
    | more => exact fun _ _ => trivial
    | invalid => exact .invalid
    | unsupported w => exact .unsupported w
  · cases bitName (fieldMid m) with
    | none => exact .unsupported _
    | some s => exact .unsupported _
  · refine .ite (.unsupported _) (.ite (.unsupported _) ?_)
    cases nameIn namedOnlyTable0F b with
    | none => exact .unsupported _
    | some s => exact .unsupported _

/-- Read a displacement of 16 bits. -/
theorem Stable.disp16 {G : Nat → List Byte → DecodeResult} (g : Word → Nat → List Byte → DecodeResult)
    (hs : ∀ total bs x t, take16 bs = some (x, t) → G total bs = g x total t)
    (hn : ∀ total bs, take16 bs = none → G total bs = .more) (hg : ∀ x, Stable (g x)) : Stable G :=
  .bind g (fun _ _ _ h => take16_exact h) hs hn hg

/-- Read a displacement of 32 bits. -/
theorem Stable.disp32 {G : Nat → List Byte → DecodeResult} (g : Dword → Nat → List Byte → DecodeResult)
    (hs : ∀ total bs x t, take32 bs = some (x, t) → G total bs = g x total t)
    (hn : ∀ total bs, take32 bs = none → G total bs = .more) (hg : ∀ x, Stable (g x)) : Stable G :=
  .bind g (fun _ _ _ h => take32_exact h) hs hn hg

/-- Read a selector and finish. -/
theorem Stable.selector (k : Word → Instr) :
    Stable fun total u =>
      match take16 u with
      | some (s, v) => Sys2Proof.finish total (k s) v
      | none => .more :=
  .disp16 (fun s total v => Sys2Proof.finish total (k s) v) (fun _ _ _ _ h => by simp [h])
    (fun _ _ h => by simp [h]) fun _ => .finish _

theorem Stable.decodeOp (d : OpSize) (p : Pre) : Stable fun total bs => Sys2Proof.decodeOp d p total bs := by
  unfold Sys2Proof.decodeOp
  refine .cons fun b => .ite ?_ (.ite ?_ (.ite ?_ (.ite ?_ (.ite ?_ (.ite ?_ (.ite (.finish _) (.ite (.finish _)
    (.ite (.decode0F _ _) (.ite (.unsupported _) (.ite ?_ (.ite ?_ ?_)))))))))))
  · intro total bs
    cases bs with
    | nil => trivial
    | cons x u => exact ⟨[x], u, rfl, rfl, fun _ _ => rfl⟩
  · cases p.opSize d with
    | w16 =>
      exact .disp16 (fun w total u => Sys2Proof.finish total (.jmpRel (.rel16 w)) u) (fun _ _ _ _ h => by simp [h])
        (fun _ _ h => by simp [h]) fun _ => .finish _
    | w32 =>
      exact .disp32 (fun w total u => Sys2Proof.finish total (.jmpRel (.rel32 w)) u) (fun _ _ _ _ h => by simp [h])
        (fun _ _ h => by simp [h]) fun _ => .finish _
  · cases p.opSize d with
    | w16 =>
      exact .disp16 (fun w total u => Sys2Proof.finish total (.callRel (.rel16 w)) u) (fun _ _ _ _ h => by simp [h])
        (fun _ _ h => by simp [h]) fun _ => .finish _
    | w32 =>
      exact .disp32 (fun w total u => Sys2Proof.finish total (.callRel (.rel32 w)) u) (fun _ _ _ _ h => by simp [h])
        (fun _ _ h => by simp [h]) fun _ => .finish _
  · generalize (if b = 0xEA then Instr.jmpPtr else Instr.callPtr) = k
    cases p.opSize d with
    | w16 =>
      refine .disp16 (fun o total u =>
          match take16 u with
          | some (s, v) => Sys2Proof.finish total (k (.ptr16 o s)) v
          | none => .more) (fun _ _ _ u h => by first | (simp only [h]; done) | (simp only [h]; cases take16 u <;> rfl)) (fun _ _ h => by simp [h]) fun o => ?_
      exact .selector fun s => k (.ptr16 o s)
    | w32 =>
      refine .disp32 (fun o total u =>
          match take16 u with
          | some (s, v) => Sys2Proof.finish total (k (.ptr32 o s)) v
          | none => .more) (fun _ _ _ u h => by first | (simp only [h]; done) | (simp only [h]; cases take16 u <;> rfl)) (fun _ _ h => by simp [h]) fun o => ?_
      exact .selector fun s => k (.ptr32 o s)
  · refine .cons fun m => .ite (.withMem _ _ _ _) (.ite (.withMem _ _ _ _) (.unsupported _))
  · refine .cons fun m => ?_
    cases movSregOf (fieldMid m) with
    | none => exact .invalid
    | some k => exact .withRm _ _ _ _
  · refine .cons fun m => ?_
    cases shiftName (fieldMid m) with
    | none => exact .unsupported _
    | some k => exact .unsupported _
  · exact .cons fun m => .ite (.unsupported _) (.unsupported _)
  · cases nameIn namedOnlyTable b with
    | none => exact .unsupported _
    | some k => exact .unsupported _

/-! ## The decoder as a whole -/

/-- Bytes appended after the opcode has been reached do not change what stands before it. -/
theorem takePre_append (p : Pre) (bs r : List Byte) (h : (takePre p bs).2 ≠ []) :
    takePre p (bs ++ r) = ((takePre p bs).1, (takePre p bs).2 ++ r) := by
  induction bs generalizing p with
  | nil => exact absurd rfl h
  | cons b t ih =>
    simp only [takePre, List.cons_append] at h ⊢
    split at h
    · rename_i hb
      simp only [hb, if_true]
      exact ih _ h
    · rename_i h6
      split at h
      · rename_i hb
        simp only [hb, if_true]
        exact ih _ h
      · rename_i h7
        simp only [h6, h7, if_false]
        cases hs : overrideOf b with
        | some s =>
          simp only [hs] at h
          exact ih _ h
        | none => rfl

/-- The bytes before the opcode are taken alike whatever follows the opcode's first byte. -/
theorem takePre_split (p : Pre) (bs : List Byte) :
    ∃ c, bs = c ++ (takePre p bs).2 ∧
      ∀ b u, (takePre p bs).2 = b :: u → ∀ v, takePre p (c ++ b :: v) = ((takePre p bs).1, b :: v) := by
  induction bs generalizing p with
  | nil => exact ⟨[], rfl, fun _ _ h => nomatch h⟩
  | cons b t ih =>
    simp only [takePre]
    split
    · rename_i h6
      obtain ⟨c, hc, hr⟩ := ih { p with op := true }
      exact ⟨b :: c, by rw [List.cons_append, ← hc], fun x u h v => by
        simp only [List.cons_append, takePre, h6, if_true]
        exact hr x u h v⟩
    · rename_i h6
      split
      · rename_i h7
        obtain ⟨c, hc, hr⟩ := ih { p with addr := true }
        exact ⟨b :: c, by rw [List.cons_append, ← hc], fun x u h v => by
          simp only [List.cons_append, takePre, h7, if_true]
          exact hr x u h v⟩
      · rename_i h7
        cases hs : overrideOf b with
        | some s =>
          obtain ⟨c, hc, hr⟩ := ih { p with seg := some s }
          refine ⟨b :: c, by simpa using hc, fun x u h v => ?_⟩
          simp only [List.cons_append, takePre, h6, h7, if_false, hs]
          exact hr x u h v
        | none =>
          refine ⟨[], rfl, fun x u h v => ?_⟩
          simp only [List.cons.injEq] at h
          obtain ⟨rfl, rfl⟩ := h
          simp only [List.nil_append, takePre, h6, h7, if_false, hs]

/-- Once the decoder has come to a decision, bytes that follow do not change it. -/
theorem decode_append {d : OpSize} {bs : List Byte} (r : List Byte) (h : decode d bs ≠ .more) :
    decode d (bs ++ r) = decode d bs := by
  unfold decode at h ⊢
  simp only at h ⊢
  generalize ({ op := false, addr := false, seg := none } : Pre) = p at h ⊢
  have hne : (takePre p bs).2 ≠ [] := by
    intro e
    rw [e] at h
    exact h rfl
  rw [takePre_append p bs r hne]
  have hs : Stands (Sys2Proof.decodeOp d (takePre p bs).1) bs.length (takePre p bs).2
      (Sys2Proof.decodeOp d (takePre p bs).1 bs.length (takePre p bs).2) :=
    Stable.decodeOp d (takePre p bs).1 bs.length (takePre p bs).2
  obtain ⟨c0, hc0, _⟩ := takePre_split p bs
  revert hs h
  generalize hq : Sys2Proof.decodeOp d (takePre p bs).1 bs.length (takePre p bs).2 = res
  intro h hs
  cases res with
  | more => exact absurd rfl h
  | invalid => exact hs _ r
  | unsupported w => exact hs _ r
  | ok i n =>
    obtain ⟨c, t, e, rfl, hall⟩ := hs
    have := hall (bs ++ r).length (t ++ r)
    rw [← List.append_assoc, ← e] at this
    refine this.trans ?_
    simp only [List.length_append]
    rw [Nat.add_sub_add_right]

/-- The decoder reads no byte after the instruction it finds. -/
theorem decode_ok {d : OpSize} {bs : List Byte} {i : Instr} {n : Nat} (h : decode d bs = .ok i n) :
    0 < n ∧ n ≤ bs.length ∧ ∀ r, decode d (bs.take n ++ r) = .ok i n := by
  unfold decode at h ⊢
  simp only at h ⊢
  generalize ({ op := false, addr := false, seg := none } : Pre) = p at h ⊢
  obtain ⟨c0, hc0, hp⟩ := takePre_split p bs
  have hs : Stands (Sys2Proof.decodeOp d (takePre p bs).1) bs.length (takePre p bs).2
      (Sys2Proof.decodeOp d (takePre p bs).1 bs.length (takePre p bs).2) :=
    Stable.decodeOp d (takePre p bs).1 bs.length (takePre p bs).2
  rw [h] at hs
  obtain ⟨c, t, e, rfl, hall⟩ := hs
  cases c with
  | nil => simpa [Sys2Proof.decodeOp] using hall 0 []
  | cons b c =>
    have hb : bs = c0 ++ b :: c ++ t := by rw [List.append_assoc, ← e]; exact hc0
    have hl : bs.length - t.length = (c0 ++ b :: c).length := by rw [hb]; simp; omega
    have ht : bs.take (bs.length - t.length) = c0 ++ b :: c := by
      rw [hl]
      conv_lhs => rw [hb]
      rw [List.take_left']
      rfl
    refine ⟨by rw [hl]; simp, by omega, fun r => ?_⟩
    rw [ht]
    have h1 := hp b (c ++ t) e (c ++ r)
    rw [List.append_assoc, List.cons_append, h1]
    have h2 := hall (c0 ++ b :: (c ++ r)).length r
    rw [List.cons_append] at h2
    rw [h2]
    congr 1
    rw [hl]
    simp
    omega

/-- Fewer bytes than the instruction has are only the beginning of one. -/
theorem decode_take_more {d : OpSize} {bs : List Byte} {i : Instr} {n k : Nat} (h : decode d bs = .ok i n)
    (hk : k < n) : decode d (bs.take k) = .more := by
  by_contra hne
  have h1 := decode_append (bs.drop k) hne
  rw [List.take_append_drop, h] at h1
  have h2 := (decode_ok h1.symm).2.1
  have : (bs.take k).length ≤ k := by simp
  omega

end Sys2Proof
end

