-- ==== Sys2Proof/Laws/Boundary.lean ====
section
/-! SUPPORT. The fetch, with paging off: it finds the instruction the decoder reads from the bytes in memory, and
changes nothing. -/

namespace Sys2Proof.Machine

theorem fetchByte_run {s : State} {k : Nat} {b : Byte} (hpg : s.cr0.pg = false)
    (hb : s.byteAt (s.linPc + BitVec.ofNat 32 k) = some b) (hf : s.like8086 = true → s.eip.toNat + k ≤ 0xFFFF) :
    fetchByte k s = .ok b s := by
  have hp : (s.like8086 && decide (0xFFFF < s.eip.toNat + k)) = false := by
    cases h8 : s.like8086 with
    | false => rfl
    | true =>
      have := hf h8
      simp
      omega
  simp only [fetchByte, bind_run, asks_run, hp, Bool.false_eq_true, if_false]
  rw [show translate (s.linPc + BitVec.ofNat 32 k) .fetch s.level s = .ok (s.linPc + BitVec.ofNat 32 k) s from
    translate_off _ _ _ hpg]
  exact readPhys_run hb

/-- Fetching byte by byte from the first `k` bytes on finds the instruction. -/
theorem fetchLoop_run {s : State} {bs : List Byte} {i : Instr} {n : Nat} (hpg : s.cr0.pg = false)
    (hd : decode s.defaultSize bs = .ok i n) (hc : s.codeIs bs n) :
    ∀ fuel k, k < n → n ≤ k + fuel → fetchLoop fuel (bs.take k) s = .ok (i, n) s := by
  have hlen := (decode_ok hd).2.1
  intro fuel
  induction fuel with
  | zero => omega
  | succ fuel ih =>
    intro k hk hf
    have hkl : k < bs.length := by omega
    obtain ⟨hb, h8⟩ := hc k hkl hk
    have hl : (bs.take k).length = k := by simp; omega
    have happ : bs.take k ++ [bs[k]] = bs.take (k + 1) := (List.take_succ_eq_append_getElem hkl).symm
    simp only [fetchLoop, bind_run, hl, fetchByte_run hpg hb h8, asks_run, happ]
    by_cases hlast : k + 1 = n
    · have := (decode_ok hd).2.2 []
      rw [List.append_nil, ← hlast] at this
      rw [this]
      simp [hlast]
    · rw [decode_take_more hd (show k + 1 < n by omega)]
      exact ih (k + 1) (by omega) (by omega)

/-- The fetch finds the instruction that the decoder reads from the bytes at `Lin(CS, EIP)`. -/
theorem fetchInstr_run {s : State} {bs : List Byte} {i : Instr} {n : Nat} (hpg : s.cr0.pg = false)
    (hd : decode s.defaultSize bs = .ok i n) (hn : n ≤ maxLen) (hc : s.codeIs bs n) :
    fetchInstr s = .ok (i, n) s := by
  have := fetchLoop_run hpg hd hc maxLen 0 (decode_ok hd).1 (by omega)
  simp only [List.take_zero] at this
  exact this

end Sys2Proof.Machine
end

