-- ==== Sys2Proof/Laws/State.lean ====
section
/-! SUPPORT. What each named update of State does to each field, and to the mode that some fields decide: one lemma for
each field and update, true by unfolding the update. -/

namespace Sys2Proof.Machine

variable (s : State)


/-! ## noteAccess -/

@[simp] theorem noteAccess_gpr (a : Dword) (n : Nat) (k : Config.Access) : (s.noteAccess a n k).gpr = s.gpr := rfl
@[simp] theorem noteAccess_eip (a : Dword) (n : Nat) (k : Config.Access) : (s.noteAccess a n k).eip = s.eip := rfl
@[simp] theorem noteAccess_flags (a : Dword) (n : Nat) (k : Config.Access) : (s.noteAccess a n k).flags = s.flags := rfl
@[simp] theorem noteAccess_seg (a : Dword) (n : Nat) (k : Config.Access) : (s.noteAccess a n k).seg = s.seg := rfl
@[simp] theorem noteAccess_latch (a : Dword) (n : Nat) (k : Config.Access) : (s.noteAccess a n k).latch = s.latch := rfl
@[simp] theorem noteAccess_cpl (a : Dword) (n : Nat) (k : Config.Access) : (s.noteAccess a n k).cpl = s.cpl := rfl
@[simp] theorem noteAccess_cr0 (a : Dword) (n : Nat) (k : Config.Access) : (s.noteAccess a n k).cr0 = s.cr0 := rfl
@[simp] theorem noteAccess_cr2 (a : Dword) (n : Nat) (k : Config.Access) : (s.noteAccess a n k).cr2 = s.cr2 := rfl
@[simp] theorem noteAccess_cr3 (a : Dword) (n : Nat) (k : Config.Access) : (s.noteAccess a n k).cr3 = s.cr3 := rfl
@[simp] theorem noteAccess_gdtr (a : Dword) (n : Nat) (k : Config.Access) : (s.noteAccess a n k).gdtr = s.gdtr := rfl
@[simp] theorem noteAccess_idtr (a : Dword) (n : Nat) (k : Config.Access) : (s.noteAccess a n k).idtr = s.idtr := rfl
@[simp] theorem noteAccess_ldtReg (a : Dword) (n : Nat) (k : Config.Access) : (s.noteAccess a n k).ldtReg = s.ldtReg := rfl
@[simp] theorem noteAccess_taskReg (a : Dword) (n : Nat) (k : Config.Access) : (s.noteAccess a n k).taskReg = s.taskReg := rfl
@[simp] theorem noteAccess_tr6 (a : Dword) (n : Nat) (k : Config.Access) : (s.noteAccess a n k).tr6 = s.tr6 := rfl
@[simp] theorem noteAccess_tr7 (a : Dword) (n : Nat) (k : Config.Access) : (s.noteAccess a n k).tr7 = s.tr7 := rfl
@[simp] theorem noteAccess_dr0 (a : Dword) (n : Nat) (k : Config.Access) : (s.noteAccess a n k).dr0 = s.dr0 := rfl
@[simp] theorem noteAccess_dr1 (a : Dword) (n : Nat) (k : Config.Access) : (s.noteAccess a n k).dr1 = s.dr1 := rfl
@[simp] theorem noteAccess_dr2 (a : Dword) (n : Nat) (k : Config.Access) : (s.noteAccess a n k).dr2 = s.dr2 := rfl
@[simp] theorem noteAccess_dr3 (a : Dword) (n : Nat) (k : Config.Access) : (s.noteAccess a n k).dr3 = s.dr3 := rfl
@[simp] theorem noteAccess_dr6 (a : Dword) (n : Nat) (k : Config.Access) : (s.noteAccess a n k).dr6 = s.dr6 := rfl
@[simp] theorem noteAccess_dr7 (a : Dword) (n : Nat) (k : Config.Access) : (s.noteAccess a n k).dr7 = s.dr7 := rfl
@[simp] theorem noteAccess_tlb (a : Dword) (n : Nat) (k : Config.Access) : (s.noteAccess a n k).tlb = s.tlb := rfl
@[simp] theorem noteAccess_tlbMissed (a : Dword) (n : Nat) (k : Config.Access) : (s.noteAccess a n k).tlbMissed = s.tlbMissed := rfl
@[simp] theorem noteAccess_prefetchStale (a : Dword) (n : Nat) (k : Config.Access) : (s.noteAccess a n k).prefetchStale = s.prefetchStale := rfl
@[simp] theorem noteAccess_run (a : Dword) (n : Nat) (k : Config.Access) : (s.noteAccess a n k).run = s.run := rfl
@[simp] theorem noteAccess_traps (a : Dword) (n : Nat) (k : Config.Access) : (s.noteAccess a n k).traps = s.traps ||| dataHits s a n k := rfl
@[simp] theorem noteAccess_quiet (a : Dword) (n : Nat) (k : Config.Access) : (s.noteAccess a n k).quiet = s.quiet ||| dataQuiet s a n k := rfl
@[simp] theorem noteAccess_holdOff (a : Dword) (n : Nat) (k : Config.Access) : (s.noteAccess a n k).holdOff = s.holdOff := rfl
@[simp] theorem noteAccess_nmi (a : Dword) (n : Nat) (k : Config.Access) : (s.noteAccess a n k).nmi = s.nmi := rfl
@[simp] theorem noteAccess_intr (a : Dword) (n : Nat) (k : Config.Access) : (s.noteAccess a n k).intr = s.intr := rfl
@[simp] theorem noteAccess_inputs (a : Dword) (n : Nat) (k : Config.Access) : (s.noteAccess a n k).inputs = s.inputs := rfl
@[simp] theorem noteAccess_mem (a : Dword) (n : Nat) (k : Config.Access) : (s.noteAccess a n k).mem = s.mem := rfl
@[simp] theorem noteAccess_map (a : Dword) (n : Nat) (k : Config.Access) : (s.noteAccess a n k).map = s.map := rfl
@[simp] theorem noteAccess_params (a : Dword) (n : Nat) (k : Config.Access) : (s.noteAccess a n k).params = s.params := rfl
@[simp] theorem noteAccess_next (a : Dword) (n : Nat) (k : Config.Access) : (s.noteAccess a n k).next = s.next := rfl
@[simp] theorem noteAccess_free (a : Dword) (n : Nat) (k : Config.Access) : (s.noteAccess a n k).free = s.free := rfl
@[simp] theorem noteAccess_mode (a : Dword) (n : Nat) (k : Config.Access) : (s.noteAccess a n k).mode = s.mode := rfl
@[simp] theorem noteAccess_level (a : Dword) (n : Nat) (k : Config.Access) : (s.noteAccess a n k).level = s.level := rfl
@[simp] theorem noteAccess_like8086 (a : Dword) (n : Nat) (k : Config.Access) : (s.noteAccess a n k).like8086 = s.like8086 := rfl
@[simp] theorem noteAccess_stack16 (a : Dword) (n : Nat) (k : Config.Access) : (s.noteAccess a n k).stack16 = s.stack16 := rfl
@[simp] theorem noteAccess_lin (a : Dword) (n : Nat) (k : Config.Access) (r : SReg) (off : Dword) : (s.noteAccess a n k).lin r off = s.lin r off := rfl

/-! ## noteImplicit -/

@[simp] theorem noteImplicit_gpr (a : Dword) (n : Nat) (k : Config.Access) : (s.noteImplicit a n k).gpr = s.gpr := by unfold State.noteImplicit; split <;> rfl
@[simp] theorem noteImplicit_eip (a : Dword) (n : Nat) (k : Config.Access) : (s.noteImplicit a n k).eip = s.eip := by unfold State.noteImplicit; split <;> rfl
@[simp] theorem noteImplicit_flags (a : Dword) (n : Nat) (k : Config.Access) : (s.noteImplicit a n k).flags = s.flags := by unfold State.noteImplicit; split <;> rfl
@[simp] theorem noteImplicit_seg (a : Dword) (n : Nat) (k : Config.Access) : (s.noteImplicit a n k).seg = s.seg := by unfold State.noteImplicit; split <;> rfl
@[simp] theorem noteImplicit_latch (a : Dword) (n : Nat) (k : Config.Access) : (s.noteImplicit a n k).latch = s.latch := by unfold State.noteImplicit; split <;> rfl
@[simp] theorem noteImplicit_cpl (a : Dword) (n : Nat) (k : Config.Access) : (s.noteImplicit a n k).cpl = s.cpl := by unfold State.noteImplicit; split <;> rfl
@[simp] theorem noteImplicit_cr0 (a : Dword) (n : Nat) (k : Config.Access) : (s.noteImplicit a n k).cr0 = s.cr0 := by unfold State.noteImplicit; split <;> rfl
@[simp] theorem noteImplicit_cr2 (a : Dword) (n : Nat) (k : Config.Access) : (s.noteImplicit a n k).cr2 = s.cr2 := by unfold State.noteImplicit; split <;> rfl
@[simp] theorem noteImplicit_cr3 (a : Dword) (n : Nat) (k : Config.Access) : (s.noteImplicit a n k).cr3 = s.cr3 := by unfold State.noteImplicit; split <;> rfl
@[simp] theorem noteImplicit_gdtr (a : Dword) (n : Nat) (k : Config.Access) : (s.noteImplicit a n k).gdtr = s.gdtr := by unfold State.noteImplicit; split <;> rfl
@[simp] theorem noteImplicit_idtr (a : Dword) (n : Nat) (k : Config.Access) : (s.noteImplicit a n k).idtr = s.idtr := by unfold State.noteImplicit; split <;> rfl
@[simp] theorem noteImplicit_ldtReg (a : Dword) (n : Nat) (k : Config.Access) : (s.noteImplicit a n k).ldtReg = s.ldtReg := by unfold State.noteImplicit; split <;> rfl
@[simp] theorem noteImplicit_taskReg (a : Dword) (n : Nat) (k : Config.Access) : (s.noteImplicit a n k).taskReg = s.taskReg := by unfold State.noteImplicit; split <;> rfl
@[simp] theorem noteImplicit_tr6 (a : Dword) (n : Nat) (k : Config.Access) : (s.noteImplicit a n k).tr6 = s.tr6 := by unfold State.noteImplicit; split <;> rfl
@[simp] theorem noteImplicit_tr7 (a : Dword) (n : Nat) (k : Config.Access) : (s.noteImplicit a n k).tr7 = s.tr7 := by unfold State.noteImplicit; split <;> rfl
@[simp] theorem noteImplicit_dr0 (a : Dword) (n : Nat) (k : Config.Access) : (s.noteImplicit a n k).dr0 = s.dr0 := by unfold State.noteImplicit; split <;> rfl
@[simp] theorem noteImplicit_dr1 (a : Dword) (n : Nat) (k : Config.Access) : (s.noteImplicit a n k).dr1 = s.dr1 := by unfold State.noteImplicit; split <;> rfl
@[simp] theorem noteImplicit_dr2 (a : Dword) (n : Nat) (k : Config.Access) : (s.noteImplicit a n k).dr2 = s.dr2 := by unfold State.noteImplicit; split <;> rfl
@[simp] theorem noteImplicit_dr3 (a : Dword) (n : Nat) (k : Config.Access) : (s.noteImplicit a n k).dr3 = s.dr3 := by unfold State.noteImplicit; split <;> rfl
@[simp] theorem noteImplicit_dr6 (a : Dword) (n : Nat) (k : Config.Access) : (s.noteImplicit a n k).dr6 = s.dr6 := by unfold State.noteImplicit; split <;> rfl
@[simp] theorem noteImplicit_dr7 (a : Dword) (n : Nat) (k : Config.Access) : (s.noteImplicit a n k).dr7 = s.dr7 := by unfold State.noteImplicit; split <;> rfl
@[simp] theorem noteImplicit_tlb (a : Dword) (n : Nat) (k : Config.Access) : (s.noteImplicit a n k).tlb = s.tlb := by unfold State.noteImplicit; split <;> rfl
@[simp] theorem noteImplicit_tlbMissed (a : Dword) (n : Nat) (k : Config.Access) : (s.noteImplicit a n k).tlbMissed = s.tlbMissed := by unfold State.noteImplicit; split <;> rfl
@[simp] theorem noteImplicit_prefetchStale (a : Dword) (n : Nat) (k : Config.Access) : (s.noteImplicit a n k).prefetchStale = s.prefetchStale := by unfold State.noteImplicit; split <;> rfl
@[simp] theorem noteImplicit_run (a : Dword) (n : Nat) (k : Config.Access) : (s.noteImplicit a n k).run = s.run := by unfold State.noteImplicit; split <;> rfl
@[simp] theorem noteImplicit_holdOff (a : Dword) (n : Nat) (k : Config.Access) : (s.noteImplicit a n k).holdOff = s.holdOff := by unfold State.noteImplicit; split <;> rfl
@[simp] theorem noteImplicit_nmi (a : Dword) (n : Nat) (k : Config.Access) : (s.noteImplicit a n k).nmi = s.nmi := by unfold State.noteImplicit; split <;> rfl
@[simp] theorem noteImplicit_intr (a : Dword) (n : Nat) (k : Config.Access) : (s.noteImplicit a n k).intr = s.intr := by unfold State.noteImplicit; split <;> rfl
@[simp] theorem noteImplicit_inputs (a : Dword) (n : Nat) (k : Config.Access) : (s.noteImplicit a n k).inputs = s.inputs := by unfold State.noteImplicit; split <;> rfl
@[simp] theorem noteImplicit_mem (a : Dword) (n : Nat) (k : Config.Access) : (s.noteImplicit a n k).mem = s.mem := by unfold State.noteImplicit; split <;> rfl
@[simp] theorem noteImplicit_map (a : Dword) (n : Nat) (k : Config.Access) : (s.noteImplicit a n k).map = s.map := by unfold State.noteImplicit; split <;> rfl
@[simp] theorem noteImplicit_params (a : Dword) (n : Nat) (k : Config.Access) : (s.noteImplicit a n k).params = s.params := by unfold State.noteImplicit; split <;> rfl
@[simp] theorem noteImplicit_next (a : Dword) (n : Nat) (k : Config.Access) : (s.noteImplicit a n k).next = s.next := by unfold State.noteImplicit; split <;> rfl
@[simp] theorem noteImplicit_free (a : Dword) (n : Nat) (k : Config.Access) : (s.noteImplicit a n k).free = s.free := by unfold State.noteImplicit; split <;> rfl
@[simp] theorem noteImplicit_mode (a : Dword) (n : Nat) (k : Config.Access) : (s.noteImplicit a n k).mode = s.mode := by unfold State.noteImplicit; split <;> rfl
@[simp] theorem noteImplicit_level (a : Dword) (n : Nat) (k : Config.Access) : (s.noteImplicit a n k).level = s.level := by unfold State.noteImplicit; split <;> rfl
@[simp] theorem noteImplicit_like8086 (a : Dword) (n : Nat) (k : Config.Access) : (s.noteImplicit a n k).like8086 = s.like8086 := by unfold State.noteImplicit; split <;> rfl
@[simp] theorem noteImplicit_stack16 (a : Dword) (n : Nat) (k : Config.Access) : (s.noteImplicit a n k).stack16 = s.stack16 := by unfold State.noteImplicit; split <;> rfl
@[simp] theorem noteImplicit_lin (a : Dword) (n : Nat) (k : Config.Access) (r : SReg) (off : Dword) : (s.noteImplicit a n k).lin r off = s.lin r off := by unfold State.noteImplicit; split <;> rfl

/-! ## setTlb -/

@[simp] theorem setTlb_gpr (i : Fin 32) (e : TlbEntry) : (s.setTlb i e).gpr = s.gpr := rfl
@[simp] theorem setTlb_eip (i : Fin 32) (e : TlbEntry) : (s.setTlb i e).eip = s.eip := rfl
@[simp] theorem setTlb_flags (i : Fin 32) (e : TlbEntry) : (s.setTlb i e).flags = s.flags := rfl
@[simp] theorem setTlb_seg (i : Fin 32) (e : TlbEntry) : (s.setTlb i e).seg = s.seg := rfl
@[simp] theorem setTlb_latch (i : Fin 32) (e : TlbEntry) : (s.setTlb i e).latch = s.latch := rfl
@[simp] theorem setTlb_cpl (i : Fin 32) (e : TlbEntry) : (s.setTlb i e).cpl = s.cpl := rfl
@[simp] theorem setTlb_cr0 (i : Fin 32) (e : TlbEntry) : (s.setTlb i e).cr0 = s.cr0 := rfl
@[simp] theorem setTlb_cr2 (i : Fin 32) (e : TlbEntry) : (s.setTlb i e).cr2 = s.cr2 := rfl
@[simp] theorem setTlb_cr3 (i : Fin 32) (e : TlbEntry) : (s.setTlb i e).cr3 = s.cr3 := rfl
@[simp] theorem setTlb_gdtr (i : Fin 32) (e : TlbEntry) : (s.setTlb i e).gdtr = s.gdtr := rfl
@[simp] theorem setTlb_idtr (i : Fin 32) (e : TlbEntry) : (s.setTlb i e).idtr = s.idtr := rfl
@[simp] theorem setTlb_ldtReg (i : Fin 32) (e : TlbEntry) : (s.setTlb i e).ldtReg = s.ldtReg := rfl
@[simp] theorem setTlb_taskReg (i : Fin 32) (e : TlbEntry) : (s.setTlb i e).taskReg = s.taskReg := rfl
@[simp] theorem setTlb_tr6 (i : Fin 32) (e : TlbEntry) : (s.setTlb i e).tr6 = s.tr6 := rfl
@[simp] theorem setTlb_tr7 (i : Fin 32) (e : TlbEntry) : (s.setTlb i e).tr7 = s.tr7 := rfl
@[simp] theorem setTlb_dr0 (i : Fin 32) (e : TlbEntry) : (s.setTlb i e).dr0 = s.dr0 := rfl
@[simp] theorem setTlb_dr1 (i : Fin 32) (e : TlbEntry) : (s.setTlb i e).dr1 = s.dr1 := rfl
@[simp] theorem setTlb_dr2 (i : Fin 32) (e : TlbEntry) : (s.setTlb i e).dr2 = s.dr2 := rfl
@[simp] theorem setTlb_dr3 (i : Fin 32) (e : TlbEntry) : (s.setTlb i e).dr3 = s.dr3 := rfl
@[simp] theorem setTlb_dr6 (i : Fin 32) (e : TlbEntry) : (s.setTlb i e).dr6 = s.dr6 := rfl
@[simp] theorem setTlb_dr7 (i : Fin 32) (e : TlbEntry) : (s.setTlb i e).dr7 = s.dr7 := rfl
@[simp] theorem setTlb_tlb (i : Fin 32) (e : TlbEntry) : (s.setTlb i e).tlb = s.tlb.set i.val e := rfl
@[simp] theorem setTlb_tlbMissed (i : Fin 32) (e : TlbEntry) : (s.setTlb i e).tlbMissed = s.tlbMissed := rfl
@[simp] theorem setTlb_prefetchStale (i : Fin 32) (e : TlbEntry) : (s.setTlb i e).prefetchStale = s.prefetchStale := rfl
@[simp] theorem setTlb_run (i : Fin 32) (e : TlbEntry) : (s.setTlb i e).run = s.run := rfl
@[simp] theorem setTlb_traps (i : Fin 32) (e : TlbEntry) : (s.setTlb i e).traps = s.traps := rfl
@[simp] theorem setTlb_quiet (i : Fin 32) (e : TlbEntry) : (s.setTlb i e).quiet = s.quiet := rfl
@[simp] theorem setTlb_holdOff (i : Fin 32) (e : TlbEntry) : (s.setTlb i e).holdOff = s.holdOff := rfl
@[simp] theorem setTlb_nmi (i : Fin 32) (e : TlbEntry) : (s.setTlb i e).nmi = s.nmi := rfl
@[simp] theorem setTlb_intr (i : Fin 32) (e : TlbEntry) : (s.setTlb i e).intr = s.intr := rfl
@[simp] theorem setTlb_inputs (i : Fin 32) (e : TlbEntry) : (s.setTlb i e).inputs = s.inputs := rfl
@[simp] theorem setTlb_mem (i : Fin 32) (e : TlbEntry) : (s.setTlb i e).mem = s.mem := rfl
@[simp] theorem setTlb_map (i : Fin 32) (e : TlbEntry) : (s.setTlb i e).map = s.map := rfl
@[simp] theorem setTlb_params (i : Fin 32) (e : TlbEntry) : (s.setTlb i e).params = s.params := rfl
@[simp] theorem setTlb_next (i : Fin 32) (e : TlbEntry) : (s.setTlb i e).next = s.next := rfl
@[simp] theorem setTlb_free (i : Fin 32) (e : TlbEntry) : (s.setTlb i e).free = s.free := rfl
@[simp] theorem setTlb_mode (i : Fin 32) (e : TlbEntry) : (s.setTlb i e).mode = s.mode := rfl
@[simp] theorem setTlb_level (i : Fin 32) (e : TlbEntry) : (s.setTlb i e).level = s.level := rfl
@[simp] theorem setTlb_like8086 (i : Fin 32) (e : TlbEntry) : (s.setTlb i e).like8086 = s.like8086 := rfl
@[simp] theorem setTlb_stack16 (i : Fin 32) (e : TlbEntry) : (s.setTlb i e).stack16 = s.stack16 := rfl
@[simp] theorem setTlb_lin (i : Fin 32) (e : TlbEntry) (r : SReg) (off : Dword) : (s.setTlb i e).lin r off = s.lin r off := rfl

/-! ## writeCr3 -/

@[simp] theorem writeCr3_gpr (v : Dword) : (s.writeCr3 v).gpr = s.gpr := rfl
@[simp] theorem writeCr3_eip (v : Dword) : (s.writeCr3 v).eip = s.eip := rfl
@[simp] theorem writeCr3_flags (v : Dword) : (s.writeCr3 v).flags = s.flags := rfl
@[simp] theorem writeCr3_seg (v : Dword) : (s.writeCr3 v).seg = s.seg := rfl
@[simp] theorem writeCr3_latch (v : Dword) : (s.writeCr3 v).latch = s.latch := rfl
@[simp] theorem writeCr3_cpl (v : Dword) : (s.writeCr3 v).cpl = s.cpl := rfl
@[simp] theorem writeCr3_cr0 (v : Dword) : (s.writeCr3 v).cr0 = s.cr0 := rfl
@[simp] theorem writeCr3_cr2 (v : Dword) : (s.writeCr3 v).cr2 = s.cr2 := rfl
@[simp] theorem writeCr3_cr3 (v : Dword) : (s.writeCr3 v).cr3 = v := rfl
@[simp] theorem writeCr3_gdtr (v : Dword) : (s.writeCr3 v).gdtr = s.gdtr := rfl
@[simp] theorem writeCr3_idtr (v : Dword) : (s.writeCr3 v).idtr = s.idtr := rfl
@[simp] theorem writeCr3_ldtReg (v : Dword) : (s.writeCr3 v).ldtReg = s.ldtReg := rfl
@[simp] theorem writeCr3_taskReg (v : Dword) : (s.writeCr3 v).taskReg = s.taskReg := rfl
@[simp] theorem writeCr3_tr6 (v : Dword) : (s.writeCr3 v).tr6 = s.tr6 := rfl
@[simp] theorem writeCr3_tr7 (v : Dword) : (s.writeCr3 v).tr7 = s.tr7 := rfl
@[simp] theorem writeCr3_dr0 (v : Dword) : (s.writeCr3 v).dr0 = s.dr0 := rfl
@[simp] theorem writeCr3_dr1 (v : Dword) : (s.writeCr3 v).dr1 = s.dr1 := rfl
@[simp] theorem writeCr3_dr2 (v : Dword) : (s.writeCr3 v).dr2 = s.dr2 := rfl
@[simp] theorem writeCr3_dr3 (v : Dword) : (s.writeCr3 v).dr3 = s.dr3 := rfl
@[simp] theorem writeCr3_dr6 (v : Dword) : (s.writeCr3 v).dr6 = s.dr6 := rfl
@[simp] theorem writeCr3_dr7 (v : Dword) : (s.writeCr3 v).dr7 = s.dr7 := rfl
@[simp] theorem writeCr3_tlb (v : Dword) : (s.writeCr3 v).tlb = s.tlb.map fun e => { e with v := false } := rfl
@[simp] theorem writeCr3_tlbMissed (v : Dword) : (s.writeCr3 v).tlbMissed = s.tlbMissed := rfl
@[simp] theorem writeCr3_prefetchStale (v : Dword) : (s.writeCr3 v).prefetchStale = s.prefetchStale := rfl
@[simp] theorem writeCr3_run (v : Dword) : (s.writeCr3 v).run = s.run := rfl
@[simp] theorem writeCr3_traps (v : Dword) : (s.writeCr3 v).traps = s.traps := rfl
@[simp] theorem writeCr3_quiet (v : Dword) : (s.writeCr3 v).quiet = s.quiet := rfl
@[simp] theorem writeCr3_holdOff (v : Dword) : (s.writeCr3 v).holdOff = s.holdOff := rfl
@[simp] theorem writeCr3_nmi (v : Dword) : (s.writeCr3 v).nmi = s.nmi := rfl
@[simp] theorem writeCr3_intr (v : Dword) : (s.writeCr3 v).intr = s.intr := rfl
@[simp] theorem writeCr3_inputs (v : Dword) : (s.writeCr3 v).inputs = s.inputs := rfl
@[simp] theorem writeCr3_mem (v : Dword) : (s.writeCr3 v).mem = s.mem := rfl
@[simp] theorem writeCr3_map (v : Dword) : (s.writeCr3 v).map = s.map := rfl
@[simp] theorem writeCr3_params (v : Dword) : (s.writeCr3 v).params = s.params := rfl
@[simp] theorem writeCr3_next (v : Dword) : (s.writeCr3 v).next = s.next := rfl
@[simp] theorem writeCr3_free (v : Dword) : (s.writeCr3 v).free = s.free := rfl
@[simp] theorem writeCr3_mode (v : Dword) : (s.writeCr3 v).mode = s.mode := rfl
@[simp] theorem writeCr3_level (v : Dword) : (s.writeCr3 v).level = s.level := rfl
@[simp] theorem writeCr3_like8086 (v : Dword) : (s.writeCr3 v).like8086 = s.like8086 := rfl
@[simp] theorem writeCr3_stack16 (v : Dword) : (s.writeCr3 v).stack16 = s.stack16 := rfl
@[simp] theorem writeCr3_lin (v : Dword) (r : SReg) (off : Dword) : (s.writeCr3 v).lin r off = s.lin r off := rfl

/-! ## fillTlb -/

@[simp] theorem fillTlb_gpr (b : Option (BitVec 2)) (p f : PageNo) (d u w : Bool) : (s.fillTlb b p f d u w).gpr = s.gpr := by cases b <;> rfl
@[simp] theorem fillTlb_eip (b : Option (BitVec 2)) (p f : PageNo) (d u w : Bool) : (s.fillTlb b p f d u w).eip = s.eip := by cases b <;> rfl
@[simp] theorem fillTlb_flags (b : Option (BitVec 2)) (p f : PageNo) (d u w : Bool) : (s.fillTlb b p f d u w).flags = s.flags := by cases b <;> rfl
@[simp] theorem fillTlb_seg (b : Option (BitVec 2)) (p f : PageNo) (d u w : Bool) : (s.fillTlb b p f d u w).seg = s.seg := by cases b <;> rfl
@[simp] theorem fillTlb_latch (b : Option (BitVec 2)) (p f : PageNo) (d u w : Bool) : (s.fillTlb b p f d u w).latch = s.latch := by cases b <;> rfl
@[simp] theorem fillTlb_cpl (b : Option (BitVec 2)) (p f : PageNo) (d u w : Bool) : (s.fillTlb b p f d u w).cpl = s.cpl := by cases b <;> rfl
@[simp] theorem fillTlb_cr0 (b : Option (BitVec 2)) (p f : PageNo) (d u w : Bool) : (s.fillTlb b p f d u w).cr0 = s.cr0 := by cases b <;> rfl
@[simp] theorem fillTlb_cr2 (b : Option (BitVec 2)) (p f : PageNo) (d u w : Bool) : (s.fillTlb b p f d u w).cr2 = s.cr2 := by cases b <;> rfl
@[simp] theorem fillTlb_cr3 (b : Option (BitVec 2)) (p f : PageNo) (d u w : Bool) : (s.fillTlb b p f d u w).cr3 = s.cr3 := by cases b <;> rfl
@[simp] theorem fillTlb_gdtr (b : Option (BitVec 2)) (p f : PageNo) (d u w : Bool) : (s.fillTlb b p f d u w).gdtr = s.gdtr := by cases b <;> rfl
@[simp] theorem fillTlb_idtr (b : Option (BitVec 2)) (p f : PageNo) (d u w : Bool) : (s.fillTlb b p f d u w).idtr = s.idtr := by cases b <;> rfl
@[simp] theorem fillTlb_ldtReg (b : Option (BitVec 2)) (p f : PageNo) (d u w : Bool) : (s.fillTlb b p f d u w).ldtReg = s.ldtReg := by cases b <;> rfl
@[simp] theorem fillTlb_taskReg (b : Option (BitVec 2)) (p f : PageNo) (d u w : Bool) : (s.fillTlb b p f d u w).taskReg = s.taskReg := by cases b <;> rfl
@[simp] theorem fillTlb_tr6 (b : Option (BitVec 2)) (p f : PageNo) (d u w : Bool) : (s.fillTlb b p f d u w).tr6 = s.tr6 := by cases b <;> rfl
@[simp] theorem fillTlb_tr7 (b : Option (BitVec 2)) (p f : PageNo) (d u w : Bool) : (s.fillTlb b p f d u w).tr7 = s.tr7 := by cases b <;> rfl
@[simp] theorem fillTlb_dr0 (b : Option (BitVec 2)) (p f : PageNo) (d u w : Bool) : (s.fillTlb b p f d u w).dr0 = s.dr0 := by cases b <;> rfl
@[simp] theorem fillTlb_dr1 (b : Option (BitVec 2)) (p f : PageNo) (d u w : Bool) : (s.fillTlb b p f d u w).dr1 = s.dr1 := by cases b <;> rfl
@[simp] theorem fillTlb_dr2 (b : Option (BitVec 2)) (p f : PageNo) (d u w : Bool) : (s.fillTlb b p f d u w).dr2 = s.dr2 := by cases b <;> rfl
@[simp] theorem fillTlb_dr3 (b : Option (BitVec 2)) (p f : PageNo) (d u w : Bool) : (s.fillTlb b p f d u w).dr3 = s.dr3 := by cases b <;> rfl
@[simp] theorem fillTlb_dr6 (b : Option (BitVec 2)) (p f : PageNo) (d u w : Bool) : (s.fillTlb b p f d u w).dr6 = s.dr6 := by cases b <;> rfl
@[simp] theorem fillTlb_dr7 (b : Option (BitVec 2)) (p f : PageNo) (d u w : Bool) : (s.fillTlb b p f d u w).dr7 = s.dr7 := by cases b <;> rfl
@[simp] theorem fillTlb_tlbMissed (b : Option (BitVec 2)) (p f : PageNo) (d u w : Bool) : (s.fillTlb b p f d u w).tlbMissed = s.tlbMissed := by cases b <;> rfl
@[simp] theorem fillTlb_prefetchStale (b : Option (BitVec 2)) (p f : PageNo) (d u w : Bool) : (s.fillTlb b p f d u w).prefetchStale = s.prefetchStale := by cases b <;> rfl
@[simp] theorem fillTlb_run (b : Option (BitVec 2)) (p f : PageNo) (d u w : Bool) : (s.fillTlb b p f d u w).run = s.run := by cases b <;> rfl
@[simp] theorem fillTlb_traps (b : Option (BitVec 2)) (p f : PageNo) (d u w : Bool) : (s.fillTlb b p f d u w).traps = s.traps := by cases b <;> rfl
@[simp] theorem fillTlb_quiet (b : Option (BitVec 2)) (p f : PageNo) (d u w : Bool) : (s.fillTlb b p f d u w).quiet = s.quiet := by cases b <;> rfl
@[simp] theorem fillTlb_holdOff (b : Option (BitVec 2)) (p f : PageNo) (d u w : Bool) : (s.fillTlb b p f d u w).holdOff = s.holdOff := by cases b <;> rfl
@[simp] theorem fillTlb_nmi (b : Option (BitVec 2)) (p f : PageNo) (d u w : Bool) : (s.fillTlb b p f d u w).nmi = s.nmi := by cases b <;> rfl
@[simp] theorem fillTlb_intr (b : Option (BitVec 2)) (p f : PageNo) (d u w : Bool) : (s.fillTlb b p f d u w).intr = s.intr := by cases b <;> rfl
@[simp] theorem fillTlb_inputs (b : Option (BitVec 2)) (p f : PageNo) (d u w : Bool) : (s.fillTlb b p f d u w).inputs = s.inputs := by cases b <;> rfl
@[simp] theorem fillTlb_mem (b : Option (BitVec 2)) (p f : PageNo) (d u w : Bool) : (s.fillTlb b p f d u w).mem = s.mem := by cases b <;> rfl
@[simp] theorem fillTlb_map (b : Option (BitVec 2)) (p f : PageNo) (d u w : Bool) : (s.fillTlb b p f d u w).map = s.map := by cases b <;> rfl
@[simp] theorem fillTlb_params (b : Option (BitVec 2)) (p f : PageNo) (d u w : Bool) : (s.fillTlb b p f d u w).params = s.params := by cases b <;> rfl
@[simp] theorem fillTlb_next (b : Option (BitVec 2)) (p f : PageNo) (d u w : Bool) : (s.fillTlb b p f d u w).next = s.next := by cases b <;> rfl
@[simp] theorem fillTlb_free (b : Option (BitVec 2)) (p f : PageNo) (d u w : Bool) : (s.fillTlb b p f d u w).free = s.free := by cases b <;> rfl
@[simp] theorem fillTlb_mode (b : Option (BitVec 2)) (p f : PageNo) (d u w : Bool) : (s.fillTlb b p f d u w).mode = s.mode := by cases b <;> rfl
@[simp] theorem fillTlb_level (b : Option (BitVec 2)) (p f : PageNo) (d u w : Bool) : (s.fillTlb b p f d u w).level = s.level := by cases b <;> rfl
@[simp] theorem fillTlb_like8086 (b : Option (BitVec 2)) (p f : PageNo) (d u w : Bool) : (s.fillTlb b p f d u w).like8086 = s.like8086 := by cases b <;> rfl
@[simp] theorem fillTlb_stack16 (b : Option (BitVec 2)) (p f : PageNo) (d u w : Bool) : (s.fillTlb b p f d u w).stack16 = s.stack16 := by cases b <;> rfl
@[simp] theorem fillTlb_lin (b : Option (BitVec 2)) (p f : PageNo) (d u w : Bool) (r : SReg) (off : Dword) : (s.fillTlb b p f d u w).lin r off = s.lin r off := by cases b <;> rfl

/-! ## setSp -/

@[simp] theorem setSp_gpr (v : Dword) : (s.setSp v).gpr = { s.gpr with esp := if s.stack16 then setLow16 s.gpr.esp (low16 v) else v } := rfl
@[simp] theorem setSp_eip (v : Dword) : (s.setSp v).eip = s.eip := rfl
@[simp] theorem setSp_flags (v : Dword) : (s.setSp v).flags = s.flags := rfl
@[simp] theorem setSp_seg (v : Dword) : (s.setSp v).seg = s.seg := rfl
@[simp] theorem setSp_latch (v : Dword) : (s.setSp v).latch = s.latch := rfl
@[simp] theorem setSp_cpl (v : Dword) : (s.setSp v).cpl = s.cpl := rfl
@[simp] theorem setSp_cr0 (v : Dword) : (s.setSp v).cr0 = s.cr0 := rfl
@[simp] theorem setSp_cr2 (v : Dword) : (s.setSp v).cr2 = s.cr2 := rfl
@[simp] theorem setSp_cr3 (v : Dword) : (s.setSp v).cr3 = s.cr3 := rfl
@[simp] theorem setSp_gdtr (v : Dword) : (s.setSp v).gdtr = s.gdtr := rfl
@[simp] theorem setSp_idtr (v : Dword) : (s.setSp v).idtr = s.idtr := rfl
@[simp] theorem setSp_ldtReg (v : Dword) : (s.setSp v).ldtReg = s.ldtReg := rfl
@[simp] theorem setSp_taskReg (v : Dword) : (s.setSp v).taskReg = s.taskReg := rfl
@[simp] theorem setSp_tr6 (v : Dword) : (s.setSp v).tr6 = s.tr6 := rfl
@[simp] theorem setSp_tr7 (v : Dword) : (s.setSp v).tr7 = s.tr7 := rfl
@[simp] theorem setSp_dr0 (v : Dword) : (s.setSp v).dr0 = s.dr0 := rfl
@[simp] theorem setSp_dr1 (v : Dword) : (s.setSp v).dr1 = s.dr1 := rfl
@[simp] theorem setSp_dr2 (v : Dword) : (s.setSp v).dr2 = s.dr2 := rfl
@[simp] theorem setSp_dr3 (v : Dword) : (s.setSp v).dr3 = s.dr3 := rfl
@[simp] theorem setSp_dr6 (v : Dword) : (s.setSp v).dr6 = s.dr6 := rfl
@[simp] theorem setSp_dr7 (v : Dword) : (s.setSp v).dr7 = s.dr7 := rfl
@[simp] theorem setSp_tlb (v : Dword) : (s.setSp v).tlb = s.tlb := rfl
@[simp] theorem setSp_tlbMissed (v : Dword) : (s.setSp v).tlbMissed = s.tlbMissed := rfl
@[simp] theorem setSp_prefetchStale (v : Dword) : (s.setSp v).prefetchStale = s.prefetchStale := rfl
@[simp] theorem setSp_run (v : Dword) : (s.setSp v).run = s.run := rfl
@[simp] theorem setSp_traps (v : Dword) : (s.setSp v).traps = s.traps := rfl
@[simp] theorem setSp_quiet (v : Dword) : (s.setSp v).quiet = s.quiet := rfl
@[simp] theorem setSp_holdOff (v : Dword) : (s.setSp v).holdOff = s.holdOff := rfl
@[simp] theorem setSp_nmi (v : Dword) : (s.setSp v).nmi = s.nmi := rfl
@[simp] theorem setSp_intr (v : Dword) : (s.setSp v).intr = s.intr := rfl
@[simp] theorem setSp_inputs (v : Dword) : (s.setSp v).inputs = s.inputs := rfl
@[simp] theorem setSp_mem (v : Dword) : (s.setSp v).mem = s.mem := rfl
@[simp] theorem setSp_map (v : Dword) : (s.setSp v).map = s.map := rfl
@[simp] theorem setSp_params (v : Dword) : (s.setSp v).params = s.params := rfl
@[simp] theorem setSp_next (v : Dword) : (s.setSp v).next = s.next := rfl
@[simp] theorem setSp_free (v : Dword) : (s.setSp v).free = s.free := rfl
@[simp] theorem setSp_mode (v : Dword) : (s.setSp v).mode = s.mode := rfl
@[simp] theorem setSp_level (v : Dword) : (s.setSp v).level = s.level := rfl
@[simp] theorem setSp_like8086 (v : Dword) : (s.setSp v).like8086 = s.like8086 := rfl
@[simp] theorem setSp_stack16 (v : Dword) : (s.setSp v).stack16 = s.stack16 := rfl
@[simp] theorem setSp_lin (v : Dword) (r : SReg) (off : Dword) : (s.setSp v).lin r off = s.lin r off := rfl

/-! ## rollback -/

@[simp] theorem rollback_gpr (t : State) : (s.rollback t).gpr = s.gpr := rfl
@[simp] theorem rollback_eip (t : State) : (s.rollback t).eip = s.eip := rfl
@[simp] theorem rollback_flags (t : State) : (s.rollback t).flags = s.flags := rfl
@[simp] theorem rollback_seg (t : State) : (s.rollback t).seg = s.seg := rfl
@[simp] theorem rollback_latch (t : State) : (s.rollback t).latch = s.latch := rfl
@[simp] theorem rollback_cpl (t : State) : (s.rollback t).cpl = s.cpl := rfl
@[simp] theorem rollback_cr0 (t : State) : (s.rollback t).cr0 = s.cr0 := rfl
@[simp] theorem rollback_cr2 (t : State) : (s.rollback t).cr2 = s.cr2 := rfl
@[simp] theorem rollback_cr3 (t : State) : (s.rollback t).cr3 = s.cr3 := rfl
@[simp] theorem rollback_gdtr (t : State) : (s.rollback t).gdtr = s.gdtr := rfl
@[simp] theorem rollback_idtr (t : State) : (s.rollback t).idtr = s.idtr := rfl
@[simp] theorem rollback_ldtReg (t : State) : (s.rollback t).ldtReg = s.ldtReg := rfl
@[simp] theorem rollback_taskReg (t : State) : (s.rollback t).taskReg = s.taskReg := rfl
@[simp] theorem rollback_tr6 (t : State) : (s.rollback t).tr6 = s.tr6 := rfl
@[simp] theorem rollback_tr7 (t : State) : (s.rollback t).tr7 = s.tr7 := rfl
@[simp] theorem rollback_dr0 (t : State) : (s.rollback t).dr0 = s.dr0 := rfl
@[simp] theorem rollback_dr1 (t : State) : (s.rollback t).dr1 = s.dr1 := rfl
@[simp] theorem rollback_dr2 (t : State) : (s.rollback t).dr2 = s.dr2 := rfl
@[simp] theorem rollback_dr3 (t : State) : (s.rollback t).dr3 = s.dr3 := rfl
@[simp] theorem rollback_dr6 (t : State) : (s.rollback t).dr6 = s.dr6 := rfl
@[simp] theorem rollback_dr7 (t : State) : (s.rollback t).dr7 = s.dr7 := rfl
@[simp] theorem rollback_tlb (t : State) : (s.rollback t).tlb = s.tlb := rfl
@[simp] theorem rollback_tlbMissed (t : State) : (s.rollback t).tlbMissed = s.tlbMissed := rfl
@[simp] theorem rollback_prefetchStale (t : State) : (s.rollback t).prefetchStale = s.prefetchStale := rfl
@[simp] theorem rollback_run (t : State) : (s.rollback t).run = s.run := rfl
@[simp] theorem rollback_traps (t : State) : (s.rollback t).traps = 0 := rfl
@[simp] theorem rollback_quiet (t : State) : (s.rollback t).quiet = 0 := rfl
@[simp] theorem rollback_holdOff (t : State) : (s.rollback t).holdOff = s.holdOff := rfl
@[simp] theorem rollback_nmi (t : State) : (s.rollback t).nmi = s.nmi := rfl
@[simp] theorem rollback_intr (t : State) : (s.rollback t).intr = s.intr := rfl
@[simp] theorem rollback_inputs (t : State) : (s.rollback t).inputs = s.inputs := rfl
@[simp] theorem rollback_mem (t : State) : (s.rollback t).mem = s.mem := rfl
@[simp] theorem rollback_map (t : State) : (s.rollback t).map = s.map := rfl
@[simp] theorem rollback_params (t : State) : (s.rollback t).params = s.params := rfl
@[simp] theorem rollback_next (t : State) : (s.rollback t).next = s.next := rfl
@[simp] theorem rollback_free (t : State) : (s.rollback t).free = t.free := rfl
@[simp] theorem rollback_mode (t : State) : (s.rollback t).mode = s.mode := rfl
@[simp] theorem rollback_level (t : State) : (s.rollback t).level = s.level := rfl
@[simp] theorem rollback_like8086 (t : State) : (s.rollback t).like8086 = s.like8086 := rfl
@[simp] theorem rollback_stack16 (t : State) : (s.rollback t).stack16 = s.stack16 := rfl
@[simp] theorem rollback_lin (t : State) (r : SReg) (off : Dword) : (s.rollback t).lin r off = s.lin r off := rfl

/-! ## shutDown -/

@[simp] theorem shutDown_gpr : (s.shutDown).gpr = s.gpr := rfl
@[simp] theorem shutDown_eip : (s.shutDown).eip = s.eip := rfl
@[simp] theorem shutDown_flags : (s.shutDown).flags = s.flags := rfl
@[simp] theorem shutDown_seg : (s.shutDown).seg = s.seg := rfl
@[simp] theorem shutDown_latch : (s.shutDown).latch = s.latch := rfl
@[simp] theorem shutDown_cpl : (s.shutDown).cpl = s.cpl := rfl
@[simp] theorem shutDown_cr0 : (s.shutDown).cr0 = s.cr0 := rfl
@[simp] theorem shutDown_cr2 : (s.shutDown).cr2 = s.cr2 := rfl
@[simp] theorem shutDown_cr3 : (s.shutDown).cr3 = s.cr3 := rfl
@[simp] theorem shutDown_gdtr : (s.shutDown).gdtr = s.gdtr := rfl
@[simp] theorem shutDown_idtr : (s.shutDown).idtr = s.idtr := rfl
@[simp] theorem shutDown_ldtReg : (s.shutDown).ldtReg = s.ldtReg := rfl
@[simp] theorem shutDown_taskReg : (s.shutDown).taskReg = s.taskReg := rfl
@[simp] theorem shutDown_tr6 : (s.shutDown).tr6 = s.tr6 := rfl
@[simp] theorem shutDown_tr7 : (s.shutDown).tr7 = s.tr7 := rfl
@[simp] theorem shutDown_dr0 : (s.shutDown).dr0 = s.dr0 := rfl
@[simp] theorem shutDown_dr1 : (s.shutDown).dr1 = s.dr1 := rfl
@[simp] theorem shutDown_dr2 : (s.shutDown).dr2 = s.dr2 := rfl
@[simp] theorem shutDown_dr3 : (s.shutDown).dr3 = s.dr3 := rfl
@[simp] theorem shutDown_dr6 : (s.shutDown).dr6 = s.dr6 := rfl
@[simp] theorem shutDown_dr7 : (s.shutDown).dr7 = s.dr7 := rfl
@[simp] theorem shutDown_tlb : (s.shutDown).tlb = s.tlb := rfl
@[simp] theorem shutDown_tlbMissed : (s.shutDown).tlbMissed = s.tlbMissed := rfl
@[simp] theorem shutDown_prefetchStale : (s.shutDown).prefetchStale = s.prefetchStale := rfl
@[simp] theorem shutDown_run : (s.shutDown).run = .shutdown := rfl
@[simp] theorem shutDown_traps : (s.shutDown).traps = s.traps := rfl
@[simp] theorem shutDown_quiet : (s.shutDown).quiet = s.quiet := rfl
@[simp] theorem shutDown_holdOff : (s.shutDown).holdOff = s.holdOff := rfl
@[simp] theorem shutDown_nmi : (s.shutDown).nmi = s.nmi := rfl
@[simp] theorem shutDown_intr : (s.shutDown).intr = s.intr := rfl
@[simp] theorem shutDown_inputs : (s.shutDown).inputs = s.inputs := rfl
@[simp] theorem shutDown_mem : (s.shutDown).mem = s.mem := rfl
@[simp] theorem shutDown_map : (s.shutDown).map = s.map := rfl
@[simp] theorem shutDown_params : (s.shutDown).params = s.params := rfl
@[simp] theorem shutDown_next : (s.shutDown).next = s.next := rfl
@[simp] theorem shutDown_free : (s.shutDown).free = s.free := rfl
@[simp] theorem shutDown_mode : (s.shutDown).mode = s.mode := rfl
@[simp] theorem shutDown_level : (s.shutDown).level = s.level := rfl
@[simp] theorem shutDown_like8086 : (s.shutDown).like8086 = s.like8086 := rfl
@[simp] theorem shutDown_stack16 : (s.shutDown).stack16 = s.stack16 := rfl
@[simp] theorem shutDown_lin (r : SReg) (off : Dword) : (s.shutDown).lin r off = s.lin r off := rfl

/-! ## complete -/

@[simp] theorem complete_gpr (s0 : State) (l : Bool) : (complete s0 l s).gpr = s.gpr := rfl
@[simp] theorem complete_eip (s0 : State) (l : Bool) : (complete s0 l s).eip = s.eip := rfl
@[simp] theorem complete_flags (s0 : State) (l : Bool) : (complete s0 l s).flags = { s.flags with rf := s.flags.rf && l } := rfl
@[simp] theorem complete_seg (s0 : State) (l : Bool) : (complete s0 l s).seg = s.seg := rfl
@[simp] theorem complete_latch (s0 : State) (l : Bool) : (complete s0 l s).latch = s.latch := rfl
@[simp] theorem complete_cpl (s0 : State) (l : Bool) : (complete s0 l s).cpl = s.cpl := rfl
@[simp] theorem complete_cr0 (s0 : State) (l : Bool) : (complete s0 l s).cr0 = s.cr0 := rfl
@[simp] theorem complete_cr2 (s0 : State) (l : Bool) : (complete s0 l s).cr2 = s.cr2 := rfl
@[simp] theorem complete_cr3 (s0 : State) (l : Bool) : (complete s0 l s).cr3 = s.cr3 := rfl
@[simp] theorem complete_gdtr (s0 : State) (l : Bool) : (complete s0 l s).gdtr = s.gdtr := rfl
@[simp] theorem complete_idtr (s0 : State) (l : Bool) : (complete s0 l s).idtr = s.idtr := rfl
@[simp] theorem complete_ldtReg (s0 : State) (l : Bool) : (complete s0 l s).ldtReg = s.ldtReg := rfl
@[simp] theorem complete_taskReg (s0 : State) (l : Bool) : (complete s0 l s).taskReg = s.taskReg := rfl
@[simp] theorem complete_tr6 (s0 : State) (l : Bool) : (complete s0 l s).tr6 = s.tr6 := rfl
@[simp] theorem complete_tr7 (s0 : State) (l : Bool) : (complete s0 l s).tr7 = s.tr7 := rfl
@[simp] theorem complete_dr0 (s0 : State) (l : Bool) : (complete s0 l s).dr0 = s.dr0 := rfl
@[simp] theorem complete_dr1 (s0 : State) (l : Bool) : (complete s0 l s).dr1 = s.dr1 := rfl
@[simp] theorem complete_dr2 (s0 : State) (l : Bool) : (complete s0 l s).dr2 = s.dr2 := rfl
@[simp] theorem complete_dr3 (s0 : State) (l : Bool) : (complete s0 l s).dr3 = s.dr3 := rfl
@[simp] theorem complete_dr6 (s0 : State) (l : Bool) : (complete s0 l s).dr6 = s.dr6 := rfl
@[simp] theorem complete_dr7 (s0 : State) (l : Bool) : (complete s0 l s).dr7 = s.dr7 := rfl
@[simp] theorem complete_tlb (s0 : State) (l : Bool) : (complete s0 l s).tlb = s.tlb := rfl
@[simp] theorem complete_tlbMissed (s0 : State) (l : Bool) : (complete s0 l s).tlbMissed = s.tlbMissed := rfl
@[simp] theorem complete_prefetchStale (s0 : State) (l : Bool) : (complete s0 l s).prefetchStale = s.prefetchStale := rfl
@[simp] theorem complete_run (s0 : State) (l : Bool) : (complete s0 l s).run = s.run := rfl
@[simp] theorem complete_traps (s0 : State) (l : Bool) : (complete s0 l s).traps = if s0.flags.tf then s.traps ||| bsBit else s.traps := rfl
@[simp] theorem complete_quiet (s0 : State) (l : Bool) : (complete s0 l s).quiet = s.quiet := rfl
@[simp] theorem complete_holdOff (s0 : State) (l : Bool) : (complete s0 l s).holdOff = s.holdOff := rfl
@[simp] theorem complete_nmi (s0 : State) (l : Bool) : (complete s0 l s).nmi = s.nmi := rfl
@[simp] theorem complete_intr (s0 : State) (l : Bool) : (complete s0 l s).intr = s.intr := rfl
@[simp] theorem complete_inputs (s0 : State) (l : Bool) : (complete s0 l s).inputs = s.inputs := rfl
@[simp] theorem complete_mem (s0 : State) (l : Bool) : (complete s0 l s).mem = s.mem := rfl
@[simp] theorem complete_map (s0 : State) (l : Bool) : (complete s0 l s).map = s.map := rfl
@[simp] theorem complete_params (s0 : State) (l : Bool) : (complete s0 l s).params = s.params := rfl
@[simp] theorem complete_next (s0 : State) (l : Bool) : (complete s0 l s).next = s.next := rfl
@[simp] theorem complete_free (s0 : State) (l : Bool) : (complete s0 l s).free = s.free := rfl
@[simp] theorem complete_mode (s0 : State) (l : Bool) : (complete s0 l s).mode = s.mode := rfl
@[simp] theorem complete_level (s0 : State) (l : Bool) : (complete s0 l s).level = s.level := rfl
@[simp] theorem complete_like8086 (s0 : State) (l : Bool) : (complete s0 l s).like8086 = s.like8086 := rfl
@[simp] theorem complete_stack16 (s0 : State) (l : Bool) : (complete s0 l s).stack16 = s.stack16 := rfl
@[simp] theorem complete_lin (s0 : State) (l : Bool) (r : SReg) (off : Dword) : (complete s0 l s).lin r off = s.lin r off := rfl

/-! ## setCs -/

@[simp] theorem setCs_gpr (r : SegReg) : (s.setCs r).gpr = s.gpr := rfl
@[simp] theorem setCs_eip (r : SegReg) : (s.setCs r).eip = s.eip := rfl
@[simp] theorem setCs_flags (r : SegReg) : (s.setCs r).flags = s.flags := rfl
@[simp] theorem setCs_seg (r : SegReg) : (s.setCs r).seg = s.seg.set .cs r := rfl
@[simp] theorem setCs_latch (r : SegReg) : (s.setCs r).latch = false := rfl
@[simp] theorem setCs_cpl (r : SegReg) : (s.setCs r).cpl = s.cpl := rfl
@[simp] theorem setCs_cr0 (r : SegReg) : (s.setCs r).cr0 = s.cr0 := rfl
@[simp] theorem setCs_cr2 (r : SegReg) : (s.setCs r).cr2 = s.cr2 := rfl
@[simp] theorem setCs_cr3 (r : SegReg) : (s.setCs r).cr3 = s.cr3 := rfl
@[simp] theorem setCs_gdtr (r : SegReg) : (s.setCs r).gdtr = s.gdtr := rfl
@[simp] theorem setCs_idtr (r : SegReg) : (s.setCs r).idtr = s.idtr := rfl
@[simp] theorem setCs_ldtReg (r : SegReg) : (s.setCs r).ldtReg = s.ldtReg := rfl
@[simp] theorem setCs_taskReg (r : SegReg) : (s.setCs r).taskReg = s.taskReg := rfl
@[simp] theorem setCs_tr6 (r : SegReg) : (s.setCs r).tr6 = s.tr6 := rfl
@[simp] theorem setCs_tr7 (r : SegReg) : (s.setCs r).tr7 = s.tr7 := rfl
@[simp] theorem setCs_dr0 (r : SegReg) : (s.setCs r).dr0 = s.dr0 := rfl
@[simp] theorem setCs_dr1 (r : SegReg) : (s.setCs r).dr1 = s.dr1 := rfl
@[simp] theorem setCs_dr2 (r : SegReg) : (s.setCs r).dr2 = s.dr2 := rfl
@[simp] theorem setCs_dr3 (r : SegReg) : (s.setCs r).dr3 = s.dr3 := rfl
@[simp] theorem setCs_dr6 (r : SegReg) : (s.setCs r).dr6 = s.dr6 := rfl
@[simp] theorem setCs_dr7 (r : SegReg) : (s.setCs r).dr7 = s.dr7 := rfl
@[simp] theorem setCs_tlb (r : SegReg) : (s.setCs r).tlb = s.tlb := rfl
@[simp] theorem setCs_tlbMissed (r : SegReg) : (s.setCs r).tlbMissed = s.tlbMissed := rfl
@[simp] theorem setCs_prefetchStale (r : SegReg) : (s.setCs r).prefetchStale = s.prefetchStale := rfl
@[simp] theorem setCs_run (r : SegReg) : (s.setCs r).run = s.run := rfl
@[simp] theorem setCs_traps (r : SegReg) : (s.setCs r).traps = s.traps := rfl
@[simp] theorem setCs_quiet (r : SegReg) : (s.setCs r).quiet = s.quiet := rfl
@[simp] theorem setCs_holdOff (r : SegReg) : (s.setCs r).holdOff = s.holdOff := rfl
@[simp] theorem setCs_nmi (r : SegReg) : (s.setCs r).nmi = s.nmi := rfl
@[simp] theorem setCs_intr (r : SegReg) : (s.setCs r).intr = s.intr := rfl
@[simp] theorem setCs_inputs (r : SegReg) : (s.setCs r).inputs = s.inputs := rfl
@[simp] theorem setCs_mem (r : SegReg) : (s.setCs r).mem = s.mem := rfl
@[simp] theorem setCs_map (r : SegReg) : (s.setCs r).map = s.map := rfl
@[simp] theorem setCs_params (r : SegReg) : (s.setCs r).params = s.params := rfl
@[simp] theorem setCs_next (r : SegReg) : (s.setCs r).next = s.next := rfl
@[simp] theorem setCs_free (r : SegReg) : (s.setCs r).free = s.free := rfl
@[simp] theorem setCs_mode (r : SegReg) : (s.setCs r).mode = s.mode := rfl
@[simp] theorem setCs_level (r : SegReg) : (s.setCs r).level = s.level := rfl
@[simp] theorem setCs_like8086 (r : SegReg) : (s.setCs r).like8086 = s.like8086 := rfl

/-! ## farTo8086 -/

@[simp] theorem farTo8086_gpr (sel : Selector) (off : Dword) : (s.farTo8086 sel off).gpr = s.gpr := rfl
@[simp] theorem farTo8086_eip (sel : Selector) (off : Dword) : (s.farTo8086 sel off).eip = off := rfl
@[simp] theorem farTo8086_flags (sel : Selector) (off : Dword) : (s.farTo8086 sel off).flags = s.flags := rfl
@[simp] theorem farTo8086_seg (sel : Selector) (off : Dword) : (s.farTo8086 sel off).seg = s.seg.set .cs (s.seg.cs.load8086 sel) := rfl
@[simp] theorem farTo8086_latch (sel : Selector) (off : Dword) : (s.farTo8086 sel off).latch = false := rfl
@[simp] theorem farTo8086_cpl (sel : Selector) (off : Dword) : (s.farTo8086 sel off).cpl = s.cpl := rfl
@[simp] theorem farTo8086_cr0 (sel : Selector) (off : Dword) : (s.farTo8086 sel off).cr0 = s.cr0 := rfl
@[simp] theorem farTo8086_cr2 (sel : Selector) (off : Dword) : (s.farTo8086 sel off).cr2 = s.cr2 := rfl
@[simp] theorem farTo8086_cr3 (sel : Selector) (off : Dword) : (s.farTo8086 sel off).cr3 = s.cr3 := rfl
@[simp] theorem farTo8086_gdtr (sel : Selector) (off : Dword) : (s.farTo8086 sel off).gdtr = s.gdtr := rfl
@[simp] theorem farTo8086_idtr (sel : Selector) (off : Dword) : (s.farTo8086 sel off).idtr = s.idtr := rfl
@[simp] theorem farTo8086_ldtReg (sel : Selector) (off : Dword) : (s.farTo8086 sel off).ldtReg = s.ldtReg := rfl
@[simp] theorem farTo8086_taskReg (sel : Selector) (off : Dword) : (s.farTo8086 sel off).taskReg = s.taskReg := rfl
@[simp] theorem farTo8086_tr6 (sel : Selector) (off : Dword) : (s.farTo8086 sel off).tr6 = s.tr6 := rfl
@[simp] theorem farTo8086_tr7 (sel : Selector) (off : Dword) : (s.farTo8086 sel off).tr7 = s.tr7 := rfl
@[simp] theorem farTo8086_dr0 (sel : Selector) (off : Dword) : (s.farTo8086 sel off).dr0 = s.dr0 := rfl
@[simp] theorem farTo8086_dr1 (sel : Selector) (off : Dword) : (s.farTo8086 sel off).dr1 = s.dr1 := rfl
@[simp] theorem farTo8086_dr2 (sel : Selector) (off : Dword) : (s.farTo8086 sel off).dr2 = s.dr2 := rfl
@[simp] theorem farTo8086_dr3 (sel : Selector) (off : Dword) : (s.farTo8086 sel off).dr3 = s.dr3 := rfl
@[simp] theorem farTo8086_dr6 (sel : Selector) (off : Dword) : (s.farTo8086 sel off).dr6 = s.dr6 := rfl
@[simp] theorem farTo8086_dr7 (sel : Selector) (off : Dword) : (s.farTo8086 sel off).dr7 = s.dr7 := rfl
@[simp] theorem farTo8086_tlb (sel : Selector) (off : Dword) : (s.farTo8086 sel off).tlb = s.tlb := rfl
@[simp] theorem farTo8086_tlbMissed (sel : Selector) (off : Dword) : (s.farTo8086 sel off).tlbMissed = s.tlbMissed := rfl
@[simp] theorem farTo8086_prefetchStale (sel : Selector) (off : Dword) : (s.farTo8086 sel off).prefetchStale = s.prefetchStale := rfl
@[simp] theorem farTo8086_run (sel : Selector) (off : Dword) : (s.farTo8086 sel off).run = s.run := rfl
@[simp] theorem farTo8086_traps (sel : Selector) (off : Dword) : (s.farTo8086 sel off).traps = s.traps := rfl
@[simp] theorem farTo8086_quiet (sel : Selector) (off : Dword) : (s.farTo8086 sel off).quiet = s.quiet := rfl
@[simp] theorem farTo8086_holdOff (sel : Selector) (off : Dword) : (s.farTo8086 sel off).holdOff = s.holdOff := rfl
@[simp] theorem farTo8086_nmi (sel : Selector) (off : Dword) : (s.farTo8086 sel off).nmi = s.nmi := rfl
@[simp] theorem farTo8086_intr (sel : Selector) (off : Dword) : (s.farTo8086 sel off).intr = s.intr := rfl
@[simp] theorem farTo8086_inputs (sel : Selector) (off : Dword) : (s.farTo8086 sel off).inputs = s.inputs := rfl
@[simp] theorem farTo8086_mem (sel : Selector) (off : Dword) : (s.farTo8086 sel off).mem = s.mem := rfl
@[simp] theorem farTo8086_map (sel : Selector) (off : Dword) : (s.farTo8086 sel off).map = s.map := rfl
@[simp] theorem farTo8086_params (sel : Selector) (off : Dword) : (s.farTo8086 sel off).params = s.params := rfl
@[simp] theorem farTo8086_next (sel : Selector) (off : Dword) : (s.farTo8086 sel off).next = s.next := rfl
@[simp] theorem farTo8086_free (sel : Selector) (off : Dword) : (s.farTo8086 sel off).free = s.free := rfl
@[simp] theorem farTo8086_mode (sel : Selector) (off : Dword) : (s.farTo8086 sel off).mode = s.mode := rfl
@[simp] theorem farTo8086_level (sel : Selector) (off : Dword) : (s.farTo8086 sel off).level = s.level := rfl
@[simp] theorem farTo8086_like8086 (sel : Selector) (off : Dword) : (s.farTo8086 sel off).like8086 = s.like8086 := rfl

/-! ## farToCode -/

@[simp] theorem farToCode_gpr (c : Config.FarCode) : (s.farToCode c).gpr = s.gpr := rfl
@[simp] theorem farToCode_eip (c : Config.FarCode) : (s.farToCode c).eip = c.eip := rfl
@[simp] theorem farToCode_flags (c : Config.FarCode) : (s.farToCode c).flags = s.flags := rfl
@[simp] theorem farToCode_seg (c : Config.FarCode) : (s.farToCode c).seg = s.seg.set .cs c.cs := rfl
@[simp] theorem farToCode_latch (c : Config.FarCode) : (s.farToCode c).latch = false := rfl
@[simp] theorem farToCode_cpl (c : Config.FarCode) : (s.farToCode c).cpl = c.cpl := rfl
@[simp] theorem farToCode_cr0 (c : Config.FarCode) : (s.farToCode c).cr0 = s.cr0 := rfl
@[simp] theorem farToCode_cr2 (c : Config.FarCode) : (s.farToCode c).cr2 = s.cr2 := rfl
@[simp] theorem farToCode_cr3 (c : Config.FarCode) : (s.farToCode c).cr3 = s.cr3 := rfl
@[simp] theorem farToCode_gdtr (c : Config.FarCode) : (s.farToCode c).gdtr = s.gdtr := rfl
@[simp] theorem farToCode_idtr (c : Config.FarCode) : (s.farToCode c).idtr = s.idtr := rfl
@[simp] theorem farToCode_ldtReg (c : Config.FarCode) : (s.farToCode c).ldtReg = s.ldtReg := rfl
@[simp] theorem farToCode_taskReg (c : Config.FarCode) : (s.farToCode c).taskReg = s.taskReg := rfl
@[simp] theorem farToCode_tr6 (c : Config.FarCode) : (s.farToCode c).tr6 = s.tr6 := rfl
@[simp] theorem farToCode_tr7 (c : Config.FarCode) : (s.farToCode c).tr7 = s.tr7 := rfl
@[simp] theorem farToCode_dr0 (c : Config.FarCode) : (s.farToCode c).dr0 = s.dr0 := rfl
@[simp] theorem farToCode_dr1 (c : Config.FarCode) : (s.farToCode c).dr1 = s.dr1 := rfl
@[simp] theorem farToCode_dr2 (c : Config.FarCode) : (s.farToCode c).dr2 = s.dr2 := rfl
@[simp] theorem farToCode_dr3 (c : Config.FarCode) : (s.farToCode c).dr3 = s.dr3 := rfl
@[simp] theorem farToCode_dr6 (c : Config.FarCode) : (s.farToCode c).dr6 = s.dr6 := rfl
@[simp] theorem farToCode_dr7 (c : Config.FarCode) : (s.farToCode c).dr7 = s.dr7 := rfl
@[simp] theorem farToCode_tlb (c : Config.FarCode) : (s.farToCode c).tlb = s.tlb := rfl
@[simp] theorem farToCode_tlbMissed (c : Config.FarCode) : (s.farToCode c).tlbMissed = s.tlbMissed := rfl
@[simp] theorem farToCode_prefetchStale (c : Config.FarCode) : (s.farToCode c).prefetchStale = s.prefetchStale := rfl
@[simp] theorem farToCode_run (c : Config.FarCode) : (s.farToCode c).run = s.run := rfl
@[simp] theorem farToCode_traps (c : Config.FarCode) : (s.farToCode c).traps = s.traps := rfl
@[simp] theorem farToCode_quiet (c : Config.FarCode) : (s.farToCode c).quiet = s.quiet := rfl
@[simp] theorem farToCode_holdOff (c : Config.FarCode) : (s.farToCode c).holdOff = s.holdOff := rfl
@[simp] theorem farToCode_nmi (c : Config.FarCode) : (s.farToCode c).nmi = s.nmi := rfl
@[simp] theorem farToCode_intr (c : Config.FarCode) : (s.farToCode c).intr = s.intr := rfl
@[simp] theorem farToCode_inputs (c : Config.FarCode) : (s.farToCode c).inputs = s.inputs := rfl
@[simp] theorem farToCode_mem (c : Config.FarCode) : (s.farToCode c).mem = s.mem := rfl
@[simp] theorem farToCode_map (c : Config.FarCode) : (s.farToCode c).map = s.map := rfl
@[simp] theorem farToCode_params (c : Config.FarCode) : (s.farToCode c).params = s.params := rfl
@[simp] theorem farToCode_next (c : Config.FarCode) : (s.farToCode c).next = s.next := rfl
@[simp] theorem farToCode_free (c : Config.FarCode) : (s.farToCode c).free = s.free := rfl
@[simp] theorem farToCode_mode (c : Config.FarCode) : (s.farToCode c).mode = s.mode := rfl
@[simp] theorem farToCode_like8086 (c : Config.FarCode) : (s.farToCode c).like8086 = s.like8086 := rfl

/-! ## noteFetch -/

@[simp] theorem noteFetch_gpr : (s.noteFetch).gpr = s.gpr := rfl
@[simp] theorem noteFetch_eip : (s.noteFetch).eip = s.eip := rfl
@[simp] theorem noteFetch_flags : (s.noteFetch).flags = s.flags := rfl
@[simp] theorem noteFetch_seg : (s.noteFetch).seg = s.seg := rfl
@[simp] theorem noteFetch_latch : (s.noteFetch).latch = s.latch := rfl
@[simp] theorem noteFetch_cpl : (s.noteFetch).cpl = s.cpl := rfl
@[simp] theorem noteFetch_cr0 : (s.noteFetch).cr0 = s.cr0 := rfl
@[simp] theorem noteFetch_cr2 : (s.noteFetch).cr2 = s.cr2 := rfl
@[simp] theorem noteFetch_cr3 : (s.noteFetch).cr3 = s.cr3 := rfl
@[simp] theorem noteFetch_gdtr : (s.noteFetch).gdtr = s.gdtr := rfl
@[simp] theorem noteFetch_idtr : (s.noteFetch).idtr = s.idtr := rfl
@[simp] theorem noteFetch_ldtReg : (s.noteFetch).ldtReg = s.ldtReg := rfl
@[simp] theorem noteFetch_taskReg : (s.noteFetch).taskReg = s.taskReg := rfl
@[simp] theorem noteFetch_tr6 : (s.noteFetch).tr6 = s.tr6 := rfl
@[simp] theorem noteFetch_tr7 : (s.noteFetch).tr7 = s.tr7 := rfl
@[simp] theorem noteFetch_dr0 : (s.noteFetch).dr0 = s.dr0 := rfl
@[simp] theorem noteFetch_dr1 : (s.noteFetch).dr1 = s.dr1 := rfl
@[simp] theorem noteFetch_dr2 : (s.noteFetch).dr2 = s.dr2 := rfl
@[simp] theorem noteFetch_dr3 : (s.noteFetch).dr3 = s.dr3 := rfl
@[simp] theorem noteFetch_dr6 : (s.noteFetch).dr6 = s.dr6 := rfl
@[simp] theorem noteFetch_dr7 : (s.noteFetch).dr7 = s.dr7 := rfl
@[simp] theorem noteFetch_tlb : (s.noteFetch).tlb = s.tlb := rfl
@[simp] theorem noteFetch_tlbMissed : (s.noteFetch).tlbMissed = s.tlbMissed := rfl
@[simp] theorem noteFetch_prefetchStale : (s.noteFetch).prefetchStale = s.prefetchStale := rfl
@[simp] theorem noteFetch_run : (s.noteFetch).run = s.run := rfl
@[simp] theorem noteFetch_traps : (s.noteFetch).traps = s.traps := rfl
@[simp] theorem noteFetch_quiet : (s.noteFetch).quiet = if s.flags.rf then s.quiet else s.quiet ||| fetchQuiet s s.linPc := rfl
@[simp] theorem noteFetch_holdOff : (s.noteFetch).holdOff = s.holdOff := rfl
@[simp] theorem noteFetch_nmi : (s.noteFetch).nmi = s.nmi := rfl
@[simp] theorem noteFetch_intr : (s.noteFetch).intr = s.intr := rfl
@[simp] theorem noteFetch_inputs : (s.noteFetch).inputs = s.inputs := rfl
@[simp] theorem noteFetch_mem : (s.noteFetch).mem = s.mem := rfl
@[simp] theorem noteFetch_map : (s.noteFetch).map = s.map := rfl
@[simp] theorem noteFetch_params : (s.noteFetch).params = s.params := rfl
@[simp] theorem noteFetch_next : (s.noteFetch).next = s.next := rfl
@[simp] theorem noteFetch_free : (s.noteFetch).free = s.free := rfl
@[simp] theorem noteFetch_mode : (s.noteFetch).mode = s.mode := rfl
@[simp] theorem noteFetch_level : (s.noteFetch).level = s.level := rfl
@[simp] theorem noteFetch_like8086 : (s.noteFetch).like8086 = s.like8086 := rfl
@[simp] theorem noteFetch_stack16 : (s.noteFetch).stack16 = s.stack16 := rfl
@[simp] theorem noteFetch_lin (r : SReg) (off : Dword) : (s.noteFetch).lin r off = s.lin r off := rfl

/-! ## noteReads -/

theorem noteReads_eq (l : List (Dword × Nat)) :
    ∃ t q, s.noteReads l = { s with traps := t, quiet := q } := by
  induction l generalizing s with
  | nil => exact ⟨_, _, rfl⟩
  | cons x l ih =>
    obtain ⟨t, q, h⟩ := ih (s.noteImplicit x.1 x.2 .read)
    refine ⟨t, q, ?_⟩
    rw [State.noteReads, h]
    unfold State.noteImplicit
    split <;> rfl

@[simp] theorem noteReads_gpr (l : List (Dword × Nat)) : (s.noteReads l).gpr = s.gpr := by rw [(noteReads_eq s l).choose_spec.choose_spec]
@[simp] theorem noteReads_eip (l : List (Dword × Nat)) : (s.noteReads l).eip = s.eip := by rw [(noteReads_eq s l).choose_spec.choose_spec]
@[simp] theorem noteReads_flags (l : List (Dword × Nat)) : (s.noteReads l).flags = s.flags := by rw [(noteReads_eq s l).choose_spec.choose_spec]
@[simp] theorem noteReads_seg (l : List (Dword × Nat)) : (s.noteReads l).seg = s.seg := by rw [(noteReads_eq s l).choose_spec.choose_spec]
@[simp] theorem noteReads_latch (l : List (Dword × Nat)) : (s.noteReads l).latch = s.latch := by rw [(noteReads_eq s l).choose_spec.choose_spec]
@[simp] theorem noteReads_cpl (l : List (Dword × Nat)) : (s.noteReads l).cpl = s.cpl := by rw [(noteReads_eq s l).choose_spec.choose_spec]
@[simp] theorem noteReads_cr0 (l : List (Dword × Nat)) : (s.noteReads l).cr0 = s.cr0 := by rw [(noteReads_eq s l).choose_spec.choose_spec]
@[simp] theorem noteReads_cr2 (l : List (Dword × Nat)) : (s.noteReads l).cr2 = s.cr2 := by rw [(noteReads_eq s l).choose_spec.choose_spec]
@[simp] theorem noteReads_cr3 (l : List (Dword × Nat)) : (s.noteReads l).cr3 = s.cr3 := by rw [(noteReads_eq s l).choose_spec.choose_spec]
@[simp] theorem noteReads_gdtr (l : List (Dword × Nat)) : (s.noteReads l).gdtr = s.gdtr := by rw [(noteReads_eq s l).choose_spec.choose_spec]
@[simp] theorem noteReads_idtr (l : List (Dword × Nat)) : (s.noteReads l).idtr = s.idtr := by rw [(noteReads_eq s l).choose_spec.choose_spec]
@[simp] theorem noteReads_ldtReg (l : List (Dword × Nat)) : (s.noteReads l).ldtReg = s.ldtReg := by rw [(noteReads_eq s l).choose_spec.choose_spec]
@[simp] theorem noteReads_taskReg (l : List (Dword × Nat)) : (s.noteReads l).taskReg = s.taskReg := by rw [(noteReads_eq s l).choose_spec.choose_spec]
@[simp] theorem noteReads_tr6 (l : List (Dword × Nat)) : (s.noteReads l).tr6 = s.tr6 := by rw [(noteReads_eq s l).choose_spec.choose_spec]
@[simp] theorem noteReads_tr7 (l : List (Dword × Nat)) : (s.noteReads l).tr7 = s.tr7 := by rw [(noteReads_eq s l).choose_spec.choose_spec]
@[simp] theorem noteReads_dr0 (l : List (Dword × Nat)) : (s.noteReads l).dr0 = s.dr0 := by rw [(noteReads_eq s l).choose_spec.choose_spec]
@[simp] theorem noteReads_dr1 (l : List (Dword × Nat)) : (s.noteReads l).dr1 = s.dr1 := by rw [(noteReads_eq s l).choose_spec.choose_spec]
@[simp] theorem noteReads_dr2 (l : List (Dword × Nat)) : (s.noteReads l).dr2 = s.dr2 := by rw [(noteReads_eq s l).choose_spec.choose_spec]
@[simp] theorem noteReads_dr3 (l : List (Dword × Nat)) : (s.noteReads l).dr3 = s.dr3 := by rw [(noteReads_eq s l).choose_spec.choose_spec]
@[simp] theorem noteReads_dr6 (l : List (Dword × Nat)) : (s.noteReads l).dr6 = s.dr6 := by rw [(noteReads_eq s l).choose_spec.choose_spec]
@[simp] theorem noteReads_dr7 (l : List (Dword × Nat)) : (s.noteReads l).dr7 = s.dr7 := by rw [(noteReads_eq s l).choose_spec.choose_spec]
@[simp] theorem noteReads_tlb (l : List (Dword × Nat)) : (s.noteReads l).tlb = s.tlb := by rw [(noteReads_eq s l).choose_spec.choose_spec]
@[simp] theorem noteReads_tlbMissed (l : List (Dword × Nat)) : (s.noteReads l).tlbMissed = s.tlbMissed := by rw [(noteReads_eq s l).choose_spec.choose_spec]
@[simp] theorem noteReads_prefetchStale (l : List (Dword × Nat)) : (s.noteReads l).prefetchStale = s.prefetchStale := by rw [(noteReads_eq s l).choose_spec.choose_spec]
@[simp] theorem noteReads_run (l : List (Dword × Nat)) : (s.noteReads l).run = s.run := by rw [(noteReads_eq s l).choose_spec.choose_spec]
@[simp] theorem noteReads_holdOff (l : List (Dword × Nat)) : (s.noteReads l).holdOff = s.holdOff := by rw [(noteReads_eq s l).choose_spec.choose_spec]
@[simp] theorem noteReads_nmi (l : List (Dword × Nat)) : (s.noteReads l).nmi = s.nmi := by rw [(noteReads_eq s l).choose_spec.choose_spec]
@[simp] theorem noteReads_intr (l : List (Dword × Nat)) : (s.noteReads l).intr = s.intr := by rw [(noteReads_eq s l).choose_spec.choose_spec]
@[simp] theorem noteReads_inputs (l : List (Dword × Nat)) : (s.noteReads l).inputs = s.inputs := by rw [(noteReads_eq s l).choose_spec.choose_spec]
@[simp] theorem noteReads_mem (l : List (Dword × Nat)) : (s.noteReads l).mem = s.mem := by rw [(noteReads_eq s l).choose_spec.choose_spec]
@[simp] theorem noteReads_map (l : List (Dword × Nat)) : (s.noteReads l).map = s.map := by rw [(noteReads_eq s l).choose_spec.choose_spec]
@[simp] theorem noteReads_params (l : List (Dword × Nat)) : (s.noteReads l).params = s.params := by rw [(noteReads_eq s l).choose_spec.choose_spec]
@[simp] theorem noteReads_next (l : List (Dword × Nat)) : (s.noteReads l).next = s.next := by rw [(noteReads_eq s l).choose_spec.choose_spec]
@[simp] theorem noteReads_free (l : List (Dword × Nat)) : (s.noteReads l).free = s.free := by rw [(noteReads_eq s l).choose_spec.choose_spec]
@[simp] theorem noteReads_mode (l : List (Dword × Nat)) : (s.noteReads l).mode = s.mode := by rw [(noteReads_eq s l).choose_spec.choose_spec]; rfl
@[simp] theorem noteReads_level (l : List (Dword × Nat)) : (s.noteReads l).level = s.level := by rw [(noteReads_eq s l).choose_spec.choose_spec]; rfl
@[simp] theorem noteReads_like8086 (l : List (Dword × Nat)) : (s.noteReads l).like8086 = s.like8086 := by rw [(noteReads_eq s l).choose_spec.choose_spec]; rfl
@[simp] theorem noteReads_stack16 (l : List (Dword × Nat)) : (s.noteReads l).stack16 = s.stack16 := by rw [(noteReads_eq s l).choose_spec.choose_spec]; rfl
@[simp] theorem noteReads_lin (l : List (Dword × Nat)) (r : SReg) (off : Dword) : (s.noteReads l).lin r off = s.lin r off := by rw [(noteReads_eq s l).choose_spec.choose_spec]; rfl

/-! ## writeCr0 -/

@[simp] theorem writeCr0_gpr (v : Cr0) : (s.writeCr0 v).gpr = s.gpr := by unfold State.writeCr0; split <;> rfl
@[simp] theorem writeCr0_eip (v : Cr0) : (s.writeCr0 v).eip = s.eip := by unfold State.writeCr0; split <;> rfl
@[simp] theorem writeCr0_flags (v : Cr0) : (s.writeCr0 v).flags = s.flags := by unfold State.writeCr0; split <;> rfl
@[simp] theorem writeCr0_seg (v : Cr0) : (s.writeCr0 v).seg = s.seg := by unfold State.writeCr0; split <;> rfl
@[simp] theorem writeCr0_latch (v : Cr0) : (s.writeCr0 v).latch = s.latch := by unfold State.writeCr0; split <;> rfl
@[simp] theorem writeCr0_cr0 (v : Cr0) : (s.writeCr0 v).cr0 = v := by unfold State.writeCr0; split <;> rfl
@[simp] theorem writeCr0_cr2 (v : Cr0) : (s.writeCr0 v).cr2 = s.cr2 := by unfold State.writeCr0; split <;> rfl
@[simp] theorem writeCr0_cr3 (v : Cr0) : (s.writeCr0 v).cr3 = s.cr3 := by unfold State.writeCr0; split <;> rfl
@[simp] theorem writeCr0_gdtr (v : Cr0) : (s.writeCr0 v).gdtr = s.gdtr := by unfold State.writeCr0; split <;> rfl
@[simp] theorem writeCr0_idtr (v : Cr0) : (s.writeCr0 v).idtr = s.idtr := by unfold State.writeCr0; split <;> rfl
@[simp] theorem writeCr0_ldtReg (v : Cr0) : (s.writeCr0 v).ldtReg = s.ldtReg := by unfold State.writeCr0; split <;> rfl
@[simp] theorem writeCr0_taskReg (v : Cr0) : (s.writeCr0 v).taskReg = s.taskReg := by unfold State.writeCr0; split <;> rfl
@[simp] theorem writeCr0_tr6 (v : Cr0) : (s.writeCr0 v).tr6 = s.tr6 := by unfold State.writeCr0; split <;> rfl
@[simp] theorem writeCr0_tr7 (v : Cr0) : (s.writeCr0 v).tr7 = s.tr7 := by unfold State.writeCr0; split <;> rfl
@[simp] theorem writeCr0_dr0 (v : Cr0) : (s.writeCr0 v).dr0 = s.dr0 := by unfold State.writeCr0; split <;> rfl
@[simp] theorem writeCr0_dr1 (v : Cr0) : (s.writeCr0 v).dr1 = s.dr1 := by unfold State.writeCr0; split <;> rfl
@[simp] theorem writeCr0_dr2 (v : Cr0) : (s.writeCr0 v).dr2 = s.dr2 := by unfold State.writeCr0; split <;> rfl
@[simp] theorem writeCr0_dr3 (v : Cr0) : (s.writeCr0 v).dr3 = s.dr3 := by unfold State.writeCr0; split <;> rfl
@[simp] theorem writeCr0_dr6 (v : Cr0) : (s.writeCr0 v).dr6 = s.dr6 := by unfold State.writeCr0; split <;> rfl
@[simp] theorem writeCr0_dr7 (v : Cr0) : (s.writeCr0 v).dr7 = s.dr7 := by unfold State.writeCr0; split <;> rfl
@[simp] theorem writeCr0_tlb (v : Cr0) : (s.writeCr0 v).tlb = s.tlb := by unfold State.writeCr0; split <;> rfl
@[simp] theorem writeCr0_tlbMissed (v : Cr0) : (s.writeCr0 v).tlbMissed = s.tlbMissed := by unfold State.writeCr0; split <;> rfl
@[simp] theorem writeCr0_run (v : Cr0) : (s.writeCr0 v).run = s.run := by unfold State.writeCr0; split <;> rfl
@[simp] theorem writeCr0_traps (v : Cr0) : (s.writeCr0 v).traps = s.traps := by unfold State.writeCr0; split <;> rfl
@[simp] theorem writeCr0_quiet (v : Cr0) : (s.writeCr0 v).quiet = s.quiet := by unfold State.writeCr0; split <;> rfl
@[simp] theorem writeCr0_holdOff (v : Cr0) : (s.writeCr0 v).holdOff = s.holdOff := by unfold State.writeCr0; split <;> rfl
@[simp] theorem writeCr0_nmi (v : Cr0) : (s.writeCr0 v).nmi = s.nmi := by unfold State.writeCr0; split <;> rfl
@[simp] theorem writeCr0_intr (v : Cr0) : (s.writeCr0 v).intr = s.intr := by unfold State.writeCr0; split <;> rfl
@[simp] theorem writeCr0_inputs (v : Cr0) : (s.writeCr0 v).inputs = s.inputs := by unfold State.writeCr0; split <;> rfl
@[simp] theorem writeCr0_mem (v : Cr0) : (s.writeCr0 v).mem = s.mem := by unfold State.writeCr0; split <;> rfl
@[simp] theorem writeCr0_map (v : Cr0) : (s.writeCr0 v).map = s.map := by unfold State.writeCr0; split <;> rfl
@[simp] theorem writeCr0_params (v : Cr0) : (s.writeCr0 v).params = s.params := by unfold State.writeCr0; split <;> rfl
@[simp] theorem writeCr0_next (v : Cr0) : (s.writeCr0 v).next = s.next := by unfold State.writeCr0; split <;> rfl
@[simp] theorem writeCr0_free (v : Cr0) : (s.writeCr0 v).free = s.free := by unfold State.writeCr0; split <;> rfl
@[simp] theorem writeCr0_lin (v : Cr0) (r : SReg) (off : Dword) : (s.writeCr0 v).lin r off = s.lin r off := by unfold State.writeCr0; split <;> rfl

/-! ## setDr -/

@[simp] theorem setDr_gpr (n : Fin 4) (v : Dword) : (s.setDr n v).gpr = s.gpr := by match n with | 0 | 1 | 2 | 3 => rfl
@[simp] theorem setDr_eip (n : Fin 4) (v : Dword) : (s.setDr n v).eip = s.eip := by match n with | 0 | 1 | 2 | 3 => rfl
@[simp] theorem setDr_flags (n : Fin 4) (v : Dword) : (s.setDr n v).flags = s.flags := by match n with | 0 | 1 | 2 | 3 => rfl
@[simp] theorem setDr_seg (n : Fin 4) (v : Dword) : (s.setDr n v).seg = s.seg := by match n with | 0 | 1 | 2 | 3 => rfl
@[simp] theorem setDr_latch (n : Fin 4) (v : Dword) : (s.setDr n v).latch = s.latch := by match n with | 0 | 1 | 2 | 3 => rfl
@[simp] theorem setDr_cpl (n : Fin 4) (v : Dword) : (s.setDr n v).cpl = s.cpl := by match n with | 0 | 1 | 2 | 3 => rfl
@[simp] theorem setDr_cr0 (n : Fin 4) (v : Dword) : (s.setDr n v).cr0 = s.cr0 := by match n with | 0 | 1 | 2 | 3 => rfl
@[simp] theorem setDr_cr2 (n : Fin 4) (v : Dword) : (s.setDr n v).cr2 = s.cr2 := by match n with | 0 | 1 | 2 | 3 => rfl
@[simp] theorem setDr_cr3 (n : Fin 4) (v : Dword) : (s.setDr n v).cr3 = s.cr3 := by match n with | 0 | 1 | 2 | 3 => rfl
@[simp] theorem setDr_gdtr (n : Fin 4) (v : Dword) : (s.setDr n v).gdtr = s.gdtr := by match n with | 0 | 1 | 2 | 3 => rfl
@[simp] theorem setDr_idtr (n : Fin 4) (v : Dword) : (s.setDr n v).idtr = s.idtr := by match n with | 0 | 1 | 2 | 3 => rfl
@[simp] theorem setDr_ldtReg (n : Fin 4) (v : Dword) : (s.setDr n v).ldtReg = s.ldtReg := by match n with | 0 | 1 | 2 | 3 => rfl
@[simp] theorem setDr_taskReg (n : Fin 4) (v : Dword) : (s.setDr n v).taskReg = s.taskReg := by match n with | 0 | 1 | 2 | 3 => rfl
@[simp] theorem setDr_tr6 (n : Fin 4) (v : Dword) : (s.setDr n v).tr6 = s.tr6 := by match n with | 0 | 1 | 2 | 3 => rfl
@[simp] theorem setDr_tr7 (n : Fin 4) (v : Dword) : (s.setDr n v).tr7 = s.tr7 := by match n with | 0 | 1 | 2 | 3 => rfl
@[simp] theorem setDr_dr6 (n : Fin 4) (v : Dword) : (s.setDr n v).dr6 = s.dr6 := by match n with | 0 | 1 | 2 | 3 => rfl
@[simp] theorem setDr_dr7 (n : Fin 4) (v : Dword) : (s.setDr n v).dr7 = s.dr7 := by match n with | 0 | 1 | 2 | 3 => rfl
@[simp] theorem setDr_tlb (n : Fin 4) (v : Dword) : (s.setDr n v).tlb = s.tlb := by match n with | 0 | 1 | 2 | 3 => rfl
@[simp] theorem setDr_tlbMissed (n : Fin 4) (v : Dword) : (s.setDr n v).tlbMissed = s.tlbMissed := by match n with | 0 | 1 | 2 | 3 => rfl
@[simp] theorem setDr_prefetchStale (n : Fin 4) (v : Dword) : (s.setDr n v).prefetchStale = s.prefetchStale := by match n with | 0 | 1 | 2 | 3 => rfl
@[simp] theorem setDr_run (n : Fin 4) (v : Dword) : (s.setDr n v).run = s.run := by match n with | 0 | 1 | 2 | 3 => rfl
@[simp] theorem setDr_traps (n : Fin 4) (v : Dword) : (s.setDr n v).traps = s.traps := by match n with | 0 | 1 | 2 | 3 => rfl
@[simp] theorem setDr_quiet (n : Fin 4) (v : Dword) : (s.setDr n v).quiet = s.quiet := by match n with | 0 | 1 | 2 | 3 => rfl
@[simp] theorem setDr_holdOff (n : Fin 4) (v : Dword) : (s.setDr n v).holdOff = s.holdOff := by match n with | 0 | 1 | 2 | 3 => rfl
@[simp] theorem setDr_nmi (n : Fin 4) (v : Dword) : (s.setDr n v).nmi = s.nmi := by match n with | 0 | 1 | 2 | 3 => rfl
@[simp] theorem setDr_intr (n : Fin 4) (v : Dword) : (s.setDr n v).intr = s.intr := by match n with | 0 | 1 | 2 | 3 => rfl
@[simp] theorem setDr_inputs (n : Fin 4) (v : Dword) : (s.setDr n v).inputs = s.inputs := by match n with | 0 | 1 | 2 | 3 => rfl
@[simp] theorem setDr_mem (n : Fin 4) (v : Dword) : (s.setDr n v).mem = s.mem := by match n with | 0 | 1 | 2 | 3 => rfl
@[simp] theorem setDr_map (n : Fin 4) (v : Dword) : (s.setDr n v).map = s.map := by match n with | 0 | 1 | 2 | 3 => rfl
@[simp] theorem setDr_params (n : Fin 4) (v : Dword) : (s.setDr n v).params = s.params := by match n with | 0 | 1 | 2 | 3 => rfl
@[simp] theorem setDr_next (n : Fin 4) (v : Dword) : (s.setDr n v).next = s.next := by match n with | 0 | 1 | 2 | 3 => rfl
@[simp] theorem setDr_free (n : Fin 4) (v : Dword) : (s.setDr n v).free = s.free := by match n with | 0 | 1 | 2 | 3 => rfl
@[simp] theorem setDr_mode (n : Fin 4) (v : Dword) : (s.setDr n v).mode = s.mode := by match n with | 0 | 1 | 2 | 3 => rfl
@[simp] theorem setDr_level (n : Fin 4) (v : Dword) : (s.setDr n v).level = s.level := by match n with | 0 | 1 | 2 | 3 => rfl
@[simp] theorem setDr_like8086 (n : Fin 4) (v : Dword) : (s.setDr n v).like8086 = s.like8086 := by match n with | 0 | 1 | 2 | 3 => rfl
@[simp] theorem setDr_stack16 (n : Fin 4) (v : Dword) : (s.setDr n v).stack16 = s.stack16 := by match n with | 0 | 1 | 2 | 3 => rfl
@[simp] theorem setDr_lin (n : Fin 4) (v : Dword) (r : SReg) (off : Dword) : (s.setDr n v).lin r off = s.lin r off := by match n with | 0 | 1 | 2 | 3 => rfl

/-! ## clearGd -/

@[simp] theorem clearGd_gpr : (s.clearGd).gpr = s.gpr := by unfold State.clearGd; split <;> rfl
@[simp] theorem clearGd_eip : (s.clearGd).eip = s.eip := by unfold State.clearGd; split <;> rfl
@[simp] theorem clearGd_flags : (s.clearGd).flags = s.flags := by unfold State.clearGd; split <;> rfl
@[simp] theorem clearGd_seg : (s.clearGd).seg = s.seg := by unfold State.clearGd; split <;> rfl
@[simp] theorem clearGd_latch : (s.clearGd).latch = s.latch := by unfold State.clearGd; split <;> rfl
@[simp] theorem clearGd_cpl : (s.clearGd).cpl = s.cpl := by unfold State.clearGd; split <;> rfl
@[simp] theorem clearGd_cr0 : (s.clearGd).cr0 = s.cr0 := by unfold State.clearGd; split <;> rfl
@[simp] theorem clearGd_cr2 : (s.clearGd).cr2 = s.cr2 := by unfold State.clearGd; split <;> rfl
@[simp] theorem clearGd_cr3 : (s.clearGd).cr3 = s.cr3 := by unfold State.clearGd; split <;> rfl
@[simp] theorem clearGd_gdtr : (s.clearGd).gdtr = s.gdtr := by unfold State.clearGd; split <;> rfl
@[simp] theorem clearGd_idtr : (s.clearGd).idtr = s.idtr := by unfold State.clearGd; split <;> rfl
@[simp] theorem clearGd_ldtReg : (s.clearGd).ldtReg = s.ldtReg := by unfold State.clearGd; split <;> rfl
@[simp] theorem clearGd_taskReg : (s.clearGd).taskReg = s.taskReg := by unfold State.clearGd; split <;> rfl
@[simp] theorem clearGd_tr6 : (s.clearGd).tr6 = s.tr6 := by unfold State.clearGd; split <;> rfl
@[simp] theorem clearGd_tr7 : (s.clearGd).tr7 = s.tr7 := by unfold State.clearGd; split <;> rfl
@[simp] theorem clearGd_dr0 : (s.clearGd).dr0 = s.dr0 := by unfold State.clearGd; split <;> rfl
@[simp] theorem clearGd_dr1 : (s.clearGd).dr1 = s.dr1 := by unfold State.clearGd; split <;> rfl
@[simp] theorem clearGd_dr2 : (s.clearGd).dr2 = s.dr2 := by unfold State.clearGd; split <;> rfl
@[simp] theorem clearGd_dr3 : (s.clearGd).dr3 = s.dr3 := by unfold State.clearGd; split <;> rfl
@[simp] theorem clearGd_dr6 : (s.clearGd).dr6 = s.dr6 := by unfold State.clearGd; split <;> rfl
@[simp] theorem clearGd_tlb : (s.clearGd).tlb = s.tlb := by unfold State.clearGd; split <;> rfl
@[simp] theorem clearGd_tlbMissed : (s.clearGd).tlbMissed = s.tlbMissed := by unfold State.clearGd; split <;> rfl
@[simp] theorem clearGd_prefetchStale : (s.clearGd).prefetchStale = s.prefetchStale := by unfold State.clearGd; split <;> rfl
@[simp] theorem clearGd_run : (s.clearGd).run = s.run := by unfold State.clearGd; split <;> rfl
@[simp] theorem clearGd_traps : (s.clearGd).traps = s.traps := by unfold State.clearGd; split <;> rfl
@[simp] theorem clearGd_quiet : (s.clearGd).quiet = s.quiet := by unfold State.clearGd; split <;> rfl
@[simp] theorem clearGd_holdOff : (s.clearGd).holdOff = s.holdOff := by unfold State.clearGd; split <;> rfl
@[simp] theorem clearGd_nmi : (s.clearGd).nmi = s.nmi := by unfold State.clearGd; split <;> rfl
@[simp] theorem clearGd_intr : (s.clearGd).intr = s.intr := by unfold State.clearGd; split <;> rfl
@[simp] theorem clearGd_inputs : (s.clearGd).inputs = s.inputs := by unfold State.clearGd; split <;> rfl
@[simp] theorem clearGd_mem : (s.clearGd).mem = s.mem := by unfold State.clearGd; split <;> rfl
@[simp] theorem clearGd_map : (s.clearGd).map = s.map := by unfold State.clearGd; split <;> rfl
@[simp] theorem clearGd_params : (s.clearGd).params = s.params := by unfold State.clearGd; split <;> rfl
@[simp] theorem clearGd_next : (s.clearGd).next = s.next := by unfold State.clearGd; split <;> rfl
@[simp] theorem clearGd_free : (s.clearGd).free = s.free := by unfold State.clearGd; split <;> rfl
@[simp] theorem clearGd_mode : (s.clearGd).mode = s.mode := by unfold State.clearGd; split <;> rfl
@[simp] theorem clearGd_level : (s.clearGd).level = s.level := by unfold State.clearGd; split <;> rfl
@[simp] theorem clearGd_like8086 : (s.clearGd).like8086 = s.like8086 := by unfold State.clearGd; split <;> rfl
@[simp] theorem clearGd_stack16 : (s.clearGd).stack16 = s.stack16 := by unfold State.clearGd; split <;> rfl
@[simp] theorem clearGd_lin (r : SReg) (off : Dword) : (s.clearGd).lin r off = s.lin r off := by unfold State.clearGd; split <;> rfl

/-! ## clearLocal -/

@[simp] theorem clearLocal_gpr : (s.clearLocal).gpr = s.gpr := rfl
@[simp] theorem clearLocal_eip : (s.clearLocal).eip = s.eip := rfl
@[simp] theorem clearLocal_flags : (s.clearLocal).flags = s.flags := rfl
@[simp] theorem clearLocal_seg : (s.clearLocal).seg = s.seg := rfl
@[simp] theorem clearLocal_latch : (s.clearLocal).latch = s.latch := rfl
@[simp] theorem clearLocal_cpl : (s.clearLocal).cpl = s.cpl := rfl
@[simp] theorem clearLocal_cr0 : (s.clearLocal).cr0 = s.cr0 := rfl
@[simp] theorem clearLocal_cr2 : (s.clearLocal).cr2 = s.cr2 := rfl
@[simp] theorem clearLocal_cr3 : (s.clearLocal).cr3 = s.cr3 := rfl
@[simp] theorem clearLocal_gdtr : (s.clearLocal).gdtr = s.gdtr := rfl
@[simp] theorem clearLocal_idtr : (s.clearLocal).idtr = s.idtr := rfl
@[simp] theorem clearLocal_ldtReg : (s.clearLocal).ldtReg = s.ldtReg := rfl
@[simp] theorem clearLocal_taskReg : (s.clearLocal).taskReg = s.taskReg := rfl
@[simp] theorem clearLocal_tr6 : (s.clearLocal).tr6 = s.tr6 := rfl
@[simp] theorem clearLocal_tr7 : (s.clearLocal).tr7 = s.tr7 := rfl
@[simp] theorem clearLocal_dr0 : (s.clearLocal).dr0 = s.dr0 := rfl
@[simp] theorem clearLocal_dr1 : (s.clearLocal).dr1 = s.dr1 := rfl
@[simp] theorem clearLocal_dr2 : (s.clearLocal).dr2 = s.dr2 := rfl
@[simp] theorem clearLocal_dr3 : (s.clearLocal).dr3 = s.dr3 := rfl
@[simp] theorem clearLocal_dr6 : (s.clearLocal).dr6 = s.dr6 := rfl
@[simp] theorem clearLocal_dr7 : (s.clearLocal).dr7 = s.dr7 &&& ~~~localBits := rfl
@[simp] theorem clearLocal_tlb : (s.clearLocal).tlb = s.tlb := rfl
@[simp] theorem clearLocal_tlbMissed : (s.clearLocal).tlbMissed = s.tlbMissed := rfl
@[simp] theorem clearLocal_prefetchStale : (s.clearLocal).prefetchStale = s.prefetchStale := rfl
@[simp] theorem clearLocal_run : (s.clearLocal).run = s.run := rfl
@[simp] theorem clearLocal_traps : (s.clearLocal).traps = s.traps := rfl
@[simp] theorem clearLocal_quiet : (s.clearLocal).quiet = s.quiet := rfl
@[simp] theorem clearLocal_holdOff : (s.clearLocal).holdOff = s.holdOff := rfl
@[simp] theorem clearLocal_nmi : (s.clearLocal).nmi = s.nmi := rfl
@[simp] theorem clearLocal_intr : (s.clearLocal).intr = s.intr := rfl
@[simp] theorem clearLocal_inputs : (s.clearLocal).inputs = s.inputs := rfl
@[simp] theorem clearLocal_mem : (s.clearLocal).mem = s.mem := rfl
@[simp] theorem clearLocal_map : (s.clearLocal).map = s.map := rfl
@[simp] theorem clearLocal_params : (s.clearLocal).params = s.params := rfl
@[simp] theorem clearLocal_next : (s.clearLocal).next = s.next := rfl
@[simp] theorem clearLocal_free : (s.clearLocal).free = s.free := rfl
@[simp] theorem clearLocal_mode : (s.clearLocal).mode = s.mode := rfl
@[simp] theorem clearLocal_level : (s.clearLocal).level = s.level := rfl
@[simp] theorem clearLocal_like8086 : (s.clearLocal).like8086 = s.like8086 := rfl
@[simp] theorem clearLocal_stack16 : (s.clearLocal).stack16 = s.stack16 := rfl
@[simp] theorem clearLocal_lin (r : SReg) (off : Dword) : (s.clearLocal).lin r off = s.lin r off := rfl

/-! ## lookupHit -/

@[simp] theorem lookupHit_gpr (i : Fin 32) : (s.lookupHit i).gpr = s.gpr := rfl
@[simp] theorem lookupHit_eip (i : Fin 32) : (s.lookupHit i).eip = s.eip := rfl
@[simp] theorem lookupHit_flags (i : Fin 32) : (s.lookupHit i).flags = s.flags := rfl
@[simp] theorem lookupHit_seg (i : Fin 32) : (s.lookupHit i).seg = s.seg := rfl
@[simp] theorem lookupHit_latch (i : Fin 32) : (s.lookupHit i).latch = s.latch := rfl
@[simp] theorem lookupHit_cpl (i : Fin 32) : (s.lookupHit i).cpl = s.cpl := rfl
@[simp] theorem lookupHit_cr0 (i : Fin 32) : (s.lookupHit i).cr0 = s.cr0 := rfl
@[simp] theorem lookupHit_cr2 (i : Fin 32) : (s.lookupHit i).cr2 = s.cr2 := rfl
@[simp] theorem lookupHit_cr3 (i : Fin 32) : (s.lookupHit i).cr3 = s.cr3 := rfl
@[simp] theorem lookupHit_gdtr (i : Fin 32) : (s.lookupHit i).gdtr = s.gdtr := rfl
@[simp] theorem lookupHit_idtr (i : Fin 32) : (s.lookupHit i).idtr = s.idtr := rfl
@[simp] theorem lookupHit_ldtReg (i : Fin 32) : (s.lookupHit i).ldtReg = s.ldtReg := rfl
@[simp] theorem lookupHit_taskReg (i : Fin 32) : (s.lookupHit i).taskReg = s.taskReg := rfl
@[simp] theorem lookupHit_dr0 (i : Fin 32) : (s.lookupHit i).dr0 = s.dr0 := rfl
@[simp] theorem lookupHit_dr1 (i : Fin 32) : (s.lookupHit i).dr1 = s.dr1 := rfl
@[simp] theorem lookupHit_dr2 (i : Fin 32) : (s.lookupHit i).dr2 = s.dr2 := rfl
@[simp] theorem lookupHit_dr3 (i : Fin 32) : (s.lookupHit i).dr3 = s.dr3 := rfl
@[simp] theorem lookupHit_dr6 (i : Fin 32) : (s.lookupHit i).dr6 = s.dr6 := rfl
@[simp] theorem lookupHit_dr7 (i : Fin 32) : (s.lookupHit i).dr7 = s.dr7 := rfl
@[simp] theorem lookupHit_tlb (i : Fin 32) : (s.lookupHit i).tlb = s.tlb := rfl
@[simp] theorem lookupHit_tlbMissed (i : Fin 32) : (s.lookupHit i).tlbMissed = false := rfl
@[simp] theorem lookupHit_prefetchStale (i : Fin 32) : (s.lookupHit i).prefetchStale = s.prefetchStale := rfl
@[simp] theorem lookupHit_run (i : Fin 32) : (s.lookupHit i).run = s.run := rfl
@[simp] theorem lookupHit_traps (i : Fin 32) : (s.lookupHit i).traps = s.traps := rfl
@[simp] theorem lookupHit_quiet (i : Fin 32) : (s.lookupHit i).quiet = s.quiet := rfl
@[simp] theorem lookupHit_holdOff (i : Fin 32) : (s.lookupHit i).holdOff = s.holdOff := rfl
@[simp] theorem lookupHit_nmi (i : Fin 32) : (s.lookupHit i).nmi = s.nmi := rfl
@[simp] theorem lookupHit_intr (i : Fin 32) : (s.lookupHit i).intr = s.intr := rfl
@[simp] theorem lookupHit_inputs (i : Fin 32) : (s.lookupHit i).inputs = s.inputs := rfl
@[simp] theorem lookupHit_mem (i : Fin 32) : (s.lookupHit i).mem = s.mem := rfl
@[simp] theorem lookupHit_map (i : Fin 32) : (s.lookupHit i).map = s.map := rfl
@[simp] theorem lookupHit_params (i : Fin 32) : (s.lookupHit i).params = s.params := rfl
@[simp] theorem lookupHit_next (i : Fin 32) : (s.lookupHit i).next = s.next := rfl
@[simp] theorem lookupHit_free (i : Fin 32) : (s.lookupHit i).free = s.free := rfl
@[simp] theorem lookupHit_mode (i : Fin 32) : (s.lookupHit i).mode = s.mode := rfl
@[simp] theorem lookupHit_level (i : Fin 32) : (s.lookupHit i).level = s.level := rfl
@[simp] theorem lookupHit_like8086 (i : Fin 32) : (s.lookupHit i).like8086 = s.like8086 := rfl
@[simp] theorem lookupHit_stack16 (i : Fin 32) : (s.lookupHit i).stack16 = s.stack16 := rfl
@[simp] theorem lookupHit_lin (i : Fin 32) (r : SReg) (off : Dword) : (s.lookupHit i).lin r off = s.lin r off := rfl

/-! ## lookupMiss -/

@[simp] theorem lookupMiss_gpr (w : Dword) : (s.lookupMiss w).gpr = s.gpr := rfl
@[simp] theorem lookupMiss_eip (w : Dword) : (s.lookupMiss w).eip = s.eip := rfl
@[simp] theorem lookupMiss_flags (w : Dword) : (s.lookupMiss w).flags = s.flags := rfl
@[simp] theorem lookupMiss_seg (w : Dword) : (s.lookupMiss w).seg = s.seg := rfl
@[simp] theorem lookupMiss_latch (w : Dword) : (s.lookupMiss w).latch = s.latch := rfl
@[simp] theorem lookupMiss_cpl (w : Dword) : (s.lookupMiss w).cpl = s.cpl := rfl
@[simp] theorem lookupMiss_cr0 (w : Dword) : (s.lookupMiss w).cr0 = s.cr0 := rfl
@[simp] theorem lookupMiss_cr2 (w : Dword) : (s.lookupMiss w).cr2 = s.cr2 := rfl
@[simp] theorem lookupMiss_cr3 (w : Dword) : (s.lookupMiss w).cr3 = s.cr3 := rfl
@[simp] theorem lookupMiss_gdtr (w : Dword) : (s.lookupMiss w).gdtr = s.gdtr := rfl
@[simp] theorem lookupMiss_idtr (w : Dword) : (s.lookupMiss w).idtr = s.idtr := rfl
@[simp] theorem lookupMiss_ldtReg (w : Dword) : (s.lookupMiss w).ldtReg = s.ldtReg := rfl
@[simp] theorem lookupMiss_taskReg (w : Dword) : (s.lookupMiss w).taskReg = s.taskReg := rfl
@[simp] theorem lookupMiss_tr6 (w : Dword) : (s.lookupMiss w).tr6 = s.tr6 := rfl
@[simp] theorem lookupMiss_tr7 (w : Dword) : (s.lookupMiss w).tr7 = { s.tr7 with ht := false, phys := w.extractLsb' 12 20, rep := w.extractLsb' 2 2 } := rfl
@[simp] theorem lookupMiss_dr0 (w : Dword) : (s.lookupMiss w).dr0 = s.dr0 := rfl
@[simp] theorem lookupMiss_dr1 (w : Dword) : (s.lookupMiss w).dr1 = s.dr1 := rfl
@[simp] theorem lookupMiss_dr2 (w : Dword) : (s.lookupMiss w).dr2 = s.dr2 := rfl
@[simp] theorem lookupMiss_dr3 (w : Dword) : (s.lookupMiss w).dr3 = s.dr3 := rfl
@[simp] theorem lookupMiss_dr6 (w : Dword) : (s.lookupMiss w).dr6 = s.dr6 := rfl
@[simp] theorem lookupMiss_dr7 (w : Dword) : (s.lookupMiss w).dr7 = s.dr7 := rfl
@[simp] theorem lookupMiss_tlb (w : Dword) : (s.lookupMiss w).tlb = s.tlb := rfl
@[simp] theorem lookupMiss_tlbMissed (w : Dword) : (s.lookupMiss w).tlbMissed = true := rfl
@[simp] theorem lookupMiss_prefetchStale (w : Dword) : (s.lookupMiss w).prefetchStale = s.prefetchStale := rfl
@[simp] theorem lookupMiss_run (w : Dword) : (s.lookupMiss w).run = s.run := rfl
@[simp] theorem lookupMiss_traps (w : Dword) : (s.lookupMiss w).traps = s.traps := rfl
@[simp] theorem lookupMiss_quiet (w : Dword) : (s.lookupMiss w).quiet = s.quiet := rfl
@[simp] theorem lookupMiss_holdOff (w : Dword) : (s.lookupMiss w).holdOff = s.holdOff := rfl
@[simp] theorem lookupMiss_nmi (w : Dword) : (s.lookupMiss w).nmi = s.nmi := rfl
@[simp] theorem lookupMiss_intr (w : Dword) : (s.lookupMiss w).intr = s.intr := rfl
@[simp] theorem lookupMiss_inputs (w : Dword) : (s.lookupMiss w).inputs = s.inputs := rfl
@[simp] theorem lookupMiss_mem (w : Dword) : (s.lookupMiss w).mem = s.mem := rfl
@[simp] theorem lookupMiss_map (w : Dword) : (s.lookupMiss w).map = s.map := rfl
@[simp] theorem lookupMiss_params (w : Dword) : (s.lookupMiss w).params = s.params := rfl
@[simp] theorem lookupMiss_next (w : Dword) : (s.lookupMiss w).next = s.next := rfl
@[simp] theorem lookupMiss_free (w : Dword) : (s.lookupMiss w).free = s.free := rfl
@[simp] theorem lookupMiss_mode (w : Dword) : (s.lookupMiss w).mode = s.mode := rfl
@[simp] theorem lookupMiss_level (w : Dword) : (s.lookupMiss w).level = s.level := rfl
@[simp] theorem lookupMiss_like8086 (w : Dword) : (s.lookupMiss w).like8086 = s.like8086 := rfl
@[simp] theorem lookupMiss_stack16 (w : Dword) : (s.lookupMiss w).stack16 = s.stack16 := rfl
@[simp] theorem lookupMiss_lin (w : Dword) (r : SReg) (off : Dword) : (s.lookupMiss w).lin r off = s.lin r off := rfl

/-! ## lookupOpen -/

@[simp] theorem lookupOpen_gpr (w v : Dword) : (s.lookupOpen w v).gpr = s.gpr := rfl
@[simp] theorem lookupOpen_eip (w v : Dword) : (s.lookupOpen w v).eip = s.eip := rfl
@[simp] theorem lookupOpen_flags (w v : Dword) : (s.lookupOpen w v).flags = s.flags := rfl
@[simp] theorem lookupOpen_seg (w v : Dword) : (s.lookupOpen w v).seg = s.seg := rfl
@[simp] theorem lookupOpen_latch (w v : Dword) : (s.lookupOpen w v).latch = s.latch := rfl
@[simp] theorem lookupOpen_cpl (w v : Dword) : (s.lookupOpen w v).cpl = s.cpl := rfl
@[simp] theorem lookupOpen_cr0 (w v : Dword) : (s.lookupOpen w v).cr0 = s.cr0 := rfl
@[simp] theorem lookupOpen_cr2 (w v : Dword) : (s.lookupOpen w v).cr2 = s.cr2 := rfl
@[simp] theorem lookupOpen_cr3 (w v : Dword) : (s.lookupOpen w v).cr3 = s.cr3 := rfl
@[simp] theorem lookupOpen_gdtr (w v : Dword) : (s.lookupOpen w v).gdtr = s.gdtr := rfl
@[simp] theorem lookupOpen_idtr (w v : Dword) : (s.lookupOpen w v).idtr = s.idtr := rfl
@[simp] theorem lookupOpen_ldtReg (w v : Dword) : (s.lookupOpen w v).ldtReg = s.ldtReg := rfl
@[simp] theorem lookupOpen_taskReg (w v : Dword) : (s.lookupOpen w v).taskReg = s.taskReg := rfl
@[simp] theorem lookupOpen_dr0 (w v : Dword) : (s.lookupOpen w v).dr0 = s.dr0 := rfl
@[simp] theorem lookupOpen_dr1 (w v : Dword) : (s.lookupOpen w v).dr1 = s.dr1 := rfl
@[simp] theorem lookupOpen_dr2 (w v : Dword) : (s.lookupOpen w v).dr2 = s.dr2 := rfl
@[simp] theorem lookupOpen_dr3 (w v : Dword) : (s.lookupOpen w v).dr3 = s.dr3 := rfl
@[simp] theorem lookupOpen_dr6 (w v : Dword) : (s.lookupOpen w v).dr6 = s.dr6 := rfl
@[simp] theorem lookupOpen_dr7 (w v : Dword) : (s.lookupOpen w v).dr7 = s.dr7 := rfl
@[simp] theorem lookupOpen_tlb (w v : Dword) : (s.lookupOpen w v).tlb = s.tlb := rfl
@[simp] theorem lookupOpen_tlbMissed (w v : Dword) : (s.lookupOpen w v).tlbMissed = !w.getLsbD 4 := rfl
@[simp] theorem lookupOpen_prefetchStale (w v : Dword) : (s.lookupOpen w v).prefetchStale = s.prefetchStale := rfl
@[simp] theorem lookupOpen_run (w v : Dword) : (s.lookupOpen w v).run = s.run := rfl
@[simp] theorem lookupOpen_traps (w v : Dword) : (s.lookupOpen w v).traps = s.traps := rfl
@[simp] theorem lookupOpen_quiet (w v : Dword) : (s.lookupOpen w v).quiet = s.quiet := rfl
@[simp] theorem lookupOpen_holdOff (w v : Dword) : (s.lookupOpen w v).holdOff = s.holdOff := rfl
@[simp] theorem lookupOpen_nmi (w v : Dword) : (s.lookupOpen w v).nmi = s.nmi := rfl
@[simp] theorem lookupOpen_intr (w v : Dword) : (s.lookupOpen w v).intr = s.intr := rfl
@[simp] theorem lookupOpen_inputs (w v : Dword) : (s.lookupOpen w v).inputs = s.inputs := rfl
@[simp] theorem lookupOpen_mem (w v : Dword) : (s.lookupOpen w v).mem = s.mem := rfl
@[simp] theorem lookupOpen_map (w v : Dword) : (s.lookupOpen w v).map = s.map := rfl
@[simp] theorem lookupOpen_params (w v : Dword) : (s.lookupOpen w v).params = s.params := rfl
@[simp] theorem lookupOpen_next (w v : Dword) : (s.lookupOpen w v).next = s.next := rfl
@[simp] theorem lookupOpen_free (w v : Dword) : (s.lookupOpen w v).free = s.free := rfl
@[simp] theorem lookupOpen_mode (w v : Dword) : (s.lookupOpen w v).mode = s.mode := rfl
@[simp] theorem lookupOpen_level (w v : Dword) : (s.lookupOpen w v).level = s.level := rfl
@[simp] theorem lookupOpen_like8086 (w v : Dword) : (s.lookupOpen w v).like8086 = s.like8086 := rfl
@[simp] theorem lookupOpen_stack16 (w v : Dword) : (s.lookupOpen w v).stack16 = s.stack16 := rfl
@[simp] theorem lookupOpen_lin (w v : Dword) (r : SReg) (off : Dword) : (s.lookupOpen w v).lin r off = s.lin r off := rfl

/-! ## placeInstr -/

@[simp] theorem placeInstr_gpr (bs : List Byte) : (s.placeInstr bs).gpr = s.gpr := rfl
@[simp] theorem placeInstr_eip (bs : List Byte) : (s.placeInstr bs).eip = s.eip := rfl
@[simp] theorem placeInstr_flags (bs : List Byte) : (s.placeInstr bs).flags = s.flags := rfl
@[simp] theorem placeInstr_seg (bs : List Byte) : (s.placeInstr bs).seg = s.seg := rfl
@[simp] theorem placeInstr_latch (bs : List Byte) : (s.placeInstr bs).latch = s.latch := rfl
@[simp] theorem placeInstr_cpl (bs : List Byte) : (s.placeInstr bs).cpl = s.cpl := rfl
@[simp] theorem placeInstr_cr0 (bs : List Byte) : (s.placeInstr bs).cr0 = s.cr0 := rfl
@[simp] theorem placeInstr_cr2 (bs : List Byte) : (s.placeInstr bs).cr2 = s.cr2 := rfl
@[simp] theorem placeInstr_cr3 (bs : List Byte) : (s.placeInstr bs).cr3 = s.cr3 := rfl
@[simp] theorem placeInstr_gdtr (bs : List Byte) : (s.placeInstr bs).gdtr = s.gdtr := rfl
@[simp] theorem placeInstr_idtr (bs : List Byte) : (s.placeInstr bs).idtr = s.idtr := rfl
@[simp] theorem placeInstr_ldtReg (bs : List Byte) : (s.placeInstr bs).ldtReg = s.ldtReg := rfl
@[simp] theorem placeInstr_taskReg (bs : List Byte) : (s.placeInstr bs).taskReg = s.taskReg := rfl
@[simp] theorem placeInstr_tr6 (bs : List Byte) : (s.placeInstr bs).tr6 = s.tr6 := rfl
@[simp] theorem placeInstr_tr7 (bs : List Byte) : (s.placeInstr bs).tr7 = s.tr7 := rfl
@[simp] theorem placeInstr_dr0 (bs : List Byte) : (s.placeInstr bs).dr0 = s.dr0 := rfl
@[simp] theorem placeInstr_dr1 (bs : List Byte) : (s.placeInstr bs).dr1 = s.dr1 := rfl
@[simp] theorem placeInstr_dr2 (bs : List Byte) : (s.placeInstr bs).dr2 = s.dr2 := rfl
@[simp] theorem placeInstr_dr3 (bs : List Byte) : (s.placeInstr bs).dr3 = s.dr3 := rfl
@[simp] theorem placeInstr_dr6 (bs : List Byte) : (s.placeInstr bs).dr6 = s.dr6 := rfl
@[simp] theorem placeInstr_dr7 (bs : List Byte) : (s.placeInstr bs).dr7 = s.dr7 := rfl
@[simp] theorem placeInstr_tlb (bs : List Byte) : (s.placeInstr bs).tlb = s.tlb := rfl
@[simp] theorem placeInstr_tlbMissed (bs : List Byte) : (s.placeInstr bs).tlbMissed = s.tlbMissed := rfl
@[simp] theorem placeInstr_prefetchStale (bs : List Byte) : (s.placeInstr bs).prefetchStale = s.prefetchStale := rfl
@[simp] theorem placeInstr_run (bs : List Byte) : (s.placeInstr bs).run = s.run := rfl
@[simp] theorem placeInstr_traps (bs : List Byte) : (s.placeInstr bs).traps = s.traps := rfl
@[simp] theorem placeInstr_quiet (bs : List Byte) : (s.placeInstr bs).quiet = s.quiet := rfl
@[simp] theorem placeInstr_holdOff (bs : List Byte) : (s.placeInstr bs).holdOff = s.holdOff := rfl
@[simp] theorem placeInstr_nmi (bs : List Byte) : (s.placeInstr bs).nmi = s.nmi := rfl
@[simp] theorem placeInstr_intr (bs : List Byte) : (s.placeInstr bs).intr = s.intr := rfl
@[simp] theorem placeInstr_inputs (bs : List Byte) : (s.placeInstr bs).inputs = s.inputs := rfl
@[simp] theorem placeInstr_mem (bs : List Byte) : (s.placeInstr bs).mem = placeBytes s.mem s.linPc.toNat bs := rfl
@[simp] theorem placeInstr_map (bs : List Byte) : (s.placeInstr bs).map = s.map := rfl
@[simp] theorem placeInstr_params (bs : List Byte) : (s.placeInstr bs).params = s.params := rfl
@[simp] theorem placeInstr_next (bs : List Byte) : (s.placeInstr bs).next = s.next := rfl
@[simp] theorem placeInstr_free (bs : List Byte) : (s.placeInstr bs).free = s.free := rfl
@[simp] theorem placeInstr_mode (bs : List Byte) : (s.placeInstr bs).mode = s.mode := rfl
@[simp] theorem placeInstr_level (bs : List Byte) : (s.placeInstr bs).level = s.level := rfl
@[simp] theorem placeInstr_like8086 (bs : List Byte) : (s.placeInstr bs).like8086 = s.like8086 := rfl
@[simp] theorem placeInstr_stack16 (bs : List Byte) : (s.placeInstr bs).stack16 = s.stack16 := rfl
@[simp] theorem placeInstr_lin (bs : List Byte) (r : SReg) (off : Dword) : (s.placeInstr bs).lin r off = s.lin r off := rfl

end Sys2Proof.Machine
end

