-- ==== Sys2Proof/Laws/Touch.lean ====
section
/-! SUPPORT. What an access to memory can touch, whatever paging does: a read only the TLB, the count of free values and
the debug trap conditions; a write also memory; a push or a pop also the stack pointer. -/

namespace Sys2Proof.Machine

variable {α β : Type}

/-- Nothing changes but the TLB, the count of free values, T and its companion. -/
def Reads (m : M α) : Prop :=
  ∀ s a s', m s = .ok a s' → ∃ f t tr q, s' = { s with free := f, tlb := t, traps := tr, quiet := q }

/-- Nothing changes but what `Reads` allows, and memory. -/
def Stores (m : M α) : Prop :=
  ∀ s a s', m s = .ok a s' → ∃ f t tr q b, s' = { s with free := f, tlb := t, traps := tr, quiet := q, mem := b }

/-- Nothing changes but what `Stores` allows, and ESP. -/
def Stacks (m : M α) : Prop :=
  ∀ s a s', m s = .ok a s' → ∃ f t tr q b e,
    s' = { s with free := f, tlb := t, traps := tr, quiet := q, mem := b, gpr := { s.gpr with esp := e } }

theorem Reads.stores {m : M α} (h : Reads m) : Stores m := by
  intro s a s' e
  obtain ⟨f, t, tr, q, rfl⟩ := h s a s' e
  exact ⟨f, t, tr, q, s.mem, rfl⟩

theorem Stores.stacks {m : M α} (h : Stores m) : Stacks m := by
  intro s a s' e
  obtain ⟨f, t, tr, q, b, rfl⟩ := h s a s' e
  exact ⟨f, t, tr, q, b, s.gpr.esp, rfl⟩

theorem Reads.bind {m : M α} {k : α → M β} (h : Reads m) (hk : ∀ a, Reads (k a)) : Reads (m >>= k) := by
  intro s b s' e
  obtain ⟨a, s1, e1, e2⟩ := bind_ok e
  obtain ⟨_, _, _, _, rfl⟩ := h _ _ _ e1
  obtain ⟨_, _, _, _, rfl⟩ := hk a _ _ _ e2
  exact ⟨_, _, _, _, rfl⟩

theorem Stores.bind {m : M α} {k : α → M β} (h : Stores m) (hk : ∀ a, Stores (k a)) : Stores (m >>= k) := by
  intro s b s' e
  obtain ⟨a, s1, e1, e2⟩ := bind_ok e
  obtain ⟨_, _, _, _, _, rfl⟩ := h _ _ _ e1
  obtain ⟨_, _, _, _, _, rfl⟩ := hk a _ _ _ e2
  exact ⟨_, _, _, _, _, rfl⟩

theorem Stacks.bind {m : M α} {k : α → M β} (h : Stacks m) (hk : ∀ a, Stacks (k a)) : Stacks (m >>= k) := by
  intro s b s' e
  obtain ⟨a, s1, e1, e2⟩ := bind_ok e
  obtain ⟨_, _, _, _, _, _, rfl⟩ := h _ _ _ e1
  obtain ⟨_, _, _, _, _, _, rfl⟩ := hk a _ _ _ e2
  exact ⟨_, _, _, _, _, _, rfl⟩

/-- A computation that changes nothing. -/
theorem Reads.same {m : M α} (h : ∀ s a s', m s = .ok a s' → s' = s) : Reads m := by
  intro s a s' e
  rw [h s a s' e]
  exact ⟨s.free, s.tlb, s.traps, s.quiet, rfl⟩

theorem Reads.pure (a : α) : Reads (pure a : M α) := .same fun _ _ _ e => by cases e; rfl
theorem Reads.asks (f : State → α) : Reads (asks f) := .same fun _ _ _ e => by cases e; rfl
theorem Reads.raise (x : Exn) : Reads (raise x : M α) := fun _ _ _ e => nomatch e
theorem Reads.refuse (r : Refusal) : Reads (refuse r : M α) := fun _ _ _ e => nomatch e
theorem Reads.draw : Reads draw := fun s _ _ e => by
  cases e; exact ⟨s.free + 1, s.tlb, s.traps, s.quiet, rfl⟩
theorem Reads.drawIndex : Reads drawIndex := fun s _ _ e => by
  cases e; exact ⟨s.free + 1, s.tlb, s.traps, s.quiet, rfl⟩

theorem Reads.ite {c : Prop} [Decidable c] {m k : M α} (h : Reads m) (h' : Reads k) :
    Reads (if c then m else k) := by
  split <;> assumption

theorem Stores.ite {c : Prop} [Decidable c] {m k : M α} (h : Stores m) (h' : Stores k) :
    Stores (if c then m else k) := by
  split <;> assumption

theorem Stacks.ite {c : Prop} [Decidable c] {m k : M α} (h : Stacks m) (h' : Stacks k) :
    Stacks (if c then m else k) := by
  split <;> assumption

theorem Reads.noteAccess (a : Dword) (n : Nat) (k : Config.Access) :
    Reads (update fun s => s.noteAccess a n k) := fun s _ _ e => by
  cases e; exact ⟨s.free, s.tlb, _, _, rfl⟩

theorem Reads.noteImplicit (a : Dword) (n : Nat) (k : Config.Access) :
    Reads (update fun s => s.noteImplicit a n k) := fun s _ _ e => by
  cases e
  simp only [State.noteImplicit]
  split
  · exact ⟨s.free, s.tlb, _, _, rfl⟩
  · exact ⟨s.free, s.tlb, s.traps, s.quiet, rfl⟩

theorem Reads.noteReads (l : List (Dword × Nat)) : Reads (update fun s => s.noteReads l) := fun s _ _ e => by
  cases e
  obtain ⟨t, q, h⟩ := noteReads_eq s l
  exact ⟨s.free, s.tlb, t, q, h⟩

theorem Reads.fillTlb (b : Option (BitVec 2)) (p f : PageNo) (d u w : Bool) :
    Reads (update fun s => s.fillTlb b p f d u w) := fun s _ _ e => by
  cases e
  cases b with
  | none => exact ⟨s.free, s.tlb, s.traps, s.quiet, rfl⟩
  | some b => exact ⟨s.free, _, s.traps, s.quiet, rfl⟩

/-! ## Accesses -/

theorem translateHit_reads (lin : Dword) (k : Config.Access) (cpl : Level) (e : TlbEntry) :
    Reads (translateHit lin k cpl e) := by
  refine .ite (.bind .draw fun _ => .raise _) (.bind .drawIndex fun n => ?_)
  split
  · exact .raise _
  · exact .pure _

theorem translateMiss_reads (lin : Dword) (k : Config.Access) (cpl : Level) : Reads (translateMiss lin k cpl) := by
  refine .bind .drawIndex fun n => ?_
  split
  · exact .raise _
  · exact .bind (.noteReads _) fun _ => .ite (.bind .draw fun _ => .raise _)
      (.bind (.fillTlb _ _ _ _ _ _) fun _ => .pure _)

theorem translate_reads (lin : Dword) (k : Config.Access) (cpl : Level) : Reads (translate lin k cpl) := by
  refine .bind (.asks _) fun pg => .ite (.bind (.asks _) fun hits => ?_) (.pure _)
  split
  · exact translateHit_reads _ _ _ _
  · exact translateMiss_reads _ _ _
  · exact translateMiss_reads _ _ _

theorem readPhys_reads (p : Dword) : Reads (readPhys p) := .same fun s b s' e => by
  unfold readPhys at e
  split at e <;> cases e
  rfl

theorem writePhys_stores (p : Dword) (b : Byte) : Stores (writePhys p b) := fun s _ s' e => by
  unfold writePhys at e
  split at e <;> cases e
  · exact ⟨s.free, s.tlb, s.traps, s.quiet, _, rfl⟩
  · exact ⟨s.free, s.tlb, s.traps, s.quiet, s.mem, rfl⟩

theorem readLin_reads (k : Config.Access) (cpl : Level) (n : Nat) (a : Dword) : Reads (readLin k cpl n a) := by
  induction n generalizing a with
  | zero => exact .pure _
  | succ n ih =>
    exact .bind (translate_reads _ _ _) fun _ => .bind (readPhys_reads _) fun _ => .bind (ih _) fun _ => .pure _

theorem writeLin_stores (cpl : Level) (n : Nat) (a v : Dword) : Stores (writeLin cpl n a v) := by
  induction n generalizing a v with
  | zero => exact (Reads.pure ()).stores
  | succ n ih =>
    exact .bind (translate_reads _ _ _).stores fun _ => .bind (writePhys_stores _ _) fun _ => ih _ _

theorem checkAccess_reads (r : SReg) (off : Dword) (n : Nat) : Reads (checkAccess r off n) :=
  .same fun _ _ _ e => checkAccess_ok e

theorem readData_reads (r : SReg) (off : Dword) (n : Nat) : Reads (readData r off n) :=
  .bind (checkAccess_reads _ _ _) fun _ => .bind (.asks _) fun _ => .bind (.noteAccess _ _ _) fun _ =>
    .bind (.asks _) fun _ => readLin_reads _ _ _ _

theorem storeBytes_stores (bs : List (Dword × Byte)) : Stores (storeBytes bs) := by
  induction bs with
  | nil => exact (Reads.pure ()).stores
  | cons p t ih =>
    exact .bind (Reads.noteImplicit _ _ _).stores fun _ => .bind (writeLin_stores _ _ _ _) fun _ => ih

theorem storeImplicit_stores (n : Nat) (a v : Dword) : Stores (storeImplicit n a v) :=
  .bind (Reads.noteImplicit _ _ _).stores fun _ => writeLin_stores _ _ _ _

theorem readImplicit_reads (n : Nat) (a : Dword) : Reads (readImplicit n a) :=
  .bind (.noteImplicit _ _ _) fun _ => readLin_reads _ _ _ _

theorem checkPush_reads (n : Nat) : Reads (checkPush n) :=
  .bind (.asks _) fun _ => .bind (.asks _) fun _ => .ite (.ite (.refuse _) (.bind .draw fun _ => .raise _)) (.pure _)

theorem setSp_stacks (v : Dword) : Stacks (update fun s => s.setSp v) := fun s _ _ e => by
  cases e; exact ⟨s.free, s.tlb, s.traps, s.quiet, s.mem, _, rfl⟩

theorem push_stacks (implicit : Bool) (n : Nat) (v : Dword) : Stacks (push implicit n v) := by
  refine .bind (checkPush_reads _).stores.stacks fun _ => .bind (Reads.asks _).stores.stacks fun off =>
    .bind (Reads.asks _).stores.stacks fun lin => .bind ?_ fun _ => .bind (Reads.asks _).stores.stacks fun _ =>
    .bind (writeLin_stores _ _ _ _).stacks fun _ => setSp_stacks _
  cases implicit with
  | true => exact (Reads.noteImplicit _ _ _).stores.stacks
  | false => exact (Reads.noteAccess _ _ _).stores.stacks

theorem checkPop_reads (n : Nat) : Reads (checkPop n) := .same fun _ _ _ e => checkPop_ok e

theorem pop_stacks (n : Nat) : Stacks (pop n) :=
  .bind (checkPop_reads _).stores.stacks fun _ => .bind (Reads.asks _).stores.stacks fun _ =>
    .bind (Reads.asks _).stores.stacks fun _ => .bind (Reads.noteAccess _ _ _).stores.stacks fun _ =>
    .bind (Reads.asks _).stores.stacks fun _ => .bind (readLin_reads _ _ _ _).stores.stacks fun _ =>
    .bind (setSp_stacks _) fun _ => (Reads.pure _).stores.stacks

/-! ## Operands -/

theorem readMem_reads (m : MemOp) (k n : Nat) : Reads (readMem m k n) :=
  .bind (.asks _) fun _ => readData_reads _ _ _

theorem readRm16_reads (src : Rm16) : Reads (readRm16 src) := by
  cases src with
  | reg r => exact .asks _
  | mem m => exact .bind (readMem_reads _ _ _) fun _ => .pure _

/-- Without paging reading bytes changes nothing. -/
theorem readLin_unpaged {k : Config.Access} {cpl : Level} {n : Nat} {a v : Dword} {s s' : State} (h : s.cr0.pg = false)
    (e : readLin k cpl n a s = .ok v s') : s' = s := by
  induction n generalizing a v s' with
  | zero => cases e; rfl
  | succ n ih =>
    rw [readLin] at e
    obtain ⟨p, s1, e1, f1⟩ := bind_ok e
    rw [show translate a k cpl s = .ok a s by simp [translate, h]] at e1
    cases e1
    obtain ⟨b, s2, e2, f2⟩ := bind_ok f1
    have h2 : s2 = s := by
      unfold readPhys at e2
      split at e2 <;> cases e2
      rfl
    subst h2
    obtain ⟨hi, s3, e3, f3⟩ := bind_ok f2
    obtain rfl := ih e3
    cases f3
    rfl

/-- Without paging only the data breakpoints see the reading of an operand. -/
theorem readRm16_unpaged {src : Rm16} {w : Word} {s s' : State} (h : s.cr0.pg = false)
    (e : readRm16 src s = .ok w s') : ∃ tr q, s' = { s with traps := tr, quiet := q } := by
  cases src with
  | reg r => cases e; exact ⟨_, _, rfl⟩
  | mem m =>
    obtain ⟨v, s1, f0, f1⟩ := bind_ok e
    cases f1
    obtain ⟨ea, s2, e1, f2⟩ := bind_ok f0
    cases e1
    obtain ⟨_, s3, e2, f3⟩ := bind_ok f2
    obtain rfl := checkAccess_ok e2
    obtain ⟨lin, s4, e3, f4⟩ := bind_ok f3
    cases e3
    obtain ⟨_, s5, e4, f5⟩ := bind_ok f4
    cases e4
    obtain ⟨cpl, s6, e5, f6⟩ := bind_ok f5
    cases e5
    rw [readLin_unpaged (by exact h) f6]
    exact ⟨_, _, rfl⟩

theorem readFarPtr_reads (sz : OpSize) (m : MemOp) : Reads (readFarPtr sz m) :=
  .bind (readMem_reads _ _ _) fun _ => .bind (readMem_reads _ _ _) fun _ => .pure _

theorem readTable_reads (sz : OpSize) (m : MemOp) : Reads (readTable sz m) :=
  .bind (readMem_reads _ _ _) fun _ => .bind (readMem_reads _ _ _) fun _ => .pure _

theorem pushErr_stacks (n : Nat) (c : Option Dword) : Stacks (pushErr n c) := by
  cases c with
  | none => exact (Reads.pure ()).stores.stacks
  | some v => exact push_stacks _ _ _

theorem pushList_stacks (n : Nat) (l : List Dword) : Stacks (pushList n l) := by
  induction l with
  | nil => exact (Reads.pure ()).stores.stacks
  | cons v t ih => exact .bind (push_stacks _ _ _) fun _ => ih

theorem farTables_stores (c : Config.FarCode) : Stores (farTables c) :=
  .bind (Reads.noteReads _).stores fun _ => storeBytes_stores _

/-! ## Task switch -/

theorem storeImages_stores (l : List (Nat × Dword × Dword)) : Stores (storeImages l) := by
  induction l with
  | nil => exact (Reads.pure ()).stores
  | cons p t ih => exact .bind (storeImplicit_stores _ _ _) fun _ => ih

theorem saveTask_stores (image ip : Dword) : Stores (saveTask image ip) :=
  .bind (Reads.asks _).stores fun _ => storeImages_stores _

theorem readRegImage_reads (x : Bool) (a : Dword) : Reads (readRegImage x a) :=
  .ite (readImplicit_reads _ _) (.bind (readImplicit_reads _ _) fun _ => .bind .draw fun _ => .pure _)

theorem readRegImages_reads (x : Bool) (b : Dword) (l : GRegs) : Reads (readRegImages x b l) := by
  unfold readRegImages
  iterate 8 refine .bind (readRegImage_reads _ _) fun _ => ?_
  exact .pure _

theorem readSelector_reads (a : Dword) : Reads (readSelector a) := .bind (readImplicit_reads _ _) fun _ => .pure _

theorem readSelector386_reads (x : Bool) (a : Dword) (o : Selector) : Reads (readSelector386 x a o) :=
  .ite (readSelector_reads _) (.pure _)

theorem readMark_reads (x : Bool) (b : Dword) : Reads (readMark x b) :=
  .ite (.bind (readImplicit_reads _ _) fun _ => .pure _) (.pure _)

theorem readTask_reads (t : Config.TaskSwitch) : Reads (readTask t) := by
  refine .bind (.asks _) fun l => .bind (readImplicit_reads _ _) fun _ => .bind (readImplicit_reads _ _) fun _ =>
    .bind (readRegImages_reads _ _ _) fun _ => ?_
  iterate 4 refine .bind (readSelector_reads _) fun _ => ?_
  iterate 2 refine .bind (readSelector386_reads _ _ _) fun _ => ?_
  exact .bind (readMark_reads _ _) fun _ => .pure _

/-! ## Fetch -/

theorem fetchByte_reads (i : Nat) : Reads (fetchByte i) :=
  .bind (.asks _) fun _ => .ite (.refuse _) (.bind (.asks _) fun _ => .bind (.asks _) fun _ =>
    .bind (translate_reads _ _ _) fun _ => readPhys_reads _)

theorem fetchLoop_reads (fuel : Nat) (got : List Byte) : Reads (fetchLoop fuel got) := by
  induction fuel generalizing got with
  | zero => exact .refuse _
  | succ n ih =>
    refine .bind (fetchByte_reads _) fun b => .bind (.asks _) fun d => ?_
    split
    · exact .pure _
    · exact ih _
    · intro s a s' e
      unfold invalidOpcode at e
      split at e <;> cases e
    · exact .refuse _

/-! ## What a computation that only touches memory and the stack leaves alone -/

section

variable {m : M α} {s s' : State} {a : α} (h : Stacks m) (e : m s = .ok a s')
include h e

theorem Stacks.flags : s'.flags = s.flags := by
  obtain ⟨_, _, _, _, _, _, rfl⟩ := h _ _ _ e
  rfl

theorem Stacks.seg : s'.seg = s.seg := by
  obtain ⟨_, _, _, _, _, _, rfl⟩ := h _ _ _ e
  rfl

theorem Stacks.cr0 : s'.cr0 = s.cr0 := by
  obtain ⟨_, _, _, _, _, _, rfl⟩ := h _ _ _ e
  rfl

theorem Stacks.latch : s'.latch = s.latch := by
  obtain ⟨_, _, _, _, _, _, rfl⟩ := h _ _ _ e
  rfl

theorem Stacks.eip : s'.eip = s.eip := by
  obtain ⟨_, _, _, _, _, _, rfl⟩ := h _ _ _ e
  rfl

theorem Stacks.cpl : s'.cpl = s.cpl := by
  obtain ⟨_, _, _, _, _, _, rfl⟩ := h _ _ _ e
  rfl

theorem Stacks.next : s'.next = s.next := by
  obtain ⟨_, _, _, _, _, _, rfl⟩ := h _ _ _ e
  rfl

theorem Stacks.idtr : s'.idtr = s.idtr := by
  obtain ⟨_, _, _, _, _, _, rfl⟩ := h _ _ _ e
  rfl

theorem Stacks.gdtr : s'.gdtr = s.gdtr := by
  obtain ⟨_, _, _, _, _, _, rfl⟩ := h _ _ _ e
  rfl

theorem Stacks.tr6 : s'.tr6 = s.tr6 := by
  obtain ⟨_, _, _, _, _, _, rfl⟩ := h _ _ _ e
  rfl

theorem Stacks.tr7 : s'.tr7 = s.tr7 := by
  obtain ⟨_, _, _, _, _, _, rfl⟩ := h _ _ _ e
  rfl

theorem Stacks.params : s'.params = s.params := by
  obtain ⟨_, _, _, _, _, _, rfl⟩ := h _ _ _ e
  rfl

theorem Stacks.map : s'.map = s.map := by
  obtain ⟨_, _, _, _, _, _, rfl⟩ := h _ _ _ e
  rfl

theorem Stacks.prefetchStale : s'.prefetchStale = s.prefetchStale := by
  obtain ⟨_, _, _, _, _, _, rfl⟩ := h _ _ _ e
  rfl

theorem Stacks.dr7 : s'.dr7 = s.dr7 := by
  obtain ⟨_, _, _, _, _, _, rfl⟩ := h _ _ _ e
  rfl

theorem Stacks.like8086 : s'.like8086 = s.like8086 := by
  obtain ⟨_, _, _, _, _, _, rfl⟩ := h _ _ _ e
  rfl

theorem Stacks.mode : s'.mode = s.mode := by
  obtain ⟨_, _, _, _, _, _, rfl⟩ := h _ _ _ e
  rfl

end

end Sys2Proof.Machine
end

