-- ==== Sys2Proof/Laws/Keeps.lean ====
section
/-! SUPPORT. Every change the machine ever makes to its state, listed once (`ClosedCore`, `Closed`), and the theorem
that a property closed under those changes is kept by every access. -/

namespace Sys2Proof.Machine

variable {α β : Type} {P : State → Prop}

/-- The property survives every change the machine can make outside the privileged instructions and RESET, each
under the condition it makes it under. -/
structure ClosedCore (P : State → Prop) : Prop where
  free    : ∀ {s} (n : Nat), P s → P { s with free := n }
  note    : ∀ {s} (x y : Dword), x &&& 0xFFFF7FF0 = 0 → y &&& 0xFFFFFFF0 = 0 → P s →
              P { s with traps := s.traps ||| x, quiet := s.quiet ||| y }
  discard : ∀ {s}, P s → P { s with traps := 0, quiet := 0 }
  calm    : ∀ {s}, P s → P { s with quiet := 0 }
  fill    : ∀ {s} (b : Option (BitVec 2)) (p f : PageNo) (d u w : Bool), (∀ e, s.tlbHits p ≠ [e]) → P s →
              P (s.fillTlb b p f d u w)
  write   : ∀ {s} (p : Dword) (b : Byte), P s → P { s with mem := s.mem.write p.toNat b }
  gpr     : ∀ {s} (g : GRegs), P s → P { s with gpr := g }
  flags   : ∀ {s} (f : Eflags), f.vm = s.flags.vm ∨ (s.cr0.pe = false ∧ f.vm = false) → P s →
              P { s with flags := f }
  load    : ∀ {s} (r : SReg) (v : Selector), r ≠ .cs → P s →
              P { s with seg := s.seg.set r ((s.seg.get r).load8086 v) }
  far     : ∀ {s} (sel : Selector) (off : Dword), (s.like8086 = true → off.toNat ≤ 0xFFFF) → P s →
              P (s.farTo8086 sel off)
  prot    : ∀ {s} (f : SegFile) (b : Bool) (e : Dword) (c : Level), s.like8086 = false → P s →
              P { s with seg := f, latch := b, eip := e, cpl := c }
  eip     : ∀ {s} (e : Dword), (s.like8086 = true → e.toNat ≤ 0xFFFF) → P s → P { s with eip := e }
  dr6     : ∀ {s} (v : Dword), P s → P { s with dr6 := v }
  gd      : ∀ {s}, P s → P s.clearGd
  locals  : ∀ {s}, P s → P s.clearLocal
  flush   : ∀ {s}, P s → P { s with prefetchStale := false }
  cr2     : ∀ {s} (v : Dword), P s → P { s with cr2 := v }
  cr3     : ∀ {s} (v : Dword), P s → P (s.writeCr3 v)
  hold    : ∀ {s} (b : Bool), P s → P { s with holdOff := b }
  events  : ∀ {s} (n : Bool) (i : Option Vec) (l : List Presented), P s → P { s with nmi := n, intr := i, inputs := l }
  run     : ∀ {s} (r : RunState), P s → P { s with run := r }
  next    : ∀ {s} (v : Dword), P s → P { s with next := v }
  tasks   : ∀ {s} (l : Selector) (t : TaskReg), P s → P { s with ldtReg := l, taskReg := t }
  enter   : ∀ {s} (f : Eflags) (c : Level), s.cr0.pe = true → f.vm = false → P s → P { s with flags := f, cpl := c }
  v86     : ∀ {s} (f : Eflags) (e : Dword) (es cs ss ds fs gs : Selector), s.cr0.pe = true → f.vm = true → P s →
              P { s with flags := f, eip := zext16 e, cpl := 3, latch := false, seg := segs8086 s.seg es cs ss ds fs gs }

/-- The property survives BS joining T, as it does at the end of an instruction that began with TF = 1. -/
def Steps (P : State → Prop) : Prop := ∀ {s}, P s → P { s with traps := s.traps ||| bsBit }

/-- The property survives every change the machine can make, those of the privileged instructions and of RESET
included. -/
structure Closed (P : State → Prop) : Prop extends ClosedCore P where
  tables  : ∀ {s} (i g : TableReg), P s → P { s with idtr := i, gdtr := g }
  tests   : ∀ {s} (a : Tr6) (b : Tr7) (m : Bool), P s → P { s with tr6 := a, tr7 := b, tlbMissed := m }
  tlb     : ∀ {s} (i : Fin 32) (e : TlbEntry), e.written = true → (tlbIndex s.params e.lin).toNat = i.val % 8 →
              (e.v = true → s.hasOther i e.lin = false) → P s → P (s.setTlb i e)
  dr      : ∀ {s} (n : Fin 4) (v : Dword), P s → P (s.setDr n v)
  dr7     : ∀ {s} (v : Dword), bpReserved v = false → bpBadLength v = false → P s → P { s with dr7 := v }
  cr0     : ∀ {s} (v : Cr0), (v.pg = true → v.pe = true ∨ s.cr0.pg = true) → (s.cr0.pe = true → v.pe = true) → P s →
              P (s.writeCr0 v)
  reset   : ∀ {s} (p : Config.ResetParams), P s → P (s.resetEvent p)

/-- When the computation ends well, the property still holds. -/
def Keeps (P : State → Prop) (m : M α) : Prop := ∀ s a s', P s → m s = .ok a s' → P s'

theorem Keeps.bind {m : M α} {k : α → M β} (h : Keeps P m) (hk : ∀ a, Keeps P (k a)) : Keeps P (m >>= k) := by
  intro s b s' hp e
  obtain ⟨a, s1, e1, e2⟩ := bind_ok e
  exact hk a _ _ _ (h _ _ _ hp e1) e2

theorem Keeps.same {m : M α} (h : ∀ s a s', m s = .ok a s' → s' = s) : Keeps P m :=
  fun s a s' hp e => h s a s' e ▸ hp

theorem Keeps.pure (a : α) : Keeps P (pure a : M α) := .same fun _ _ _ e => by cases e; rfl
theorem Keeps.asks (f : State → α) : Keeps P (asks f) := .same fun _ _ _ e => by cases e; rfl
theorem Keeps.raise (x : Exn) : Keeps P (raise x : M α) := fun _ _ _ _ e => nomatch e
theorem Keeps.refuse (r : Refusal) : Keeps P (refuse r : M α) := fun _ _ _ _ e => nomatch e
theorem Keeps.update {f : State → State} (h : ∀ s, P s → P (f s)) : Keeps P (update f) :=
  fun s _ _ hp e => by cases e; exact h s hp
theorem Keeps.ite {c : Prop} [Decidable c] {m k : M α} (h : Keeps P m) (h' : Keeps P k) :
    Keeps P (if c then m else k) := by
  split <;> assumption

theorem Keeps.draw (hc : ClosedCore P) : Keeps P draw := fun s _ _ hp e => by cases e; exact hc.free _ hp
theorem Keeps.drawIndex (hc : ClosedCore P) : Keeps P drawIndex := fun s _ _ hp e => by cases e; exact hc.free _ hp

theorem Keeps.requireLevel0 : Keeps P requireLevel0 := .same fun _ _ _ e => (requireLevel0_ok e).1
theorem Keeps.checkTarget (off : Dword) : Keeps P (checkTarget off) := .same fun _ _ _ e => (checkTarget_ok e).1

/-! ## Debug conditions -/

theorem bBits_low (p : Fin 4 → Bool) : bBits p &&& 0xFFFFFFF0 = 0 := by
  unfold bBits
  cases p 0 <;> cases p 1 <;> cases p 2 <;> cases p 3 <;> decide

theorem bBits_low' (p : Fin 4 → Bool) : bBits p &&& 0xFFFF7FF0 = 0 := by
  unfold bBits
  cases p 0 <;> cases p 1 <;> cases p 2 <;> cases p 3 <;> decide

theorem ClosedCore.noteAccess (hc : ClosedCore P) {s : State} (a : Dword) (n : Nat) (k : Config.Access) (hp : P s) :
    P (s.noteAccess a n k) := by
  refine hc.note _ _ (bBits_low' _) ?_ hp
  unfold dataQuiet
  split
  · exact bBits_low _
  · decide

theorem ClosedCore.noteImplicit (hc : ClosedCore P) {s : State} (a : Dword) (n : Nat) (k : Config.Access) (hp : P s) :
    P (s.noteImplicit a n k) := by
  unfold State.noteImplicit
  split
  · exact hc.noteAccess _ _ _ hp
  · exact hp

theorem ClosedCore.noteReads (hc : ClosedCore P) {s : State} (l : List (Dword × Nat)) (hp : P s) : P (s.noteReads l) := by
  induction l generalizing s with
  | nil => exact hp
  | cons x t ih => exact ih (hc.noteImplicit _ _ _ hp)

theorem ClosedCore.noteFetch (hc : ClosedCore P) {s : State} (hp : P s) : P s.noteFetch := by
  have key : ∀ y : Dword, y &&& 0xFFFFFFF0 = 0 → P { s with quiet := s.quiet ||| y } := by
    intro y hy
    have := hc.note 0 y (by decide) hy hp
    rwa [show ∀ q : Dword, q ||| 0 = q from fun q => BitVec.or_zero] at this
  unfold State.noteFetch
  split
  · exact hp
  · refine key _ ?_
    unfold fetchQuiet
    split
    · exact bBits_low _
    · decide

/-! ## Accesses -/

theorem translateHit_keeps (hc : ClosedCore P) (lin : Dword) (k : Config.Access) (cpl : Level) (e : TlbEntry) :
    Keeps P (translateHit lin k cpl e) := by
  refine .ite (.bind (.draw hc) fun _ => .raise _) (.bind (.drawIndex hc) fun n => ?_)
  split
  · exact .raise _
  · exact .pure _

/-- On a miss the linear page is not the tag of exactly one valid entry. -/
theorem translateMiss_keeps (hc : ClosedCore P) (lin : Dword) (k : Config.Access) (cpl : Level) {s s' : State} {p : Dword}
    (hh : ∀ e, s.tlbHits (pageOf lin) ≠ [e]) (hp : P s) (e : translateMiss lin k cpl s = .ok p s') : P s' := by
  unfold translateMiss at e
  simp only [bind_run, drawIndex_run] at e
  generalize Config.pageWalk s.free lin k cpl = r at e
  cases r with
  | fault err => cases e
  | page frame d u w fill reads =>
    simp only [bind_run, update_run] at e
    have h1 := hc.noteReads reads (hc.free (s.free + 1) hp)
    split at e
    · cases e
    · cases e
      refine hc.fill _ _ _ _ _ _ (fun x hx => hh x ?_) h1
      rwa [State.tlbHits, noteReads_tlb] at hx

theorem translate_keeps (hc : ClosedCore P) (lin : Dword) (k : Config.Access) (cpl : Level) :
    Keeps P (translate lin k cpl) := by
  intro s p s' hp e
  unfold translate at e
  simp only [bind_run, asks_run] at e
  split at e
  · simp only [bind_run, asks_run] at e
    generalize hh : s.tlbHits (pageOf lin) = hits at e
    match hits, hh, e with
    | [x], _, e => exact translateHit_keeps hc _ _ _ _ _ _ _ hp e
    | [], hh, e => exact translateMiss_keeps hc _ _ _ (by simp [hh]) hp e
    | _ :: _ :: _, hh, e => exact translateMiss_keeps hc _ _ _ (by simp [hh]) hp e
  · cases e
    exact hp

theorem readPhys_keeps (p : Dword) : Keeps P (readPhys p) := .same fun s b s' e => by
  unfold readPhys at e
  split at e <;> cases e
  rfl

theorem writePhys_keeps (hc : ClosedCore P) (p : Dword) (b : Byte) : Keeps P (writePhys p b) := fun s _ s' hp e => by
  unfold writePhys at e
  split at e <;> cases e
  · exact hc.write _ _ hp
  · exact hp

theorem readLin_keeps (hc : ClosedCore P) (k : Config.Access) (cpl : Level) (n : Nat) (a : Dword) :
    Keeps P (readLin k cpl n a) := by
  induction n generalizing a with
  | zero => exact .pure _
  | succ n ih =>
    exact .bind (translate_keeps hc _ _ _) fun _ => .bind (readPhys_keeps _) fun _ => .bind (ih _) fun _ => .pure _

theorem writeLin_keeps (hc : ClosedCore P) (cpl : Level) (n : Nat) (a v : Dword) : Keeps P (writeLin cpl n a v) := by
  induction n generalizing a v with
  | zero => exact .pure _
  | succ n ih =>
    exact .bind (translate_keeps hc _ _ _) fun _ => .bind (writePhys_keeps hc _ _) fun _ => ih _ _

theorem readData_keeps (hc : ClosedCore P) (r : SReg) (off : Dword) (n : Nat) : Keeps P (readData r off n) :=
  .bind (.same fun _ _ _ e => checkAccess_ok e) fun _ => .bind (.asks _) fun _ =>
    .bind (.update fun _ h => hc.noteAccess _ _ _ h) fun _ => .bind (.asks _) fun _ => readLin_keeps hc _ _ _ _

theorem storeBytes_keeps (hc : ClosedCore P) (bs : List (Dword × Byte)) : Keeps P (storeBytes bs) := by
  induction bs with
  | nil => exact .pure _
  | cons p t ih =>
    exact .bind (.update fun _ h => hc.noteImplicit _ _ _ h) fun _ => .bind (writeLin_keeps hc _ _ _ _) fun _ => ih

theorem storeImplicit_keeps (hc : ClosedCore P) (n : Nat) (a v : Dword) : Keeps P (storeImplicit n a v) :=
  .bind (.update fun _ h => hc.noteImplicit _ _ _ h) fun _ => writeLin_keeps hc _ _ _ _

theorem readImplicit_keeps (hc : ClosedCore P) (n : Nat) (a : Dword) : Keeps P (readImplicit n a) :=
  .bind (.update fun _ h => hc.noteImplicit _ _ _ h) fun _ => readLin_keeps hc _ _ _ _

theorem setSp_keeps (hc : ClosedCore P) (v : Dword) : Keeps P (update fun s => s.setSp v) :=
  .update fun _ h => hc.gpr _ h

theorem checkPush_keeps (hc : ClosedCore P) (n : Nat) : Keeps P (checkPush n) :=
  .bind (.asks _) fun _ => .bind (.asks _) fun _ =>
    .ite (.ite (.refuse _) (.bind (.draw hc) fun _ => .raise _)) (.pure _)

theorem push_keeps (hc : ClosedCore P) (implicit : Bool) (n : Nat) (v : Dword) : Keeps P (push implicit n v) := by
  refine .bind (checkPush_keeps hc n) fun _ =>
    .bind (.asks _) fun _ => .bind (.asks _) fun _ => .bind (.update fun s h => ?_) fun _ => .bind (.asks _) fun _ =>
    .bind (writeLin_keeps hc _ _ _ _) fun _ => setSp_keeps hc _
  cases implicit with
  | true => exact hc.noteImplicit _ _ _ h
  | false => exact hc.noteAccess _ _ _ h

theorem pop_keeps (hc : ClosedCore P) (n : Nat) : Keeps P (pop n) :=
  .bind (.same fun _ _ _ e => checkPop_ok e) fun _ => .bind (.asks _) fun _ => .bind (.asks _) fun _ =>
    .bind (.update fun _ h => hc.noteAccess _ _ _ h) fun _ => .bind (.asks _) fun _ =>
    .bind (readLin_keeps hc _ _ _ _) fun _ => .bind (setSp_keeps hc _) fun _ => .pure _

theorem readMem_keeps (hc : ClosedCore P) (m : MemOp) (k n : Nat) : Keeps P (readMem m k n) :=
  .bind (.asks _) fun _ => readData_keeps hc _ _ _

theorem readRm16_keeps (hc : ClosedCore P) (src : Rm16) : Keeps P (readRm16 src) := by
  cases src with
  | reg r => exact .asks _
  | mem m => exact .bind (readMem_keeps hc _ _ _) fun _ => .pure _

theorem readFarPtr_keeps (hc : ClosedCore P) (sz : OpSize) (m : MemOp) : Keeps P (readFarPtr sz m) :=
  .bind (readMem_keeps hc _ _ _) fun _ => .bind (readMem_keeps hc _ _ _) fun _ => .pure _

theorem readTable_keeps (hc : ClosedCore P) (sz : OpSize) (m : MemOp) : Keeps P (readTable sz m) :=
  .bind (readMem_keeps hc _ _ _) fun _ => .bind (readMem_keeps hc _ _ _) fun _ => .pure _

/-! ## Task switch -/

theorem storeImages_keeps (hc : ClosedCore P) (l : List (Nat × Dword × Dword)) : Keeps P (storeImages l) := by
  induction l with
  | nil => exact .pure _
  | cons p t ih => exact .bind (storeImplicit_keeps hc _ _ _) fun _ => ih

theorem saveTask_keeps (hc : ClosedCore P) (image ip : Dword) : Keeps P (saveTask image ip) :=
  .bind (.asks _) fun _ => storeImages_keeps hc _

theorem readRegImage_keeps (hc : ClosedCore P) (x : Bool) (a : Dword) : Keeps P (readRegImage x a) :=
  .ite (readImplicit_keeps hc _ _) (.bind (readImplicit_keeps hc _ _) fun _ => .bind (.draw hc) fun _ => .pure _)

theorem readRegImages_keeps (hc : ClosedCore P) (x : Bool) (b : Dword) (l : GRegs) : Keeps P (readRegImages x b l) := by
  unfold readRegImages
  iterate 8 refine .bind (readRegImage_keeps hc _ _) fun _ => ?_
  exact .pure _

theorem readSelector_keeps (hc : ClosedCore P) (a : Dword) : Keeps P (readSelector a) :=
  .bind (readImplicit_keeps hc _ _) fun _ => .pure _

theorem readTask_keeps (hc : ClosedCore P) (t : Config.TaskSwitch) : Keeps P (readTask t) := by
  refine .bind (.asks _) fun l => .bind (readImplicit_keeps hc _ _) fun _ => .bind (readImplicit_keeps hc _ _) fun _ =>
    .bind (readRegImages_keeps hc _ _ _) fun _ => ?_
  iterate 4 refine .bind (readSelector_keeps hc _) fun _ => ?_
  iterate 2 refine .bind (.ite (readSelector_keeps hc _) (.pure _)) fun _ => ?_
  exact .bind (.ite (.bind (readImplicit_keeps hc _ _) fun _ => .pure _) (.pure _)) fun _ => .pure _

theorem btBit_low : btBit &&& 0xFFFF7FF0 = 0 := by decide

theorem like8086_of_not_vm {s : State} (hpe : s.cr0.pe = true) (hvm : s.flags.vm = false) : s.like8086 = false := by
  simp [State.like8086, State.mode, hpe, hvm]

theorem loadTask_closed (hc : ClosedCore P) {s : State} (t : Config.TaskSwitch) (i : TaskImages) (hpe : s.cr0.pe = true)
    (hp : P s) : P (s.loadTask t i) := by
  have key : ∀ s1 : State, P s1 → P (
      (match t.cr3 with
        | some v => { s1 with gpr := i.gprs, ldtReg := t.ldtReg, taskReg := t.taskReg,
                              traps := if i.mark then s1.traps ||| btBit else s1.traps }.writeCr3 v
        | none => { s1 with gpr := i.gprs, ldtReg := t.ldtReg, taskReg := t.taskReg,
                            traps := if i.mark then s1.traps ||| btBit else s1.traps }).clearLocal) := by
    intro s1 h
    have h1 : P { s1 with gpr := i.gprs, ldtReg := t.ldtReg, taskReg := t.taskReg,
                          traps := if i.mark then s1.traps ||| btBit else s1.traps } := by
      have h2 := hc.tasks t.ldtReg t.taskReg (hc.gpr i.gprs h)
      split
      · have := hc.note btBit 0 btBit_low (by decide) h2
        rwa [show ∀ q : Dword, q ||| 0 = q from fun q => BitVec.or_zero] at this
      · exact h2
    cases t.cr3 with
    | none => exact hc.locals h1
    | some v => exact hc.locals (hc.cr3 v h1)
  unfold State.loadTask
  by_cases hv : (taskFlags t i).vm = true
  · simp only [hv, if_true]
    exact key _ (hc.v86 (taskFlags t i) i.eip i.es i.cs i.ss i.ds i.fs i.gs hpe hv hp)
  · have hv' : (taskFlags t i).vm = false := by simpa using hv
    simp only [hv', Bool.false_eq_true, if_false]
    have h1 := hc.enter (taskFlags t i) t.cpl hpe hv' hp
    exact key _ (hc.prot (segsOfTask t.segs i) false i.eip t.cpl (by exact like8086_of_not_vm hpe hv') h1)

theorem taskSwitch_keeps (hc : ClosedCore P) (t : Config.TaskSwitch) (image ip : Dword) {s s' : State} {u : Unit}
    (hpe : s.cr0.pe = true) (hp : P s) (e : taskSwitch t image ip s = .ok u s') : P s' := by
  unfold taskSwitch at e
  obtain ⟨_, s1, e1, e⟩ := bind_ok e
  obtain ⟨_, s2, e2, e⟩ := bind_ok e
  obtain ⟨_, s3, e3, e⟩ := bind_ok e
  obtain ⟨i, s4, e4, e⟩ := bind_ok e
  have h1 := saveTask_keeps hc _ _ _ _ _ hp e1
  have h2 : P s2 := by cases e2; exact hc.noteReads _ h1
  have h4 := readTask_keeps hc _ _ _ _ (storeBytes_keeps hc _ _ _ _ h2 e3) e4
  have hp4 : s4.cr0.pe = true := by
    rw [(readTask_reads _).stores.stacks.cr0 e4, (storeBytes_stores _).stacks.cr0 e3,
      (Reads.noteReads _).stores.stacks.cr0 e2, (saveTask_stores _ _).stacks.cr0 e1]
    exact hpe
  cases e
  exact loadTask_closed hc t i hp4 h4

end Sys2Proof.Machine
end

