-- ==== Sys2Proof/Laws/Words.lean ====
section
/-! SUPPORT. The 32-bit words of EFLAGS, CR0, TR6 and TR7 say exactly what the records say, and what drawn bits leave
alone. -/

namespace Sys2Proof.Machine

@[simp] theorem Eflags.ofWord_toWord (x : Eflags) : Eflags.ofWord x.toWord = x := by
  cases x
  simp only [Eflags.ofWord, Eflags.toWord, bit, Eflags.mk.injEq]
  refine ⟨?_, ?_, ?_, ?_, ?_, ?_, ?_, ?_, ?_, ?_, ?_, ?_, ?_⟩
  all_goals
    first
    | (apply BitVec.eq_of_getLsbD_eq
       intro i hi
       interval_cases i) | skip
  all_goals
    simp (decide := true) only [BitVec.getLsbD_append, BitVec.getLsbD_extractLsb', if_true, if_false]
  all_goals simp

/-- Bit 1 reads 1; bits 3, 5, 15 and 31:18 read 0; every other bit is stored (`10_state.md` R26). -/
theorem Eflags.toWord_ofWord (w : Dword) : (Eflags.ofWord w).toWord = (w &&& 0x00037FD5) ||| 2 := by
  apply BitVec.eq_of_getLsbD_eq
  intro i hi
  simp only [Eflags.ofWord, Eflags.toWord, bit]
  interval_cases i
  all_goals
    simp (decide := true) only [BitVec.getLsbD_append, BitVec.getLsbD_extractLsb', if_true, if_false]
  all_goals simp

@[simp] theorem Cr0.ofWord_toWord (x : Cr0) : Cr0.ofWord x.toWord = x := by
  cases x
  simp only [Cr0.ofWord, Cr0.toWord, bit, Cr0.mk.injEq]
  refine ⟨?_, ?_, ?_, ?_, ?_, ?_, ?_⟩
  all_goals
    first
    | (apply BitVec.eq_of_getLsbD_eq
       intro i hi
       interval_cases i) | skip
  all_goals
    simp (decide := true) only [BitVec.getLsbD_append, BitVec.getLsbD_extractLsb', if_true, if_false]
  all_goals simp

@[simp] theorem Cr0.toWord_ofWord (w : Dword) : (Cr0.ofWord w).toWord = w := by
  apply BitVec.eq_of_getLsbD_eq
  intro i hi
  simp only [Cr0.ofWord, Cr0.toWord, bit]
  interval_cases i
  all_goals
    simp (decide := true) only [BitVec.getLsbD_append, BitVec.getLsbD_extractLsb', if_true, if_false]
  all_goals simp

@[simp] theorem Tr6.ofWord_toWord (x : Tr6) : Tr6.ofWord x.toWord = x := by
  cases x
  simp only [Tr6.ofWord, Tr6.toWord, bit, Tr6.mk.injEq]
  refine ⟨?_, ?_, ?_, ?_, ?_, ?_, ?_, ?_, ?_, ?_⟩
  all_goals
    first
    | (apply BitVec.eq_of_getLsbD_eq
       intro i hi
       interval_cases i) | skip
  all_goals
    simp (decide := true) only [BitVec.getLsbD_append, BitVec.getLsbD_extractLsb', if_true, if_false]
  all_goals simp

@[simp] theorem Tr6.toWord_ofWord (w : Dword) : (Tr6.ofWord w).toWord = w := by
  apply BitVec.eq_of_getLsbD_eq
  intro i hi
  simp only [Tr6.ofWord, Tr6.toWord, bit]
  interval_cases i
  all_goals
    simp (decide := true) only [BitVec.getLsbD_append, BitVec.getLsbD_extractLsb', if_true, if_false]
  all_goals simp

@[simp] theorem Tr7.ofWord_toWord (x : Tr7) : Tr7.ofWord x.toWord = x := by
  cases x
  simp only [Tr7.ofWord, Tr7.toWord, bit, Tr7.mk.injEq]
  refine ⟨?_, ?_, ?_, ?_, ?_⟩
  all_goals
    first
    | (apply BitVec.eq_of_getLsbD_eq
       intro i hi
       interval_cases i) | skip
  all_goals
    simp (decide := true) only [BitVec.getLsbD_append, BitVec.getLsbD_extractLsb', if_true, if_false]
  all_goals simp

@[simp] theorem Tr7.toWord_ofWord (w : Dword) : (Tr7.ofWord w).toWord = w := by
  apply BitVec.eq_of_getLsbD_eq
  intro i hi
  simp only [Tr7.ofWord, Tr7.toWord, bit]
  interval_cases i
  all_goals
    simp (decide := true) only [BitVec.getLsbD_append, BitVec.getLsbD_extractLsb', if_true, if_false]
  all_goals simp

/-- A bit outside the mask is the register's. -/
theorem getLsbD_drawBits_outside {v w mask : Dword} {i : Nat} (h : mask.getLsbD i = false) (hi : i < 32) :
    (drawBits v w mask).getLsbD i = v.getLsbD i := by
  rw [BitVec.getLsbD_eq_getElem hi] at h
  simp [drawBits, h, hi]

/-- A bit inside the mask is the free value's. -/
theorem getLsbD_drawBits_inside {v w mask : Dword} {i : Nat} (h : mask.getLsbD i = true) (hi : i < 32) :
    (drawBits v w mask).getLsbD i = w.getLsbD i := by
  rw [BitVec.getLsbD_eq_getElem hi] at h
  simp [drawBits, h, hi]

@[simp] theorem low16_setLow16 (v : Dword) (w : Word) : low16 (setLow16 v w) = w := by
  ext i hi
  simp only [low16, setLow16, BitVec.getElem_extractLsb', Nat.zero_add]
  rw [BitVec.getLsbD_append, if_pos hi, BitVec.getLsbD_eq_getElem hi]

/-- Writing the low word leaves the high word (`10_state.md` R21). -/
theorem high_setLow16 (v : Dword) (w : Word) : (setLow16 v w).extractLsb' 16 16 = v.extractLsb' 16 16 := by
  ext i hi
  simp only [setLow16, BitVec.getElem_extractLsb']
  rw [BitVec.getLsbD_append, if_neg (by omega), BitVec.getLsbD_extractLsb']
  simp [show i < 16 by omega]

/-- A zero-extended word is at most FFFFH. -/
theorem zext16_le (v : Dword) : (zext16 v).toNat ≤ 0xFFFF := by
  have := (low16 v).isLt
  simp only [zext16, BitVec.toNat_setWidth]
  omega

/-- In real-address and V86 mode the advanced instruction pointer has 16 bits (`10_state.md` R25). -/
theorem advance_le (s : State) (len : Nat) (h : s.like8086 = true) : (s.advance len).toNat ≤ 0xFFFF := by
  simp only [State.advance, h, if_true]
  exact zext16_le _

theorem GRegs.get_set_same (g : GRegs) (r : Reg) (v : Dword) : (g.set r v).get r = v := by cases r <;> rfl

theorem GRegs.get_set_other (g : GRegs) {r q : Reg} (v : Dword) (h : q ≠ r) : (g.set r v).get q = g.get q := by
  cases r <;> cases q <;> first | rfl | exact absurd rfl h

theorem SegFile.get_set_same (f : SegFile) (r : SReg) (v : SegReg) : (f.set r v).get r = v := by cases r <;> rfl

theorem SegFile.get_set_other (f : SegFile) {r q : SReg} (v : SegReg) (h : q ≠ r) : (f.set r v).get q = f.get q := by
  cases r <;> cases q <;> first | rfl | exact absurd rfl h

end Sys2Proof.Machine
end

