-- ==== Sys2Proof/Laws/KeepsExec.lean ====
section
/-! SUPPORT. A property closed under the changes of `ClosedCore` is kept by every delivery. -/

namespace Sys2Proof.Machine

variable {α β : Type} {P : State → Prop}

/-! ## Delivery -/

theorem mode_real {s : State} (h : s.mode = .real) : s.cr0.pe = false := by
  unfold State.mode at h
  split at h
  · split at h <;> cases h
  · rename_i hn
    simpa using hn

theorem mode_prot {s : State} (h : s.mode = .prot) : s.cr0.pe = true ∧ s.flags.vm = false := by
  unfold State.mode at h
  split at h
  · split at h
    · cases h
    · rename_i h1 h2
      exact ⟨h1, by simpa using h2⟩
  · cases h

theorem mode_v86 {s : State} (h : s.mode = .v86) : s.cr0.pe = true ∧ s.flags.vm = true := by
  unfold State.mode at h
  split at h
  · split at h
    · exact ⟨‹_›, ‹_›⟩
    · cases h
  · cases h

theorem mode_of_not8086 {s : State} (h : s.like8086 = false) : s.mode = .prot := by
  unfold State.like8086 at h
  split at h
  · cases h
  · cases h
  · assumption

theorem like8086_real {s : State} (h : s.cr0.pe = false) : s.like8086 = true := by
  simp [State.like8086, State.mode, h]

theorem deliverReal_keeps (hc : ClosedCore P) (e : Event) {s s' : State} {a : Attempt} (hm : s.mode = .real) (hp : P s)
    (h : deliverReal e s = .ok a s') : P s' := by
  unfold deliverReal at h
  obtain ⟨_, s1, e1, h⟩ := bind_ok h
  cases e1
  split at h
  · cases h
  · obtain ⟨_, s1, e1, h⟩ := bind_ok h
    obtain ⟨_, s2, e2, h⟩ := bind_ok h
    obtain ⟨_, s3, e3, h⟩ := bind_ok h
    cases e3
    obtain ⟨_, s3, e3, h⟩ := bind_ok h
    cases e3
    obtain ⟨_, s3, e3, h⟩ := bind_ok h
    obtain ⟨_, s4, e4, h⟩ := bind_ok h
    obtain ⟨_, s5, e5, h⟩ := bind_ok h
    have h1 : P s1 := by cases e1; exact hc.noteImplicit _ _ _ hp
    have h5 := push_keeps hc _ _ _ _ _ _ (push_keeps hc _ _ _ _ _ _ (push_keeps hc _ _ _ _ _ _
      (readLin_keeps hc _ _ _ _ _ _ _ h1 e2) e3) e4) e5
    have hpe : s5.cr0.pe = false := by
      rw [(push_stacks _ _ _).cr0 e5, (push_stacks _ _ _).cr0 e4, (push_stacks _ _ _).cr0 e3,
        (readLin_reads _ _ _ _).stores.stacks.cr0 e2, (Reads.noteImplicit _ _ _).stores.stacks.cr0 e1]
      exact mode_real hm
    cases h
    exact hc.far _ _ (fun _ => zext16_le _) (hc.flags (s5.flags.entered true) (.inr ⟨hpe, rfl⟩) h5)

theorem pushErr_keeps (hc : ClosedCore P) (n : Nat) (c : Option Dword) : Keeps P (pushErr n c) := by
  cases c with
  | none => exact .pure _
  | some v => exact push_keeps hc _ _ _

theorem enterFromV86_keeps (hc : ClosedCore P) (g : Config.ProcGate) (e : Event) {s s' : State} {a : Attempt}
    (hpe : s.cr0.pe = true) (hp : P s) (h : enterFromV86 g e s = .ok a s') : P s' := by
  unfold enterFromV86 at h
  obtain ⟨_, s1, e1, h⟩ := bind_ok h
  cases e1
  obtain ⟨_, s1, e1, h⟩ := bind_ok h
  cases e1
  obtain ⟨_, s1, e1, h⟩ := bind_ok h
  cases e1
  obtain ⟨_, s0, e0, h⟩ := bind_ok h
  cases e0
  obtain ⟨_, s1, e1, h⟩ := bind_ok h
  obtain ⟨_, s2, e2, h⟩ := bind_ok h
  have hpe1 : s1.cr0.pe = true := by rw [(storeBytes_stores _).stacks.cr0 e1, noteReads_cr0]; exact hpe
  have h1 := storeBytes_keeps hc _ _ _ _ (hc.noteReads _ hp) e1
  have h2 : P s2 := by
    cases e2
    have := hc.enter (s1.flags.entered g.interrupt) 0 hpe1 rfl h1
    have := hc.prot (s1.seg.set .ss g.ss) s1.latch s1.eip 0 (by exact like8086_of_not_vm hpe1 rfl) this
    exact hc.gpr _ this
  have hl2 : s2.like8086 = false := by
    cases e2
    exact like8086_of_not_vm hpe1 rfl
  clear e1 e2
  obtain ⟨_, s3, e3, h⟩ := bind_ok h
  obtain ⟨_, s4, e4, h⟩ := bind_ok h
  obtain ⟨_, s5, e5, h⟩ := bind_ok h
  obtain ⟨_, s6, e6, h⟩ := bind_ok h
  obtain ⟨_, s7, e7, h⟩ := bind_ok h
  obtain ⟨_, s8, e8, h⟩ := bind_ok h
  obtain ⟨_, s9, e9, h⟩ := bind_ok h
  obtain ⟨_, s10, e10, h⟩ := bind_ok h
  obtain ⟨_, s11, e11, h⟩ := bind_ok h
  obtain ⟨_, s12, e12, h⟩ := bind_ok h
  have k := push_keeps hc true 4
  have l := push_stacks true 4
  have h11 := k _ _ _ _ (k _ _ _ _ (k _ _ _ _ (k _ _ _ _ (k _ _ _ _ (k _ _ _ _ (k _ _ _ _ (k _ _ _ _ (k _ _ _ _
    h2 e3) e4) e5) e6) e7) e8) e9) e10) e11
  have h12 := pushErr_keeps hc _ _ _ _ _ h11 e12
  have hl : s12.like8086 = false := by
    rw [(pushErr_stacks _ _).like8086 e12, (l _).like8086 e11, (l _).like8086 e10, (l _).like8086 e9,
      (l _).like8086 e8, (l _).like8086 e7, (l _).like8086 e6, (l _).like8086 e5, (l _).like8086 e4,
      (l _).like8086 e3]
    exact hl2
  cases h
  exact hc.prot _ false _ s12.cpl hl h12

theorem enterProcedure_keeps (hc : ClosedCore P) (g : Config.ProcGate) (e : Event) {s s' : State} {a : Attempt}
    (hm : s.mode = .prot) (hp : P s) (h : enterProcedure g e s = .ok a s') : P s' := by
  unfold enterProcedure at h
  obtain ⟨_, s1, e1, h⟩ := bind_ok h
  cases e1
  obtain ⟨_, s1, e1, h⟩ := bind_ok h
  cases e1
  obtain ⟨_, s1, e1, h⟩ := bind_ok h
  cases e1
  obtain ⟨_, s0, e0, h⟩ := bind_ok h
  cases e0
  obtain ⟨_, s1, e1, h⟩ := bind_ok h
  obtain ⟨_, s2, e2, h⟩ := bind_ok h
  have hpe1 : s1.cr0.pe = true := by rw [(storeBytes_stores _).stacks.cr0 e1, noteReads_cr0]; exact (mode_prot hm).1
  have h1 := storeBytes_keeps hc _ _ _ _ (hc.noteReads _ hp) e1
  have h2 : P s2 := by
    cases e2
    exact hc.enter (s1.flags.entered g.interrupt) g.cpl hpe1 rfl h1
  have hl2 : s2.like8086 = false := by
    cases e2
    exact like8086_of_not_vm hpe1 rfl
  clear e1 e2
  obtain ⟨_, s3, e3, h⟩ := bind_ok h
  have h3 : P s3 ∧ s3.like8086 = false := by
    unfold switchStack at e3
    split at e3
    · obtain ⟨_, s4, e4, e3⟩ := bind_ok e3
      obtain ⟨_, s5, e5, e3⟩ := bind_ok e3
      have h4 : P s4 := by
        cases e4
        exact hc.gpr _ (hc.prot (s2.seg.set .ss g.ss) s2.latch s2.eip s2.cpl hl2 h2)
      have hl4 : s4.like8086 = false := by cases e4; exact hl2
      exact ⟨push_keeps hc _ _ _ _ _ _ (push_keeps hc _ _ _ _ _ _ h4 e5) e3, by
        rw [(push_stacks _ _ _).like8086 e3, (push_stacks _ _ _).like8086 e5]; exact hl4⟩
    · cases e3
      exact ⟨h2, hl2⟩
  clear e3 h2 hl2
  obtain ⟨_, s4, e4, h⟩ := bind_ok h
  obtain ⟨_, s5, e5, h⟩ := bind_ok h
  obtain ⟨_, s6, e6, h⟩ := bind_ok h
  obtain ⟨_, s7, e7, h⟩ := bind_ok h
  have h7 := pushErr_keeps hc _ _ _ _ _ (push_keeps hc _ _ _ _ _ _ (push_keeps hc _ _ _ _ _ _
    (push_keeps hc _ _ _ _ _ _ h3.1 e4) e5) e6) e7
  have hl : s7.like8086 = false := by
    rw [(pushErr_stacks _ _).like8086 e7, (push_stacks _ _ _).like8086 e6, (push_stacks _ _ _).like8086 e5,
      (push_stacks _ _ _).like8086 e4]
    exact h3.2
  cases h
  exact hc.prot (s := s7) (s7.seg.set .cs g.cs) false g.eip s7.cpl hl h7

theorem enterTask_keeps (hc : ClosedCore P) (t : Config.TaskSwitch) (e : Event) {s s' : State} {a : Attempt}
    (hpe : s.cr0.pe = true) (hp : P s) (h : enterTask t e s = .ok a s') : P s' := by
  unfold enterTask at h
  obtain ⟨_, s1, e1, h⟩ := bind_ok h
  cases e1
  obtain ⟨_, s1, e1, h⟩ := bind_ok h
  obtain ⟨_, s2, e2, h⟩ := bind_ok h
  have h2 := pushErr_keeps hc _ _ _ _ _ (taskSwitch_keeps hc _ _ _ hpe hp e1) e2
  cases h
  exact h2

theorem deliverGate_keeps (hc : ClosedCore P) (e : Event) {s s' : State} {a : Attempt} (hpe : s.cr0.pe = true) (hp : P s)
    (h : deliverGate e s = .ok a s') : P s' := by
  unfold deliverGate at h
  obtain ⟨_, s1, e1, h⟩ := bind_ok h
  cases e1
  split at h
  · cases h
  · obtain ⟨_, s1, e1, h⟩ := bind_ok h
    cases e1
    obtain ⟨_, s1, e1, h⟩ := bind_ok h
    cases e1
    obtain ⟨_, s1, e1, h⟩ := bind_ok h
    cases e1
    have hf := hc.free (s.free + 1) hp
    generalize Config.gateTransfer _ _ _ = r at h
    cases r with
    | task t => exact enterTask_keeps hc t e (by exact hpe) hf h
    | denied code => cases h; exact hf
    | fault v code lin => cases h
    | procedure g =>
      simp only at h
      split at h
      · split at h
        · cases h; exact hf
        · exact enterFromV86_keeps hc g e (by exact hpe) hf h
      · rename_i hv
        exact enterProcedure_keeps hc g e (mode_of_not8086 (Bool.eq_false_iff.mpr hv)) hf h

theorem attempt_keeps (hc : ClosedCore P) (e : Event) : Keeps P (attempt e) := by
  intro s a s' hp h
  unfold attempt at h
  obtain ⟨_, s1, e1, h⟩ := bind_ok h
  cases e1
  cases hm : s.mode with
  | real => rw [hm] at h; exact deliverReal_keeps hc e hm hp h
  | prot => rw [hm] at h; exact deliverGate_keeps hc e (mode_prot hm).1 hp h
  | v86 => rw [hm] at h; exact deliverGate_keeps hc e (mode_v86 hm).1 hp h

theorem ClosedCore.rollback (hc : ClosedCore P) {s : State} (t : State) (hp : P s) : P (s.rollback t) :=
  hc.discard (hc.free t.free hp)

theorem doubleFault_keeps (hc : ClosedCore P) (ip : Dword) {s t : State} {x : Entry} (hp : P s)
    (h : doubleFault ip s = .next (x, t)) : P t := by
  unfold doubleFault at h
  split at h <;> cases h
  · exact hc.run _ (hc.rollback _ hp)
  · exact attempt_keeps hc _ _ _ _ hp ‹_›
  · exact attempt_keeps hc _ _ _ _ hp ‹_›
  · exact hc.run _ (hc.rollback _ hp)

theorem deniedFault_keeps (hc : ClosedCore P) (code ip : Dword) {s t : State} {x : Entry} (hp : P s)
    (h : deniedFault code ip s = .next (x, t)) : P t := by
  unfold deniedFault at h
  split at h
  · exact doubleFault_keeps hc _ (hc.rollback _ hp) h
  · cases h; exact attempt_keeps hc _ _ _ _ hp ‹_›
  · cases h; exact attempt_keeps hc _ _ _ _ hp ‹_›
  · exact doubleFault_keeps hc _ (hc.rollback _ hp) h
  · cases h
  · cases h

theorem deliver_keeps (hc : ClosedCore P) (e : Event) {s t : State} {x : Entry} (hp : P s)
    (h : deliver e s = .next (x, t)) : P t := by
  unfold deliver at h
  split at h
  · exact deniedFault_keeps hc _ _ (hc.rollback _ hp) h
  · cases h; exact attempt_keeps hc _ _ _ _ hp ‹_›
  · cases h; exact attempt_keeps hc _ _ _ _ hp ‹_›
  · exact doubleFault_keeps hc _ (hc.rollback _ hp) h
  · cases h
  · cases h

theorem outcome_keeps {d : Delivery} {k : Entry → State → State} {t : State}
    (hd : ∀ x s, d = .next (x, s) → P s) (hk : ∀ x s, P s → P (k x s)) (h : d.outcome k = .next t) : P t := by
  unfold Delivery.outcome at h
  split at h <;> cases h
  exact hk _ _ (hd _ _ rfl)

theorem raiseDebug_keeps (hc : ClosedCore P) (c : EventClass) (x : Dword) {s t : State} (hp : P s)
    (h : raiseDebug c x s = .next t) : P t := by
  refine outcome_keeps (fun _ _ hd => deliver_keeps hc _ (hc.dr6 _ hp) hd) (fun x s hs => ?_) h
  cases x with
  | handler => exact hc.gd hs
  | task => exact hc.gd hs
  | replaced => exact hs

theorem takeFault_keeps (hc : ClosedCore P) (e : Exn) {s s' t : State} (hp : P s) (h : takeFault e s s' = .next t) :
    P t := by
  unfold takeFault at h
  split at h
  · exact outcome_keeps (fun _ _ hd => deliver_keeps hc _ (hc.cr2 _ (hc.rollback _ hp)) hd) (fun _ _ hs => hs) h
  · exact raiseDebug_keeps hc _ _ (hc.rollback _ hp) h

end Sys2Proof.Machine
end

