-- ==== Sys2Proof/Laws/Stack.lean ====
section
/-! SUPPORT. Several pushes and pops in a row: what they change, and which bytes of memory they leave alone (`10_state.md` R23). -/

namespace Sys2Proof.Machine

/-- With the whole space declared as RAM, every address is RAM. -/
theorem ramAt_all {s : State} (h : s.map = allRam) (a : Dword) (n : Nat) : s.ramAt a n := fun i _ => by
  rw [h]
  simp [kindAt, allRam, Region.has]
  omega

theorem zext16_toNat (v : Dword) : (zext16 v).toNat = v.toNat % 2^16 := by
  simp [zext16, low16]; omega

theorem zext16_setWidth (v : Word) : zext16 (v.setWidth 32) = v.setWidth 32 := by
  apply BitVec.eq_of_toNat_eq
  rw [zext16_toNat]; simp; omega

theorem shl4 (w : Word) : (w.setWidth 32 <<< 4 : Dword).toNat = w.toNat * 16 := by
  rw [BitVec.toNat_shiftLeft, Nat.shiftLeft_eq, BitVec.toNat_setWidth]; omega

theorem like8086_mode {s : State} : s.like8086 = true ↔ s.mode = .real ∨ s.mode = .v86 := by
  unfold State.like8086; cases s.mode <;> simp

theorem noteImplicit_cases (s : State) (a : Dword) (n : Nat) (k : Config.Access) : 
   ∃ t q, s.noteImplicit a n k = { s with traps := t, quiet := q } := by
  unfold State.noteImplicit
  split
  · exact ⟨_, _, rfl⟩
  · exact ⟨s.traps, s.quiet, rfl⟩

theorem pushed_same (s : State) (b : Bool) (n : Nat) (v : Dword) :
    ∃ g m t q, s.pushed b n v = { s with gpr := g, mem := m, traps := t, quiet := q } := by
  cases b
  · exact ⟨_, _, _, _, rfl⟩
  · obtain ⟨t, q, h⟩ := noteImplicit_cases s (s.pushLin n) n .write
    simp only [State.pushed, if_true, h]
    exact ⟨_, _, _, _, rfl⟩

theorem pushedAll_same (b : Bool) (n : Nat) (l : List Dword) (s : State) :
    ∃ g m t q, State.pushedAll b n l s = { s with gpr := g, mem := m, traps := t, quiet := q } := by
  induction l generalizing s with
  | nil => exact ⟨_, _, _, _, rfl⟩
  | cons v l ih =>
    obtain ⟨g, m, t, q, h⟩ := pushed_same s b n v
    obtain ⟨g', m', t', q', h'⟩ := ih (s.pushed b n v)
    refine ⟨g', m', t', q', ?_⟩
    rw [State.pushedAll, h', h]

theorem pushed_like (s : State) (b : Bool) (n : Nat) (v : Dword) : (s.pushed b n v).like8086 = s.like8086 := by
  cases b
  · rfl
  · simp only [State.pushed, State.noteImplicit, if_true]; split <;> rfl

theorem pushAll_like (implicit : Bool) (n : Nat) (l : List Dword) (s : State) : (State.pushedAll implicit n l s).like8086 = s.like8086 := by
  induction l generalizing s with
  | nil => rfl
  | cons v l ih =>
    rw [State.pushedAll, ih]
    cases implicit
    · rfl
    · simp only [State.pushed, State.noteImplicit, if_true]; split <;> rfl

theorem pushed_free (s : State) (b : Bool) (n : Nat) (v : Dword) : (s.pushed b n v).free = s.free := by
  cases b
  · rfl
  · simp only [State.pushed, State.noteImplicit, if_true]; split <;> rfl

theorem pushedAll_free (b : Bool) (n : Nat) (l : List Dword) (s : State) : (State.pushedAll b n l s).free = s.free := by
  induction l generalizing s with
  | nil => rfl
  | cons v l ih => rw [State.pushedAll, ih, pushed_free]

theorem pushed_cr0 (s : State) (b : Bool) (n : Nat) (v : Dword) : (s.pushed b n v).cr0 = s.cr0 := by
  cases b
  · rfl
  · simp only [State.pushed, State.noteImplicit, if_true]; split <;> rfl

theorem pushErr_run {s : State} {n : Nat} {c : Option Dword} (h : State.canPushAll true n c.toList s) :
    pushErr n c s = .ok () (State.pushedAll true n c.toList s) := by
  cases c with
  | none => rfl
  | some v => exact push_run true v h.1

theorem pushedAll_append (b : Bool) (n : Nat) (l k : List Dword) (s : State) : State.pushedAll b n (l ++ k) s = State.pushedAll b n k (State.pushedAll b n l s) := by
  induction l generalizing s with
  | nil => rfl
  | cons v l ih => exact ih _

theorem canPushAll_append (b : Bool) (n : Nat) (l k : List Dword) (s : State) : State.canPushAll b n (l ++ k) s ↔ State.canPushAll b n l s ∧ State.canPushAll b n k (State.pushedAll b n l s) := by
  induction l generalizing s with
  | nil => simp [State.canPushAll, State.pushedAll]
  | cons v l ih => simp only [List.cons_append, State.canPushAll, State.pushedAll, ih, and_assoc]

theorem popped_mode (s : State) (n : Nat) : (s.popped n).mode = s.mode := rfl

theorem level_popped (s : State) (n k : Nat) : (State.poppedAll n k s).level = s.level := by
  induction k generalizing s with
  | zero => rfl
  | succ k ih => exact ih _

theorem poppedAll_same (n k : Nat) (s : State) : ∃ g t q, State.poppedAll n k s = { s with gpr := { s.gpr with esp := g }, traps := t, quiet := q } := by
  induction k generalizing s with
  | zero => exact ⟨_, _, _, rfl⟩
  | succ k ih =>
    obtain ⟨g, t, q, h⟩ := ih (s.popped n)
    exact ⟨g, t, q, by rw [State.poppedAll, h]; rfl⟩

theorem pushed_eq (s : State) (b : Bool) (n : Nat) (v : Dword) :
    ∃ t q, s.pushed b n v = { s with gpr := (s.setSp (s.spBelow n)).gpr, mem := s.mem.store n (s.pushLin n) v, traps := t, quiet := q } := by
  cases b
  · exact ⟨_, _, rfl⟩
  · obtain ⟨t, q, h⟩ := noteImplicit_cases s (s.pushLin n) n .write
    refine ⟨t, q, ?_⟩
    simp only [State.pushed, if_true, h]
    rfl

theorem setSp_esp (s : State) (v : Dword) (r : Reg) (h : r ≠ .esp) : (s.setSp v).gpr.get r = s.gpr.get r := by
  cases r <;> first | rfl | exact absurd rfl h

theorem outsidePushes_congr {s t : State} (hg : t.gpr = s.gpr) (hs : t.seg = s.seg) (hc : t.cr0 = s.cr0) (hf : t.flags = s.flags) (n : Nat) (x : Dword) (k : Nat) :
    State.outsidePushes n x k t ↔ State.outsidePushes n x k s := by
  have hm : ∀ {s t : State}, t.gpr = s.gpr → t.seg = s.seg → t.cr0 = s.cr0 → t.flags = s.flags → t.spBelow n = s.spBelow n ∧ t.pushLin n = s.pushLin n ∧ t.stack16 = s.stack16 := by
    intro s t hg hs hc hf
    have h1 : t.mode = s.mode := by simp only [State.mode, hc, hf]
    have h2 : t.stack16 = s.stack16 := by simp only [State.stack16, State.like8086, h1, hs]
    have h3 : t.spBelow n = s.spBelow n := by simp only [State.spBelow, h2, hg]
    exact ⟨h3, by simp only [State.pushLin, State.lin, h3, hs], h2⟩
  induction k generalizing s t with
  | zero => exact Iff.rfl
  | succ k ih =>
    obtain ⟨h1, h2, h3⟩ := hm hg hs hc hf
    simp only [State.outsidePushes, h1, h2]
    refine and_congr Iff.rfl (ih ?_ hs hc hf)
    simp only [State.setSp, h3, hg]

theorem pushedAll_frame (b : Bool) (n : Nat) (l : List Dword) (s : State) :
    (∀ q, q ≠ .esp → (State.pushedAll b n l s).gpr.get q = s.gpr.get q) ∧
    ∀ x, s.outsidePushes n x l.length → (State.pushedAll b n l s).byteAt x = s.byteAt x := by
  induction l generalizing s with
  | nil => exact ⟨fun _ _ => rfl, fun _ _ => rfl⟩
  | cons v l ih =>
    obtain ⟨t, q, hx⟩ := pushed_eq s b n v
    obtain ⟨h1, h2⟩ := ih (s.pushed b n v)
    have hout : ∀ x k, State.outsidePushes n x k (s.setSp (s.spBelow n)) ↔ State.outsidePushes n x k (s.pushed b n v) := by
      intro x k
      rw [hx]
      apply outsidePushes_congr <;> rfl
    constructor
    · intro r hr
      rw [State.pushedAll, h1 r hr, hx]
      exact setSp_esp _ _ _ hr
    · rintro x ⟨ha, hb⟩
      rw [State.pushedAll, h2 x ((hout _ _).1 hb), hx]
      exact Memory.read_store_outside _ _ _ _ _ ha

theorem popped_frame (n k : Nat) (s : State) : (∀ q, q ≠ .esp → (State.poppedAll n k s).gpr.get q = s.gpr.get q) := by
  obtain ⟨g, t, q, h⟩ := poppedAll_same n k s
  rw [h]
  intro r hr
  cases r <;> first | rfl | exact absurd rfl hr

end Sys2Proof.Machine
end

