-- ==== Sys2Proof/Laws/Effects.lean ====
section
/-! SUPPORT. What each shared operation of an instruction or a delivery does when it runs through: operands, transfers, segment loads, special-register ends, delivery in real-address mode. -/

namespace Sys2Proof.Machine

theorem prot_level {s : State} (h : s.like8086 = false) : s.level = s.cpl := by
  simp [State.level, mode_of_not8086 h]

theorem runInstr_run {isJmp : Bool} (body : M Bool) {s : State} (h : (s.prefetchStale && !isJmp) = false) :
    runInstr isJmp body s = match body s with
    | .ok loadedRf s' => .next (complete s loadedRf s')
    | .error (.exn e) s' => takeFault e s s'
    | .error (.fault f) _ => .fault f
    | .error (.refused r) _ => .refused r := by
  unfold runInstr
  first | (rw [if_neg (by simp [h])]; done) | (rw [if_neg (by simp [h])]; rfl)

theorem takeFault_free (e : Exn) (s t u : State) (h : t.free = u.free) : takeFault e s t = takeFault e s u := by
  simp only [takeFault, State.rollback, h]

theorem readMem_run {s : State} {m : MemOp} {k n : Nat} {v : Dword} (h : s.operandIs m k n v) : readMem m k n s = .ok v (s.sawOperand m k n) := by
  obtain ⟨hpg, h8, hu, hv⟩ := h
  simp only [readMem, bind_run, asks_run]
  refine readData_run hpg ?_ hv
  unfold checkAccess
  cases hl : s.like8086
  · simp [hu hl]
  · simp [h8 hl]

theorem sawOperand_operandIs {s : State} {m : MemOp} {j l k n : Nat} {v : Dword} (h : s.operandIs m k n v) :
    (s.sawOperand m j l).operandIs m k n v := h

theorem readTable_run {s : State} {m : MemOp} (sz : OpSize) {limit base : Dword} (h1 : s.operandIs m 0 2 limit)
   (h2 : s.operandIs m 2 4 base) :
   readTable sz m s = .ok { base := if sz = .w16 then base &&& 0x00FFFFFF else base, limit := low16 limit } ((s.sawOperand m 0 2).sawOperand m 2 4) := by
  simp only [readTable, bind_run, readMem_run h1]
  rw [readMem_run (s := s.sawOperand m 0 2) h2]
  rfl

theorem nearJump_run {s : State} (sz : OpSize) (disp : Dword) (h : s.like8086 = true → (nearTarget s.next disp sz).toNat ≤ 0xFFFF) :
    nearJump sz disp s = .ok false { s with eip := nearTarget s.next disp sz, prefetchStale := false } := by
  simp only [nearJump, bind_run, asks_run, checkTarget_run h, update_run, pure_run]

theorem nearCall_run {s : State} (sz : OpSize) (disp : Dword) (hp : s.canPush (sizeBytes sz)) (h : s.like8086 = true → (nearTarget s.next disp sz).toNat ≤ 0xFFFF) :
    nearCall sz disp s = .ok false { s.pushed false (sizeBytes sz) s.next with eip := nearTarget s.next disp sz } := by
  have hl : (s.pushed false (sizeBytes sz) s.next).like8086 = s.like8086 := rfl
  simp only [nearCall, bind_run, asks_run, push_run false s.next hp]
  rw [checkTarget_run (by rw [hl]; exact h)]
  rfl

theorem farJump_real {s : State} (sel : Selector) (off : Dword) (h8 : s.like8086 = true) (h : off.toNat ≤ 0xFFFF) :
    farJump sel off s = .ok false { s with seg := { s.seg with cs := s.seg.cs.load8086 sel }, latch := false, eip := off, prefetchStale := false } := by
  simp only [farJump, farJumpTo, bind_run, asks_run, h8, if_true, checkTarget_run (fun _ => h), update_run, pure_run]; rfl

theorem farCall_real {s : State} (sz : OpSize) (sel : Selector) (off : Dword) (h8 : s.like8086 = true) (h : off.toNat ≤ 0xFFFF)
   (hp : State.canPushAll false (sizeBytes sz) [s.seg.cs.selector.setWidth 32, s.next] s) :
    farCall sz sel off s = .ok false { State.pushedAll false (sizeBytes sz) [s.seg.cs.selector.setWidth 32, s.next] s with seg := { s.seg with cs := s.seg.cs.load8086 sel }, latch := false, eip := off } := by
  obtain ⟨h1, h2, _⟩ := hp
  simp only [farCall, bind_run, asks_run, h8, if_true, push_run false _ h1]
  rw [show (s.pushed false (sizeBytes sz) (s.seg.cs.selector.setWidth 32)).next = s.next from rfl, push_run false _ h2]
  simp only [checkTarget_run (fun _ => h), update_run, pure_run]; rfl

theorem farCall_raise {s : State} (sz : OpSize) (sel : Selector) (off : Dword) (h8 : s.like8086 = true) (h : 0xFFFF < off.toNat)
   (hp : State.canPushAll false (sizeBytes sz) [s.seg.cs.selector.setWidth 32, s.next] s) :
    farCall sz sel off s = .error (.exn (generalProtection 0)) (State.pushedAll false (sizeBytes sz) [s.seg.cs.selector.setWidth 32, s.next] s) := by
  obtain ⟨h1, h2, _⟩ := hp
  simp only [farCall, bind_run, asks_run, h8, if_true, push_run false _ h1]
  rw [show (s.pushed false (sizeBytes sz) (s.seg.cs.selector.setWidth 32)).next = s.next from rfl, push_run false _ h2]
  simp only []
  rw [checkTarget_raise (by simp only [pushed_like]; exact h8) h]; rfl

theorem loadSegment_real {s : State} (r : SReg) (v : Selector) (h : s.like8086 = true) :
   loadSegment r v s = .ok () { s with seg := s.seg.set r ((s.seg.get r).load8086 v) } := by
  simp only [loadSegment, bind_run, asks_run, h, if_true, update_run]

theorem loadSegment_prot {s : State} (q : SReg) (v : Selector) (h8 : s.like8086 = false) :
    loadSegment q v s = match Config.loadDescriptor s.free v s.cpl with
      | .fault x code lin => .error (.exn (Exn.ofVector x code lin)) { s with free := s.free + 1 }
      | .loaded base limit rights big usable reads stores =>
        match storeBytes stores (({ s with free := s.free + 1 } : State).noteReads reads) with
        | .ok _ t => .ok () { t with seg := t.seg.set q { selector := v, base := base, limit := limit, rights := rights, big := big, usable := usable } }
        | .error e t => .error e t := by
  have hl1 : ({ s with free := s.free + 1 } : State).level = s.cpl := prot_level (s := { s with free := s.free + 1 }) h8
  unfold loadSegment
  simp only [bind_run, asks_run, h8, Bool.false_eq_true, if_false, drawIndex_run]
  rw [hl1]
  cases Config.loadDescriptor s.free v s.cpl with
  | fault x code lin => rfl
  | loaded base limit rights big usable reads stores =>
    simp only [bind_run, update_run]
    cases storeBytes stores _ <;> rfl

theorem finishRead_run (r : Reg) (v m : Dword) (s : State) : finishRead r v m s = .ok false
   { s with gpr := s.gpr.set r (drawBits v (Config.freeWord s.free) m), flags := s.flags.setStatus (Config.freeWord (s.free + 1)), free := s.free + 2, eip := s.next } := by
  simp only [finishRead, bind_run, draw_run, update_run, drawStatus_run, toNext_run]

theorem finishWrite_run (s : State) : finishWrite s = .ok false
   { s with flags := s.flags.setStatus (Config.freeWord s.free), free := s.free + 1, eip := s.next } := by
  simp only [finishWrite, bind_run, drawStatus_run, toNext_run]

theorem setStatus_control (f : Eflags) (w : Dword) : f.sameControl ({ f.setStatus w with rf := (f.setStatus w).rf && false }) := by
  simp [Eflags.sameControl, Eflags.setStatus]

theorem resumed_eq (f : Eflags) : { f with rf := f.rf && false } = f.resumed := by simp [Eflags.resumed]

theorem stale_of_next {body : M Bool} {s t : State} (h : runInstr false body s = .next t) : s.prefetchStale = false := by
  simpa using (runInstr_next h).1

theorem tail_exec {body : M Bool} {s t x : State} (h : runInstr false body s = .next t) (hb : body s = finishWrite x) :
   t = complete s false { x with flags := x.flags.setStatus (Config.freeWord x.free), free := x.free + 1, eip := x.next } := by
  have := runInstr_ok (isJmp := false) (body := body) (s := s) (rf := false) (by simp [stale_of_next h]) (hb.trans (finishWrite_run x))
  rw [h] at this
  injection this

theorem deliverReal_run {s : State} {e : Event} {entry : Dword} (h : s.canEnterReal e entry) :
    deliverReal e s = .ok .handler (s.enteredReal e entry) := by
  obtain ⟨hm, hpg, hl, he, hp⟩ := h
  have hb : beyondTable s.idtr.limit e.vector = false := by simp [beyondTable]; omega
  obtain ⟨h1, h2, h3, _⟩ := hp
  obtain ⟨t0, q0, hn⟩ := noteImplicit_cases s (s.entryLin e.vector) 4 .read
  simp only [deliverReal, bind_run, asks_run, hb, Bool.false_eq_true, if_false, update_run]
  rw [show (s.idtr.base + 4 * BitVec.setWidth 32 e.vector) = s.entryLin e.vector from rfl]
  rw [readLin_run (v := entry) (by unfold State.noteImplicit; split <;> exact hpg) (by unfold State.noteImplicit; split <;> exact he)]
  unfold State.enteredReal
  have e1 : (s.noteImplicit (s.entryLin e.vector) 4 .read).flags = s.flags := by rw [hn]
  have e2 : (s.noteImplicit (s.entryLin e.vector) 4 .read).seg = s.seg := by rw [hn]
  generalize s.noteImplicit (s.entryLin e.vector) 4 .read = x at *
  simp only [e1, e2, push_run true _ h1, push_run true _ h2, push_run true _ h3]
  obtain ⟨g, m, t, q, ha⟩ := pushedAll_same true 2 (s.realFrame e) x
  have ha' : ((x.pushed true 2 (e.image s.flags)).pushed true 2 (BitVec.setWidth 32 s.seg.cs.selector)).pushed true 2 e.ip =
    State.pushedAll true 2 (s.realFrame e) x := rfl
  rw [ha', ha, ← e1, ← e2]
  simp only [Eflags.entered, Bool.not_true, Bool.and_false]
  rfl

theorem stores_flags {s t : State} {l} (h : storeBytes l s = .ok () t) : t.flags = s.flags ∧ t.seg = s.seg ∧ t.gpr = s.gpr ∧ t.mode = s.mode := by
  obtain ⟨_, _, _, _, _, rfl⟩ := (storeBytes_stores l) _ _ _ h
  exact ⟨rfl, rfl, rfl, rfl⟩

theorem local_bits : ∀ i : Fin 32, (~~~localBits).getLsbD i.val = !(i.val == 0 || i.val == 2 || i.val == 4 || i.val == 6) := by decide

theorem loadTask_traps (s : State) (t : Config.TaskSwitch) (i : TaskImages) :
    (s.loadTask t i).traps = (if i.mark then s.traps ||| 0x8000 else s.traps) ∧ (s.loadTask t i).gpr = i.gprs ∧
      (s.loadTask t i).dr7 = s.dr7 &&& ~~~localBits ∧ (s.loadTask t i).flags = taskFlags t i := by
  unfold State.loadTask
  simp only
  cases t.cr3 <;> (cases (taskFlags t i).vm <;> exact ⟨rfl, rfl, rfl, rfl⟩)

theorem taskFlags_286 (t : Config.TaskSwitch) (i : TaskImages) (h : t.taskReg.is386 = false) :
    taskFlags t i = { Eflags.ofWord i.flags with rf := false, vm := false } := by
  simp [taskFlags, h, Eflags.ofWord, zext16, low16]
  apply BitVec.eq_of_getLsbD_eq
  intro i hi
  interval_cases i <;> simp

/-! ## Pushes that cross the end of the stack, and several pushes -/

theorem zext16_sub_toNat (a : Dword) (n : Nat) (hn : n < 2 ^ 16) :
    (zext16 (a - BitVec.ofNat 32 n)).toNat = (a.toNat % 2 ^ 16 + 2 ^ 16 - n) % 2 ^ 16 := by
  rw [zext16_toNat, BitVec.toNat_sub, BitVec.toNat_ofNat]
  omega

theorem pushCrosses_iff (s : State) (n : Nat) (hn : n ≤ 4) :
    s.pushCrosses n = true ↔ 0 < s.sp.toNat ∧ s.sp.toNat < n := by
  unfold State.pushCrosses State.spBelow State.sp
  have he := s.gpr.esp.isLt
  split
  · simp only [pastEnd, decide_eq_true_eq, zext16_sub_toNat _ n (by omega), zext16_toNat]
    omega
  · simp only [decide_eq_true_eq, BitVec.toNat_sub, BitVec.toNat_ofNat]
    omega

/-- In protected mode a push that crosses the end of the stack raises the stack exception, with its free error code. -/
theorem push_crosses {s : State} (b : Bool) {n : Nat} (v : Dword) (h8 : s.like8086 = false)
    (h : s.pushCrosses n = true) :
    push b n v s = .error (.exn (Exn.plain 12 (some (Config.freeWord s.free)))) { s with free := s.free + 1 } := by
  simp only [push, checkPush, bind_run, asks_run, h8, h, if_true, Bool.false_eq_true, if_false, draw_run, raise_run]

/-- In real-address and V86 mode it is refused. -/
theorem push_past {s : State} (b : Bool) {n : Nat} (v : Dword) (h8 : s.like8086 = true)
    (h : s.pushCrosses n = true) : push b n v s = .error (.refused .pastSegmentEnd) s := by
  simp only [push, checkPush, bind_run, asks_run, h8, h, if_true, refuse_run]

theorem pop_past {s : State} {n : Nat} (h : s.like8086 = true) (hn : 0x10000 < s.sp.toNat + n) :
    pop n s = .error (.refused .pastSegmentEnd) s := by
  have : checkPop n s = .error (.refused .pastSegmentEnd) s := by simp [checkPop, h, pastEnd, hn]
  simp only [pop, bind_run, this]

theorem pushed_sp (s : State) (n : Nat) (v : Dword) : (s.pushed false n v).sp = s.spBelow n := by
  have h : (s.pushed false n v).stack16 = s.stack16 := rfl
  have hg : (s.pushed false n v).gpr = (s.setSp (s.spBelow n)).gpr := rfl
  unfold State.sp
  rw [h, hg]
  unfold State.setSp State.spBelow
  cases s.stack16 with
  | true =>
    simp only [if_true, zext16, low16_setLow16]
    apply BitVec.eq_of_toNat_eq
    simp [low16]
  | false => rfl

/-- The second of two pushes crosses the end of the stack. -/
theorem pushed_crosses {s : State} {n : Nat} (v : Dword) (hn : n ≤ 4) (h1 : n < s.sp.toNat) (h2 : s.sp.toNat < 2 * n) :
    (s.pushed false n v).pushCrosses n = true := by
  rw [pushCrosses_iff _ n hn, pushed_sp]
  have h : (s.spBelow n).toNat = s.sp.toNat - n := by
    have he := s.gpr.esp.isLt
    unfold State.sp at h1 h2
    unfold State.spBelow State.sp
    cases hs : s.stack16 with
    | true =>
      simp only [hs, if_true, zext16_toNat] at h1 h2
      simp only [if_true, zext16_sub_toNat _ n (by omega : n < 2 ^ 16), zext16_toNat]
      omega
    | false =>
      simp only [hs, Bool.false_eq_true, if_false] at h1 h2
      simp only [Bool.false_eq_true, if_false, BitVec.toNat_sub, BitVec.toNat_ofNat]
      omega
  omega

theorem nearCall_crosses {s : State} (sz : OpSize) (disp : Dword) (h8 : s.like8086 = false)
    (h : s.pushCrosses (sizeBytes sz) = true) :
    nearCall sz disp s =
      .error (.exn (Exn.plain 12 (some (Config.freeWord s.free)))) { s with free := s.free + 1 } := by
  simp only [nearCall, bind_run, asks_run, push_crosses false s.next h8 h]

theorem nearCall_past {s : State} (sz : OpSize) (disp : Dword) (h8 : s.like8086 = true)
    (h : s.pushCrosses (sizeBytes sz) = true) : nearCall sz disp s = .error (.refused .pastSegmentEnd) s := by
  simp only [nearCall, bind_run, asks_run, push_past false s.next h8 h]

/-- A far call in real-address or V86 mode whose first or second push crosses the end of the stack. -/
theorem farCall_past {s : State} (sz : OpSize) (sel : Selector) (off : Dword) (h8 : s.like8086 = true)
    (h : s.pushCrosses (sizeBytes sz) = true ∨ (s.canPush (sizeBytes sz) ∧
      (s.pushed false (sizeBytes sz) (s.seg.cs.selector.setWidth 32)).pushCrosses (sizeBytes sz) = true)) :
    ∃ t, farCall sz sel off s = .error (.refused .pastSegmentEnd) t := by
  rcases h with h | ⟨h1, h2⟩
  · exact ⟨s, by simp only [farCall, bind_run, asks_run, h8, if_true, push_past false _ h8 h]⟩
  · refine ⟨s.pushed false (sizeBytes sz) (s.seg.cs.selector.setWidth 32), ?_⟩
    simp only [farCall, bind_run, asks_run, h8, if_true, push_run false _ h1, push_past false _ (by exact h8) h2]

theorem pushList_run {n : Nat} {l : List Dword} {s : State} (h : State.canPushAll false n l s) :
    pushList n l s = .ok () (State.pushedAll false n l s) := by
  induction l generalizing s with
  | nil => rfl
  | cons v l ih =>
    simp only [pushList, bind_run, push_run false v h.1]
    exact ih h.2

theorem requireDebug_run {s : State} (hl : s.level = 0) (hg : s.dr7.getLsbD 13 = false) : requireDebugAccess s = .ok () s := by
  unfold requireDebugAccess gd; rw [if_pos hl, hg]; rfl

theorem bpReserved_eq {v : Dword} : bpReserved v = true ↔ ∃ k, bpEnabled v k = true ∧ (bpLen v k = 2 ∨ bpRw v k = 2) := by
  simp [bpReserved, List.any_eq_true]

theorem bpBad_eq {v : Dword} : bpBadLength v = true ↔ ∃ k, bpEnabled v k = true ∧ bpRw v k = 0 ∧ bpLen v k ≠ 0 := by
  simp [bpBadLength, List.any_eq_true, and_assoc]

end Sys2Proof.Machine
end

