-- ==== Sys2Proof/Laws/Debug.lean ====
section
/-! SUPPORT. The bits of breakpoint matches and the ranges of breakpoints (`42_debug.md` R216, R220). -/

namespace Sys2Proof.Machine

theorem bBits_bool : ∀ a b c d : Bool,
    let w : Dword := ((((if a = true then 1#32 <<< 0 else 0) ||| if b = true then 1#32 <<< 1 else 0) |||
            if c = true then 1#32 <<< 2 else 0) ||| if d = true then 1#32 <<< 3 else 0)
    w.getLsbD 0 = a ∧ w.getLsbD 1 = b ∧ w.getLsbD 2 = c ∧ w.getLsbD 3 = d := by decide

theorem bBits_bit (p : Fin 4 → Bool) (n : Fin 4) : (bBits p).getLsbD n.val = p n := by
  have := bBits_bool (p 0) (p 1) (p 2) (p 3)
  fin_cases n
  · exact this.1
  · exact this.2.1
  · exact this.2.2.1
  · exact this.2.2.2

theorem dr7ok_len {s : State} (h : s.Dr7Ok) (n : Fin 4) (he : bpEnabled s.dr7 n = true) (hr : bpRw s.dr7 n = 0) : bpLen s.dr7 n = 0 := by
  by_contra hc
  have h2 := h.2
  have : bpBadLength s.dr7 = true := by
    simp only [bpBadLength, List.any_eq_true]
    exact ⟨n, by simp, by simp [he, hr]; exact hc⟩
  rw [this] at h2; cases h2

theorem inRange_nat (x a : Nat) (hx : x < 2^32) (_ : a < 2^32) (k : Nat) (hk : k ≤ 2) :
    (a / 2^k * 2^k = x / 2^k * 2^k) ↔ x - x % 2^k ≤ a ∧ a ≤ x - x % 2^k + 2^k - 1 := by
  interval_cases k <;> omega

theorem mask_toNat (a : Dword) (k : Nat) (hk : k ≤ 2) : (a &&& ~~~(BitVec.ofNat 32 (2^k - 1))).toNat = a.toNat / 2^k * 2^k := by
  have h : a &&& ~~~(BitVec.ofNat 32 (2^k - 1)) = (a >>> k) <<< k := by
    ext i hi
    interval_cases k <;> interval_cases i <;> simp
  rw [h, BitVec.toNat_shiftLeft, BitVec.toNat_ushiftRight, Nat.shiftRight_eq_div_pow, Nat.shiftLeft_eq]
  have := a.isLt
  interval_cases k <;> omega

end Sys2Proof.Machine
end

