-- ==== Sys2Proof/Laws/Encode.lean ====
section
/-! SUPPORT. The decoder on bytes the encoder wrote: the bytes before the opcode, then the opcode with its operand. -/

namespace Sys2Proof.Machine

theorem bv3_cases (P : BitVec 3 → Prop) (h : P 0 ∧ P 1 ∧ P 2 ∧ P 3 ∧ P 4 ∧ P 5 ∧ P 6 ∧ P 7) (x : BitVec 3) : P x := by
  obtain ⟨a, b, c, d, e, f, g, i⟩ := h
  have : x = 0 ∨ x = 1 ∨ x = 2 ∨ x = 3 ∨ x = 4 ∨ x = 5 ∨ x = 6 ∨ x = 7 := by
    have := x.isLt
    have h : x.toNat = 0 ∨ x.toNat = 1 ∨ x.toNat = 2 ∨ x.toNat = 3 ∨ x.toNat = 4 ∨ x.toNat = 5 ∨ x.toNat = 6 ∨ x.toNat = 7 := by omega
    rcases h with h | h | h | h | h | h | h | h
    · exact .inl (BitVec.eq_of_toNat_eq h)
    · exact .inr (.inl (BitVec.eq_of_toNat_eq h))
    · exact .inr (.inr (.inl (BitVec.eq_of_toNat_eq h)))
    · exact .inr (.inr (.inr (.inl (BitVec.eq_of_toNat_eq h))))
    · exact .inr (.inr (.inr (.inr (.inl (BitVec.eq_of_toNat_eq h)))))
    · exact .inr (.inr (.inr (.inr (.inr (.inl (BitVec.eq_of_toNat_eq h))))))
    · exact .inr (.inr (.inr (.inr (.inr (.inr (.inl (BitVec.eq_of_toNat_eq h)))))))
    · exact .inr (.inr (.inr (.inr (.inr (.inr (.inr (BitVec.eq_of_toNat_eq h)))))))
  rcases this with rfl | rfl | rfl | rfl | rfl | rfl | rfl | rfl <;> assumption

def plainByte (b : Byte) : Prop := b ≠ 0x66 ∧ b ≠ 0x67 ∧ overrideOf b = none

theorem takePre_stop {p : Pre} {b : Byte} {t : List Byte} (h : plainByte b) : takePre p (b :: t) = (p, b :: t) := by
  simp only [takePre]
  rw [if_neg h.1, if_neg h.2.1, h.2.2]

theorem takePre_op {p : Pre} {d sz : OpSize} {t : List Byte} (hp : p.op = false) :
    takePre p (encOp d sz ++ t) = takePre { p with op := decide (sz ≠ d) } t := by
  obtain ⟨o, a, s⟩ := p
  cases hp
  unfold encOp
  split
  · simp [*]
  · simp [takePre, *]

theorem takePre_addr {p : Pre} {d sz : OpSize} {t : List Byte} (hp : p.addr = false) :
    takePre p (encAddr d sz ++ t) = takePre { p with addr := decide (sz ≠ d) } t := by
  obtain ⟨o, a, s⟩ := p
  cases hp
  unfold encAddr
  split
  · simp [*]
  · simp [takePre, *]

theorem takePre_seg {p : Pre} {s : Option SReg} {t : List Byte} (hp : p.seg = none) :
    takePre p (encSeg s ++ t) = takePre { p with seg := s } t := by
  obtain ⟨o, a, q⟩ := p
  cases hp
  cases s with
  | none => rfl
  | some r => cases r <;> rfl

theorem opSize_enc (d sz : OpSize) : (if decide (sz ≠ d) = true then d.other else d) = sz := by
  cases d <;> cases sz <;> rfl

theorem decode_op (d sz : OpSize) (b : Byte) (t : List Byte) (h : plainByte b) :
    decode d (encOp d sz ++ b :: t) = decodeOp d { op := decide (sz ≠ d), addr := false, seg := none } (encOp d sz ++ b :: t).length (b :: t) := by
  unfold decode
  rw [takePre_op rfl, takePre_stop h]

theorem decode_mem (d asz osz : OpSize) (s : Option SReg) (b : Byte) (t : List Byte) (h : plainByte b) :
    decode d (encSeg s ++ encAddr d asz ++ encOp d osz ++ b :: t) = decodeOp d { op := decide (osz ≠ d), addr := decide (asz ≠ d), seg := s } (encSeg s ++ encAddr d asz ++ encOp d osz ++ b :: t).length (b :: t) := by
  unfold decode
  rw [List.append_assoc, List.append_assoc, takePre_seg rfl, takePre_addr rfl, takePre_op rfl, takePre_stop h]

theorem decode_mem0 (d asz : OpSize) (s : Option SReg) (b : Byte) (t : List Byte) (h : plainByte b) :
    decode d (encSeg s ++ encAddr d asz ++ b :: t) = decodeOp d { op := false, addr := decide (asz ≠ d), seg := s } (encSeg s ++ encAddr d asz ++ b :: t).length (b :: t) := by
  unfold decode
  rw [List.append_assoc, takePre_seg rfl, takePre_addr rfl, takePre_stop h]

theorem decode_bare (d : OpSize) (b : Byte) (t : List Byte) (h : plainByte b) :
    decode d (b :: t) = decodeOp d { op := false, addr := false, seg := none } (b :: t).length (b :: t) := by
  unfold decode
  rw [takePre_stop h]

theorem decode_plain (d : OpSize) (b : Byte) (rest : List Byte) (h1 : b ≠ 0x66) (h2 : b ≠ 0x67) (h3 : overrideOf b = none) :
    decode d (b :: rest) = decodeOp d { op := false, addr := false, seg := none } (rest.length + 1) (b :: rest) := by
  simp only [decode, takePre]
  rw [if_neg h1, if_neg h2, h3]; rfl

theorem decode_move (d : OpSize) (b m : Byte) (rest : List Byte) (h : isMove b = true) (h1 : b ≠ 1) :
    decode d (0x0F :: b :: m :: rest) = (match moveOf b (fieldMid m) (Reg.ofNum (fieldLo m)) with
        | .ok i _ => finish (rest.length + 3) i rest
        | r => r) := by
  rw [decode_plain _ _ _ (by decide) (by decide) (by decide)]
  simp only [decodeOp, decode0F]
  rw [if_neg h1, if_pos h]; rfl

theorem finish_eq (total n : Nat) (i : Instr) (t : List Byte) (h : total = n + t.length) : finish total i t = .ok i n := by
  unfold finish; congr 1; omega

theorem withMem_enc {d : OpSize} {p : Pre} {total : Nat} {m : Byte} {u rest : List Byte} {ea : Ea} {k : MemOp → Instr} (n : Nat)
   (hm : fieldHi m ≠ 3) (ht : takeEa ea.size (fieldHi m) (fieldLo m) (u ++ rest) = some (ea, rest)) (ha : p.addr = decide (ea.size ≠ d)) (hn : total = n + rest.length) :
   withMem (p.addrSize d) p total m (u ++ rest) k = .ok (k { seg := p.seg, ea := ea }) n := by
  have : p.addrSize d = ea.size := by unfold Pre.addrSize; rw [ha]; exact opSize_enc _ _
  unfold withMem
  rw [if_neg hm, this, ht]
  exact finish_eq _ _ _ _ hn

theorem withRm_enc {d : OpSize} {p : Pre} {total : Nat} {m : Byte} {u rest : List Byte} {ea : Ea} {k : Rm16 → Instr} (n : Nat)
   (hm : fieldHi m ≠ 3) (ht : takeEa ea.size (fieldHi m) (fieldLo m) (u ++ rest) = some (ea, rest)) (ha : p.addr = decide (ea.size ≠ d)) (hn : total = n + rest.length) :
   withRm (p.addrSize d) p total m (u ++ rest) k = .ok (k (.mem { seg := p.seg, ea := ea })) n := by
  have : p.addrSize d = ea.size := by unfold Pre.addrSize; rw [ha]; exact opSize_enc _ _
  unfold withRm
  rw [if_neg hm, this, ht]
  exact finish_eq _ _ _ _ hn

end Sys2Proof.Machine
end

