-- ==== Sys2Proof/Laws/Events.lean ====
section
/-! SUPPORT. The step boundary: what is pending, and when the step goes on to the fetch (`60_exceptions.md` R294). -/

namespace Sys2Proof.Machine

theorem takeInput_nil {s : State} (h : s.inputs = []) : s.takeInput = (none, s) := by
  unfold State.takeInput; rw [h]

/-- What the environment presents joins the pending events, and the events of the boundary are taken from there. -/
theorem boundary_presented {s : State} {p : Presented} {rest : List Presented} (hr : s.run = .running)
    (hi : s.inputs = p :: rest) (hp : p.reset = none) :
    boundary s = eventStep { s with inputs := rest, nmi := s.nmi || p.nmi, intr := match p.intr with
                                      | some v => some v
                                      | none => s.intr } := by
  unfold boundary State.takeInput
  rw [hi]
  simp only [hp, hr]
  rfl

theorem boundary_running {s : State} (hr : s.run = .running) (hi : s.inputs = []) : boundary s = eventStep s := by
  unfold boundary
  rw [takeInput_nil hi]
  simp [hr]

theorem breakpoint_missed {k : State → Boundary} {s : State} (h : s.flags.rf = true ∨ fetchHits s s.linPc = 0) :
    breakpointStep k s = k s := by
  unfold breakpointStep
  rw [if_neg]
  rintro ⟨a, b⟩
  rcases h with h | h
  · rw [a] at h; cases h
  · exact b h

theorem breakpoint_hit {k : State → Boundary} {s : State} (h : s.flags.rf = false ∧ fetchHits s s.linPc ≠ 0) :
    breakpointStep k s = .done (raiseDebug .fault (fetchHits s s.linPc ||| fetchQuiet s s.linPc) s) := if_pos h

/-- Without debug traps to take, the boundary looks at the instruction breakpoint. -/
theorem eventStep_untrapped {s : State} (h : s.holdOff = true ∨ s.traps = 0) :
    ∃ k, eventStep s = breakpointStep k s.pastEvents := by
  unfold eventStep State.pastEvents
  cases hh : s.holdOff with
  | true => exact ⟨startStep, by simp⟩
  | false =>
    rcases h with h | h
    · rw [hh] at h; cases h
    · exact ⟨externalStep, by simp [h]⟩

/-- Then at the external events. -/
theorem eventStep_external {s : State} (h0 : s.holdOff = false) (h1 : s.traps = 0)
    (h2 : s.flags.rf = true ∨ fetchHits s s.linPc = 0) : eventStep s = externalStep { s with quiet := 0 } := by
  unfold eventStep
  rw [if_neg (by simp [h0]), if_neg (by simp [h1])]
  exact breakpoint_missed (s := { s with quiet := 0 }) h2

theorem pastEvents_calm {s : State} (h : s.holdOff = false) : s.pastEvents = { s with quiet := 0 } := by
  cases s
  simp_all [State.pastEvents]

theorem pastEvents_held {s : State} (h : s.holdOff = true) : s.pastEvents = { s with holdOff := false } := by
  cases s
  simp_all [State.pastEvents]

theorem external_quiet {s : State} (q : Dword) (h : s.external = none) :
    ({ s with quiet := q } : State).external = none := by
  unfold State.external at h ⊢
  split at h
  · cases h
  · rename_i hn
    rw [if_neg (by exact hn)]
    split at h
    · rename_i hi
      split at h
      · cases h
      · rename_i hf
        simp only [hi]
        rw [if_neg (by exact hf)]
    · rename_i hi
      simp only [hi]

/-- Where nothing is to be taken the instruction is fetched. -/
theorem eventStep_goesOn {s : State} (h3 : s.holdOff = true ∨ (s.traps = 0 ∧ s.external = none))
    (h4 : s.flags.rf = true ∨ fetchHits s s.linPc = 0) : eventStep s = fetchStep s.pastBoundary := by
  rw [State.pastBoundary]
  cases hh : s.holdOff with
  | true =>
    rw [pastEvents_held hh]
    unfold eventStep
    rw [if_pos hh]
    exact breakpoint_missed (s := { s with holdOff := false }) h4
  | false =>
    rcases h3 with h | ⟨h, hx⟩
    · rw [hh] at h; cases h
    · rw [eventStep_external hh h h4, pastEvents_calm hh]
      unfold externalStep
      rw [external_quiet 0 hx]
      rfl

theorem goesOn_boundary {s : State} (h : s.goesOn) : boundary s = fetchStep s.pastBoundary := by
  obtain ⟨h1, h2, h3, h4⟩ := h
  rw [boundary_running h1 h2, eventStep_goesOn h3 h4]

theorem external_nmi {s : State} (h : s.nmi = true) : s.external = some (2, { s with nmi := false }) := by
  simp [State.external, h]

theorem external_none {s : State} (h : s.nmi = false) (h2 : s.intr = none ∨ s.flags.ifl = false) : s.external = none := by
  unfold State.external
  rw [h]
  rcases h2 with h2 | h2
  · simp [h2]
  · cases s.intr <;> simp [h2]

theorem fetchLoop_invalid {s : State} {bs : List Byte} (hpg : s.cr0.pg = false)
    (hd : decode s.defaultSize bs = .invalid) (hm : ∀ k, k < bs.length → decode s.defaultSize (bs.take k) = .more)
    (hc : s.codeIs bs bs.length) :
    ∀ fuel k, k < bs.length → bs.length ≤ k + fuel → fetchLoop fuel (bs.take k) s = invalidOpcode s := by
  intro fuel
  induction fuel with
  | zero => omega
  | succ fuel ih =>
    intro k hk hf
    obtain ⟨hb, h8⟩ := hc k hk hk
    have hl : (bs.take k).length = k := by simp; omega
    have happ : bs.take k ++ [bs[k]] = bs.take (k + 1) := (List.take_succ_eq_append_getElem hk).symm
    simp only [fetchLoop, bind_run, hl, fetchByte_run hpg hb h8, asks_run, happ]
    by_cases hlast : k + 1 = bs.length
    · rw [hlast, List.take_length, hd]
    · rw [hm (k+1) (by omega)]
      exact ih (k + 1) (by omega) (by omega)

end Sys2Proof.Machine
end

