-- ==== Sys2Proof/Laws/KeepsInstr.lean ====
section
/-! SUPPORT. A property closed under the changes of `Closed` is kept by every instruction and by every step. -/

namespace Sys2Proof.Machine

variable {α β : Type} {P : State → Prop}

/-- The instruction pointer is nothing to the property. -/
def AnyPc (P : State → Prop) : Prop := ∀ (s : State) (e : Dword), P s → P { s with eip := e }

/-- The property, and an instruction pointer for the next instruction that fits the mode (`10_state.md` R25), unless it
is nothing to the property. -/
def Ready (P : State → Prop) (s : State) : Prop :=
  P s ∧ ((s.like8086 = true → s.next.toNat ≤ 0xFFFF) ∨ AnyPc P)

/-- Then the instruction pointer can move on. -/
theorem Ready.toNext (hc : ClosedCore P) {s : State} (h : Ready P s) : P { s with eip := s.next } := by
  rcases h with ⟨h, h' | h'⟩
  · exact hc.eip _ h' h
  · exact h' _ _ h

theorem Keeps.ready {m : M α} (hs : Stacks m) (hk : Keeps P m) : Keeps (Ready P) m := by
  intro s a s' hp e
  refine ⟨hk _ _ _ hp.1 e, hp.2.imp_left fun h h8 => ?_⟩
  rw [hs.next e]
  rw [hs.like8086 e] at h8
  exact h h8

/-- What ends well leads from `Ready P` to `P`. -/
def Ends (P : State → Prop) (m : M α) : Prop := ∀ s a s', Ready P s → m s = .ok a s' → P s'

theorem Keeps.ends {m : M α} (h : Keeps P m) : Ends P m := fun s a s' hp e => h s a s' hp.1 e

theorem Ends.bind {m : M α} {k : α → M β} (h : Keeps (Ready P) m) (hk : ∀ a, Ends P (k a)) : Ends P (m >>= k) := by
  intro s b s' hp e
  obtain ⟨a, s1, e1, e2⟩ := bind_ok e
  exact hk a _ _ _ (h _ _ _ hp e1) e2

theorem Ends.then {m : M α} {k : α → M β} (h : Ends P m) (hk : ∀ a, Keeps P (k a)) : Ends P (m >>= k) := by
  intro s b s' hp e
  obtain ⟨a, s1, e1, e2⟩ := bind_ok e
  exact hk a _ _ _ (h _ _ _ hp e1) e2

theorem toNext_ends (hc : ClosedCore P) : Ends P toNext := fun s _ _ hp e => by
  cases e
  exact hp.toNext hc

theorem drawStatus_ready (hc : ClosedCore P) : Keeps (Ready P) drawStatus := fun s _ _ hp e => by
  cases e
  exact ⟨hc.free _ (hc.flags (s.flags.setStatus (Config.freeWord s.free)) (.inl rfl) hp.1), hp.2⟩

theorem ready_same {m : M α} (h : ∀ s a s', m s = .ok a s' → s' = s) : Keeps (Ready P) m := .same h

theorem ready_gpr (hc : ClosedCore P) (f : State → GRegs) : Keeps (Ready P) (update fun s => { s with gpr := f s }) :=
  .update fun _ h => ⟨hc.gpr _ h.1, h.2⟩

/-! ## Near transfers -/

theorem nearJump_ends (hc : ClosedCore P) (sz : OpSize) (disp : Dword) : Ends P (nearJump sz disp) := by
  intro s a s' hp e
  unfold nearJump at e
  obtain ⟨_, s1, e1, e⟩ := bind_ok e
  cases e1
  obtain ⟨_, s1, e1, ef⟩ := bind_ok e
  obtain ⟨rfl, hle⟩ := checkTarget_ok e1
  cases ef
  exact hc.flush (hc.eip _ hle hp.1)

theorem nearCall_ends (hc : ClosedCore P) (sz : OpSize) (disp : Dword) : Ends P (nearCall sz disp) := by
  intro s a s' hp e
  unfold nearCall at e
  obtain ⟨_, s1, e1, e⟩ := bind_ok e
  cases e1
  obtain ⟨_, s1, e1, e⟩ := bind_ok e
  have h1 := push_keeps hc _ _ _ _ _ _ hp.1 e1
  obtain ⟨_, s2, e2, ef⟩ := bind_ok e
  obtain ⟨rfl, hle⟩ := checkTarget_ok e2
  cases ef
  exact hc.eip _ hle h1

/-! ## Far transfers -/

theorem farToCode_closed (hc : ClosedCore P) {s : State} (c : Config.FarCode) (hl : s.like8086 = false) (hp : P s) :
    P (s.farToCode c) := hc.prot (s := s) (s.seg.set .cs c.cs) false c.eip c.cpl hl hp

theorem farTables_keeps (hc : ClosedCore P) (c : Config.FarCode) : Keeps P (farTables c) :=
  .bind (.update fun _ h => hc.noteReads _ h) fun _ => storeBytes_keeps hc _

theorem pushList_keeps (hc : ClosedCore P) (n : Nat) (l : List Dword) : Keeps P (pushList n l) := by
  induction l with
  | nil => exact .pure _
  | cons v t ih => exact .bind (push_keeps hc _ _ _) fun _ => ih

theorem toCallStack_closed (hc : ClosedCore P) {s : State} (c : Config.FarCode) (inner : Option (SegReg × Dword))
    (hl : s.like8086 = false) (hp : P s) : P (s.toCallStack c inner) ∧ (s.toCallStack c inner).like8086 = false := by
  cases inner with
  | none => exact ⟨hc.prot s.seg s.latch s.eip c.cpl hl hp, hl⟩
  | some p => exact ⟨hc.gpr _ (hc.prot (s.seg.set .ss p.1) s.latch s.eip c.cpl hl hp), hl⟩

theorem farCallCode_keeps (hc : ClosedCore P) (c : Config.FarCode) (z : OpSize) (inner : Option (SegReg × Dword))
    (args : List Dword) {s s' : State} {u : Unit} (hl : s.like8086 = false) (hp : P s)
    (e : farCallCode c z inner args s = .ok u s') : P s' := by
  unfold farCallCode at e
  obtain ⟨_, s1, e1, e⟩ := bind_ok e
  obtain ⟨_, s2, e2, e⟩ := bind_ok e
  cases e2
  obtain ⟨_, s2, e2, e⟩ := bind_ok e
  obtain ⟨_, s3, e3, e4⟩ := bind_ok e
  have h1 := farTables_keeps hc _ _ _ _ hp e1
  have hl1 : s1.like8086 = false := by rw [(farTables_stores _).stacks.like8086 e1]; exact hl
  cases e2
  obtain ⟨h2, hl2⟩ := toCallStack_closed hc c inner hl1 h1
  have h3 := pushList_keeps hc _ _ _ _ _ h2 e3
  cases e4
  exact farToCode_closed hc c (by rw [(pushList_stacks _ _).like8086 e3]; exact hl2) h3

theorem pe_of_not8086 {s : State} (hl : s.like8086 = false) : s.cr0.pe = true := (mode_prot (mode_of_not8086 hl)).1

theorem instrTaskSwitch_keeps (hc : ClosedCore P) (t : Config.TaskSwitch) {s s' : State} {u : Unit}
    (hl : s.like8086 = false) (hp : P s) (e : instrTaskSwitch t s = .ok u s') : P s' := by
  unfold instrTaskSwitch at e
  obtain ⟨_, s1, e1, e⟩ := bind_ok e
  cases e1
  obtain ⟨_, s1, e1, e⟩ := bind_ok e
  cases e1
  exact taskSwitch_keeps hc _ _ _ (pe_of_not8086 hl) hp e

theorem farJumpOutcome_keeps (hc : ClosedCore P) (r : Config.FarJump) {s s' : State} {b : Bool}
    (hl : s.like8086 = false) (hp : P s) (e : farJumpOutcome r s = .ok b s') : P s' := by
  cases r with
  | code c =>
    obtain ⟨_, s1, e1, e⟩ := bind_ok e
    have h1 := farTables_keeps hc _ _ _ _ hp e1
    cases e
    exact farToCode_closed hc c (by rw [(farTables_stores _).stacks.like8086 e1]; exact hl) h1
  | task t =>
    obtain ⟨_, s1, e1, e⟩ := bind_ok e
    cases e
    exact instrTaskSwitch_keeps hc t hl hp e1
  | fault v code lin => cases e

theorem farCallOutcome_keeps (hc : ClosedCore P) (r : Config.FarCall) {s s' : State} {b : Bool}
    (hl : s.like8086 = false) (hp : P s) (e : farCallOutcome r s = .ok b s') : P s' := by
  cases r with
  | code c z inner args =>
    obtain ⟨_, s1, e1, e⟩ := bind_ok e
    cases e
    exact farCallCode_keeps hc c z inner args hl hp e1
  | task t =>
    obtain ⟨_, s1, e1, e⟩ := bind_ok e
    cases e
    exact instrTaskSwitch_keeps hc t hl hp e1
  | fault v code lin => cases e

theorem farJumpTo_keeps (hc : ClosedCore P) (sel : Selector) (off : Dword) : Keeps P (farJumpTo sel off) := by
  intro s a s' hp e
  unfold farJumpTo at e
  obtain ⟨_, s1, e1, e⟩ := bind_ok e
  cases e1
  split at e
  · obtain ⟨_, s1, e1, ef⟩ := bind_ok e
    obtain ⟨rfl, hle⟩ := checkTarget_ok e1
    cases ef
    exact hc.far _ _ hle hp
  · rename_i hl
    obtain ⟨_, s1, e1, e⟩ := bind_ok e
    cases e1
    obtain ⟨_, s1, e1, e⟩ := bind_ok e
    cases e1
    exact farJumpOutcome_keeps hc _ (by exact Bool.eq_false_iff.mpr hl) (hc.free _ hp) e

theorem farJump_keeps (hc : ClosedCore P) (sel : Selector) (off : Dword) : Keeps P (farJump sel off) :=
  .bind (farJumpTo_keeps hc _ _) fun _ => .bind (.update fun _ h => hc.flush h) fun _ => .pure _

theorem farCall_keeps (hc : ClosedCore P) (sz : OpSize) (sel : Selector) (off : Dword) : Keeps P (farCall sz sel off) := by
  intro s a s' hp e
  unfold farCall at e
  obtain ⟨_, s1, e1, e⟩ := bind_ok e
  cases e1
  split at e
  · obtain ⟨_, s1, e1, e⟩ := bind_ok e
    cases e1
    obtain ⟨_, s1, e1, e⟩ := bind_ok e
    have h1 := push_keeps hc _ _ _ _ _ _ hp e1
    obtain ⟨_, s2, e2, e⟩ := bind_ok e
    cases e2
    obtain ⟨_, s2, e2, e⟩ := bind_ok e
    have h2 := push_keeps hc _ _ _ _ _ _ h1 e2
    obtain ⟨_, s3, e3, ef⟩ := bind_ok e
    obtain ⟨rfl, hle⟩ := checkTarget_ok e3
    cases ef
    exact hc.far _ _ hle h2
  · rename_i hl
    obtain ⟨_, s1, e1, e⟩ := bind_ok e
    cases e1
    obtain ⟨_, s1, e1, e⟩ := bind_ok e
    cases e1
    exact farCallOutcome_keeps hc _ (by exact Bool.eq_false_iff.mpr hl) (hc.free _ hp) e

theorem farJumpMem_keeps (hc : ClosedCore P) (sz : OpSize) (m : MemOp) : Keeps P (farJumpMem sz m) :=
  .bind (readFarPtr_keeps hc _ _) fun _ => farJump_keeps hc _ _

theorem farCallMem_keeps (hc : ClosedCore P) (sz : OpSize) (m : MemOp) : Keeps P (farCallMem sz m) :=
  .bind (readFarPtr_keeps hc _ _) fun _ => farCall_keeps hc _ _ _

/-! ## Segment loads and table registers -/

theorem loadSegment_ready (hc : ClosedCore P) (r : SReg) (hr : r ≠ .cs) (v : Selector) :
    Keeps (Ready P) (loadSegment r v) := by
  intro s a s' hp e
  unfold loadSegment at e
  obtain ⟨_, s1, e1, e⟩ := bind_ok e
  cases e1
  split at e
  · cases e
    exact ⟨hc.load r v hr hp.1, hp.2⟩
  · rename_i hl
    have hl' : s.like8086 = false := Bool.eq_false_iff.mpr hl
    obtain ⟨_, s1, e1, e⟩ := bind_ok e
    cases e1
    obtain ⟨_, s1, e1, e⟩ := bind_ok e
    cases e1
    generalize Config.loadDescriptor _ _ _ = d at e
    cases d with
    | fault x code lin => cases e
    | loaded base limit rights big usable reads stores =>
      obtain ⟨_, s0, e0, e⟩ := bind_ok e
      cases e0
      obtain ⟨_, s1, e1, e⟩ := bind_ok e
      have h1 := storeBytes_keeps hc _ _ _ _ (hc.noteReads reads (hc.free (s.free + 1) hp.1)) e1
      have hl1 : s1.like8086 = false := by
        rw [(storeBytes_stores _).stacks.like8086 e1, noteReads_like8086]
        exact hl'
      cases e
      refine ⟨hc.prot _ s1.latch s1.eip s1.cpl hl1 h1, .inl fun h => ?_⟩
      exact absurd (hl1.symm.trans h) (by decide)

theorem movSreg_ends (hc : ClosedCore P) (r : SReg) (hr : r ≠ .cs) (src : Rm16) : Ends P (movSreg r src) :=
  .bind (.ready (readRm16_reads _).stores.stacks (readRm16_keeps hc _)) fun _ =>
    .bind (loadSegment_ready hc _ hr _) fun _ => toNext_ends hc

theorem movSs_ends (hc : ClosedCore P) (src : Rm16) : Ends P (movSs src) :=
  .then (movSreg_ends hc _ (by decide) _) fun _ => .bind (.update fun _ h => hc.hold _ h) fun _ => .pure _

theorem lidtBody_ends (hc : Closed P) (sz : OpSize) (m : MemOp) : Ends P (lidtBody sz m) :=
  .bind .requireLevel0 fun _ => .bind (.ready (readTable_reads _ _).stores.stacks (readTable_keeps hc.toClosedCore _ _)) fun t =>
    .bind (.update fun s h => ⟨hc.tables t s.gdtr h.1, h.2⟩) fun _ => toNext_ends hc.toClosedCore

theorem lgdtBody_ends (hc : Closed P) (sz : OpSize) (m : MemOp) : Ends P (lgdtBody sz m) :=
  .bind .requireLevel0 fun _ => .bind (.ready (readTable_reads _ _).stores.stacks (readTable_keeps hc.toClosedCore _ _)) fun t =>
    .bind (.update fun s h => ⟨hc.tables s.idtr t h.1, h.2⟩) fun _ => toNext_ends hc.toClosedCore

/-! ## Control registers -/

theorem draw_ready (hc : ClosedCore P) : Keeps (Ready P) draw := fun s _ _ hp e => by
  cases e
  exact ⟨hc.free _ hp.1, hp.2⟩

theorem finishRead_ends (hc : ClosedCore P) (r : Reg) (v mask : Dword) : Ends P (finishRead r v mask) :=
  .bind (draw_ready hc) fun w => .bind (ready_gpr hc fun s => s.gpr.set r (drawBits v w mask)) fun _ =>
    .bind (drawStatus_ready hc) fun _ => toNext_ends hc

theorem finishWrite_ends (hc : ClosedCore P) : Ends P finishWrite :=
  .bind (drawStatus_ready hc) fun _ => toNext_ends hc

theorem writeCr0_ready (hc : Closed P) {s : State} (v : Cr0) (h1 : v.pg = true → v.pe = true ∨ s.cr0.pg = true)
    (h2 : s.cr0.pe = true → v.pe = true) (hp : Ready P s) : Ready P (s.writeCr0 v) := by
  refine ⟨hc.cr0 v h1 h2 hp.1, hp.2.imp_left fun hn h => ?_⟩
  rw [writeCr0_next]
  apply hn
  cases hpe : s.cr0.pe with
  | false => exact like8086_real hpe
  | true =>
    have hvpe := h2 hpe
    unfold State.writeCr0 at h
    simpa [hpe, hvpe, State.like8086, State.mode] using h

theorem movFromCr0_ends (hc : ClosedCore P) (r : Reg) : Ends P (movFromCr0 r) :=
  .bind .requireLevel0 fun _ => .bind (.asks _) fun _ => finishRead_ends hc _ _ _

theorem movFromCr3_ends (hc : ClosedCore P) (r : Reg) : Ends P (movFromCr3 r) :=
  .bind .requireLevel0 fun _ => .bind (.asks _) fun _ => finishRead_ends hc _ _ _

theorem checkCr0_ok {s s' : State} {v : Cr0} {u : Unit} (h : checkCr0 v s = .ok u s') :
    s' = s ∧ (v.pg = true → v.pe = true) ∧ (s.cr0.pe = true → v.pe = true) := by
  unfold checkCr0 at h
  split at h
  · cases h
  · split at h
    · cases h
    · cases h
      refine ⟨rfl, ?_, ?_⟩ <;> intro hx <;> simp_all

theorem movToCr0_ends (hc : Closed P) (r : Reg) : Ends P (movToCr0 r) := by
  refine .bind .requireLevel0 fun _ => .bind (.asks _) fun v => ?_
  intro s a s' hp e
  obtain ⟨_, s1, e1, ef⟩ := bind_ok e
  obtain ⟨rfl, h1, h2⟩ := checkCr0_ok e1
  obtain ⟨_, s2, e2, eg⟩ := bind_ok ef
  cases e2
  exact finishWrite_ends hc.toClosedCore _ _ _ (writeCr0_ready hc v (fun h => .inl (h1 h)) h2 hp) eg

theorem movToCr3_ends (hc : ClosedCore P) (r : Reg) : Ends P (movToCr3 r) :=
  .bind .requireLevel0 fun _ => .bind (.update fun _ h => ⟨hc.cr3 _ h.1, h.2⟩) fun _ => finishWrite_ends hc

theorem lmswBody_ends (hc : Closed P) (src : Rm16) : Ends P (lmswBody src) :=
  .bind .requireLevel0 fun _ => .bind (.ready (readRm16_reads _).stores.stacks (readRm16_keeps hc.toClosedCore _)) fun w =>
    .bind (.update fun s h => writeCr0_ready hc _
      (fun hpg => .inr hpg)
      (fun hpe => by simp [Cr0.lmsw, hpe]) h) fun _ => toNext_ends hc.toClosedCore

/-! ## Test registers -/

theorem storedBit_ready (hc : ClosedCore P) (x xn : Bool) : Keeps (Ready P) (storedBit x xn) := by
  unfold storedBit
  split
  · exact .pure _
  · exact .bind (draw_ready hc) fun _ => .pure _

theorem tlbSlot_mod (b : BitVec 2) (i : BitVec 3) : (tlbSlot b i).val % 8 = i.toNat := by
  have := i.isLt
  simp only [tlbSlot]
  omega

theorem tlbWrite_ready (hc : Closed P) : Keeps (Ready P) tlbWrite := by
  refine .bind (.asks _) fun t6 => .bind (.asks _) fun t7 => .ite (.refuse _) (.bind (storedBit_ready hc.toClosedCore _ _) fun d =>
    .bind (storedBit_ready hc.toClosedCore _ _) fun u => .bind (storedBit_ready hc.toClosedCore _ _) fun w => ?_)
  intro s a s' hp e
  obtain ⟨_, s1, e1, e⟩ := bind_ok e
  cases e1
  obtain ⟨_, s1, e1, e⟩ := bind_ok e
  cases e1
  split at e
  · cases e
  · rename_i hd
    cases e
    refine ⟨hc.tests _ _ _ (hc.tlb _ _ rfl (tlbSlot_mod _ _).symm (fun hv => ?_) hp.1), hp.2⟩
    simpa [show t6.v = true from hv] using hd

theorem lookupUndetermined_ready (hc : Closed P) : Keeps (Ready P) lookupUndetermined :=
  .bind (draw_ready hc.toClosedCore) fun _ => .bind (draw_ready hc.toClosedCore) fun _ => .update fun _ h => ⟨hc.tests _ _ _ h.1, h.2⟩

theorem tlbLookup_ready (hc : Closed P) : Keeps (Ready P) tlbLookup := by
  refine .bind (.asks _) fun ok => .ite (.bind (.asks _) fun found => ?_) (lookupUndetermined_ready hc)
  split
  · exact .update fun _ h => ⟨hc.tests _ _ _ h.1, h.2⟩
  · exact .bind (draw_ready hc.toClosedCore) fun _ => .update fun s h => ⟨hc.tests s.tr6 _ _ h.1, h.2⟩
  · exact lookupUndetermined_ready hc

theorem movFromTr6_ends (hc : ClosedCore P) (r : Reg) : Ends P (movFromTr6 r) :=
  .bind .requireLevel0 fun _ => .bind (.asks _) fun _ => finishRead_ends hc _ _ _

theorem movFromTr7_ends (hc : ClosedCore P) (r : Reg) : Ends P (movFromTr7 r) :=
  .bind .requireLevel0 fun _ => .bind (.asks _) fun _ => .bind (.asks _) fun _ => finishRead_ends hc _ _ _

theorem movToTr6_ends (hc : Closed P) (r : Reg) : Ends P (movToTr6 r) := by
  refine .bind .requireLevel0 fun _ => .bind (.update fun s h => ⟨hc.tests _ s.tr7 s.tlbMissed h.1, h.2⟩) fun _ =>
    .bind (.asks _) fun c => .bind ?_ fun _ => finishWrite_ends hc.toClosedCore
  cases c with
  | true => exact tlbLookup_ready hc
  | false => exact tlbWrite_ready hc

theorem movToTr7_ends (hc : Closed P) (r : Reg) : Ends P (movToTr7 r) :=
  .bind .requireLevel0 fun _ => .bind (.update fun s h => ⟨hc.tests s.tr6 _ s.tlbMissed h.1, h.2⟩) fun _ =>
    finishWrite_ends hc.toClosedCore

/-! ## Debug registers -/

theorem requireDebugAccess_ok {s s' : State} {u : Unit} (h : requireDebugAccess s = .ok u s') :
    s' = s ∧ s.level = 0 ∧ gd s.dr7 = false := by
  unfold requireDebugAccess at h
  split at h
  · split at h
    · cases h
    · rename_i h0 hg
      cases h
      exact ⟨rfl, h0, by simpa using hg⟩
  · cases h

theorem requireDebug_ready : Keeps (Ready P) requireDebugAccess := .same fun _ _ _ e => (requireDebugAccess_ok e).1

theorem movFromDr03_ends (hc : ClosedCore P) (r : Reg) (n : Fin 4) : Ends P (movFromDr03 r n) :=
  .bind requireDebug_ready fun _ => .bind (.asks _) fun v => .bind (ready_gpr hc fun s => s.gpr.set r v) fun _ =>
    finishWrite_ends hc

theorem movFromDr67_ends (hc : ClosedCore P) (r : Reg) (n : Dr67) : Ends P (movFromDr67 r n) :=
  .bind requireDebug_ready fun _ => .bind (.asks _) fun _ => finishRead_ends hc _ _ _

theorem movToDr03_ends (hc : Closed P) (n : Fin 4) (r : Reg) : Ends P (movToDr03 n r) :=
  .bind requireDebug_ready fun _ => .bind (.update fun s h => ⟨hc.dr n _ h.1, by simpa using h.2⟩) fun _ =>
    finishWrite_ends hc.toClosedCore

theorem writeDr67_ready (hc : Closed P) (n : Dr67) (v : Dword) : Keeps (Ready P) (writeDr67 n v) := by
  cases n with
  | dr6 => exact .update fun _ h => ⟨hc.dr6 v h.1, h.2⟩
  | dr7 =>
    intro s a s' hp e
    obtain ⟨_, s1, e1, e⟩ := bind_ok e
    unfold checkDr7 at e1
    split at e1
    · cases e1
    · split at e1
      · cases e1
      · rename_i h1 h2
        cases e1
        cases e
        exact ⟨hc.dr7 v (by simpa using h1) (by simpa using h2) hp.1, hp.2⟩

theorem movToDr67_ends (hc : Closed P) (n : Dr67) (r : Reg) : Ends P (movToDr67 n r) :=
  .bind requireDebug_ready fun _ => .bind (.asks _) fun _ => .bind (writeDr67_ready hc _ _) fun _ => finishWrite_ends hc.toClosedCore

/-! ## Return -/

theorem iretReal_keeps (hc : ClosedCore P) (sz : OpSize) : Keeps P (iretReal sz) := by
  refine .bind (pop_keeps hc _) fun off => .bind (pop_keeps hc _) fun sel => .bind (pop_keeps hc _) fun fl => ?_
  intro s a s' hp e
  obtain ⟨_, s1, e1, ef⟩ := bind_ok e
  obtain ⟨rfl, hle⟩ := checkTarget_ok e1
  cases ef
  have := hc.far (low16 sel) off hle hp
  exact hc.flags (s1.flags.iretReal sz fl) (.inl (by cases sz <;> rfl)) this

theorem iretToV86_keeps (hc : ClosedCore P) (off sel fl : Dword) (hv : (Eflags.ofWord fl).vm = true) {s s' : State} {b : Bool}
    (hpe : s.cr0.pe = true) (hp : P s) (e : iretToV86 off sel fl s = .ok b s') : P s' := by
  unfold iretToV86 at e
  obtain ⟨_, s1, e1, e⟩ := bind_ok e
  obtain ⟨_, s2, e2, e⟩ := bind_ok e
  obtain ⟨_, s3, e3, e⟩ := bind_ok e
  obtain ⟨_, s4, e4, e⟩ := bind_ok e
  obtain ⟨_, s5, e5, e⟩ := bind_ok e
  obtain ⟨_, s6, e6, e⟩ := bind_ok e
  have k := pop_keeps hc 4
  have l := pop_stacks 4
  have h6 := k _ _ _ (k _ _ _ (k _ _ _ (k _ _ _ (k _ _ _ (k _ _ _ hp e1) e2) e3) e4) e5) e6
  have hpe6 : s6.cr0.pe = true := by
    rw [l.cr0 e6, l.cr0 e5, l.cr0 e4, l.cr0 e3, l.cr0 e2, l.cr0 e1]
    exact hpe
  cases e
  exact hc.gpr _ (hc.v86 (Eflags.ofWord fl) off _ _ _ _ _ _ hpe6 hv h6)

theorem iretStack_keeps (hc : ClosedCore P) (n : Nat) (outer : Option SegReg) {s s' : State} {u : Unit}
    (hl : s.like8086 = false) (hp : P s) (e : iretStack n outer s = .ok u s') : P s' ∧ s'.like8086 = false := by
  cases outer with
  | none => cases e; exact ⟨hp, hl⟩
  | some ss =>
    obtain ⟨esp, s1, e1, e⟩ := bind_ok e
    obtain ⟨sel, s2, e2, e⟩ := bind_ok e
    have h2 := pop_keeps hc _ _ _ _ (pop_keeps hc _ _ _ _ hp e1) e2
    have hl2 : s2.like8086 = false := by
      rw [(pop_stacks _).like8086 e2, (pop_stacks _).like8086 e1]
      exact hl
    obtain ⟨_, s3, e3, e⟩ := bind_ok e
    cases e3
    cases e
    exact ⟨hc.gpr _ (hc.prot (s2.seg.set .ss { ss with selector := low16 sel }) s2.latch s2.eip s2.cpl hl2 h2), hl2⟩

theorem iretWithin_keeps (hc : ClosedCore P) (sz : OpSize) (off sel fl : Dword) {s s' : State} {b : Bool}
    (hl : s.like8086 = false) (hp : P s) (e : iretWithin sz off sel fl s = .ok b s') : P s' := by
  unfold iretWithin at e
  obtain ⟨_, s1, e1, e⟩ := bind_ok e
  cases e1
  obtain ⟨_, s1, e1, e⟩ := bind_ok e
  cases e1
  obtain ⟨_, s1, e1, e⟩ := bind_ok e
  have hvm : (s.flags.iretProt sz fl).vm = s.flags.vm := by cases sz <;> rfl
  have h1 : P s1 ∧ s1.like8086 = false := by
    cases e1
    refine ⟨hc.flags _ (.inl hvm) (hc.free _ hp), ?_⟩
    simp only [State.like8086, State.mode, hvm] at hl ⊢
    exact hl
  generalize Config.farReturn _ _ _ _ = r at e
  cases r with
  | fault v code lin => cases e
  | code c outer =>
    obtain ⟨_, s2, e2, e⟩ := bind_ok e
    obtain ⟨_, s3, e3, e⟩ := bind_ok e
    have h2 := farTables_keeps hc _ _ _ _ h1.1 e2
    have hl2 : s2.like8086 = false := by rw [(farTables_stores _).stacks.like8086 e2]; exact h1.2
    obtain ⟨h3, hl3⟩ := iretStack_keeps hc _ _ hl2 h2 e3
    cases e
    exact farToCode_closed hc c hl3 h3

theorem iretProt_keeps (hc : ClosedCore P) (sz : OpSize) {s s' : State} {b : Bool} (hm : s.mode = .prot) (hp : P s)
    (e : iretProt sz s = .ok b s') : P s' := by
  have hl : s.like8086 = false := by simp [State.like8086, hm]
  unfold iretProt at e
  obtain ⟨_, s1, e1, e⟩ := bind_ok e
  cases e1
  split at e
  · obtain ⟨_, s1, e1, e⟩ := bind_ok e
    cases e1
    generalize Config.taskReturn _ = r at e
    cases r with
    | fault v code lin => cases e
    | task t =>
      obtain ⟨_, s2, e2, e⟩ := bind_ok e
      cases e
      exact instrTaskSwitch_keeps hc t (by exact hl) (hc.free _ hp) e2
  · obtain ⟨_, s1, e1, e⟩ := bind_ok e
    obtain ⟨_, s2, e2, e⟩ := bind_ok e
    obtain ⟨fl, s3, e3, e⟩ := bind_ok e
    obtain ⟨_, s4, e4, e⟩ := bind_ok e
    cases e4
    have k := pop_keeps hc (sizeBytes sz)
    have l := pop_stacks (sizeBytes sz)
    have h3 := k _ _ _ (k _ _ _ (k _ _ _ hp e1) e2) e3
    have hl3 : s3.like8086 = false := by
      rw [l.like8086 e3, l.like8086 e2, l.like8086 e1]
      exact hl
    split at e
    · rename_i hv
      simp only [Bool.and_eq_true] at hv
      exact iretToV86_keeps hc _ _ _ hv.1.2 (pe_of_not8086 hl3) h3 e
    · exact iretWithin_keeps hc _ _ _ _ hl3 h3 e

theorem iretBody_keeps (hc : ClosedCore P) (sz : OpSize) : Keeps P (iretBody sz) := by
  intro s a s' hp e
  unfold iretBody at e
  obtain ⟨_, s1, e1, e⟩ := bind_ok e
  cases e1
  cases hm : s.mode with
  | real => rw [hm] at e; exact iretReal_keeps hc sz _ _ _ hp e
  | prot => rw [hm] at e; exact iretProt_keeps hc sz hm hp e
  | v86 => rw [hm] at e; cases e

/-! ## Instructions -/

theorem complete_closed (hc : ClosedCore P) {s : State} (s0 : State) (b : Bool) (hs : s0.flags.tf = true → Steps P)
    (hp : P s) : P (complete s0 b s) := by
  unfold complete
  have h1 := hc.flags { s.flags with rf := s.flags.rf && b } (.inl rfl) hp
  split
  · exact hs ‹_› h1
  · exact h1

theorem runInstr_keeps (hc : ClosedCore P) {isJmp : Bool} {body : M Bool} (hb : Ends P body) {s t : State}
    (hs : s.flags.tf = true → Steps P) (hp : Ready P s) (h : runInstr isJmp body s = .next t) : P t := by
  obtain ⟨_, ⟨rf, s', e, rfl⟩ | ⟨x, s', e, h⟩⟩ := runInstr_next h
  · exact complete_closed hc _ _ hs (hb _ _ _ hp e)
  · exact takeFault_keeps hc _ hp.1 h

theorem execInt3_keeps (hc : ClosedCore P) {s t : State} (hs : s.flags.tf = true → Steps P) (hp : Ready P s)
    (h : execInt3 s = .next t) : P t := by
  have h0 := hp.toNext hc
  unfold execInt3 at h
  split at h
  · cases h
  · split at h <;> cases h
    · exact complete_closed hc _ _ hs (deliver_keeps hc _ h0 ‹_›)
    · exact complete_closed hc _ _ hs (deliver_keeps hc _ h0 ‹_›)
    · exact deliver_keeps hc _ h0 ‹_›

/-- Every instruction keeps a closed property. -/
theorem exec_keeps (hc : Closed P) (i : Instr) {s t : State} (hs : s.flags.tf = true → Steps P)
    (hp : Ready P s) (h : exec i s = .next t) : P t := by
  cases i with
  | jmpRel8 sz d => exact runInstr_keeps hc.toClosedCore (nearJump_ends hc.toClosedCore _ _) hs hp h
  | jmpRel d => exact runInstr_keeps hc.toClosedCore (nearJump_ends hc.toClosedCore _ _) hs hp h
  | callRel d => exact runInstr_keeps hc.toClosedCore (nearCall_ends hc.toClosedCore _ _) hs hp h
  | jmpPtr p => exact runInstr_keeps hc.toClosedCore (farJump_keeps hc.toClosedCore _ _).ends hs hp h
  | callPtr p => exact runInstr_keeps hc.toClosedCore (farCall_keeps hc.toClosedCore _ _ _).ends hs hp h
  | jmpMem sz m => exact runInstr_keeps hc.toClosedCore (farJumpMem_keeps hc.toClosedCore _ _).ends hs hp h
  | callMem sz m => exact runInstr_keeps hc.toClosedCore (farCallMem_keeps hc.toClosedCore _ _).ends hs hp h
  | movEs src => exact runInstr_keeps hc.toClosedCore (movSreg_ends hc.toClosedCore .es (by decide) src) hs hp h
  | movSs src => exact runInstr_keeps hc.toClosedCore (movSs_ends hc.toClosedCore src) hs hp h
  | movDs src => exact runInstr_keeps hc.toClosedCore (movSreg_ends hc.toClosedCore .ds (by decide) src) hs hp h
  | movFs src => exact runInstr_keeps hc.toClosedCore (movSreg_ends hc.toClosedCore .fs (by decide) src) hs hp h
  | movGs src => exact runInstr_keeps hc.toClosedCore (movSreg_ends hc.toClosedCore .gs (by decide) src) hs hp h
  | lidt sz m => exact runInstr_keeps hc.toClosedCore (lidtBody_ends hc _ _) hs hp h
  | lgdt sz m => exact runInstr_keeps hc.toClosedCore (lgdtBody_ends hc _ _) hs hp h
  | movFromCr0 r => exact runInstr_keeps hc.toClosedCore (movFromCr0_ends hc.toClosedCore _) hs hp h
  | movFromCr3 r => exact runInstr_keeps hc.toClosedCore (movFromCr3_ends hc.toClosedCore _) hs hp h
  | movToCr0 r => exact runInstr_keeps hc.toClosedCore (movToCr0_ends hc _) hs hp h
  | movToCr3 r => exact runInstr_keeps hc.toClosedCore (movToCr3_ends hc.toClosedCore _) hs hp h
  | lmsw src => exact runInstr_keeps hc.toClosedCore (lmswBody_ends hc _) hs hp h
  | movFromDr03 r n => exact runInstr_keeps hc.toClosedCore (movFromDr03_ends hc.toClosedCore _ _) hs hp h
  | movFromDr67 r n => exact runInstr_keeps hc.toClosedCore (movFromDr67_ends hc.toClosedCore _ _) hs hp h
  | movToDr03 n r => exact runInstr_keeps hc.toClosedCore (movToDr03_ends hc _ _) hs hp h
  | movToDr67 n r => exact runInstr_keeps hc.toClosedCore (movToDr67_ends hc _ _) hs hp h
  | movFromTr6 r => exact runInstr_keeps hc.toClosedCore (movFromTr6_ends hc.toClosedCore _) hs hp h
  | movFromTr7 r => exact runInstr_keeps hc.toClosedCore (movFromTr7_ends hc.toClosedCore _) hs hp h
  | movToTr6 r => exact runInstr_keeps hc.toClosedCore (movToTr6_ends hc _) hs hp h
  | movToTr7 r => exact runInstr_keeps hc.toClosedCore (movToTr7_ends hc _) hs hp h
  | int3 => exact execInt3_keeps hc.toClosedCore hs hp h
  | iret sz => exact runInstr_keeps hc.toClosedCore (iretBody_keeps hc.toClosedCore _).ends hs hp h

/-! ## The boundary -/

theorem fetchLoop_keeps (hc : ClosedCore P) (fuel : Nat) (got : List Byte) : Keeps P (fetchLoop fuel got) := by
  induction fuel generalizing got with
  | zero => exact .refuse _
  | succ n ih =>
    refine .bind (.bind (.asks _) fun _ => .ite (.refuse _) (.bind (.asks _) fun _ => .bind (.asks _) fun _ =>
      .bind (translate_keeps hc _ _ _) fun _ => readPhys_keeps _)) fun b => .bind (.asks _) fun d => ?_
    split
    · exact .pure _
    · exact ih _
    · intro s a s' _ e
      unfold invalidOpcode at e
      split at e <;> cases e
    · exact .refuse _

/-- Everything before the execution of an instruction keeps a property closed under
`ClosedCore`, unless a RESET is presented. -/
theorem boundary_keeps_core (hc : ClosedCore P) {s : State} (hr : s.takeInput.1 = none) (hp : P s) :
    (∀ t, boundary s = .done (.next t) → P t) ∧ ∀ i t, boundary s = .run i t → Ready P t := by
  have fetch : ∀ {s}, P s → (∀ t, startStep s = .done (.next t) → P t) ∧ ∀ i t, startStep s = .run i t → Ready P t := by
    intro s hp0
    have hp : P s.noteFetch := hc.noteFetch hp0
    unfold startStep fetchStep
    split
    · rename_i h
      refine ⟨fun _ e => (nomatch e), fun i t e => ?_⟩
      cases e
      have h1 := fetchLoop_keeps hc _ _ _ _ _ hp h
      exact ⟨hc.next _ h1, .inl fun h8 => advance_le _ _ h8⟩
    · exact ⟨fun t e => takeFault_keeps hc _ hp (by injection e), fun _ _ e => (nomatch e)⟩
    · exact ⟨fun _ e => (nomatch e), fun _ _ e => (nomatch e)⟩
    · exact ⟨fun _ e => (nomatch e), fun _ _ e => (nomatch e)⟩
  have bp : ∀ {k : State → Boundary} {s}, P s →
      ((∀ t, k s = .done (.next t) → P t) ∧ ∀ i t, k s = .run i t → Ready P t) →
      (∀ t, breakpointStep k s = .done (.next t) → P t) ∧ ∀ i t, breakpointStep k s = .run i t → Ready P t := by
    intro k s hp hk
    unfold breakpointStep
    split
    · exact ⟨fun t e => raiseDebug_keeps hc _ _ hp (by injection e), fun _ _ e => (nomatch e)⟩
    · exact hk
  have ext : ∀ {v s t}, P s → deliverExternal v s = .next t → P t := fun hp h =>
    outcome_keeps (fun _ _ hd => deliver_keeps hc _ hp hd) (fun _ _ hs => hs) h
  have xs : ∀ {s}, P s → (∀ t, externalStep s = .done (.next t) → P t) ∧
      ∀ i t, externalStep s = .run i t → Ready P t := by
    intro s hp
    unfold externalStep
    split
    · rename_i v s' hx
      have hp' : P s' := by
        unfold State.external at hx
        split at hx
        · cases hx; exact hc.events _ _ _ hp
        · split at hx
          · split at hx
            · cases hx; exact hc.events _ _ _ hp
            · cases hx
          · cases hx
      exact ⟨fun t e => ext hp' (by injection e), fun _ _ e => (nomatch e)⟩
    · exact fetch hp
  have ev : ∀ {s}, P s → (∀ t, eventStep s = .done (.next t) → P t) ∧ ∀ i t, eventStep s = .run i t → Ready P t := by
    intro s hp
    unfold eventStep
    split
    · exact bp (hc.hold _ hp) (fetch (hc.hold _ hp))
    · split
      · exact ⟨fun t e => raiseDebug_keeps hc _ _ (hc.discard hp) (by injection e), fun _ _ e => (nomatch e)⟩
      · exact bp (hc.calm hp) (xs (hc.calm hp))
  have shut : ∀ {b s t}, P s → atShutdown b s = .next t → P t := by
    intro b s t hp e
    unfold atShutdown at e
    split at e
    · exact ext (hc.events false s.intr s.inputs (hc.run .running hp)) e
    · split at e <;> cases e
      exact hp
  unfold State.takeInput at hr
  unfold boundary State.takeInput
  cases hin : s.inputs with
  | nil =>
    simp only
    split
    · exact ⟨fun t e => shut hp (by injection e), fun _ _ e => (nomatch e)⟩
    · exact ev hp
  | cons p l =>
    have h1 := fun n i => hc.events n i l hp
    have hr : p.reset = none := by simpa only [hin] using hr
    simp only [hr]
    split
    · exact ⟨fun t e => shut (h1 _ _) (by injection e), fun _ _ e => (nomatch e)⟩
    · exact ev (h1 _ _)

/-- Everything before the execution of an instruction keeps a closed property. -/
theorem boundary_keeps (hc : Closed P) {s : State} (hp : P s) :
    (∀ t, boundary s = .done (.next t) → P t) ∧ ∀ i t, boundary s = .run i t → Ready P t := by
  cases hr : s.takeInput.1 with
  | none => exact boundary_keeps_core hc.toClosedCore hr hp
  | some q =>
    unfold State.takeInput at hr
    unfold boundary State.takeInput
    cases hin : s.inputs with
    | nil => simp [hin] at hr
    | cons p l =>
      have hr : p.reset = some q := by simpa only [hin] using hr
      simp only [hr]
      exact ⟨fun t e => by cases e; exact hc.reset q (hc.events _ _ l hp), fun _ _ e => (nomatch e)⟩

/-- Up to the execution of an instruction the mode and the privilege level stay. -/
theorem boundary_run {s t : State} {i : Instr} (h : boundary s = .run i t) :
    t.mode = s.mode ∧ t.level = s.level ∧ t.flags = s.flags ∧ t.dr7 = s.dr7 := by
  have fetch : ∀ {s}, startStep s = .run i t →
      t.mode = s.mode ∧ t.level = s.level ∧ t.flags = s.flags ∧ t.dr7 = s.dr7 := by
    intro s h
    unfold startStep fetchStep at h
    split at h
    · rename_i s' e
      cases h
      have r : Stacks fetchInstr := (fetchLoop_reads _ _).stores.stacks
      have hm := r.mode e
      have hf := r.flags e
      have h7 := r.dr7 e
      have hl : s'.level = s.level := by
        have hc := r.cpl e
        simp only [State.level]
        rw [hm, hc]
        rfl
      exact ⟨hm, hl, hf, h7⟩
    · cases h
    · cases h
    · cases h
  have bp : ∀ {k : State → Boundary} {s}, breakpointStep k s = .run i t → k s = .run i t := by
    intro k s h
    unfold breakpointStep at h
    split at h
    · cases h
    · exact h
  have xs : ∀ {s}, externalStep s = .run i t →
      t.mode = s.mode ∧ t.level = s.level ∧ t.flags = s.flags ∧ t.dr7 = s.dr7 := by
    intro s h
    unfold externalStep at h
    split at h
    · cases h
    · exact fetch h
  have ev : ∀ {s}, eventStep s = .run i t →
      t.mode = s.mode ∧ t.level = s.level ∧ t.flags = s.flags ∧ t.dr7 = s.dr7 := by
    intro s h
    unfold eventStep at h
    split at h
    · exact fetch (s := { s with holdOff := false }) (bp h)
    · split at h
      · cases h
      · exact xs (s := { s with quiet := 0 }) (bp h)
  unfold boundary State.takeInput at h
  cases hin : s.inputs with
  | nil =>
    simp only [hin] at h
    split at h
    · cases h
    · exact ev h
  | cons p l =>
    simp only [hin] at h
    cases hr : p.reset with
    | some q => rw [hr] at h; cases h
    | none =>
      rw [hr] at h
      simp only at h
      split at h
      · cases h
      · exact ev (s := { s with inputs := l, nmi := s.nmi || p.nmi, intr := _ }) h

/-! ## needsLevel0 instructions -/

theorem guarded_raise {k : Unit → M Bool} {s : State} (hs : s.prefetchStale = false) (hl : s.level ≠ 0) :
    runInstr false (requireLevel0 >>= k) s = takeFault (generalProtection 0) s s :=
  runInstr_raise (by simp [hs]) (by rw [bind_run, requireLevel0_raise hl])

theorem guarded_raise_debug {k : Unit → M Bool} {s : State} (hs : s.prefetchStale = false) (hl : s.level ≠ 0) :
    runInstr false (requireDebugAccess >>= k) s = takeFault (generalProtection 0) s s :=
  runInstr_raise (by simp [hs]) (by
    rw [bind_run, show requireDebugAccess s = .error (.exn (generalProtection 0)) s from if_neg hl])

/-- At another level a privileged instruction raises general protection. -/
theorem privileged_raise {i : Instr} {s : State} (hi : needsLevel0 i = true) (hs : s.prefetchStale = false)
    (hl : s.level ≠ 0) : exec i s = takeFault (generalProtection 0) s s := by
  cases i with
  | lidt | lgdt | movFromCr0 | movFromCr3 | movToCr0 | movToCr3 | lmsw | movFromTr6 | movFromTr7 | movToTr6
    | movToTr7 => exact guarded_raise hs hl
  | movFromDr03 | movFromDr67 | movToDr03 | movToDr67 => exact guarded_raise_debug hs hl
  | _ => cases hi

theorem stale_refused {i : Instr} {s t : State} (hi : needsLevel0 i = true) (h : exec i s = .next t) :
    s.prefetchStale = false := by
  cases hs : s.prefetchStale with
  | false => rfl
  | true =>
    have : ∀ body, runInstr false body s ≠ .next t := fun body e => by
      rw [runInstr_stale hs] at e
      cases e
    cases i with
    | lidt | lgdt | movFromCr0 | movFromCr3 | movToCr0 | movToCr3 | lmsw | movFromTr6 | movFromTr7 | movToTr6
      | movToTr7 | movFromDr03 | movFromDr67 | movToDr03 | movToDr67 => exact absurd h (this _)
    | _ => cases hi

/-- Outside level 0 every instruction keeps a property closed under `ClosedCore`. -/
theorem exec_keeps_core (hc : ClosedCore P) (i : Instr) {s t : State} (hs : s.flags.tf = true → Steps P) (hl : s.level ≠ 0)
    (hp : Ready P s)
    (h : exec i s = .next t) : P t := by
  cases hi : needsLevel0 i with
  | true => exact takeFault_keeps hc _ hp.1 (privileged_raise hi (stale_refused hi h) hl ▸ h)
  | false =>
    cases i with
    | jmpRel8 sz d => exact runInstr_keeps hc (nearJump_ends hc _ _) hs hp h
    | jmpRel d => exact runInstr_keeps hc (nearJump_ends hc _ _) hs hp h
    | callRel d => exact runInstr_keeps hc (nearCall_ends hc _ _) hs hp h
    | jmpPtr p => exact runInstr_keeps hc (farJump_keeps hc _ _).ends hs hp h
    | callPtr p => exact runInstr_keeps hc (farCall_keeps hc _ _ _).ends hs hp h
    | jmpMem sz m => exact runInstr_keeps hc (farJumpMem_keeps hc _ _).ends hs hp h
    | callMem sz m => exact runInstr_keeps hc (farCallMem_keeps hc _ _).ends hs hp h
    | movEs src => exact runInstr_keeps hc (movSreg_ends hc .es (by decide) src) hs hp h
    | movSs src => exact runInstr_keeps hc (movSs_ends hc src) hs hp h
    | movDs src => exact runInstr_keeps hc (movSreg_ends hc .ds (by decide) src) hs hp h
    | movFs src => exact runInstr_keeps hc (movSreg_ends hc .fs (by decide) src) hs hp h
    | movGs src => exact runInstr_keeps hc (movSreg_ends hc .gs (by decide) src) hs hp h
    | int3 => exact execInt3_keeps hc hs hp h
    | iret sz => exact runInstr_keeps hc (iretBody_keeps hc _).ends hs hp h
    | _ => cases hi

/-- Outside level 0, and without RESET, every step keeps a property closed under `ClosedCore`. -/
theorem step_keeps_core (hc : ClosedCore P) (hs : Steps P) {s t : State} (hl : s.level ≠ 0) (hr : s.takeInput.1 = none) (hp : P s)
    (h : step s = .next t) : P t := by
  unfold step at h
  have hb := boundary_keeps_core hc hr hp
  split at h
  · exact hb.1 _ (by rw [← h]; assumption)
  · rename_i i s' e
    exact exec_keeps_core hc i (fun _ => hs) (by rw [(boundary_run e).2.1]; exact hl) (hb.2 _ _ e) h

/-- Every step keeps a closed property. -/
theorem step_keeps (hc : Closed P) (hs : Steps P) {s t : State} (hp : P s)
    (h : step s = .next t) : P t := by
  unfold step at h
  have hb := boundary_keeps hc hp
  split at h
  · exact hb.1 _ (by rw [← h]; assumption)
  · exact exec_keeps hc _ (fun _ => hs) (hb.2 _ _ ‹_›) h

end Sys2Proof.Machine
end

