-- ==== Sys2Proof/Laws/Invariant.lean ====
section
/-! SUPPORT. Each part of the invariant of `Safety.lean` is closed under the changes of `Closed`. -/

namespace Sys2Proof.Machine

/-- Memory stays canonical. -/
theorem memOk_closed : Closed State.MemOk where
  free _ h := h
  note _ _ _ _ h := h
  discard h := h
  calm h := h
  fill b _ _ _ _ _ _ h := by cases b <;> exact h
  write p b h := Memory.wf_write b h p.isLt
  gpr _ h := h
  flags _ _ h := h
  load _ _ _ h := h
  far _ _ _ h := h
  prot _ _ _ _ _ h := h
  eip _ _ h := h
  tables _ _ h := h
  tests _ _ _ h := h
  tlb _ _ _ _ _ h := h
  dr n _ h := by unfold State.setDr; split <;> exact h
  dr6 _ h := h
  dr7 _ _ _ h := h
  gd h := by unfold State.clearGd; split <;> exact h
  locals h := h
  flush h := h
  cr0 _ _ _ h := by unfold State.writeCr0; split <;> exact h
  cr2 _ h := h
  cr3 _ h := h
  hold _ h := h
  events _ _ _ h := h
  run _ h := h
  next _ h := h
  tasks _ _ h := h
  enter _ _ _ _ h := h
  v86 _ _ _ _ _ _ _ _ _ _ h := h
  reset _ h := h

/-- The map of memory and the parameters never change. -/
theorem fixed_closed (m : List Region) (p : Config.Params) : Closed fun s => s.map = m ∧ s.params = p where
  free _ h := h
  note _ _ _ _ h := h
  discard h := h
  calm h := h
  fill b _ _ _ _ _ _ h := by cases b <;> exact h
  write p b h := h
  gpr _ h := h
  flags _ _ h := h
  load _ _ _ h := h
  far _ _ _ h := h
  prot _ _ _ _ _ h := h
  eip _ _ h := h
  tables _ _ h := h
  tests _ _ _ h := h
  tlb _ _ _ _ _ h := h
  dr n _ h := by unfold State.setDr; split <;> exact h
  dr6 _ h := h
  dr7 _ _ _ h := h
  gd h := by unfold State.clearGd; split <;> exact h
  locals h := h
  flush h := h
  cr0 _ _ _ h := by unfold State.writeCr0; split <;> exact h
  cr2 _ h := h
  cr3 _ h := h
  hold _ h := h
  events _ _ _ h := h
  run _ h := h
  next _ h := h
  tasks _ _ h := h
  enter _ _ _ _ h := h
  v86 _ _ _ _ _ _ _ _ _ _ h := h
  reset _ h := h

/-! ## DR7 -/

theorem bpEnabled_and {v m : Dword} {n : Fin 4} (h : bpEnabled (v &&& m) n = true) : bpEnabled v n = true := by
  simp only [bpEnabled, BitVec.getLsbD_and, Bool.or_eq_true, Bool.and_eq_true] at h ⊢
  exact h.imp And.left And.left

/-- The high word of DR7, where LEN and RW stand, does not change. -/
theorem bp_fields_and {v m : Dword} (n : Fin 4) (h : m.extractLsb' 16 16 = 0xFFFF) :
    bpLen (v &&& m) n = bpLen v n ∧ bpRw (v &&& m) n = bpRw v n := by
  have hm : ∀ i, 16 ≤ i → i < 32 → m.getLsbD i = true := by
    intro i h1 h2
    have := congrArg (fun w : BitVec 16 => w.getLsbD (i - 16)) h
    simp only [BitVec.getLsbD_extractLsb', show i - 16 < 16 by omega, decide_true, Bool.true_and,
      show 16 + (i - 16) = i by omega] at this
    rw [this]
    have h3 : i - 16 < 16 := by omega
    generalize i - 16 = k at h3 ⊢
    revert k
    decide
  have key : ∀ st, 16 ≤ st → st + 2 ≤ 32 → (v &&& m).extractLsb' st 2 = v.extractLsb' st 2 := by
    intro st h1 h2
    apply BitVec.eq_of_getLsbD_eq
    intro i hi
    simp only [BitVec.getLsbD_extractLsb', BitVec.getLsbD_and, hm (st + i) (by omega) (by omega), Bool.and_true]
  have := n.isLt
  exact ⟨key _ (by omega) (by omega), key _ (by omega) (by omega)⟩

theorem dr7Ok_and {v m : Dword} (hm : m.extractLsb' 16 16 = 0xFFFF) (h : bpReserved v = false ∧ bpBadLength v = false) :
    bpReserved (v &&& m) = false ∧ bpBadLength (v &&& m) = false := by
  simp only [bpReserved, bpBadLength, List.any_eq_false, List.mem_finRange, true_implies, Bool.and_eq_true,
    not_and] at h ⊢
  constructor <;> intro n
  · rw [(bp_fields_and n hm).1, (bp_fields_and n hm).2]
    exact fun he => h.1 n (bpEnabled_and he)
  · rw [(bp_fields_and n hm).1, (bp_fields_and n hm).2]
    exact fun he => h.2 n ⟨bpEnabled_and he.1, he.2⟩

/-- DR7 keeps a legal value. -/
theorem dr7Ok_closed : Closed State.Dr7Ok where
  free _ h := h
  note _ _ _ _ h := h
  discard h := h
  calm h := h
  fill b _ _ _ _ _ _ h := by cases b <;> exact h
  write p b h := h
  gpr _ h := h
  flags _ _ h := h
  load _ _ _ h := h
  far _ _ _ h := h
  prot _ _ _ _ _ h := h
  eip _ _ h := h
  tables _ _ h := h
  tests _ _ _ h := h
  tlb _ _ _ _ _ h := h
  dr n _ h := by unfold State.setDr; split <;> exact h
  dr6 _ h := h
  dr7 _ h1 h2 _ := ⟨h1, h2⟩
  gd h := by
    unfold State.clearGd
    split
    · exact dr7Ok_and (by decide) h
    · exact h
  locals h := dr7Ok_and (by decide) h
  flush h := h
  cr0 _ _ _ h := by unfold State.writeCr0; split <;> exact h
  cr2 _ h := h
  cr3 _ h := h
  hold _ h := h
  events _ _ _ h := h
  run _ h := h
  next _ h := h
  tasks _ _ h := h
  enter _ _ _ _ h := h
  v86 _ _ _ _ _ _ _ _ _ _ h := h
  reset _ _ := (by decide : bpReserved 0 = false ∧ bpBadLength 0 = false)

/-! ## T -/

theorem or_masked {x y m : Dword} (hx : x &&& m = 0) (hy : y &&& m = 0) : (x ||| y) &&& m = 0 := by
  rw [BitVec.and_or_distrib_right, hx, hy]
  rfl

theorem mask_weaken {x : Dword} (h : x &&& 0xFFFF7FF0 = 0) : x &&& 0xFFFF3FF0 = 0 := by
  rw [show (0xFFFF3FF0 : Dword) = 0xFFFF7FF0 &&& 0xFFFF3FF0 from rfl, ← BitVec.and_assoc, h]
  rfl

/-- T keeps to its bits. -/
theorem trapsOk_closed : Closed State.TrapsOk where
  free _ h := h
  note x _ hx hy h := ⟨or_masked h.1 (mask_weaken hx), or_masked h.2 hy⟩
  discard _ := (by decide : (0 : Dword) &&& 0xFFFF3FF0 = 0 ∧ (0 : Dword) &&& 0xFFFFFFF0 = 0)
  calm h := ⟨h.1, (by decide : (0 : Dword) &&& 0xFFFFFFF0 = 0)⟩
  fill b _ _ _ _ _ _ h := by cases b <;> exact h
  write p b h := h
  gpr _ h := h
  flags _ _ h := h
  load _ _ _ h := h
  far _ _ _ h := h
  prot _ _ _ _ _ h := h
  eip _ _ h := h
  tables _ _ h := h
  tests _ _ _ h := h
  tlb _ _ _ _ _ h := h
  dr n _ h := by unfold State.setDr; split <;> exact h
  dr6 _ h := h
  dr7 _ _ _ h := h
  gd h := by unfold State.clearGd; split <;> exact h
  locals h := h
  flush h := h
  cr0 _ _ _ h := by unfold State.writeCr0; split <;> exact h
  cr2 _ h := h
  cr3 _ h := h
  hold _ h := h
  events _ _ _ h := h
  run _ h := h
  next _ h := h
  tasks _ _ h := h
  enter _ _ _ _ h := h
  v86 _ _ _ _ _ _ _ _ _ _ h := h
  reset _ _ := (by decide : (0 : Dword) &&& 0xFFFF3FF0 = 0 ∧ (0 : Dword) &&& 0xFFFFFFF0 = 0)

theorem trapsOk_steps : Steps State.TrapsOk := fun h => ⟨or_masked h.1 (by decide), h.2⟩

/-- Only the end of an instruction adds BS to T. -/
theorem noBs_closed : Closed fun s => s.traps.getLsbD 14 = false where
  free _ h := h
  note {s} x _ hx _ h := by
    have hb : x.getLsbD 14 = false := by
      have := congrArg (fun v : Dword => v.getLsbD 14) hx
      simpa using this
    simp only [BitVec.getLsbD_or, h, hb, Bool.or_self]
  discard _ := by simp
  calm h := h
  fill b _ _ _ _ _ _ h := by cases b <;> exact h
  write p b h := h
  gpr _ h := h
  flags _ _ h := h
  load _ _ _ h := h
  far _ _ _ h := h
  prot _ _ _ _ _ h := h
  eip _ _ h := h
  tables _ _ h := h
  tests _ _ _ h := h
  tlb _ _ _ _ _ h := h
  dr n _ h := by unfold State.setDr; split <;> exact h
  dr6 _ h := h
  dr7 _ _ _ h := h
  gd h := by unfold State.clearGd; split <;> exact h
  locals h := h
  flush h := h
  cr0 _ _ _ h := by unfold State.writeCr0; split <;> exact h
  cr2 _ h := h
  cr3 _ h := h
  hold _ h := h
  events _ _ _ h := h
  run _ h := h
  next _ h := h
  tasks _ _ h := h
  enter _ _ _ _ h := h
  v86 _ _ _ _ _ _ _ _ _ _ h := h
  reset _ _ := by simp [State.resetEvent, resetFrom]

/-! ## The TLB -/

/-- The TLB part of the invariant. -/
def TlbOk (s : State) : Prop := s.TlbUnique ∧ s.TlbPlaced

theorem setTlb_ok {s : State} (i : Fin 32) (e : TlbEntry) (hw : e.written = true)
    (hp : (tlbIndex s.params e.lin).toNat = i.val % 8) (ho : e.v = true → s.hasOther i e.lin = false)
    (h : TlbOk s) : TlbOk (s.setTlb i e) := by
  obtain ⟨hu, hpl⟩ := h
  have other : e.v = true → ∀ j : Fin 32, j ≠ i → s.tlb[j.val].v = true → s.tlb[j.val].lin ≠ e.lin := by
    intro hv j hj hjv hl
    have := ho hv
    simp only [State.hasOther, List.any_eq_false, List.mem_finRange, true_implies, Bool.and_eq_true, not_and,
      bne_iff_ne, beq_iff_eq] at this
    exact this j ⟨hj, hjv⟩ hl
  constructor
  · intro a b ha hb hl
    simp only [State.setTlb, Vector.getElem_set] at ha hb hl
    by_cases hai : i.val = a.val <;> by_cases hbi : i.val = b.val
    · exact Fin.ext (hai.symm.trans hbi)
    · simp only [hai, if_true] at ha hb hl
      simp only [← hai, hbi, if_false] at ha hb hl
      exact absurd hl.symm (other ha b (fun h => hbi (congrArg Fin.val h.symm)) hb)
    · simp only [hbi, if_true] at ha hb hl
      simp only [← hbi, hai, if_false] at ha hb hl
      exact absurd hl (other hb a (fun h => hai (congrArg Fin.val h.symm)) ha)
    · simp only [hai, hbi, if_false] at ha hb hl
      exact hu a b ha hb hl
  · intro a
    simp only [State.setTlb, Vector.getElem_set]
    by_cases hai : i.val = a.val
    · simp only [hai, if_true]
      exact ⟨fun _ => hw, fun _ => by rw [← hai]; exact hp⟩
    · simp only [hai, if_false]
      exact hpl a

theorem filter_one {α : Type} (p : α → Bool) :
    ∀ L : List α, (∀ i j (hi : i < L.length) (hj : j < L.length), p L[i] = true → p L[j] = true → i = j) →
      L.filter p = [] ∨ ∃ e, L.filter p = [e] := by
  intro L
  induction L with
  | nil => exact fun _ => .inl rfl
  | cons a t ih =>
    intro h
    have ht := ih fun i j hi hj h1 h2 => by
      have := h (i + 1) (j + 1) (by simpa using hi) (by simpa using hj) (by simpa using h1) (by simpa using h2)
      omega
    by_cases ha : p a = true
    · refine .inr ⟨a, ?_⟩
      rw [List.filter_cons_of_pos ha]
      congr 1
      rw [List.filter_eq_nil_iff]
      intro x hx hpx
      obtain ⟨n, hn, rfl⟩ := List.getElem_of_mem hx
      have := h 0 (n + 1) (by simp) (by simpa using hn) (by simpa using ha) (by simpa using hpx)
      omega
    · rw [List.filter_cons_of_neg ha]
      exact ht

theorem tlbHits_one {s : State} (p : PageNo) (h : s.TlbUnique) :
    s.tlbHits p = [] ∨ ∃ e, s.tlbHits p = [e] := by
  apply filter_one
  intro i j hi hj h1 h2
  have hi' : i < 32 := by simpa using hi
  have hj' : j < 32 := by simpa using hj
  simp only [Vector.getElem_toList, Bool.and_eq_true, beq_iff_eq] at h1 h2
  exact congrArg Fin.val (h ⟨i, hi'⟩ ⟨j, hj'⟩ h1.1 h2.1 (h1.2.trans h2.2.symm))

theorem hasOther_of_miss {s : State} {p : PageNo} (i : Fin 32) (h : s.tlbHits p = []) : s.hasOther i p = false := by
  simp only [State.hasOther, List.any_eq_false, List.mem_finRange, true_implies, Bool.and_eq_true, not_and,
    bne_iff_ne, beq_iff_eq]
  intro j hj hl
  have hm : s.tlb[j.val] ∈ s.tlb.toList := by simp
  have := List.filter_eq_nil_iff.mp h _ hm
  simp [hj.2, hl] at this

theorem tlbSlot_pos (b : BitVec 2) (i : BitVec 3) : i.toNat = (tlbSlot b i).val % 8 := (tlbSlot_mod b i).symm

/-- The TLB keeps its form. -/
theorem tlbOk_closed : Closed TlbOk where
  free _ h := h
  note _ _ _ _ h := h
  discard h := h
  calm h := h
  fill b p f d u w hh h := by
    cases b with
    | none => exact h
    | some b =>
      refine setTlb_ok _ _ rfl (tlbSlot_pos _ _) (fun _ => hasOther_of_miss _ ?_) h
      rcases tlbHits_one p h.1 with h0 | ⟨e, h1⟩
      · exact h0
      · exact absurd h1 (hh e)
  write p b h := h
  gpr _ h := h
  flags _ _ h := h
  load _ _ _ h := h
  far _ _ _ h := h
  prot _ _ _ _ _ h := h
  eip _ _ h := h
  tables _ _ h := h
  tests _ _ _ h := h
  tlb i e hw hp ho h := setTlb_ok i e hw hp ho h
  dr n _ h := by unfold State.setDr; split <;> exact h
  dr6 _ h := h
  dr7 _ _ _ h := h
  gd h := by unfold State.clearGd; split <;> exact h
  locals h := h
  flush h := h
  cr0 _ _ _ h := by unfold State.writeCr0; split <;> exact h
  cr2 _ h := h
  cr3 _ h := by
    refine ⟨fun i j hi => ?_, fun i => ?_⟩
    · simp [State.writeCr3] at hi
    · simp only [State.writeCr3, Vector.getElem_map]
      exact ⟨fun hv => (by cases hv), (h.2 i).2⟩
  hold _ h := h
  events _ _ _ h := h
  run _ h := h
  next _ h := h
  tasks _ _ h := h
  enter _ _ _ _ h := h
  v86 _ _ _ _ _ _ _ _ _ _ h := h
  reset _ h := by
    refine ⟨fun i j hi => ?_, fun i => ?_⟩
    · simp [State.resetEvent, resetFrom, resetEntry] at hi
    · simp [State.resetEvent, resetFrom, resetEntry]

/-! ## Mode, instruction pointer and segments -/

/-- The mode part of the invariant. -/
structure PlaceOk (s : State) : Prop where
  mode : s.ModeOk
  pc   : s.PcOk
  seg  : s.SegOk

/-- What `PlaceOk` looks at. -/
theorem PlaceOk.congr {s t : State} (h : PlaceOk s) (h0 : t.cr0 = s.cr0) (h1 : t.flags.vm = s.flags.vm)
    (h2 : t.cpl = s.cpl) (h3 : t.prefetchStale = s.prefetchStale) (h4 : t.eip = s.eip) (h5 : t.seg = s.seg)
    (h6 : t.latch = s.latch) :
    PlaceOk t := by
  have hm : t.mode = s.mode := by simp only [State.mode, h0, h1]
  have hl : t.like8086 = s.like8086 := by simp only [State.like8086, hm]
  obtain ⟨a, b, c⟩ := h
  constructor
  · unfold State.ModeOk at a ⊢
    rw [hm, h0, h1, h2, h3]
    exact a
  · unfold State.PcOk at b ⊢
    rw [hl, h4]
    exact b
  · unfold State.SegOk at c ⊢
    rw [hl, hm, h5, h6]
    exact c

theorem is8086_load (r : SegReg) (sel : Selector) : (r.load8086 sel).Is8086 := ⟨rfl, rfl, rfl⟩

theorem placeOk_prot {s : State} (h : s.mode = .prot) : PlaceOk s := by
  have hl : s.like8086 = false := by simp [State.like8086, h]
  exact ⟨⟨fun e => (by simp [h] at e), fun e => (by simp [h] at e)⟩, fun e => (by simp [hl] at e), fun e => (by simp [hl] at e)⟩

/-- The mode, the instruction pointer and the segments stay consistent. -/
theorem placeOk_closed : Closed PlaceOk where
  free _ h := h.congr rfl rfl rfl rfl rfl rfl rfl
  note _ _ _ _ h := h.congr rfl rfl rfl rfl rfl rfl rfl
  discard h := h.congr rfl rfl rfl rfl rfl rfl rfl
  calm h := h.congr rfl rfl rfl rfl rfl rfl rfl
  fill b _ _ _ _ _ _ h := by cases b <;> exact h.congr rfl rfl rfl rfl rfl rfl rfl
  write p b h := h.congr rfl rfl rfl rfl rfl rfl rfl
  gpr _ h := h.congr rfl rfl rfl rfl rfl rfl rfl
  flags {s} f hf h := by
    rcases hf with hf | ⟨hpe, hf⟩
    · exact h.congr rfl hf rfl rfl rfl rfl rfl
    · refine h.congr rfl ?_ rfl rfl rfl rfl rfl
      have hm : s.mode = .real := by simp [State.mode, hpe]
      rw [(h.mode.1 hm).2.1]
      exact hf
  load {s} r v hr h := by
    refine ⟨h.mode, h.pc, fun hl => ?_⟩
    have hs := h.seg hl
    cases r with
    | cs => exact absurd rfl hr
    | es => exact ⟨⟨is8086_load _ _, hs.1.2⟩, hs.2⟩
    | ss => exact ⟨⟨hs.1.1, is8086_load _ _, hs.1.2.2⟩, hs.2⟩
    | ds => exact ⟨⟨hs.1.1, hs.1.2.1, is8086_load _ _, hs.1.2.2.2⟩, hs.2⟩
    | fs => exact ⟨⟨hs.1.1, hs.1.2.1, hs.1.2.2.1, is8086_load _ _, hs.1.2.2.2.2⟩, hs.2⟩
    | gs => exact ⟨⟨hs.1.1, hs.1.2.1, hs.1.2.2.1, hs.1.2.2.2.1, is8086_load _ _⟩, hs.2⟩
  far {s} sel off ho h := ⟨h.mode, ho, fun hl => ⟨(h.seg hl).1, .inl (is8086_load _ _)⟩⟩
  prot {s} f b e c hl h := placeOk_prot (mode_of_not8086 hl)
  eip {s} e he h := ⟨h.mode, he, h.seg⟩
  tables _ _ h := h.congr rfl rfl rfl rfl rfl rfl rfl
  tests _ _ _ h := h.congr rfl rfl rfl rfl rfl rfl rfl
  tlb _ _ _ _ _ h := h.congr rfl rfl rfl rfl rfl rfl rfl
  dr n _ h := by unfold State.setDr; split <;> exact h.congr rfl rfl rfl rfl rfl rfl rfl
  dr6 _ h := h.congr rfl rfl rfl rfl rfl rfl rfl
  dr7 _ _ _ h := h.congr rfl rfl rfl rfl rfl rfl rfl
  gd h := by unfold State.clearGd; split <;> exact h.congr rfl rfl rfl rfl rfl rfl rfl
  locals h := h.congr rfl rfl rfl rfl rfl rfl rfl
  flush {s} h := ⟨⟨fun hm => ⟨(h.mode.1 hm).1, (h.mode.1 hm).2.1, (h.mode.1 hm).2.2.1, rfl⟩, h.mode.2⟩, h.pc, h.seg⟩
  cr0 {s} v h1 h2 h := by
    unfold State.writeCr0
    cases hpe : s.cr0.pe with
    | false =>
      have hm : s.mode = .real := by simp [State.mode, hpe]
      obtain ⟨hpg, hvm, hc, hst⟩ := h.mode.1 hm
      cases hv : v.pe with
      | false =>
        simp only [Bool.not_false, Bool.and_false, Bool.false_eq_true, if_false]
        have hvg : v.pg = false := by
          cases hg : v.pg with
          | false => rfl
          | true => rcases h1 hg with h1 | h1 <;> simp_all
        have hm' : ({ s with cr0 := v } : State).mode = .real := by simp [State.mode, hv]
        have hl : s.like8086 = true := by simp [State.like8086, hm]
        refine ⟨⟨fun _ => ⟨hvg, hvm, hc, hst⟩, fun e => by simp [hm'] at e⟩, fun _ => h.pc hl, fun _ => ?_⟩
        have := h.seg hl
        rw [hm] at this
        rw [hm']
        exact this
      | true =>
        simp only [Bool.not_false, Bool.and_true, if_true]
        exact placeOk_prot (by simp [State.mode, hv, hvm])
    | true =>
      have hv := h2 hpe
      simp only [Bool.not_true, Bool.false_and, Bool.false_eq_true, if_false]
      have hm : ({ s with cr0 := v } : State).mode = s.mode := by simp [State.mode, hv, hpe]
      have hl : ({ s with cr0 := v } : State).like8086 = s.like8086 := by simp only [State.like8086, hm]
      have hr : s.mode ≠ .real := by simp only [State.mode, hpe, if_true]; split <;> simp
      refine ⟨⟨fun e => absurd (hm.symm.trans e) hr, fun e => h.mode.2 (hm.symm.trans e)⟩, fun e => h.pc (hl.symm.trans e), fun e => ?_⟩
      have := h.seg (hl.symm.trans e)
      rw [← hm] at this
      exact this
  cr2 _ h := h.congr rfl rfl rfl rfl rfl rfl rfl
  cr3 _ h := h.congr rfl rfl rfl rfl rfl rfl rfl
  hold _ h := h.congr rfl rfl rfl rfl rfl rfl rfl
  events _ _ _ h := h.congr rfl rfl rfl rfl rfl rfl rfl
  run _ h := h.congr rfl rfl rfl rfl rfl rfl rfl
  next _ h := h.congr rfl rfl rfl rfl rfl rfl rfl
  tasks _ _ h := h.congr rfl rfl rfl rfl rfl rfl rfl
  enter {s} f c hpe hv h := placeOk_prot (by simp [State.mode, hpe, hv])
  v86 {s} f e es cs ss ds fs gs hpe hv h := by
    have hm : ({ s with flags := f, eip := zext16 e, cpl := 3, latch := false, seg := segs8086 s.seg es cs ss ds fs gs } : State).mode
        = .v86 := by simp [State.mode, hpe, hv]
    refine ⟨⟨fun e => absurd (hm.symm.trans e) (by decide), fun _ => rfl⟩, fun _ => zext16_le _, fun _ => ⟨⟨?_, ?_, ?_, ?_, ?_⟩, .inl ?_⟩⟩ <;>
      exact is8086_load _ _
  reset p {s} h := by
    refine ⟨⟨fun _ => ⟨rfl, rfl, rfl, rfl⟩, fun e => (by cases e)⟩, fun _ => ?_, fun _ => ⟨?_, .inr ⟨rfl, rfl, rfl, rfl, rfl, rfl⟩⟩⟩
    · exact (by decide : (0x0000FFF0 : Dword).toNat ≤ 0xFFFF)
    · exact ⟨⟨rfl, rfl, rfl⟩, ⟨rfl, rfl, rfl⟩, ⟨rfl, rfl, rfl⟩, ⟨rfl, rfl, rfl⟩, ⟨rfl, rfl, rfl⟩⟩

/-! ## What code outside level 0 cannot change -/

/-- The registers that only privileged instructions write: CR0, GDTR, IDTR, TR6, TR7, DR0 to DR3 and DR7, except its
GD and L bits, which the processor itself clears. -/
theorem system_closedCore (c : Cr0) (g i : TableReg) (t6 : Tr6) (t7 : Tr7) (d0 d1 d2 d3 d7 : Dword) :
    ClosedCore fun s => s.cr0 = c ∧ s.gdtr = g ∧ s.idtr = i ∧ s.tr6 = t6 ∧ s.tr7 = t7 ∧ s.dr0 = d0 ∧ s.dr1 = d1 ∧
      s.dr2 = d2 ∧ s.dr3 = d3 ∧ s.dr7 &&& 0xFFFFDFAA = d7 where
  free _ h := h
  note _ _ _ _ h := h
  discard h := h
  calm h := h
  fill b _ _ _ _ _ _ h := by cases b <;> exact h
  write p b h := h
  gpr _ h := h
  flags _ _ h := h
  load _ _ _ h := h
  far _ _ _ h := h
  prot _ _ _ _ _ h := h
  eip _ _ h := h
  dr6 _ h := h
  gd h := by
    unfold State.clearGd
    split
    · refine ⟨h.1, h.2.1, h.2.2.1, h.2.2.2.1, h.2.2.2.2.1, h.2.2.2.2.2.1, h.2.2.2.2.2.2.1, h.2.2.2.2.2.2.2.1,
        h.2.2.2.2.2.2.2.2.1, ?_⟩
      rw [← h.2.2.2.2.2.2.2.2.2, BitVec.and_assoc]
      rfl
    · exact h
  locals h := by
    refine ⟨h.1, h.2.1, h.2.2.1, h.2.2.2.1, h.2.2.2.2.1, h.2.2.2.2.2.1, h.2.2.2.2.2.2.1, h.2.2.2.2.2.2.2.1,
      h.2.2.2.2.2.2.2.2.1, ?_⟩
    rw [← h.2.2.2.2.2.2.2.2.2]
    unfold State.clearLocal
    rw [BitVec.and_assoc]
    rfl
  flush h := h
  cr2 _ h := h
  cr3 _ h := h
  hold _ h := h
  events _ _ _ h := h
  run _ h := h
  next _ h := h
  tasks _ _ h := h
  enter _ _ _ _ h := h
  v86 _ _ _ _ _ _ _ _ _ _ h := h

end Sys2Proof.Machine
end

