-- ==== Sys2Proof/Laws/PerInstr.lean ====
section
/-! SUPPORT. A statement about every instruction as syntax: a well-formed one encodes to 1 to 11 bytes, so that its
encoding is always within the 15 bytes of an instruction (`30_encoding.md` R120). -/

namespace Sys2Proof.Laws

open Sys2Proof

/-- The encoding of a well-formed instruction has 1 to 11 bytes, under both default sizes. -/
def EncodingLength.Statement (i : Instr) : Prop :=
  i.wf = true → ∀ d : OpSize, 1 ≤ (encode d i).length ∧ (encode d i).length ≤ 11

/-! ## The parts of an encoding -/

theorem encOp_length (d sz : OpSize) : (encOp d sz).length ≤ 1 := by
  cases d <;> cases sz <;> decide

theorem encAddr_length (d sz : OpSize) : (encAddr d sz).length ≤ 1 := by
  cases d <;> cases sz <;> decide

theorem encSeg_length (r : Option SReg) : (encSeg r).length ≤ 1 := by
  rcases r with _ | r
  · decide
  · cases r <;> decide

/-- ModRM, SIB and a displacement: at most six bytes. -/
theorem encEa_length (reg : BitVec 3) (ea : Ea) : (encEa reg ea).length ≤ 6 := by
  cases ea with
  | based16 b d => cases d <;> simp [encEa, Disp16.bytes, bytes16]
  | direct16 d => simp [encEa, bytes16]
  | based32 b d => cases d <;> simp [encEa, Disp32.bytes, bytes32]
  | direct32 d => simp [encEa, bytes32]
  | sib sc i b d => cases d <;> simp [encEa, Disp32.bytes, bytes32]
  | sibNoBase sc i d => simp [encEa, bytes32]

theorem encMem_length (d : OpSize) (pre op : List Byte) (reg : BitVec 3) (m : MemOp) (h : pre.length ≤ 1)
    (h2 : op.length ≤ 2) (h3 : 1 ≤ op.length) :
    1 ≤ (encMem d pre op reg m).length ∧ (encMem d pre op reg m).length ≤ 11 := by
  have := encAddr_length d m.ea.size
  have := encSeg_length m.seg
  have := encEa_length reg m.ea
  simp only [encMem, List.length_append]
  omega

theorem encRm_length (d : OpSize) (op : List Byte) (reg : BitVec 3) (s : Rm16) (h2 : op.length ≤ 2) (h3 : 1 ≤ op.length) :
    1 ≤ (encRm d op reg s).length ∧ (encRm d op reg s).length ≤ 11 := by
  cases s with
  | reg r =>
    simp only [encRm, List.length_append, List.length_singleton]
    omega
  | mem m => exact encMem_length d [] op reg m (by decide) h2 h3

/-! ## One lemma per instruction -/

namespace EncodingLength

theorem jmpRel8 (sz : OpSize) (d : Byte) : Statement (.jmpRel8 sz d) := fun _ m => by
  have := encOp_length m sz
  simp only [encode, List.length_append, List.length_cons, List.length_nil]
  omega

theorem jmpRel (d : Rel) : Statement (.jmpRel d) := fun _ m => by
  have h1 := encOp_length m .w16
  have h2 := encOp_length m .w32
  cases d <;> simp only [encode, bytes16, bytes32, List.length_append, List.length_cons, List.length_nil] <;> omega

theorem callRel (d : Rel) : Statement (.callRel d) := fun _ m => by
  have h1 := encOp_length m .w16
  have h2 := encOp_length m .w32
  cases d <;> simp only [encode, bytes16, bytes32, List.length_append, List.length_cons, List.length_nil] <;> omega

theorem jmpPtr (d : FarPtr) : Statement (.jmpPtr d) := fun _ m => by
  have h1 := encOp_length m .w16
  have h2 := encOp_length m .w32
  cases d <;> simp only [encode, bytes16, bytes32, List.length_append, List.length_cons, List.length_nil] <;> omega

theorem callPtr (d : FarPtr) : Statement (.callPtr d) := fun _ m => by
  have h1 := encOp_length m .w16
  have h2 := encOp_length m .w32
  cases d <;> simp only [encode, bytes16, bytes32, List.length_append, List.length_cons, List.length_nil] <;> omega

theorem jmpMem (sz : OpSize) (m : MemOp) : Statement (.jmpMem sz m) := fun _ d =>
  encMem_length d _ _ _ m (encOp_length d sz) (by decide) (by decide)

theorem callMem (sz : OpSize) (m : MemOp) : Statement (.callMem sz m) := fun _ d =>
  encMem_length d _ _ _ m (encOp_length d sz) (by decide) (by decide)

theorem lidt (sz : OpSize) (m : MemOp) : Statement (.lidt sz m) := fun _ d =>
  encMem_length d _ _ _ m (encOp_length d sz) (by decide) (by decide)

theorem lgdt (sz : OpSize) (m : MemOp) : Statement (.lgdt sz m) := fun _ d =>
  encMem_length d _ _ _ m (encOp_length d sz) (by decide) (by decide)

theorem movEs (s : Rm16) : Statement (.movEs s) := fun _ d => encRm_length d _ _ s (by decide) (by decide)

theorem movSs (s : Rm16) : Statement (.movSs s) := fun _ d => encRm_length d _ _ s (by decide) (by decide)

theorem movDs (s : Rm16) : Statement (.movDs s) := fun _ d => encRm_length d _ _ s (by decide) (by decide)

theorem movFs (s : Rm16) : Statement (.movFs s) := fun _ d => encRm_length d _ _ s (by decide) (by decide)

theorem movGs (s : Rm16) : Statement (.movGs s) := fun _ d => encRm_length d _ _ s (by decide) (by decide)

theorem lmsw (s : Rm16) : Statement (.lmsw s) := fun _ d => encRm_length d _ _ s (by decide) (by decide)

theorem movFromCr0 (r : Reg) : Statement (.movFromCr0 r) := fun _ _ => ⟨by simp [encode, encMove], by simp [encode, encMove]⟩

theorem movFromCr3 (r : Reg) : Statement (.movFromCr3 r) := fun _ _ => ⟨by simp [encode, encMove], by simp [encode, encMove]⟩

theorem movToCr0 (r : Reg) : Statement (.movToCr0 r) := fun _ _ => ⟨by simp [encode, encMove], by simp [encode, encMove]⟩

theorem movToCr3 (r : Reg) : Statement (.movToCr3 r) := fun _ _ => ⟨by simp [encode, encMove], by simp [encode, encMove]⟩

theorem movFromTr6 (r : Reg) : Statement (.movFromTr6 r) := fun _ _ => ⟨by simp [encode, encMove], by simp [encode, encMove]⟩

theorem movFromTr7 (r : Reg) : Statement (.movFromTr7 r) := fun _ _ => ⟨by simp [encode, encMove], by simp [encode, encMove]⟩

theorem movToTr6 (r : Reg) : Statement (.movToTr6 r) := fun _ _ => ⟨by simp [encode, encMove], by simp [encode, encMove]⟩

theorem movToTr7 (r : Reg) : Statement (.movToTr7 r) := fun _ _ => ⟨by simp [encode, encMove], by simp [encode, encMove]⟩

theorem movFromDr03 (r : Reg) (n : Fin 4) : Statement (.movFromDr03 r n) := fun _ _ => ⟨by simp [encode, encMove], by simp [encode, encMove]⟩

theorem movFromDr67 (r : Reg) (n : Dr67) : Statement (.movFromDr67 r n) := fun _ _ => ⟨by simp [encode, encMove], by simp [encode, encMove]⟩

theorem movToDr03 (n : Fin 4) (r : Reg) : Statement (.movToDr03 n r) := fun _ _ => ⟨by simp [encode, encMove], by simp [encode, encMove]⟩

theorem movToDr67 (n : Dr67) (r : Reg) : Statement (.movToDr67 n r) := fun _ _ => ⟨by simp [encode, encMove], by simp [encode, encMove]⟩

theorem int3 : Statement .int3 := fun _ _ => ⟨by simp [encode], by simp [encode]⟩

theorem iret (sz : OpSize) : Statement (.iret sz) := fun _ d => by
  have := encOp_length d sz
  simp only [encode, List.length_append, List.length_cons, List.length_nil]
  omega

end EncodingLength

end Sys2Proof.Laws
end

