-- ==== Sys2Proof/Laws/Task.lean ====
section
/-! SUPPORT. The images of a task in its TSS: what saving leaves in memory, and that it reads back (`10_state.md` R45,
`43_v86.md` R260). -/

namespace Sys2Proof.Machine

theorem Memory.load_congr {m m' : Memory} {n : Nat} {a : Dword}
    (h : ∀ i, i < n → m.read (a + BitVec.ofNat 32 i).toNat = m'.read (a + BitVec.ofNat 32 i).toNat) :
    m.load n a = m'.load n a := by
  induction n generalizing a with
  | zero => rfl
  | succ n ih =>
    have h0 : m.read a.toNat = m'.read a.toNat := by simpa using h 0 (by omega)
    have ht : m.load n (a + 1) = m'.load n (a + 1) := ih fun i hi => by
      have := h (i + 1) (by omega)
      rwa [← addr_succ] at this
    simp only [Memory.load, h0, ht]

theorem Memory.load_store_outside {m : Memory} {n k : Nat} {a b v : Dword}
    (h : ∀ i, i < k → outside a n (b + BitVec.ofNat 32 i)) : (m.store n a v).load k b = m.load k b :=
  Memory.load_congr fun i hi => Memory.read_store_outside m n a v _ (h i hi)

/-- What lies outside every image stays. -/
theorem Memory.load_storeImages_outside {m : Memory} {l : List (Nat × Dword × Dword)} {k : Nat} {b : Dword}
    (h : ∀ x ∈ l, ∀ i, i < k → outside x.2.1 x.1 (b + BitVec.ofNat 32 i)) : (m.storeImages l).load k b = m.load k b := by
  induction l generalizing m with
  | nil => rfl
  | cons x l ih =>
    exact (ih fun y hy => h y (List.mem_cons_of_mem _ hy)).trans
      (Memory.load_store_outside (h x List.mem_cons_self))

/-- An image that lies apart from the others reads back. -/
theorem Memory.load_storeImages {m : Memory} {l : List (Nat × Dword × Dword)} (h : imagesApart l) {n : Nat} {a v : Dword}
    (hx : (n, a, v) ∈ l) (hn : n ≤ 4) :
    (m.storeImages l).load n a = some (v &&& BitVec.ofNat 32 (2 ^ (8 * n) - 1)) := by
  induction l generalizing m with
  | nil => cases hx
  | cons x l ih =>
    obtain ⟨h1, h2⟩ := List.pairwise_cons.mp h
    rcases List.mem_cons.mp hx with rfl | hx
    · refine (Memory.load_storeImages_outside (m := m.store n a v) (l := l) fun y hy i hi j hj e => ?_).trans
        (Memory.load_store m n a v hn)
      exact h1 y hy j hj i hi e.symm
    · exact ih h2 hx

theorem storeImplicit_run {s : State} {n : Nat} {a : Dword} (v : Dword) (h : s.cr0.pg = false) (hr : s.ramAt a n) :
    ∃ t q, storeImplicit n a v s = .ok () { s with mem := s.mem.store n a v, traps := t, quiet := q } := by
  simp only [storeImplicit, bind_run, update_run]
  rw [writeLin_run (by simpa using h) (by intro i hi; simpa using hr i hi)]
  unfold State.noteImplicit
  split
  · exact ⟨_, _, rfl⟩
  · exact ⟨s.traps, s.quiet, rfl⟩

/-- Saving images leaves them in memory. -/
theorem storeImages_run {s : State} {l : List (Nat × Dword × Dword)} (h : s.cr0.pg = false)
    (hr : ∀ x ∈ l, s.ramAt x.2.1 x.1) :
    ∃ t q, storeImages l s = .ok () { s with mem := s.mem.storeImages l, traps := t, quiet := q } := by
  induction l generalizing s with
  | nil => exact ⟨s.traps, s.quiet, rfl⟩
  | cons x l ih =>
    obtain ⟨t, q, e⟩ := storeImplicit_run x.2.2 h (hr x List.mem_cons_self)
    obtain ⟨t', q', e'⟩ := ih (s := { s with mem := s.mem.store x.1 x.2.1 x.2.2, traps := t, quiet := q }) h
      fun y hy => hr y (List.mem_cons_of_mem _ hy)
    refine ⟨t', q', ?_⟩
    simp only [storeImages, bind_run, e]
    exact e'

/-- Reading changes neither memory nor the registers. -/
theorem readImplicit_run {s : State} {n : Nat} {a v : Dword} (h : s.cr0.pg = false) (hv : s.mem.load n a = some v) :
    ∃ t q, readImplicit n a s = .ok v { s with traps := t, quiet := q } := by
  simp only [readImplicit, bind_run, update_run]
  rw [readLin_run (v := v) (by simpa using h) (by simpa using hv)]
  unfold State.noteImplicit
  split
  · exact ⟨_, _, rfl⟩
  · exact ⟨s.traps, s.quiet, rfl⟩

/-- The image of a general register: whole in an 80386 TSS, the low word in an 80286 TSS. -/
theorem readRegImage_run {s : State} {x : Bool} {a v : Dword} (h : s.cr0.pg = false)
    (hv : s.mem.load (if x then 4 else 2) a = some v) :
    ∃ w f t q, readRegImage x a s = .ok w { s with free := f, traps := t, quiet := q } ∧ (x = true → w = v) ∧
      (x = false → low16 w = low16 v) := by
  cases x with
  | true =>
    obtain ⟨t, q, e⟩ := readImplicit_run h hv
    exact ⟨v, s.free, t, q, e, fun _ => rfl, fun e => (nomatch e)⟩
  | false =>
    obtain ⟨t, q, e⟩ := readImplicit_run h hv
    refine ⟨(Config.freeWord s.free &&& 0xFFFF0000) ||| v, s.free + 1, t, q, ?_, fun e => (nomatch e), fun _ => ?_⟩
    · simp only [readRegImage, Bool.false_eq_true, if_false, bind_run]
      rw [show readImplicit 2 a s = _ from e]
      rfl
    · apply BitVec.eq_of_getLsbD_eq
      intro i hi
      simp only [low16, BitVec.getLsbD_extractLsb', BitVec.getLsbD_or, BitVec.getLsbD_and]
      interval_cases i <;> simp

theorem readSelector_run {s : State} {a v : Dword} (h : s.cr0.pg = false) (hv : s.mem.load 2 a = some v) :
    ∃ t q, readSelector a s = .ok (low16 v) { s with traps := t, quiet := q } := by
  obtain ⟨t, q, e⟩ := readImplicit_run h hv
  refine ⟨t, q, ?_⟩
  simp only [readSelector, bind_run, e, pure_run]

/-- The state `s` when only free values, T and its companion have moved. -/
def State.drift (s : State) (f : Nat) (t q : Dword) : State := { s with free := f, traps := t, quiet := q }

theorem readRegImage_drift {s : State} {x : Bool} {a v : Dword} (f : Nat) (t q : Dword) (h : s.cr0.pg = false)
    (hv : s.mem.load (if x then 4 else 2) a = some v) :
    ∃ w f' t' q', readRegImage x a (s.drift f t q) = .ok w (s.drift f' t' q') ∧ (x = true → w = v) ∧
      (x = false → low16 w = low16 v) := readRegImage_run (s := s.drift f t q) h hv

theorem readSelector_drift {s : State} {a v : Dword} (f : Nat) (t q : Dword) (h : s.cr0.pg = false)
    (hv : s.mem.load 2 a = some v) :
    ∃ t' q', readSelector a (s.drift f t q) = .ok (low16 v) (s.drift f t' q') := readSelector_run (s := s.drift f t q) h hv

theorem readImplicit_drift {s : State} {n : Nat} {a v : Dword} (f : Nat) (t q : Dword) (h : s.cr0.pg = false)
    (hv : s.mem.load n a = some v) :
    ∃ t' q', readImplicit n a (s.drift f t q) = .ok v (s.drift f t' q') := readImplicit_run (s := s.drift f t q) h hv

theorem readRegImages_drift {s : State} {x : Bool} {b : Dword} {l g : GRegs} (f : Nat) (t q : Dword)
    (h : s.cr0.pg = false) (hv : ∀ r, s.mem.load (if x then 4 else 2) (b + l.get r) = some (g.get r)) :
    ∃ w f' t' q', readRegImages x b l (s.drift f t q) = .ok w (s.drift f' t' q') ∧ (x = true → w = g) ∧
      (x = false → ∀ r, low16 (w.get r) = low16 (g.get r)) := by
  obtain ⟨w0, f0, t0, q0, e0, p0, z0⟩ := readRegImage_drift f t q h (hv .eax)
  obtain ⟨w1, f1, t1, q1, e1, p1, z1⟩ := readRegImage_drift f0 t0 q0 h (hv .ecx)
  obtain ⟨w2, f2, t2, q2, e2, p2, z2⟩ := readRegImage_drift f1 t1 q1 h (hv .edx)
  obtain ⟨w3, f3, t3, q3, e3, p3, z3⟩ := readRegImage_drift f2 t2 q2 h (hv .ebx)
  obtain ⟨w4, f4, t4, q4, e4, p4, z4⟩ := readRegImage_drift f3 t3 q3 h (hv .esp)
  obtain ⟨w5, f5, t5, q5, e5, p5, z5⟩ := readRegImage_drift f4 t4 q4 h (hv .ebp)
  obtain ⟨w6, f6, t6, q6, e6, p6, z6⟩ := readRegImage_drift f5 t5 q5 h (hv .esi)
  obtain ⟨w7, f7, t7, q7, e7, p7, z7⟩ := readRegImage_drift f6 t6 q6 h (hv .edi)
  refine ⟨⟨w0, w1, w2, w3, w4, w5, w6, w7⟩, f7, t7, q7, ?_, fun hx => ?_, fun hx r => ?_⟩
  · simp only [GRegs.get] at e0 e1 e2 e3 e4 e5 e6 e7
    simp only [readRegImages, bind_run, e0, e1, e2, e3, e4, e5, e6, e7, pure_run]
  · rw [p0 hx, p1 hx, p2 hx, p3 hx, p4 hx, p5 hx, p6 hx, p7 hx]
    rfl
  · cases r
    · exact z0 hx
    · exact z1 hx
    · exact z2 hx
    · exact z3 hx
    · exact z4 hx
    · exact z5 hx
    · exact z6 hx
    · exact z7 hx

/-- All that loading a task changes. -/
theorem loadTask_eq (s : State) (t : Config.TaskSwitch) (i : TaskImages) :
    s.loadTask t i =
      { s with gpr := i.gprs, flags := taskFlags t i, latch := false, ldtReg := t.ldtReg, taskReg := t.taskReg,
               eip := if (taskFlags t i).vm then zext16 i.eip else i.eip,
               cpl := if (taskFlags t i).vm then 3 else t.cpl,
               seg := if (taskFlags t i).vm then segs8086 s.seg i.es i.cs i.ss i.ds i.fs i.gs else segsOfTask t.segs i,
               cr3 := t.cr3.getD s.cr3,
               tlb := if t.cr3 = none then s.tlb else s.tlb.map fun e => { e with v := false },
               dr7 := s.dr7 &&& ~~~localBits,
               traps := if i.mark then s.traps ||| 0x8000 else s.traps } := by
  unfold State.loadTask
  simp only
  cases (taskFlags t i).vm <;> cases t.cr3 <;> rfl

/-- A task is read from its TSS: the images in memory, those of FS and GS and the debug mark in an 80386 TSS only. -/
theorem readTask_run {s : State} {t : Config.TaskSwitch} {ip image es cs ss ds fs gs w : Dword} {g : GRegs}
    (h : s.cr0.pg = false) :
    let x := t.taskReg.is386
    let n := if x then 4 else 2
    let b := t.taskReg.base
    let l := tssLayout s.params x
    s.mem.load n (b + l.eip) = some ip → s.mem.load n (b + l.flags) = some image →
    (∀ r, s.mem.load n (b + l.gprs.get r) = some (g.get r)) → s.mem.load 2 (b + l.es) = some es →
    s.mem.load 2 (b + l.cs) = some cs → s.mem.load 2 (b + l.ss) = some ss → s.mem.load 2 (b + l.ds) = some ds →
    (x = true → s.mem.load 2 (b + l.fs) = some fs ∧ s.mem.load 2 (b + l.gs) = some gs ∧
      s.mem.load 2 (b + 0x64) = some w) →
    ∃ i f tr q, readTask t s = .ok i (s.drift f tr q) ∧ i.eip = ip ∧ i.flags = image ∧ i.es = low16 es ∧
      i.cs = low16 cs ∧ i.ss = low16 ss ∧ i.ds = low16 ds ∧
      (x = true → i.gprs = g ∧ i.fs = low16 fs ∧ i.gs = low16 gs ∧ i.mark = w.getLsbD 0) ∧
      (x = false → (∀ r, low16 (i.gprs.get r) = low16 (g.get r)) ∧ i.mark = false) := by
  intro x n b l h1 h2 h3 h4 h5 h6 h7 h8
  obtain ⟨t1, q1, e1⟩ := readImplicit_drift s.free s.traps s.quiet h h1
  obtain ⟨t2, q2, e2⟩ := readImplicit_drift s.free t1 q1 h h2
  obtain ⟨w3, f3, t3, q3, e3, p3, z3⟩ := readRegImages_drift s.free t2 q2 h h3
  obtain ⟨t4, q4, e4⟩ := readSelector_drift f3 t3 q3 h h4
  obtain ⟨t5, q5, e5⟩ := readSelector_drift f3 t4 q4 h h5
  obtain ⟨t6, q6, e6⟩ := readSelector_drift f3 t5 q5 h h6
  obtain ⟨t7, q7, e7⟩ := readSelector_drift f3 t6 q6 h h7
  have e0 : (asks fun s => tssLayout s.params x) s = .ok l (s.drift s.free s.traps s.quiet) := rfl
  cases hx : x with
  | true =>
    obtain ⟨h8, h9, hm⟩ := h8 hx
    obtain ⟨t8, q8, e8⟩ := readSelector_drift f3 t7 q7 h h8
    obtain ⟨t9, q9, e9⟩ := readSelector_drift f3 t8 q8 h h9
    obtain ⟨tm, qm, em⟩ := readImplicit_drift f3 t9 q9 h hm
    refine ⟨⟨ip, image, w3, low16 es, low16 cs, low16 ss, low16 ds, low16 fs, low16 gs, w.getLsbD 0⟩, f3, tm, qm, ?_, rfl,
      rfl, rfl, rfl, rfl, rfl, fun _ => ⟨p3 hx, rfl, rfl, rfl⟩, fun e => (nomatch e)⟩
    rw [readTask, bind_run, e0]
    simp only [bind_run]
    rw [show readImplicit (if t.taskReg.is386 then 4 else 2) (t.taskReg.base + l.eip) _ = _ from e1]
    simp only []
    rw [show readImplicit (if t.taskReg.is386 then 4 else 2) (t.taskReg.base + l.flags) _ = _ from e2]
    simp only []
    rw [show readRegImages t.taskReg.is386 t.taskReg.base l.gprs _ = _ from e3]
    simp only [show t.taskReg.is386 = x from rfl, show t.taskReg.base = b from rfl, e4, e5, e6, e7, readSelector386, readMark, hx, if_true, bind_run, e8, e9, em, pure_run]
  | false =>
    refine ⟨⟨ip, image, w3, low16 es, low16 cs, low16 ss, low16 ds, t.segs.fs.selector, t.segs.gs.selector, false⟩, f3, t7, q7,
      ?_, rfl, rfl, rfl, rfl, rfl, rfl, fun e => (nomatch e), fun _ => ⟨z3 hx, rfl⟩⟩
    rw [readTask, bind_run, e0]
    simp only [bind_run]
    rw [show readImplicit (if t.taskReg.is386 then 4 else 2) (t.taskReg.base + l.eip) _ = _ from e1]
    simp only []
    rw [show readImplicit (if t.taskReg.is386 then 4 else 2) (t.taskReg.base + l.flags) _ = _ from e2]
    simp only []
    rw [show readRegImages t.taskReg.is386 t.taskReg.base l.gprs _ = _ from e3]
    simp only [show t.taskReg.is386 = x from rfl, show t.taskReg.base = b from rfl, e4, e5, e6, e7, readSelector386, readMark, hx, Bool.false_eq_true, if_false, pure_run]

end Sys2Proof.Machine
end

