-- ==== Sys2Proof/Laws/Tlb.lean ====
section
/-! SUPPORT. The TLB commands: what a write stores, which entries a lookup finds, and that both change nothing else (`41_tlb_test.md` R186 to R189). -/

namespace Sys2Proof.Machine

theorem pairOf_good {x xn : Bool} (h : xn = !x) : pairOf x xn = some x := by cases x <;> simp [h, pairOf]

theorem storedBit_run (x xn : Bool) (s : State) : ∃ b n, storedBit x xn s = .ok b { s with free := n } ∧ (xn = !x → b = x) := by
  unfold storedBit
  cases x <;> cases xn
  · exact ⟨_, _, rfl, by simp⟩
  · exact ⟨_, s.free, rfl, by simp⟩
  · exact ⟨_, s.free, rfl, by simp⟩
  · exact ⟨_, _, rfl, by simp⟩

theorem hasOther_iff {s : State} {i : Fin 32} {p : PageNo} : s.hasOther i p = true ↔ ∃ j : Fin 32, j ≠ i ∧ s.tlb[j.val].v = true ∧ s.tlb[j.val].lin = p := by
  simp only [State.hasOther, List.any_eq_true, List.mem_finRange, true_and, Bool.and_eq_true, bne_iff_ne, beq_iff_eq, and_assoc]

theorem tlbWrite_run {s : State} (h : s.tr7.ht = true) (hd : s.tr6.v = true → s.hasOther (tlbSlot s.tr7.rep (tlbIndex s.params s.tr6.lin)) s.tr6.lin = false) :
   ∃ (e : TlbEntry) (n : Nat), tlbWrite s = .ok () { s with tlb := s.tlb.set (tlbSlot s.tr7.rep (tlbIndex s.params s.tr6.lin)).val e, tlbMissed := false, free := n } ∧
     e.lin = s.tr6.lin ∧ e.v = s.tr6.v ∧ e.phys = s.tr7.phys ∧ e.written = true ∧ (s.tr6.dn = !s.tr6.d → e.d = s.tr6.d) ∧
        (s.tr6.un = !s.tr6.u → e.u = s.tr6.u) ∧ (s.tr6.wn = !s.tr6.w → e.w = s.tr6.w) := by
  obtain ⟨d, n1, h1, p1⟩ := storedBit_run s.tr6.d s.tr6.dn s
  obtain ⟨u, n2, h2, p2⟩ := storedBit_run s.tr6.u s.tr6.un { s with free := n1 }
  obtain ⟨w, n3, h3, p3⟩ := storedBit_run s.tr6.w s.tr6.wn { s with free := n2 }
  refine ⟨{ lin := s.tr6.lin, v := s.tr6.v, d := d, u := u, w := w, phys := s.tr7.phys, written := true }, n3, ?_, rfl, rfl, rfl, rfl, p1, p2, p3⟩
  simp only [tlbWrite, bind_run, asks_run, h, Bool.not_true, Bool.false_eq_true, if_false, h1, h2, h3]
  rw [if_neg]
  · rfl
  · intro hh
    rw [Bool.and_eq_true] at hh
    have := hd hh.1
    have h' : s.hasOther (tlbSlot s.tr7.rep (tlbIndex s.params s.tr6.lin)) s.tr6.lin = true := hh.2
    rw [this] at h'; cases h'

theorem tlbWrite_dup {s : State} (h : s.tr7.ht = true) (hv : s.tr6.v = true) (hd : s.hasOther (tlbSlot s.tr7.rep (tlbIndex s.params s.tr6.lin)) s.tr6.lin = true) :
   ∃ t, tlbWrite s = .error (.refused .duplicateTlbTags) t := by
  obtain ⟨d, n1, h1, p1⟩ := storedBit_run s.tr6.d s.tr6.dn s
  obtain ⟨u, n2, h2, p2⟩ := storedBit_run s.tr6.u s.tr6.un { s with free := n1 }
  obtain ⟨w, n3, h3, p3⟩ := storedBit_run s.tr6.w s.tr6.wn { s with free := n2 }
  simp only [tlbWrite, bind_run, asks_run, h, Bool.not_true, Bool.false_eq_true, if_false, h1, h2, h3]
  rw [if_pos (by rw [Bool.and_eq_true]; exact ⟨hv, hd⟩)]
  exact ⟨_, rfl⟩

theorem movToTr6_run {s t : State} {r : Reg} (hl : s.level = 0) (hp : s.prefetchStale = false)
   (h : tlbCommand (Tr6.ofWord (s.gpr.get r)).c { s with tr6 := Tr6.ofWord (s.gpr.get r) } = .ok () t) :
   exec (.movToTr6 r) s = .next (complete s false { t with flags := t.flags.setStatus (Config.freeWord t.free), free := t.free + 1, eip := t.next }) := by
  refine runInstr_ok (rf := false) (by simp [hp]) ?_
  simp only [movToTr6, bind_run, requireLevel0_run hl, update_run, asks_run]
  rw [h]
  rfl

theorem movToTr6_refused {s t : State} {r : Reg} {q : Refusal} (hl : s.level = 0) (hp : s.prefetchStale = false)
   (h : tlbCommand (Tr6.ofWord (s.gpr.get r)).c { s with tr6 := Tr6.ofWord (s.gpr.get r) } = .error (.refused q) t) :
   exec (.movToTr6 r) s = .refused q := by
  refine runInstr_refused (s' := t) (by simp [hp]) ?_
  simp only [movToTr6, bind_run, requireLevel0_run hl, update_run, asks_run]
  rw [h]

theorem matches_iff {q : Tr6} {e : TlbEntry} (hd : q.dn = !q.d) (hu : q.un = !q.u) (hw : q.wn = !q.w) :
    entryMatches q e = true ↔ e.lin = q.lin ∧ e.v = q.v ∧ e.d = q.d ∧ e.u = q.u ∧ e.w = q.w := by
  simp only [entryMatches, pairOf_good hd, pairOf_good hu, pairOf_good hw, Bool.and_eq_true, beq_iff_eq, Option.some.injEq, and_assoc]
  constructor <;> rintro ⟨a, b, c, d, e⟩ <;> exact ⟨a, b, c.symm, d.symm, e.symm⟩

theorem determined_iff {s : State} (hd : s.tr6.dn = !s.tr6.d) (hu : s.tr6.un = !s.tr6.u) (hw : s.tr6.wn = !s.tr6.w)
    (h : s.tr6.v = true ∨ ∀ i : Fin 32, s.tlb[i.val].written = true) : s.lookupDetermined = true := by
  simp only [State.lookupDetermined, pairOf_good hd, pairOf_good hu, pairOf_good hw, Option.isSome_some, Bool.and_true, Bool.true_and, Bool.or_eq_true]
  rcases h with h | h
  · exact .inl h
  · right
    rw [List.all_eq_true]
    intro x hx
    obtain ⟨i, hi, rfl⟩ := List.getElem_of_mem hx
    have hi' : i < 32 := by simpa using hi
    simpa using h ⟨i, hi'⟩

theorem filter_single {α : Type} {p : α → Bool} {l : List α} (hn : l.Nodup) {a : α} (ha : a ∈ l) (hp : p a = true)
    (hu : ∀ b ∈ l, p b = true → b = a) : l.filter p = [a] := by
  induction l with
  | nil => cases ha
  | cons b l ih =>
    rw [List.nodup_cons] at hn
    by_cases hb : p b = true
    · have := hu b (by simp) hb
      subst this
      rw [List.filter_cons_of_pos hb]
      congr 1
      rw [List.filter_eq_nil_iff]
      intro x hx hpx
      have := hu x (by simp [hx]) hpx
      subst this
      exact hn.1 hx
    · rw [List.filter_cons_of_neg hb]
      refine ih hn.2 ?_ fun x hx => hu x (by simp [hx])
      rcases List.mem_cons.1 ha with rfl | h
      · exact absurd hp hb
      · exact h

theorem tlbLookup_frame (s : State) : ∃ t, tlbLookup s = .ok () t ∧ t.tlb = s.tlb ∧ t.next = s.next ∧ t.tr6.lin = s.tr6.lin := by
  unfold tlbLookup
  simp only [bind_run, asks_run]
  split
  · simp only [bind_run, asks_run]
    generalize s.tlbMatches = l
    rcases l with _ | ⟨a, _ | ⟨b, l⟩⟩
    · exact ⟨_, rfl, rfl, rfl, rfl⟩
    · exact ⟨_, rfl, rfl, rfl, rfl⟩
    · exact ⟨_, rfl, rfl, rfl, rfl⟩
  · exact ⟨_, rfl, rfl, rfl, rfl⟩

theorem tlbLookup_hit {s : State} {i : Fin 32} (hd : s.lookupDetermined = true) (h : s.tlbMatches = [i]) :
    tlbLookup s = .ok () (s.lookupHit i) := by
  simp only [tlbLookup, bind_run, asks_run, hd, if_true, h, update_run]

theorem tlbLookup_miss {s : State} (hd : s.lookupDetermined = true) (h : s.tlbMatches = []) :
    tlbLookup s = .ok () ({ s with free := s.free + 1 }.lookupMiss (Config.freeWord s.free)) := by
  simp only [tlbLookup, bind_run, asks_run, hd, if_true, h, update_run, draw_run]

theorem ofWord_or1 (w : Dword) : Tr6.ofWord (w ||| 1) = { Tr6.ofWord w with c := true } := by
  simp only [Tr6.ofWord, Tr6.mk.injEq]
  refine ⟨?_, ?_, ?_, ?_, ?_, ?_, ?_, ?_, ?_, ?_⟩
  · ext i hi; simp [BitVec.getElem_extractLsb']
  · simp
  · simp
  · simp
  · simp
  · simp
  · simp
  · simp
  · ext i hi; simp [BitVec.getElem_extractLsb']
  · simp

theorem slot_block (b : BitVec 2) (i : BitVec 3) : BitVec.ofNat 2 ((tlbSlot b i).val / 8) = b := by
  have h1 := i.isLt
  have : (tlbSlot b i).val / 8 = b.toNat := by
    change (8 * b.toNat + i.toNat) / 8 = b.toNat; omega
  rw [this]; simp

def TlbOnly (s t : State) : Prop := ∃ a b c d e, t = { s with tr6 := a, tr7 := b, tlb := c, tlbMissed := d, free := e }

theorem storedBit_only {x xn : Bool} {s t : State} {b : Bool} (h : storedBit x xn s = .ok b t) : TlbOnly s t := by
  unfold storedBit at h
  generalize pairOf x xn = p at h
  cases p with
  | some => cases h; exact ⟨_, _, _, _, _, rfl⟩
  | none =>
    obtain ⟨_, _, e1, h⟩ := bind_ok h
    cases e1; cases h
    exact ⟨_, _, _, _, _, rfl⟩

theorem TlbOnly.trans {s t u : State} (h : TlbOnly s t) (h' : TlbOnly t u) : TlbOnly s u := by
  obtain ⟨a, b, c, d, e, rfl⟩ := h
  obtain ⟨a', b', c', d', e', rfl⟩ := h'
  exact ⟨_, _, _, _, _, rfl⟩

theorem command_only {c : Bool} {s t : State} {u : Unit} (h : tlbCommand c s = .ok u t) : TlbOnly s t := by
  unfold tlbCommand at h
  cases c with
  | true =>
    simp only [if_true, tlbLookup] at h
    obtain ⟨_, _, e1, h⟩ := bind_ok h
    cases e1
    split at h
    · obtain ⟨_, _, e1, h⟩ := bind_ok h
      cases e1
      generalize s.tlbMatches = l at h
      rcases l with _ | ⟨a, _ | ⟨b, l⟩⟩
      · cases h; exact ⟨_, _, _, _, _, rfl⟩
      · cases h; exact ⟨_, _, _, _, _, rfl⟩
      · cases h; exact ⟨_, _, _, _, _, rfl⟩
    · cases h; exact ⟨_, _, _, _, _, rfl⟩
  | false =>
    simp only [Bool.false_eq_true, if_false, tlbWrite] at h
    obtain ⟨_, _, e1, h⟩ := bind_ok h
    cases e1
    obtain ⟨_, _, e1, h⟩ := bind_ok h
    cases e1
    split at h
    · cases h
    · obtain ⟨_, s1, e1, h⟩ := bind_ok h
      obtain ⟨_, s2, e2, h⟩ := bind_ok h
      obtain ⟨_, s3, e3, h⟩ := bind_ok h
      obtain ⟨_, s4, e4, h⟩ := bind_ok h
      cases e4
      obtain ⟨_, s4, e4, h⟩ := bind_ok h
      cases e4
      split at h
      · cases h
      · cases h
        exact (((storedBit_only e1).trans (storedBit_only e2)).trans (storedBit_only e3)).trans ⟨_, _, _, _, _, rfl⟩

theorem storedBit_noerr {x xn : Bool} {s t : State} {e : Stop} (h : storedBit x xn s = .error e t) : False := by
  unfold storedBit at h
  generalize pairOf x xn = p at h
  cases p <;> cases h

theorem bind_err {α β : Type} {x : M α} {f : α → M β} {s s' : State} {e : Stop} (h : (x >>= f) s = .error e s') :
    x s = .error e s' ∨ ∃ a s1, x s = .ok a s1 ∧ f a s1 = .error e s' := by
  simp only [bind_run] at h
  split at h
  · exact .inr ⟨_, _, ‹_›, h⟩
  · cases h; exact .inl ‹_›

theorem command_noexn {c : Bool} {s t : State} {e : Exn} (h : tlbCommand c s = .error (.exn e) t) : False := by
  unfold tlbCommand at h
  cases c with
  | true =>
    simp only [if_true, tlbLookup, bind_run, asks_run] at h
    split at h
    · simp only [bind_run, asks_run] at h
      generalize s.tlbMatches = l at h
      rcases l with _ | ⟨a, _ | ⟨b, l⟩⟩ <;> cases h
    · cases h
  | false =>
    simp only [Bool.false_eq_true, if_false, tlbWrite] at h
    rcases bind_err h with h | ⟨_, _, e1, h⟩
    · cases h
    cases e1
    rcases bind_err h with h | ⟨_, _, e1, h⟩
    · cases h
    cases e1
    split at h
    · cases h
    · rcases bind_err h with h | ⟨_, s1, e1, h⟩
      · exact storedBit_noerr h
      rcases bind_err h with h | ⟨_, s2, e2, h⟩
      · exact storedBit_noerr h
      rcases bind_err h with h | ⟨_, s3, e3, h⟩
      · exact storedBit_noerr h
      rcases bind_err h with h | ⟨_, s4, e4, h⟩
      · cases h
      cases e4
      rcases bind_err h with h | ⟨_, s5, e5, h⟩
      · cases h
      cases e5
      split at h
      · cases h
      · cases h

end Sys2Proof.Machine
end

