-- ==== Sys2Proof/Tests/Slice0.lean ====
section
/-! SUPPORT. Tests: ill-formed terms that WellFormed refuses, words written out from the encodings of `30_encoding.md`,
single steps whose results are those of `95_test_vectors.md` (each test names its vector), and for every obligation a
state and operands that meet its hypotheses. -/

namespace Sys2Proof.Tests

open Sys2Proof Sys2Proof.Machine

-- One theorem at a time: the kernel evaluations below then run on one thread.
set_option Elab.async false

/-! ## Well-formedness: each check refuses its ill-formed term -/

theorem test_wf_bp_needs_displacement : (Instr.lidt .w16 { seg := none, ea := .based16 .bp .none }).wf = false := by decide
theorem test_wf_esp_needs_sib : (Instr.lgdt .w32 { seg := none, ea := .based32 .esp .none }).wf = false := by decide
theorem test_wf_ebp_needs_displacement : (Instr.jmpMem .w32 { seg := none, ea := .based32 .ebp .none }).wf = false := by decide
theorem test_wf_esp_is_no_index :
    (Instr.callMem .w32 { seg := none, ea := .sib .x2 (some .esp) .eax .none }).wf = false := by decide
theorem test_wf_sib_base_ebp_needs_displacement :
    (Instr.movSs (.mem { seg := none, ea := .sib .x2 none .ebp .none })).wf = false := by decide
theorem test_wf_esp_is_no_index_without_base :
    (Instr.lmsw (.mem { seg := none, ea := .sibNoBase .x4 (some .esp) 0 })).wf = false := by decide
theorem test_wf_accepts :
    (Instr.jmpMem .w32 { seg := some .fs, ea := .sib .x8 (some .edi) .esp (.d8 4) }).wf = true := by decide

/-! ## Decoding: words written out bit by bit from `30_encoding.md` R123 to R131 -/

/-- Near and far transfers: EB, E9, E8, EA, 9A, FF /5, FF /3. -/
theorem test_decode_transfers :
    decode .w32 [0xEB, 0x80] = .ok (.jmpRel8 .w32 0x80) 2 ∧
    decode .w16 [0x66, 0xE9, 0x01, 0x02, 0x03, 0x04] = .ok (.jmpRel (.rel32 0x04030201)) 6 ∧
    decode .w16 [0xE8, 0x34, 0x12] = .ok (.callRel (.rel16 0x1234)) 3 ∧
    decode .w16 [0x66, 0xEA, 1, 2, 3, 4, 5, 6] = .ok (.jmpPtr (.ptr32 0x04030201 0x0605)) 8 ∧
    decode .w32 [0x9A, 1, 2, 3, 4, 5, 6] = .ok (.callPtr (.ptr32 0x04030201 0x0605)) 7 ∧
    decode .w16 [0xFF, 0b00101110, 0x20, 0x06] = .ok (.jmpMem .w16 { seg := none, ea := .direct16 0x0620 }) 4 ∧
    decode .w16 [0xFF, 0b00011110, 0x20, 0x06] = .ok (.callMem .w16 { seg := none, ea := .direct16 0x0620 }) 4 := by
  decide

/-- MOV Sreg: 8E /r, sreg 0 ES, 2 SS, 3 DS, 4 FS, 5 GS. -/
theorem test_decode_segment_loads :
    decode .w16 [0x8E, 0b11000000] = .ok (.movEs (.reg .eax)) 2 ∧
    decode .w16 [0x8E, 0b11010100] = .ok (.movSs (.reg .esp)) 2 ∧
    decode .w16 [0x8E, 0b11011011] = .ok (.movDs (.reg .ebx)) 2 ∧
    decode .w16 [0x64, 0x8E, 0b01100010, 0x7F] = .ok (.movFs (.mem { seg := some .fs, ea := .based16 .bpSi (.d8 0x7F) })) 4 ∧
    decode .w16 [0x67, 0x8E, 0b10101100, 0b01001010, 4, 3, 2, 1] =
      .ok (.movGs (.mem { seg := none, ea := .sib .x2 (some .ecx) .edx (.d32 0x01020304) })) 8 := by decide

/-- LGDT 0F 01 /2, LIDT 0F 01 /3, LMSW 0F 01 /6. -/
theorem test_decode_tables :
    decode .w16 [0x0F, 0x01, 0b00010110, 0x10, 0x06] = .ok (.lgdt .w16 { seg := none, ea := .direct16 0x0610 }) 5 ∧
    decode .w16 [0x66, 0x2E, 0x0F, 0x01, 0b00011111] = .ok (.lidt .w32 { seg := some .cs, ea := .based16 .bx .none }) 5 ∧
    decode .w32 [0x0F, 0x01, 0b00110101, 4, 3, 2, 1] = .ok (.lmsw (.mem { seg := none, ea := .direct32 0x01020304 })) 7 := by
  decide

/-- Special-register moves: 0F 20/22 CR, 21/23 DR, 24/26 TR, register number in bits 5:3. -/
theorem test_decode_moves :
    decode .w16 [0x0F, 0x20, 0b11000001] = .ok (.movFromCr0 .ecx) 3 ∧
    decode .w16 [0x0F, 0x20, 0b11011001] = .ok (.movFromCr3 .ecx) 3 ∧
    decode .w16 [0x0F, 0x22, 0b11000011] = .ok (.movToCr0 .ebx) 3 ∧
    decode .w16 [0x0F, 0x22, 0b11011000] = .ok (.movToCr3 .eax) 3 ∧
    decode .w16 [0x0F, 0x21, 0b11011010] = .ok (.movFromDr03 .edx 3) 3 ∧
    decode .w16 [0x0F, 0x21, 0b11111000] = .ok (.movFromDr67 .eax .dr7) 3 ∧
    decode .w16 [0x0F, 0x23, 0b11001111] = .ok (.movToDr03 1 .edi) 3 ∧
    decode .w16 [0x0F, 0x23, 0b11110110] = .ok (.movToDr67 .dr6 .esi) 3 ∧
    decode .w16 [0x0F, 0x24, 0b11110001] = .ok (.movFromTr6 .ecx) 3 ∧
    decode .w16 [0x0F, 0x24, 0b11111101] = .ok (.movFromTr7 .ebp) 3 ∧
    decode .w16 [0x0F, 0x26, 0b11110111] = .ok (.movToTr6 .edi) 3 ∧
    decode .w16 [0x0F, 0x26, 0b11111000] = .ok (.movToTr7 .eax) 3 := by decide

/-- INT 3 CC, IRET CF, IRETD 66 CF. -/
theorem test_decode_interrupt :
    decode .w16 [0xCC, 0x90] = .ok .int3 1 ∧ decode .w16 [0xCF] = .ok (.iret .w16) 1 ∧
    decode .w32 [0xCF] = .ok (.iret .w32) 1 ∧ decode .w32 [0x66, 0xCF] = .ok (.iret .w16) 2 := by decide

/-- Refusals by name: PUSHA (R140), LOCK (R121), MOV from CR2 (R136), NOP (R138); and the beginning of an
instruction. -/
theorem test_decode_refusals :
    decode .w16 [0x60] = .unsupported (.namedOnly "PUSHA") ∧ decode .w16 [0xF0] = .unsupported .lockOrRepeat ∧
    decode .w16 [0x0F, 0x20, 0xD0] = .unsupported .controlRegister2 ∧ decode .w16 [0x90] = .unsupported .outsideSpec ∧
    decode .w16 [0x66, 0x0F, 0x01] = .more := by decide

/-- The opcode table's numbering: first byte in bits 7:0 (`0F 22 C0`). -/
theorem test_table_word : decodeTableWord 24 0xC0220F = some (.movToCr0 .eax) := by decide

/-! ## States -/

/-- What a step leaves, if it has a next state that meets `p`. -/
def after (o : Host.Outcome State Fault Refusal) (p : State → Bool) : Bool :=
  match o with
  | .next t => p t
  | .fault _ => false
  | .refused _ => false

/-- The refusal a step ends in, if it does. -/
def refusalIn (o : Host.Outcome State Fault Refusal) : Option Refusal :=
  match o with
  | .next _ => none
  | .fault _ => none
  | .refused r => some r

/-- After RESET, on a part with known parameters (vector V1). -/
def afterReset : State :=
  resetFrom { selfTest := .passed, revId := 0, etAtReset := false } [] allRam Config.Params.standard [] 0

/-- Real-address mode: CS = 1000H, IP = 0200H, SS = 2000H, SP = 0100H. -/
def realS : State :=
  { afterReset with
    eip := 0x0200, next := 0x0203
    seg := { afterReset.seg with cs := afterReset.seg.cs.load8086 0x1000, ss := afterReset.seg.ss.load8086 0x2000 }
    gpr := { afterReset.gpr with esp := 0x0100 } }

/-- Protected mode at level 0, with the segments of `realS`. -/
def protS : State := { realS with cr0 := { realS.cr0 with pe := true } }

/-- Protected mode at level 3. -/
def userS : State := { protS with cpl := 3 }

/-- V86 mode. -/
def v86S : State := { userS with flags := { userS.flags with vm := true } }

/-- The state right after PE was set. -/
def staleS : State := { protS with prefetchStale := true }

/-- `s` with bytes at a physical address. -/
def withBytes (s : State) (a : Nat) (bs : List Byte) : State := { s with mem := placeBytes s.mem a bs }

/-- One step on the instruction `bs`. -/
def runBytes (s : State) (bs : List Byte) : Host.Outcome State Fault Refusal := step (s.placeInstr bs)

/-- `s` with a general register set. -/
def withReg (s : State) (r : Reg) (v : Dword) : State := { s with gpr := s.gpr.set r v }

/-! ## Single steps -/

/-- V1, V10: the first instruction after RESET, `EB 0E` at FFFFFFF0H. -/
theorem test_first_jump : after (runBytes afterReset [0xEB, 0x0E])
    (fun t => t.eip == 0 && t.seg.cs.base == 0xFFFF0000) = true := by decide +kernel

/-- V11: `EB FC` at 0000H wraps to FFFEH. -/
theorem test_jmp_rel8_wraps : after (runBytes { realS with eip := 0 } [0xEB, 0xFC]) (fun t => t.eip == 0xFFFE) = true := by
  decide +kernel

/-- V13, V13a: `E9`. -/
theorem test_jmp_rel16 : after (runBytes { realS with eip := 0x300 } [0xE9, 0x00, 0x80]) (fun t => t.eip == 0x8303) = true := by
  decide +kernel

/-- V13c: `E8 10 00` pushes 0203H. -/
theorem test_call_rel : after (runBytes realS [0xE8, 0x10, 0x00])
    (fun t => t.eip == 0x0213 && t.gpr.esp == 0x00FE && t.byteAt 0x200FE == some 0x03 && t.byteAt 0x200FF == some 0x02) =
      true := by decide +kernel

/-- V13d, V13e: from SP = 0 the push wraps in 16 bits; from SP = 1 it would pass offset FFFFH and is refused. -/
theorem test_call_wraps : after (runBytes (withReg realS .esp 0) [0xE8, 0x00, 0x00])
      (fun t => t.gpr.esp == 0xFFFE && t.byteAt 0x2FFFE == some 0x03) = true ∧
    refusalIn (runBytes (withReg realS .esp 1) [0xE8, 0x00, 0x00]) = some .pastSegmentEnd := by decide +kernel

/-- V14: the first far jump drops A31 to A20. -/
theorem test_jmp_far : after (runBytes afterReset [0xEA, 0x00, 0x05, 0x00, 0x00])
    (fun t => t.eip == 0x0500 && t.seg.cs.selector == 0 && t.seg.cs.base == 0) = true := by decide +kernel

/-- V17: a far jump through memory. -/
theorem test_jmp_mem : after (runBytes (withBytes realS 0x620 [0x00, 0x02, 0x00, 0x30]) [0xFF, 0x2E, 0x20, 0x06])
    (fun t => t.eip == 0x0200 && t.seg.cs.selector == 0x3000 && t.seg.cs.base == 0x30000) = true := by decide +kernel

/-- V18: a far call pushes CS, then the return offset. -/
theorem test_call_far : after (runBytes { realS with eip := 0x10 } [0x9A, 0x00, 0x02, 0x00, 0x30])
    (fun t => t.eip == 0x0200 && t.seg.cs.selector == 0x3000 && t.gpr.esp == 0x00FC && t.byteAt 0x200FF == some 0x10 &&
      t.byteAt 0x200FE == some 0x00 && t.byteAt 0x200FC == some 0x15) = true := by decide +kernel

/-- V19: a far call through memory. -/
theorem test_call_mem :
    after (runBytes (withBytes { realS with eip := 0x10 } 0x620 [0x00, 0x02, 0x00, 0x30]) [0xFF, 0x1E, 0x20, 0x06])
    (fun t => t.seg.cs.selector == 0x3000 && t.byteAt 0x200FC == some 0x14) = true := by decide +kernel

/-- Before CS is loaded, a data access through CS reads at the 8086 address (R61, D5). -/
theorem test_cs_data_before_first_load :
    after (runBytes (withBytes afterReset 0x620 [0x34, 0x12]) [0x2E, 0x8E, 0x1E, 0x20, 0x06])
      (fun t => t.seg.ds.selector == 0x1234 && t.latch && t.eip == 0xFFF5) = true := by decide +kernel

/-- V20, V20a, V20b, and ES and GS by the same rule (R157). -/
theorem test_segment_loads :
    after (runBytes (withReg realS .eax 0x2000) [0x8E, 0xD0])
      (fun t => t.seg.ss.selector == 0x2000 && t.seg.ss.base == 0x20000 && t.holdOff) = true ∧
    after (runBytes (withReg realS .ebx 0xFFFF) [0x8E, 0xDB]) (fun t => t.seg.ds.base == 0xFFFF0 && !t.holdOff) = true ∧
    after (runBytes (withReg realS .eax 0x40) [0x8E, 0xE0]) (fun t => t.seg.fs.base == 0x400) = true ∧
    after (runBytes (withReg realS .eax 0x40) [0x8E, 0xC0]) (fun t => t.seg.es.base == 0x400) = true ∧
    after (runBytes (withReg realS .eax 0x40) [0x8E, 0xE8]) (fun t => t.seg.gs.base == 0x400) = true := by decide +kernel

/-- V21. -/
theorem test_lidt : after (runBytes (withBytes realS 0x600 [0, 0, 0, 0, 0, 0]) [0x0F, 0x01, 0x1E, 0x00, 0x06])
    (fun t => t.idtr == { base := 0, limit := 0 }) = true := by decide +kernel

/-- V22a, V22b. -/
theorem test_lgdt :
    after (runBytes (withBytes realS 0x610 [0xFF, 0xFF, 0x78, 0x56, 0x34, 0x12]) [0x0F, 0x01, 0x16, 0x10, 0x06])
      (fun t => t.gdtr == { base := 0x00345678, limit := 0xFFFF }) = true ∧
    after (runBytes (withBytes realS 0x610 [0xFF, 0xFF, 0x78, 0x56, 0x34, 0x12]) [0x66, 0x0F, 0x01, 0x16, 0x10, 0x06])
      (fun t => t.gdtr == { base := 0x12345678, limit := 0xFFFF }) = true := by decide +kernel

/-- V24: setting PE. -/
theorem test_mov_to_cr0 : after (runBytes (withReg realS .eax 1) [0x0F, 0x22, 0xC0])
    (fun t => t.cr0.pe && t.prefetchStale && t.mode == .prot && t.cpl == 0 && t.seg == realS.seg && t.eip == 0x203) =
      true := by decide +kernel

/-- V27: clearing PE is refused. -/
theorem test_clearing_pe : refusalIn (exec (.movToCr0 .eax) protS) = some .clearingPe := by decide +kernel

/-- V28: CR3, and every valid bit cleared. -/
theorem test_mov_to_cr3 :
    after (runBytes (withReg { realS with
        tlb := realS.tlb.set 18
          { lin := 0x12, v := true, d := false, u := true, w := true, phys := 0x345, written := true } } .eax 0x1000)
      [0x0F, 0x22, 0xD8])
    (fun t => t.cr3 == 0x1000 && t.tlb[18] ==
      { lin := 0x12, v := false, d := false, u := true, w := true, phys := 0x345, written := true }) = true := by decide +kernel

/-- V29, V29a: LMSW sets PE and cannot clear it. -/
theorem test_lmsw :
    after (runBytes (withReg realS .eax 1) [0x0F, 0x01, 0xF0]) (fun t => t.cr0.pe && t.prefetchStale) = true ∧
    after (runBytes (withReg protS .eax 0xFFF0) [0x0F, 0x01, 0xF0])
      (fun t => t.cr0.pe && !t.cr0.mp && !t.cr0.em && !t.cr0.ts && !t.prefetchStale) = true := by decide +kernel

/-- V30. -/
theorem test_mov_to_tr7 : after (runBytes (withReg realS .eax 0x00345018) [0x0F, 0x26, 0xF8])
    (fun t => t.tr7.toWord == 0x00345018 && t.tr7.phys == 0x345 && t.tr7.ht && t.tr7.rep == 2) = true := by decide +kernel

/-- The state after V30, with EBX loaded for V31. -/
def v30 (ebx : Dword) : State := withReg { realS with tr7 := Tr7.ofWord 0x00345018 } .ebx ebx

/-- V31: the TLB write command. -/
theorem test_tlb_write : after (exec (.movToTr6 .ebx) (v30 0x00012B40))
    (fun t => t.tr6.toWord == 0x00012B40 && t.tlb[18] ==
      { lin := 0x12, v := true, d := false, u := true, w := true, phys := 0x345, written := true }) = true := by decide +kernel

/-- The state after V31. -/
def v31 (ebx : Dword) : State :=
  { v30 ebx with tr6 := Tr6.ofWord 0x00012B40
                 tlb := (v30 ebx).tlb.set 18
                   { lin := 0x12, v := true, d := false, u := true, w := true, phys := 0x345, written := true } }

/-- V32: the lookup finds it. -/
theorem test_tlb_lookup : after (exec (.movToTr6 .ebx) { v31 0x00012B41 with tr7 := Tr7.ofWord 0 })
    (fun t => t.tr7.toWord == 0x00345018 && t.tr6.toWord == 0x00012B41 && !t.tlbMissed) = true := by decide +kernel

/-- V34: asked for D = 1, it misses. -/
theorem test_tlb_lookup_misses : after (exec (.movToTr6 .ebx) (v31 0x00012D41)) (fun t => !t.tr7.ht && t.tlbMissed) = true := by
  decide +kernel

/-- V36, V37: duplicate tags and HT = 0 are refused. -/
theorem test_tlb_refusals :
    refusalIn (exec (.movToTr6 .ebx) { v31 0x00012B40 with tr7 := Tr7.ofWord 0x00999014 }) = some .duplicateTlbTags ∧
    refusalIn (exec (.movToTr6 .ebx) { v31 0x00012B40 with tr7 := Tr7.ofWord 0x00345008 }) = some .tlbWriteWithoutHt := by decide +kernel

/-- V40, V40a, V40c, V40d, V40e: writes of debug registers. -/
theorem test_mov_to_dr :
    after (runBytes (withReg realS .eax 0x000D0001) [0x0F, 0x23, 0xF8]) (fun t => t.dr7 == 0x000D0001) = true ∧
    after (runBytes (withReg realS .eax 0x1000) [0x0F, 0x23, 0xC0]) (fun t => t.dr0 == 0x1000) = true ∧
    refusalIn (exec (.movToDr67 .dr7 .eax) (withReg realS .eax 0x00080001)) = some .reservedBreakpoint ∧
    refusalIn (exec (.movToDr67 .dr7 .eax) (withReg realS .eax 0x00040001)) = some .instructionBreakpointLength ∧
    after (exec (.movToDr67 .dr7 .eax) (withReg realS .eax 0x00080000)) (fun t => t.dr7 == 0x00080000) = true := by decide +kernel

/-- A read of DR0 to DR3 (R212). -/
theorem test_mov_from_dr : after (runBytes { realS with dr2 := 0x12345678 } [0x0F, 0x21, 0xD1])
    (fun t => t.gpr.ecx == 0x12345678 && t.dr2 == 0x12345678) = true := by decide +kernel

/-- V23 (with PE = 1), V40b, V33, V33a, and MOV from CR3 (R160): every bit but the drawn ones is the register's. -/
theorem test_special_reads :
    (∃ t, exec (.movFromCr0 .eax) protS = .next t ∧
      ∀ k, k < 32 → (0x7FFFFFE0 : Dword).getLsbD k = false → (t.gpr.get .eax).getLsbD k = (0x00000001 : Dword).getLsbD k) ∧
    (∃ t, exec (.movFromDr67 .eax .dr6) { realS with dr6 := 1 } = .next t ∧
      ∀ k, k < 32 → (0xFFFF1FF0 : Dword).getLsbD k = false → (t.gpr.get .eax).getLsbD k = (1 : Dword).getLsbD k) ∧
    (∃ t, exec (.movFromTr7 .edx) { realS with tr7 := Tr7.ofWord 0x00345018 } = .next t ∧
      ∀ k, k < 32 → (0x00000FE3 : Dword).getLsbD k = false → (t.gpr.get .edx).getLsbD k = (0x00345018 : Dword).getLsbD k) ∧
    (∃ t, exec (.movFromTr6 .ecx) { realS with tr6 := Tr6.ofWord 0x00012B41 } = .next t ∧
      ∀ k, k < 32 → (0x0000001E : Dword).getLsbD k = false → (t.gpr.get .ecx).getLsbD k = (0x00012B41 : Dword).getLsbD k) ∧
    (∃ t, exec (.movFromCr3 .eax) { realS with cr3 := 0x1000 } = .next t ∧
      ∀ k, k < 32 → (0x00000FFF : Dword).getLsbD k = false → (t.gpr.get .eax).getLsbD k = (0x1000 : Dword).getLsbD k) :=
  ⟨⟨_, rfl, fun _ h k => getLsbD_drawBits_outside k h⟩, ⟨_, rfl, fun _ h k => getLsbD_drawBits_outside k h⟩,
   ⟨_, rfl, fun _ h k => getLsbD_drawBits_outside k h⟩, ⟨_, rfl, fun _ h k => getLsbD_drawBits_outside k h⟩,
   ⟨_, rfl, fun _ h k => getLsbD_drawBits_outside k h⟩⟩

/-- The state of V50: IP = 0020H, FLAGS = 0202H, entry 3 = 0050H:0400H, entry 1 = 0050H:0500H. -/
def v50 : State :=
  withBytes (withBytes { realS with eip := 0x20, next := 0x21, flags := Eflags.ofWord 0x202 } 0x0C [0x00, 0x04, 0x50, 0x00])
    0x04 [0x00, 0x05, 0x50, 0x00]

/-- V50: INT 3 in real-address mode. -/
theorem test_int3 : after (runBytes v50 [0xCC])
    (fun t => t.eip == 0x400 && t.seg.cs.selector == 0x50 && t.seg.cs.base == 0x500 && t.gpr.esp == 0xFA &&
      t.flags.toWord == 0x0002 && t.byteAt 0x200FF == some 0x02 && t.byteAt 0x200FE == some 0x02 &&
      t.byteAt 0x200FD == some 0x10 && t.byteAt 0x200FC == some 0x00 && t.byteAt 0x200FB == some 0x00 &&
      t.byteAt 0x200FA == some 0x21 && t.dr6 == 0) = true := by decide +kernel

/-- V60: with IDTR.Limit = 0 it is shutdown. -/
theorem test_int3_shutdown : after (runBytes { v50 with idtr := { base := 0, limit := 0 } } [0xCC])
    (fun t => t.run == .shutdown && t.gpr.esp == 0x100) = true := by decide +kernel

/-- V70: IRET in real-address mode. -/
theorem test_iret : after (runBytes (withReg (withBytes realS 0x200FA [0x21, 0x00, 0x00, 0x10, 0x02, 0x02]) .esp 0xFA) [0xCF])
    (fun t => t.eip == 0x21 && t.seg.cs.selector == 0x1000 && t.seg.cs.base == 0x10000 && t.flags.toWord == 0x202 &&
      t.gpr.esp == 0x100) = true := by decide +kernel

/-- The state of V71: protected mode, level 0, the nine doublewords of a return to V86 mode at 8000H. -/
def v71 : State :=
  withReg (withBytes { protS with seg := { protS.seg with ss := { protS.seg.ss with base := 0, big := true } } } 0x8000
    ([0x00, 0x01, 0, 0, 0x00, 0x10, 0, 0, 0x02, 0x02, 0x02, 0, 0xFE, 0xFF, 0, 0, 0x00, 0x20, 0, 0] ++
     [0x00, 0x30, 0, 0, 0x00, 0x30, 0, 0, 0, 0, 0, 0, 0, 0, 0, 0])) .esp 0x8000

/-- R258: a pop of protected mode reads at `Lin(SS, SP)` and adds to SP, also where it passes FFFFH (SS base 20000H). -/
theorem test_protected_pop_at_segment_end :
    (match pop 2 (withReg (withBytes protS 0x2FFFF [0x11, 0x22]) .esp 0xFFFF) with
      | .ok v t => v == 0x2211 && t.gpr.esp == 1
      | .error _ _ => false) = true := by decide +kernel

/-- V71: IRETD enters V86 mode. -/
theorem test_iretd_to_v86 : after (runBytes v71 [0x66, 0xCF])
    (fun t => t.mode == .v86 && t.cpl == 3 && t.eip == 0x100 && t.seg.cs.base == 0x10000 && t.seg.ss.base == 0x20000 &&
      t.seg.es.selector == 0x3000 && t.seg.ds.base == 0x30000 && t.seg.fs.selector == 0 && t.gpr.esp == 0xFFFE &&
      t.flags.toWord == 0x00020202) = true := by decide +kernel

/-- V44: the instruction breakpoint. -/
theorem test_instruction_breakpoint : after (step { v50 with dr0 := 0x10020, dr7 := 1 })
    (fun t => t.dr6 == 1 && t.eip == 0x500 && t.byteAt 0x200FA == some 0x20) = true := by decide +kernel

/-- V43: the pushes of a far call match a data breakpoint, and the call completes. -/
theorem test_data_breakpoint : after (runBytes { realS with eip := 0x10, dr0 := 0x200FC, dr7 := 0x000D0001 }
      [0x9A, 0x00, 0x02, 0x00, 0x30])
    (fun t => t.traps == 1 && t.eip == 0x200) = true := by decide +kernel

/-- V46: general detect. -/
theorem test_general_detect : after (runBytes { v50 with dr7 := 0x2000 } [0x0F, 0x21, 0xF8])
    (fun t => t.dr6 == 0x2000 && t.dr7 == 0 && t.gpr.eax == 0 && t.eip == 0x500 && t.byteAt 0x200FA == some 0x20) =
      true := by decide +kernel

/-- V45, and the trap at the next step (P5, steps 1 and 2). -/
theorem test_single_step :
    after (runBytes { v50 with flags := Eflags.ofWord 0x302 } [0xEB, 0x00]) (fun t => t.traps == 0x4000 && t.eip == 0x22) =
      true ∧
    after (step { v50 with eip := 0x22, flags := Eflags.ofWord 0x302, traps := 0x4000 })
      (fun t => t.dr6 == 0x4000 && t.eip == 0x500 && t.flags.toWord == 2 && t.byteAt 0x200FA == some 0x22 &&
        t.byteAt 0x200FF == some 0x03) = true := by decide +kernel

/-! ## Witnesses: for every obligation with hypotheses, a state and operands that meet them together -/

/-- Memory operand [0620H]. -/
def at0620 : MemOp := { seg := none, ea := .direct16 0x0620 }

/-- `realS`, `protS` and `v86S` with bytes at 0620H: offset FFFFH and selector 3000H, or with a 32-bit offset. -/
def realM : State := withBytes realS 0x620 [0xFF, 0xFF, 0x00, 0x30]
def realM32 : State := withBytes realS 0x620 [0xFF, 0xFF, 0x00, 0x00, 0x00, 0x30]
def realBig : State := withBytes realS 0x620 [0x00, 0x00, 0x01, 0x00, 0x00, 0x30]
def protM : State := withBytes protS 0x620 [0xFF, 0xFF, 0x00, 0x30]

theorem witness_DecodeEncodeRoundTrip :
    (Instr.movGs (.mem { seg := some .ss, ea := .sib .x8 (some .edi) .esp (.d32 0xFFFFFFFF) })).wf = true := by decide

/-- `EB 0E` at the reset vector; with and without paging the same premises. -/
theorem witness_StepRunsDecodedInstruction :
    let s := afterReset.placeInstr [0xEB, 0x0E]
    s.goesOn ∧ s.cr0.pg = false ∧ decode s.defaultSize [0xEB, 0x0E] = .ok (.jmpRel8 .w16 0x0E) 2 ∧
      (Instr.jmpRel8 .w16 0x0E).wf = true ∧ s.codeIs [0xEB, 0x0E] 2 ∧
      fetchInstr s.pastBoundary = .ok (.jmpRel8 .w16 0x0E, 2) s.pastBoundary := by
  refine ⟨⟨rfl, rfl, .inr ⟨rfl, rfl⟩, .inr (by decide +kernel)⟩, rfl, by decide, rfl, ?_, rfl⟩
  rintro k h -
  revert k h
  decide +kernel

/-- `0F 20 C8` (register number 1), with a clean and with a stale prefetch queue; and each clause's ModRM byte. -/
theorem witness_IllegalEncodingsTakeVectorSix :
    (fieldMid 0xC8 = 1 ∧ (fieldMid 0xE0).toNat = 4 ∧ fieldMid 0xD0 = 2 ∧ fieldMid 0xE8 = 5 ∧ (fieldMid 0x28).toNat = 5 ∧
      fieldHi 0xE8 = 3 ∧ fieldMid 0xD8 = 3 ∧ fieldHi 0xD8 = 3 ∧ fieldMid 0xD0 = 2 ∧ fieldMid 0xF8 = 7) ∧
    ∀ b : Bool,
      let s := { protS with prefetchStale := b }.placeInstr [0x0F, 0x20, 0xC8]
      s.goesOn ∧ s.cr0.pg = false ∧ decode s.defaultSize [0x0F, 0x20, 0xC8] = .invalid ∧
        (∀ k, k < 3 → decode s.defaultSize ([0x0F, 0x20, 0xC8].take k) = .more) ∧ s.codeIs [0x0F, 0x20, 0xC8] 3 ∧
        s.prefetchStale = b := by
  refine ⟨by decide, fun b => ?_⟩
  refine ⟨⟨rfl, rfl, .inr ⟨rfl, rfl⟩, .inr (by cases b <;> decide +kernel)⟩, rfl, by cases b <;> decide +kernel, ?_, ?_, rfl⟩
  · intro k hk
    have : k = 0 ∨ k = 1 ∨ k = 2 := by omega
    rcases this with rfl | rfl | rfl <;> cases b <;> decide +kernel
  · rintro k h -
    revert k h
    cases b <;> decide +kernel

/-- Each event alone and with those it precedes; a held boundary; a maskable interrupt under IF = 0, and one that is
presented at the boundary. -/
theorem witness_EventsAreTakenInOrder :
    (let s := { realS with traps := 0x4000, nmi := true, intr := some 0x20, dr0 := 0x10200, dr7 := 1 }
     s.run = .running ∧ s.inputs = [] ∧ s.holdOff = false ∧ s.traps ≠ 0) ∧
    (let s := { realS with nmi := true, intr := some 0x20, dr0 := 0x10200, dr7 := 1 }
     s.traps = 0 ∧ s.flags.rf = false ∧ fetchHits s s.linPc ≠ 0) ∧
    (let s := { realS with holdOff := true, traps := 0x4000, dr0 := 0x10200, dr7 := 1 }
     s.holdOff = true ∧ s.flags.rf = false ∧ fetchHits s s.linPc ≠ 0) ∧
    (let s := { realS with nmi := true, intr := some 0x20 }
     s.holdOff = false ∧ s.traps = 0 ∧ ¬(s.flags.rf = false ∧ fetchHits s s.linPc ≠ 0) ∧ s.nmi = true) ∧
    (let s := { realS with intr := some 0x20, flags := Eflags.ofWord 0x10202, dr0 := 0x10200, dr7 := 1 }
     s.holdOff = false ∧ s.traps = 0 ∧ ¬(s.flags.rf = false ∧ fetchHits s s.linPc ≠ 0) ∧ s.nmi = false ∧
       s.intr = some 0x20 ∧ s.flags.ifl = true) ∧
    (let s := { realS with intr := some 0x20, flags := Eflags.ofWord 2 }
     s.run = .running ∧ s.traps = 0 ∧ ¬(s.flags.rf = false ∧ fetchHits s s.linPc ≠ 0) ∧ s.nmi = false ∧
       s.flags.ifl = false) ∧
    (let s := { realS with inputs := [{ nmi := true, intr := some 0x20, reset := none }] }
     s.run = .running ∧ ∀ p ∈ s.inputs.head?, p.reset = none) := by decide +kernel

theorem witness_ResetEventSetsGivenValues (t : Config.SelfTest) :
    let q : Config.ResetParams := { selfTest := t, revId := 8, etAtReset := true }
    let s := { v86S with run := .shutdown, inputs := [{ nmi := false, intr := none, reset := some q }] }
    s.inputs = [{ nmi := false, intr := none, reset := some q }] ∧
      ({ nmi := false, intr := none, reset := some q } : Presented).reset = some q := ⟨rfl, rfl⟩

theorem witness_InitialModeAndMasks : v86S.inputs = [] := rfl

theorem witness_FirstFetchIsAtFFFFFFF0 :
    let s := withBytes v86S 0xFFFFFFF0 [0xEB, 0x0E]
    s.inputs = [] ∧ decode .w16 [0xEB, 0x0E] = .ok (.jmpRel8 .w16 0x0E) 2 ∧
      s.byteAt (0xFFFFFFF0 + BitVec.ofNat 32 0) = some 0xEB ∧ s.byteAt (0xFFFFFFF0 + BitVec.ofNat 32 1) = some 0x0E ∧
      State.reset.seg.cs.base = 0xFFFF0000 :=
  ⟨rfl, by decide, by decide +kernel, by decide +kernel, rfl⟩

/-- Four bytes across the end of the address space; a ROM byte; an undeclared address. -/
theorem witness_StoreThenReadIsLittleEndian :
    (realS.cr0.pg = false ∧ realS.ramAt 0xFFFFFFFE 4) ∧
    kindAt ({ realS with map := [{ base := 0, size := 1, kind := .rom }] } : State).map (0 : Dword).toNat = some .rom ∧
    kindAt ({ realS with map := [] } : State).map (0 : Dword).toNat = none :=
  ⟨⟨rfl, ramAt_all rfl _ _⟩, by decide, by decide⟩

/-! ### The invariant away from RESET -/

/-- The invariant holds in a state whose memory, mode and segments are in order and whose TLB is empty. -/
theorem inv_of {s : State} (hm : s.MemOk) (h1 : s.ModeOk) (h2 : s.PcOk) (h3 : s.SegOk) (h4 : s.Dr7Ok) (h5 : s.TrapsOk)
    (ht : s.tlb = Vector.replicate 32 resetEntry) : s.Inv := by
  have hv : ∀ i : Fin 32, s.tlb[i.val] = resetEntry := fun i => by rw [ht, Vector.getElem_replicate]
  refine ⟨hm, h1, h2, h3, h4, h5, fun i j h => ?_, fun i => ⟨fun h => ?_, fun h => ?_⟩⟩
  all_goals rw [hv i] at h; cases h

/-- V86 mode with selector FFFFH in DS. -/
def v86Top : State :=
  { v86S with seg := { v86S.seg with ds := v86S.seg.ds.load8086 0xFFFF } }

theorem inv_realS : realS.Inv :=
  inv_of rfl ⟨fun _ => ⟨rfl, rfl, rfl, rfl⟩, fun h => (nomatch h)⟩ (fun _ => by decide)
    (fun _ => ⟨⟨⟨rfl, rfl, rfl⟩, ⟨rfl, rfl, rfl⟩, ⟨rfl, rfl, rfl⟩, ⟨rfl, rfl, rfl⟩, ⟨rfl, rfl, rfl⟩⟩, .inl ⟨rfl, rfl, rfl⟩⟩)
    ⟨by decide, by decide⟩ ⟨rfl, rfl⟩ rfl

theorem inv_v86Top : v86Top.Inv :=
  inv_of rfl ⟨fun h => (nomatch h), fun _ => rfl⟩ (fun _ => by decide)
    (fun _ => ⟨⟨⟨rfl, rfl, rfl⟩, ⟨rfl, rfl, rfl⟩, ⟨rfl, rfl, rfl⟩, ⟨rfl, rfl, rfl⟩, ⟨rfl, rfl, rfl⟩⟩, .inl ⟨rfl, rfl, rfl⟩⟩)
    ⟨by decide, by decide⟩ ⟨rfl, rfl⟩ rfl

theorem witness_V86AddressesStayInRange :
    (v86Top.seg.get .ds).Is8086 ∧ v86Top.Inv ∧ v86Top.mode = .v86 ∧
      (0xFFFC : Dword).toNat + 4 ≤ 0x10000 ∧ (0xFFFF : Dword).toNat + 1 ≤ 0x10000 :=
  ⟨⟨rfl, rfl, rfl⟩, inv_v86Top, rfl, by decide, by decide⟩

/-- Protected mode with paging on and one TLB entry, a user or a supervisor page. -/
def paged (u : Bool) : State :=
  { protS with cr0 := { protS.cr0 with pg := true },
               tlb := protS.tlb.set 18 { lin := 0x12, v := true, d := true, u := u, w := true, phys := 0x345, written := true } }

/-- Two valid entries for the page 12H. -/
def pagedTwice : State :=
  { paged true with
    tlb := (paged true).tlb.set 26
      { lin := 0x12, v := true, d := true, u := true, w := true, phys := 0x999, written := true } }

/-- A hit, a miss on the next page, and two entries for one page. -/
theorem witness_LinearAddressesTranslate :
    (realS.cr0.pg = false ∧ realS.Inv ∧ realS.mode = .real) ∧
    (∀ u : Bool, (paged u).cr0.pg = true ∧ (paged u).tlbHits ((0x12ABC : Dword).extractLsb' 12 20) =
      [{ lin := 0x12, v := true, d := true, u := u, w := true, phys := 0x345, written := true }]) ∧
    (∀ u e, (paged u).tlbHits ((0x13000 : Dword).extractLsb' 12 20) ≠ [e]) ∧
    ∀ e, pagedTwice.tlbHits ((0x12ABC : Dword).extractLsb' 12 20) ≠ [e] := by
  refine ⟨⟨rfl, inv_realS, rfl⟩, by decide +kernel, fun u e => ?_, fun e he => ?_⟩
  · rw [show (paged u).tlbHits ((0x13000 : Dword).extractLsb' 12 20) = [] by cases u <;> decide +kernel]
    exact List.cons_ne_nil _ _ |>.symm
  · have h : (pagedTwice.tlbHits ((0x12ABC : Dword).extractLsb' 12 20)).length = 2 := by decide +kernel
    rw [he] at h
    cases h

theorem witness_OperandsReadTheirBytes :
    realM.operandIs at0620 0 2 0xFFFF ∧ realM.operandIs at0620 2 2 0x3000 ∧ realM32.operandIs at0620 0 4 0xFFFF ∧
      realM32.operandIs at0620 4 2 0x3000 ∧ protM.operandIs at0620 0 2 0xFFFF ∧
      (v86S.like8086 = true ∧ 0x10000 < (0xFFFD : Dword).toNat + 4) := by
  refine ⟨⟨rfl, ?_, ?_, ?_⟩, ⟨rfl, ?_, ?_, ?_⟩, ⟨rfl, ?_, ?_, ?_⟩, ⟨rfl, ?_, ?_, ?_⟩, ⟨rfl, ?_, ?_, ?_⟩, ⟨rfl, ?_⟩⟩
  all_goals decide +kernel

/-! ### Transfers -/

theorem canPush_realS (n : Nat) (h : realS.pushCrosses n = false) : realS.canPush n :=
  ⟨rfl, h, ramAt_all rfl _ _⟩

/-- `realS` with another stack pointer; and with a 32-bit stack, in protected mode. -/
def stackAt (sp : Dword) : State := withReg realS .esp sp
def bigStackAt (sp : Dword) : State :=
  withReg { protS with seg := { protS.seg with ss := { protS.seg.ss with big := true } } } .esp sp

/-- Targets at FFFFH exactly, with a 32-bit operand size; pushes that cross the end of a stack of real-address mode, and
of a 32-bit one of protected mode. -/
theorem witness_NearTransfers :
    ((stackAt 1).sp.toNat = 1 ∧ (stackAt 3).sp.toNat = 3 ∧ (bigStackAt 1).sp.toNat = 1 ∧ (bigStackAt 3).sp.toNat = 3 ∧
      (stackAt 1).prefetchStale = false ∧ (bigStackAt 1).prefetchStale = false ∧ (stackAt 1).like8086 = true ∧
      (stackAt 3).like8086 = true ∧ (bigStackAt 1).like8086 = false ∧ (bigStackAt 3).like8086 = false) ∧
    realS.like8086 = true ∧ (realS.next + (0x7F : Byte).signExtend 32).toNat ≤ 0xFFFF ∧
      (realS.next + 0xFDFC).toNat = 0xFFFF ∧ realS.prefetchStale = false ∧ realS.canPush 2 ∧ realS.canPush 4 ∧
      protS.like8086 = false :=
  ⟨by decide, rfl, by decide, by decide, rfl, canPush_realS 2 (by decide), canPush_realS 4 (by decide), rfl⟩

/-! A far call's two pushes fit. -/

theorem fits_realS_2 : State.canPushAll false 2 [realS.seg.cs.selector.setWidth 32, realS.next] realS :=
  ⟨⟨rfl, by decide +kernel, ramAt_all rfl _ _⟩, ⟨rfl, by decide +kernel, ramAt_all rfl _ _⟩, trivial⟩

theorem fits_realS_4 : State.canPushAll false 4 [realS.seg.cs.selector.setWidth 32, realS.next] realS :=
  ⟨⟨rfl, by decide +kernel, ramAt_all rfl _ _⟩, ⟨rfl, by decide +kernel, ramAt_all rfl _ _⟩, trivial⟩

theorem fits_realM_2 : State.canPushAll false 2 [realM.seg.cs.selector.setWidth 32, realM.next] realM :=
  ⟨⟨rfl, by decide +kernel, ramAt_all rfl _ _⟩, ⟨rfl, by decide +kernel, ramAt_all rfl _ _⟩, trivial⟩

theorem fits_realM_4 : State.canPushAll false 4 [realM.seg.cs.selector.setWidth 32, realM.next] realM :=
  ⟨⟨rfl, by decide +kernel, ramAt_all rfl _ _⟩, ⟨rfl, by decide +kernel, ramAt_all rfl _ _⟩, trivial⟩

theorem fits_realM32_4 : State.canPushAll false 4 [realM32.seg.cs.selector.setWidth 32, realM32.next] realM32 :=
  ⟨⟨rfl, by decide +kernel, ramAt_all rfl _ _⟩, ⟨rfl, by decide +kernel, ramAt_all rfl _ _⟩, trivial⟩

theorem fits_realBig_4 : State.canPushAll false 4 [realBig.seg.cs.selector.setWidth 32, realBig.next] realBig :=
  ⟨⟨rfl, by decide +kernel, ramAt_all rfl _ _⟩, ⟨rfl, by decide +kernel, ramAt_all rfl _ _⟩, trivial⟩

/-- The last line: the first push crosses the end of the stack, or the second, in both sizes. -/
theorem witness_FarTransfersAsThe8086 :
    realS.like8086 = true ∧ realS.prefetchStale = false ∧ (0xFFFF : Dword).toNat ≤ 0xFFFF ∧
      State.canPushAll false 2 [realS.seg.cs.selector.setWidth 32, realS.next] realS ∧
      State.canPushAll false 4 [realS.seg.cs.selector.setWidth 32, realS.next] realS ∧
      readFarPtr .w16 at0620 realM = .ok (0xFFFF, 0x3000) realM ∧
      readFarPtr .w32 at0620 realM32 = .ok (0xFFFF, 0x3000) realM32 ∧
      State.canPushAll false 2 [realM.seg.cs.selector.setWidth 32, realM.next] realM ∧
      State.canPushAll false 4 [realM32.seg.cs.selector.setWidth 32, realM32.next] realM32 ∧
      (stackAt 1).like8086 = true ∧ (stackAt 1).sp.toNat = 1 ∧ ((stackAt 3).sp.toNat = 3 ∧ (stackAt 3).canPush 2) ∧
      (stackAt 7).sp.toNat = 7 ∧ (stackAt 7).canPush 4 :=
  ⟨rfl, rfl, by decide, fits_realS_2, fits_realS_4, rfl, rfl, fits_realM_2, fits_realM32_4, rfl, by decide,
   ⟨by decide, rfl, by decide, ramAt_all rfl _ _⟩, by decide, rfl, by decide, ramAt_all rfl _ _⟩

/-- The stack of `realS` with a 32-bit frame: offset 10000H, selector 3000H, an image. -/
def realIretBig : State :=
  withBytes realS 0x20100 [0x00, 0x00, 0x01, 0x00, 0x00, 0x30, 0x00, 0x00, 0x02, 0x02, 0x00, 0x00]

/-- Targets at 10000H exactly. -/
theorem witness_TargetsBeyondSegmentFault :
    realS.like8086 = true ∧ 0xFFFF < (({ realS with next := 0xFFFF } : State).next + (1 : Byte).signExtend 32).toNat ∧
      (realS.next + 0xFDFD).toNat = 0x10000 ∧ realS.prefetchStale = false ∧ realS.canPush 4 ∧
      0xFFFF < (0x10000 : Dword).toNat ∧
      State.canPushAll false 4 [realS.seg.cs.selector.setWidth 32, realS.next] realS ∧
      readFarPtr .w32 at0620 realBig = .ok (0x10000, 0x3000) realBig ∧
      State.canPushAll false 4 [realBig.seg.cs.selector.setWidth 32, realBig.next] realBig ∧
      realIretBig.mode = .real ∧ State.canPopAll 4 [0x10000, (0x3000 : Selector).setWidth 32, 0x202] realIretBig :=
  ⟨rfl, by decide, by decide, rfl, canPush_realS 4 (by decide), by decide, fits_realS_4, rfl, fits_realBig_4, rfl,
   ⟨rfl, by decide, by decide +kernel⟩, ⟨rfl, by decide, by decide +kernel⟩, ⟨rfl, by decide, by decide +kernel⟩, trivial⟩

theorem witness_ProtectedTransfersFollowInterfaces :
    (State.canPushAll false 4 [protS.seg.cs.selector.setWidth 32, protS.next] protS ∧ protS.like8086 = false) ∧
    protM.like8086 = false ∧ protM.prefetchStale = false ∧ readFarPtr .w16 at0620 protM = .ok (0xFFFF, 0x3000) protM ∧
      readRm16 (.mem at0620) protM = .ok 0xFFFF protM ∧ readRm16 (.reg .esp) protM = .ok 0x0100 protM :=
  ⟨⟨⟨⟨rfl, by decide, ramAt_all rfl _ _⟩, ⟨rfl, by decide +kernel, ramAt_all rfl _ _⟩, trivial⟩, rfl⟩,
   rfl, rfl, rfl, rfl, rfl⟩

theorem witness_SegmentLoadsAsThe8086 :
    realM.like8086 = true ∧ realM.prefetchStale = false ∧ readRm16 (.mem at0620) realM = .ok 0xFFFF realM ∧
      readRm16 (.reg .esp) realM = .ok 0x0100 realM := ⟨rfl, rfl, rfl, rfl⟩

/-- Six bytes at 0610H. -/
def realTable : State := withBytes realS 0x610 [0xFF, 0xFF, 0x78, 0x56, 0x34, 0x12]

theorem witness_TableLoadsReadSixBytes :
    realTable.level = 0 ∧ realTable.prefetchStale = false ∧
      realTable.operandIs { seg := none, ea := .direct16 0x0610 } 0 2 0xFFFF ∧
      realTable.operandIs { seg := none, ea := .direct16 0x0610 } 2 4 0x12345678 := by
  refine ⟨rfl, rfl, ⟨rfl, ?_, ?_, ?_⟩, ⟨rfl, ?_, ?_, ?_⟩⟩
  all_goals decide +kernel

/-! ### Control registers, privilege, debug and test registers -/

theorem witness_ControlRegisterReads :
    (realS.level = 0 ∧ realS.prefetchStale = false) ∧ protS.level = 0 ∧ protS.prefetchStale = false := ⟨⟨rfl, rfl⟩, rfl, rfl⟩

/-- Each clause of the CR0 write: nothing switched, PE set, PG without PE, PE cleared. -/
theorem witness_ControlRegisterWrites :
    ((Cr0.ofWord 0x80000001).pg = true ∧ (Cr0.ofWord 0x80000001).pe = protS.cr0.pe) ∧
    ((Cr0.ofWord 1).pe = true ∧ realS.cr0.pe = false) ∧
    ((Cr0.ofWord 0x80000000).pg = true ∧ (Cr0.ofWord 0x80000000).pe = false) ∧
    ((Cr0.ofWord 0).pg = false ∧ (Cr0.ofWord 0).pe = false ∧ protS.cr0.pe = true) := by decide

theorem witness_LmswLoadsStatusWord :
    realM.level = 0 ∧ realM.prefetchStale = false ∧ readRm16 (.mem at0620) realM = .ok 0xFFFF realM ∧
      realM.cr0.pe = false ∧ protM.level = 0 ∧ readRm16 (.mem at0620) protM = .ok 0xFFFF protM ∧ protM.cr0.pe = true :=
  ⟨rfl, rfl, rfl, rfl, rfl, rfl, rfl⟩

theorem witness_SettingPeEntersProtectedMode :
    realS.Inv ∧ realS.cr0.pe = false ∧ ((withReg realS .eax 1).gpr.get .eax).getLsbD 0 = true ∧
      readRm16 (.reg .eax) (withReg realS .eax 1) = .ok 1 (withReg realS .eax 1) := ⟨inv_realS, rfl, rfl, rfl⟩

/-- A JMP in the stale state goes on; a CALL does not. -/
theorem witness_OnlyJumpsRunWhileStale :
    (realS.cr0.pe = false ∧ (Cr0.ofWord 1).pe = true) ∧ staleS.prefetchStale = true ∧
      isJump (.callRel (.rel16 0)) = false ∧ isJump (.jmpRel8 .w16 0) = true ∧
      after (exec (.jmpRel8 .w16 0) staleS) (fun t => !t.prefetchStale) = true := by decide +kernel

theorem witness_PrivilegedInstructionsFaultOutsideLevelZero :
    needsLevel0 (.movToCr0 .eax) = true ∧ userS.level ≠ 0 ∧ userS.prefetchStale = false ∧ v86S.level ≠ 0 ∧
      v86S.mode = .v86 ∧ realS.mode = .real ∧ (generalProtection 0).dr6 = 0 := by decide

/-- A step in V86 mode that goes on. -/
theorem witness_OnlyLevelZeroChangesPrivilegedRegisters :
    let s := v86S.placeInstr [0xEB, 0x00]
    s.level ≠ 0 ∧ (∀ p ∈ s.inputs, p.reset = none) ∧ after (step s) (fun t => t.eip == 0x202) = true := by decide +kernel

/-- Each clause of the DR7 write (V40, V40c, V40d), at level 0 with GD = 0. -/
theorem witness_DebugRegisterMoves :
    (realS.level = 0 ∧ realS.dr7.getLsbD 13 = false ∧ realS.prefetchStale = false) ∧
    (∀ k, bpEnabled 0x000D0001 k = true →
      bpLen 0x000D0001 k ≠ 2 ∧ bpRw 0x000D0001 k ≠ 2 ∧ (bpRw 0x000D0001 k = 0 → bpLen 0x000D0001 k = 0)) ∧
    (bpEnabled 0x00080001 0 = true ∧ bpLen 0x00080001 0 = 2) ∧ (bpEnabled 0x00020001 0 = true ∧ bpRw 0x00020001 0 = 2) ∧
    (∀ k, bpEnabled 0x00040001 k = true → bpLen 0x00040001 k ≠ 2 ∧ bpRw 0x00040001 k ≠ 2) ∧
    (bpEnabled 0x00040001 0 = true ∧ bpRw 0x00040001 0 = 0 ∧ bpLen 0x00040001 0 ≠ 0) := by decide

theorem witness_GeneralDetectProtectsDebugRegisters :
    let s := { protS with dr7 := 0x2000 }
    s.level = 0 ∧ s.dr7.getLsbD 13 = true ∧ s.prefetchStale = false ∧ s.params.gdClearedOnEntry = true ∧
      ({ s with params := { s.params with gdClearedOnEntry := false } } : State).params.gdClearedOnEntry = false := by
  decide

/-- The three lengths (V41, V41b, V41c), and an access at each end of a range; a breakpoint that is not enabled, met by
a write and by the start of an instruction, on a part with B_SET_WHEN_DISABLED. -/
theorem witness_DataBreakpointsMatchOverlap :
    (bpLen 0x000D0001 0 = 3 ∧ bpLen 0x00450001 0 = 1 ∧ bpLen 0x00010001 0 = 0 ∧
      inRange { realS with dr0 := 0x1003, dr7 := 0x000D0001 } 0 0x1000 = true ∧
      inRange { realS with dr0 := 0x1003, dr7 := 0x000D0001 } 0 0x1004 = false) ∧
    (let s := { realS with dr0 := 0x1003, dr7 := 0x000D0000, params := { realS.params with bSetWhenDisabled := true } }
     bpLen s.dr7 0 ≠ 2 ∧ bpEnabled s.dr7 0 = false ∧ bpRw s.dr7 0 = 1 ∧
       inRange s 0 (0x0FFF + BitVec.ofNat 32 1) = true ∧ (s.noteAccess 0x0FFF 2 .write).quiet = 1) ∧
    (let s := { realS with dr0 := 0x10200, params := { realS.params with bSetWhenDisabled := true } }
     s.flags.rf = false ∧ s.dr 0 = s.linPc ∧ s.noteFetch.quiet = 1) := by decide

theorem witness_InstructionBreakpointFaults :
    let s := { realS with dr0 := 0x10200, dr7 := 1 }
    s.run = .running ∧ s.inputs = [] ∧ s.holdOff = false ∧ s.traps = 0 ∧
      s.params.bSetWhenDisabled = false ∧ s.flags.rf = false ∧ fetchHits s s.linPc ≠ 0 ∧ s.Dr7Ok :=
  ⟨rfl, rfl, rfl, rfl, rfl, rfl, by decide +kernel, by decide, by decide⟩

theorem witness_RfLastsOneInstruction :
    let s := { realS with flags := Eflags.ofWord 0x10202 }
    s.mode = .real ∧ s.flags.rf = true ∧ after (exec (.movDs (.reg .eax)) s) (fun t => !t.flags.rf) = true := by
  decide +kernel

theorem witness_SingleStepTrapFollows :
    (let s := { realS with flags := Eflags.ofWord 0x302 }
     s.flags.tf = true ∧ after (exec (.movDs (.reg .eax)) s) (fun t => t.traps == 0x4000) = true) ∧
    (realS.flags.tf = false ∧ realS.traps.getLsbD 14 = false ∧
      after (exec (.movDs (.reg .eax)) realS) (fun t => t.traps == 0) = true) ∧
    (let t := { realS with traps := 0x4000 }
     t.run = .running ∧ t.inputs = [] ∧ t.holdOff = false ∧ t.traps ≠ 0) := by decide +kernel

theorem witness_TestRegisterMoves :
    realS.level = 0 ∧ protS.level = 0 ∧ realS.prefetchStale = false ∧
      ({ realS with tlbMissed := true, tr7 := Tr7.ofWord 0 } : State).tr7.ht = false := by decide

/-- V31, V37, V36. -/
theorem witness_TlbWriteSetsTheEntry :
    (let q := Tr6.ofWord 0x00012B40
     let s := v30 0x00012B40
     s.level = 0 ∧ s.prefetchStale = false ∧ q.c = false ∧ s.tr7.ht = true ∧
      ∀ j : Fin 32, j ≠ tlbSlot s.tr7.rep (tlbIndex s.params q.lin) → s.tlb[j.val].v = true → s.tlb[j.val].lin ≠ q.lin) ∧
    ({ v31 0x00012B40 with tr7 := Tr7.ofWord 0x00345008 } : State).tr7.ht = false ∧
    (let s := { v31 0x00012B40 with tr7 := Tr7.ofWord 0x00999014 }
     s.tr7.ht = true ∧ (Tr6.ofWord 0x00012B40).v = true ∧
      ∃ j : Fin 32, j ≠ tlbSlot s.tr7.rep (tlbIndex s.params 0x12) ∧ s.tlb[j.val].v = true ∧ s.tlb[j.val].lin = 0x12) := by
  decide +kernel

/-- V32 finds one entry, V34 none. -/
theorem witness_TlbLookupReportsTheEntry :
    let hit (q : Tr6) (e : TlbEntry) : Bool := e.lin == q.lin && e.v == q.v && e.d == q.d && e.u == q.u && e.w == q.w
    (let q := Tr6.ofWord 0x00012B41
     q.c = true ∧ q.dn = !q.d ∧ q.un = !q.u ∧ q.wn = !q.w ∧ q.v = true ∧ hit q (v31 0).tlb[18] = true ∧
      ∀ j : Fin 32, hit q (v31 0).tlb[j.val] = true → j = 18) ∧
    (let q := Tr6.ofWord 0x00012D41
     q.c = true ∧ q.v = true ∧ ∀ j : Fin 32, hit q (v31 0).tlb[j.val] = false) := by decide +kernel

/-- V31 then V32. -/
theorem witness_TlbWriteThenLookupHits :
    let w := Tr6.ofWord 0x00012B40
    w.c = false ∧ w.v = true ∧ w.dn = !w.d ∧ w.un = !w.u ∧ w.wn = !w.w ∧ (v30 0x00012B40).tr7.ht = true ∧
      after (exec (.movToTr6 .ebx) (v30 0x00012B40)) (fun t => t.tlb == (v31 0).tlb) = true ∧
      (v31 0x00012B41).gpr.get .ebx = 0x00012B40 ||| 1 := by decide +kernel

/-! ### Delivery and return -/

/-- The breakpoint of V50, saved pointer 0021H. -/
def int3Event : Event := { vector := 3, cls := .trap, err := none, ip := 0x21, restart := 0x20 }

theorem witness_RealModeDelivery : v50.canEnterReal int3Event 0x00500400 :=
  ⟨rfl, rfl, by decide, by decide +kernel, ⟨rfl, by decide +kernel, ramAt_all rfl _ _⟩,
    ⟨rfl, by decide +kernel, ramAt_all rfl _ _⟩, ⟨rfl, by decide +kernel, ramAt_all rfl _ _⟩, trivial⟩

/-- `v50` with entry 8 = 0050H:0600H and IDTR.Limit = 0023H (V61a). -/
def v61a : State := { withBytes v50 0x20 [0x00, 0x06, 0x50, 0x00] with idtr := { base := 0, limit := 0x23 } }

/-- V60, V61, V61a. -/
theorem witness_UndeliverableEvents :
    ({ v50 with idtr := { base := 0, limit := 0 } } : State).idtr.limit = 0 ∧
    (let s := { v50 with idtr := { base := 0, limit := 0x0B } }
     s.mode = .real ∧ s.idtr.limit.toNat < 4 * (3 : Vec).toNat + 3 ∧ s.idtr.limit.toNat < 4 * 8 + 3) ∧
    v61a.idtr.limit.toNat < 4 * (0x20 : Vec).toNat + 3 ∧
    ({ v61a with traps := 0, quiet := 0 } : State).canEnterReal
      { vector := 8, cls := .fault, err := some 0, ip := 0x20, restart := 0x20 } 0x00500600 := by
  refine ⟨rfl, by decide, by decide, rfl, rfl, by decide, by decide +kernel, ?_⟩
  exact ⟨⟨rfl, by decide +kernel, ramAt_all rfl _ _⟩, ⟨rfl, by decide +kernel, ramAt_all rfl _ _⟩,
    ⟨rfl, by decide +kernel, ramAt_all rfl _ _⟩, trivial⟩

theorem witness_ShutdownIsLeftOnlyByReset :
    let s := { realS with run := .shutdown }
    let p : Presented := { nmi := true, intr := none, reset := none }
    s.run = .shutdown ∧ s.inputs = [] ∧ s.nmi = false ∧ p.reset = none ∧ s.params.nmiLeavesShutdown = false ∧
      ({ s with inputs := [p] } : State).inputs = [p] ∧
      ({ s with nmi := true, params := { s.params with nmiLeavesShutdown := true } } : State).params.nmiLeavesShutdown = true ∧
      (let u := { s with inputs := [p], params := { s.params with nmiLeavesShutdown := true } }
       u.run = .shutdown ∧ u.inputs = [p] ∧ (u.nmi || p.nmi) = true ∧ u.params.nmiLeavesShutdown = true) :=
  ⟨rfl, rfl, rfl, rfl, rfl, rfl, rfl, rfl, rfl, rfl, rfl⟩

/-- A gate to a level-0 procedure on a 32-bit stack (V75). -/
def gate75 : Config.ProcGate :=
  { cs := { selector := 8, base := 0, limit := 0xFFFF, rights := 0, big := true, usable := true },
    eip := 0x400, dpl := 0, conforming := false, interrupt := true, gate32 := true, cpl := 0, inner := true,
    ss := { selector := 16, base := 0, limit := 0xFFFF, rights := 0, big := true, usable := true }, esp := 0x8024,
    reads := [], stores := [] }

/-- As many doublewords fit on the stack of the gate as ESP has room for. -/
theorem canPush_gate (l : List Dword) (g : GRegs) (m : Memory) (t q : Dword) (h : 4 * l.length ≤ g.esp.toNat) :
    State.canPushAll true 4 l
      { protS with gpr := g, mem := m, traps := t, quiet := q, seg := { protS.seg with ss := gate75.ss },
                   flags := protS.flags.entered true } := by
  induction l generalizing g m t q with
  | nil => trivial
  | cons v l ih =>
    simp only [List.length_cons] at h
    refine ⟨⟨rfl, ?_, ramAt_all rfl _ _⟩, ?_⟩
    · rw [Bool.eq_false_iff, ne_eq, pushCrosses_iff _ 4 (by decide)]
      rintro ⟨-, h2⟩
      exact absurd (show g.esp.toNat < 4 from h2) (by omega)
    · obtain ⟨t', q', e⟩ := pushed_eq
        { protS with gpr := g, mem := m, traps := t, quiet := q, seg := { protS.seg with ss := gate75.ss },
                     flags := protS.flags.entered true } true 4 v
      rw [e]
      refine ih _ _ _ _ ?_
      change 4 * l.length ≤ (g.esp - BitVec.ofNat 32 4).toNat
      rw [BitVec.toNat_sub_of_le (by rw [BitVec.le_def, BitVec.toNat_ofNat]; omega), BitVec.toNat_ofNat]
      omega

/-- An event with or without an error code. -/
def gateEvent (err : Option Dword) : Event := { vector := 13, cls := .fault, err := err, ip := 0x21, restart := 0x20 }

/-- The frame of a delivery from V86 mode (V75). -/
def exitFrame (s : State) (e : Event) : List Dword :=
  let z (r : SegReg) : Dword := r.selector.setWidth 32
  [z s.seg.gs, z s.seg.fs, z s.seg.ds, z s.seg.es, z s.seg.ss, s.gpr.esp, e.image s.flags, z s.seg.cs, e.ip] ++
    e.err.toList

theorem witness_V86ExitFrame (err : Option Dword) :
    v86S.mode = .v86 ∧ storeBytes gate75.stores (v86S.noteReads gate75.reads) = .ok () v86S ∧
      State.canPushAll true 4 (exitFrame v86S (gateEvent err))
        { v86S with flags := { v86S.flags with tf := false, rf := false, vm := false, ifl := v86S.flags.ifl && !true },
                    cpl := 0, seg := { v86S.seg with ss := gate75.ss }, gpr := { v86S.gpr with esp := gate75.esp } } :=
  ⟨rfl, rfl, canPush_gate _ _ _ _ _ (by cases err with
    | none => decide
    | some c => exact (by decide : 4 * 10 ≤ (0x8024 : Dword).toNat))⟩

theorem witness_ProtectedEntryFrame (err : Option Dword) :
    protS.mode = .prot ∧ protS.idtr.limit ≠ 0 ∧ storeBytes gate75.stores (protS.noteReads gate75.reads) = .ok () protS ∧
      State.canPushAll true 4
        ([protS.seg.ss.selector.setWidth 32, protS.gpr.esp] ++
          [(gateEvent err).image protS.flags, protS.seg.cs.selector.setWidth 32, (gateEvent err).ip] ++ err.toList)
        { protS with flags := { protS.flags with tf := false, rf := false, vm := false, ifl := protS.flags.ifl && !true },
                     cpl := 0, seg := { protS.seg with ss := gate75.ss }, gpr := { protS.gpr with esp := gate75.esp } } :=
  ⟨rfl, by decide, rfl, canPush_gate _ _ _ _ _ (by cases err with
    | none => decide
    | some c => exact (by decide : 4 * 6 ≤ (0x8024 : Dword).toNat))⟩

/-- Does an attempt end in a handler of this task? -/
def inHandler (r : EStateM.Result Stop State Attempt) : Bool :=
  match r with
  | .ok .handler _ => true
  | .ok .task _ => false
  | .ok (.denied _) _ => false
  | .error _ _ => false

theorem handler_of {r : EStateM.Result Stop State Attempt} (h : inHandler r = true) : ∃ t, r = .ok .handler t := by
  cases r with
  | ok a t => cases a <;> first | exact ⟨t, rfl⟩ | cases h
  | error => cases h

/-- The three deliveries end in a handler. -/
theorem witness_FlagsOnDelivery :
    (∃ t, deliverReal int3Event v50 = .ok .handler t) ∧ (∃ t, enterProcedure gate75 int3Event protS = .ok .handler t) ∧
      ∃ t, enterFromV86 gate75 int3Event v86S = .ok .handler t :=
  ⟨handler_of (by decide +kernel), handler_of (by decide +kernel), handler_of (by decide +kernel)⟩

theorem witness_BreakpointInstruction : v50.prefetchStale = false ∧
    ({ v50 with eip := v50.next } : State).canEnterReal
      { vector := 3, cls := .trap, err := none, ip := v50.next, restart := v50.eip } 0x00500400 := by
  refine ⟨rfl, rfl, rfl, by decide, by decide +kernel, ?_⟩
  exact ⟨⟨rfl, by decide +kernel, ramAt_all rfl _ _⟩, ⟨rfl, by decide +kernel, ramAt_all rfl _ _⟩,
    ⟨rfl, by decide +kernel, ramAt_all rfl _ _⟩, trivial⟩

theorem witness_V86EventsGoThroughTheIdt : v86S.mode = .v86 ∧ v86S.idtr.limit ≠ 0 ∧
    (({ gate75 with conforming := true } : Config.ProcGate).conforming = true) ∧
    ({ gate75 with dpl := 3 } : Config.ProcGate).dpl ≠ 0 := by decide

/-- A TSS of either format at 9000H. -/
def tss79 (is386 : Bool) : TaskReg := { selector := 0x28, base := 0x9000, is386 := is386 }

/-- A switch to a V86 task (V79), and its 80286 form (V79a). -/
def task79 (is386 : Bool) : Config.TaskSwitch := { (default : Config.TaskSwitch) with taskReg := tss79 is386 }

/-- The outgoing task runs in V86 mode (R260). -/
def outgoing79 (is386 : Bool) : State := { withBytes v86S 0x9064 [0x00, 0x00] with taskReg := tss79 is386 }

/-- The images of a TSS lie apart, and apart from the word of the debug mark. -/
theorem apart79 (is386 : Bool) :
    let all := (outgoing79 is386).taskImages 0x00020002 0x203
    imagesApart all ∧ (is386 = true → ∀ x ∈ all, outside x.2.1 x.1 0x9064 ∧ outside x.2.1 x.1 0x9065) := by
  unfold imagesApart outside
  cases is386 <;> decide +kernel

/-- V79, V79a; and a task that is saved and read back, in both formats. -/
theorem witness_TaskSwitchLoadsTheTask :
    ((task79 true).taskReg.is386 = true ∧ (Eflags.ofWord 0x00020202).vm = true ∧ (task79 false).taskReg.is386 = false ∧
      (Eflags.ofWord 0x202).vm = false) ∧
    (∀ b : Bool, (outgoing79 b).cr0.pg = false ∧ (task79 b).taskReg = (outgoing79 b).taskReg ∧
      (∀ x ∈ (outgoing79 b).taskImages 0x00020002 0x203, (outgoing79 b).ramAt x.2.1 x.1) ∧
      imagesApart ((outgoing79 b).taskImages 0x00020002 0x203)) ∧
    (outgoing79 true).mem.load 2 (0x9000 + 0x64) = some 0 ∧ (0x00020002 : Dword).getLsbD 17 = true ∧
    ∀ x ∈ (outgoing79 true).taskImages 0x00020002 0x203, outside x.2.1 x.1 0x9064 ∧ outside x.2.1 x.1 0x9065 :=
  ⟨by decide, fun b => ⟨rfl, rfl, fun _ _ => ramAt_all rfl _ _, (apart79 b).1⟩, by decide +kernel, by decide,
   (apart79 true).2 rfl⟩

/-- V70 with a 16-bit frame, and a 32-bit frame whose offset is FFFFH. -/
def v70 : State := withReg (withBytes realS 0x200FA [0x21, 0x00, 0x00, 0x10, 0x02, 0x02]) .esp 0xFA
def v70d : State :=
  withBytes realS 0x20100 [0xFF, 0xFF, 0x00, 0x00, 0x00, 0x30, 0x00, 0x00, 0x02, 0x02, 0x01, 0x00]

theorem canPop_v70 : State.canPopAll 2 [0x21, 0x1000, 0x202] v70 :=
  ⟨⟨rfl, by decide, by decide +kernel⟩, ⟨rfl, by decide +kernel, by decide +kernel⟩,
   ⟨rfl, by decide +kernel, by decide +kernel⟩, trivial⟩

theorem canPop_v70d : State.canPopAll 4 [0xFFFF, 0x3000, 0x10202] v70d :=
  ⟨⟨rfl, by decide, by decide +kernel⟩, ⟨rfl, by decide +kernel, by decide +kernel⟩,
   ⟨rfl, by decide +kernel, by decide +kernel⟩, trivial⟩

/-- A frame, and a first, a second and a third pop that pass offset FFFFH. -/
theorem witness_IretInRealMode :
    (v70.mode = .real ∧ v70.prefetchStale = false ∧ (0x21 : Dword).toNat ≤ 0xFFFF ∧
      State.canPopAll 2 [0x21, 0x1000, 0x202] v70) ∧
    (v70d.mode = .real ∧ (0xFFFF : Dword).toNat ≤ 0xFFFF ∧ State.canPopAll 4 [0xFFFF, 0x3000, 0x10202] v70d) ∧
    ((stackAt 0xFFFF).mode = .real ∧ (State.poppedAll 2 0 (stackAt 0xFFFF)).sp.toNat = 0xFFFF) ∧
    (let s := withBytes (stackAt 0xFFFD) 0x2FFFD [0, 0]
     State.canPopAll 2 [0] s ∧ (State.poppedAll 2 1 s).sp.toNat = 0xFFFF) ∧
    let s := withBytes (stackAt 0xFFF5) 0x2FFF5 [0, 0, 0, 0, 0, 0, 0, 0]
    State.canPopAll 4 [0, 0] s ∧ (State.poppedAll 4 2 s).sp.toNat = 0xFFFD :=
  ⟨⟨rfl, rfl, by decide, canPop_v70⟩, ⟨rfl, by decide, canPop_v70d⟩, ⟨rfl, by decide +kernel⟩,
   ⟨⟨⟨rfl, by decide +kernel, by decide +kernel⟩, trivial⟩, by decide +kernel⟩,
   ⟨⟨rfl, by decide +kernel, by decide +kernel⟩, ⟨rfl, by decide +kernel, by decide +kernel⟩, trivial⟩, by decide +kernel⟩

theorem canPop_v71 : State.canPopAll 4 [0x100, 0x1000, 0x20202, 0xFFFE, 0x2000, 0x3000, 0x3000, 0, 0] v71 :=
  ⟨⟨rfl, rfl, by decide +kernel⟩, ⟨rfl, rfl, by decide +kernel⟩, ⟨rfl, rfl, by decide +kernel⟩, ⟨rfl, rfl, by decide +kernel⟩,
   ⟨rfl, rfl, by decide +kernel⟩, ⟨rfl, rfl, by decide +kernel⟩, ⟨rfl, rfl, by decide +kernel⟩, ⟨rfl, rfl, by decide +kernel⟩,
   ⟨rfl, rfl, by decide +kernel⟩, trivial⟩

/-- V71; V72 (level 3, the same image); a return with NT = 1. -/
theorem witness_IretInProtectedMode :
    (v71.mode = .prot ∧ v71.level = 0 ∧ v71.flags.nt = false ∧ v71.prefetchStale = false ∧
      (0x20202 : Dword).getLsbD 17 = true ∧
      State.canPopAll 4 [0x100, 0x1000, 0x20202, 0xFFFE, 0x2000, 0x3000, 0x3000, 0, 0] v71) ∧
    (let s := { v71 with cpl := 3 }
     s.mode = .prot ∧ s.level ≠ 0 ∧ State.canPopAll 4 [0x100, 0x1000, 0x20202] s ∧
       State.canPopAll 4 [0xFFFE, 0x2000] (State.poppedAll 4 3 s)) ∧
    (let s := { protS with flags := Eflags.ofWord 0x4002 }
     s.mode = .prot ∧ s.flags.nt = true ∧ s.prefetchStale = false) :=
  ⟨⟨rfl, rfl, rfl, rfl, rfl, canPop_v71⟩,
   ⟨rfl, by decide, ⟨⟨rfl, rfl, by decide +kernel⟩, ⟨rfl, rfl, by decide +kernel⟩, ⟨rfl, rfl, by decide +kernel⟩, trivial⟩,
     ⟨rfl, rfl, by decide +kernel⟩, ⟨rfl, rfl, by decide +kernel⟩, trivial⟩, rfl, rfl, rfl⟩

theorem witness_IretSetsVmOnlyAtLevelZero :
    (v71.flags.nt = false ∧ v71.flags.vm = false ∧ ∃ t, iretBody .w32 v71 = .ok true t ∧ t.flags.vm = true) ∧
    (v70.mode = .real ∧ v70.flags.vm = false ∧ ∃ t, iretBody .w16 v70 = .ok true t) ∧
    v86S.mode = .v86 ∧ v86S.prefetchStale = false :=
  ⟨⟨rfl, rfl, _, rfl, rfl⟩, ⟨rfl, rfl, _, rfl⟩, rfl, rfl⟩

/-! ### Frames and invariants -/

theorem witness_FrameOfSpecialRegisterReads :
    protS.level = 0 ∧ protS.dr7.getLsbD 13 = false ∧ protS.prefetchStale = false := by decide

theorem witness_FrameOfSpecialRegisterWrites :
    (protS.level = 0 ∧ protS.dr7.getLsbD 13 = false ∧ after (exec (.movToCr3 .eax) protS) (fun _ => true) = true ∧
      after (exec (.movToTr6 .ebx) (v30 0x00012B40)) (fun _ => true) = true) ∧
    (Cr0.ofWord ((withReg realS .eax 1).gpr.get .eax)).pe = true ∧
    (realS.cr0.pe = false ∧ (Cr0.ofWord (realS.gpr.get .eax)).pg = false) := by decide +kernel

theorem witness_FrameOfOperandReaders :
    realTable.prefetchStale = false ∧ realTable.like8086 = true ∧ realTable.level = 0 ∧
      readRm16 (.mem { seg := none, ea := .direct16 0x0610 }) realTable = .ok 0xFFFF realTable ∧
      realTable.operandIs { seg := none, ea := .direct16 0x0610 } 0 2 0xFFFF ∧
      realTable.operandIs { seg := none, ea := .direct16 0x0610 } 2 4 0x12345678 :=
  ⟨rfl, rfl, rfl, rfl, witness_TableLoadsReadSixBytes.2.2.1, witness_TableLoadsReadSixBytes.2.2.2⟩

theorem witness_FrameOfJumps :
    realM.like8086 = true ∧ (0xFFFF : Dword).toNat ≤ 0xFFFF ∧ (realM.next + (0x7F : Byte).signExtend 32).toNat ≤ 0xFFFF ∧
      (realM.next + 0xFDFC).toNat ≤ 0xFFFF ∧ readFarPtr .w16 at0620 realM = .ok (0xFFFF, 0x3000) realM :=
  ⟨rfl, by decide, by decide, by decide, rfl⟩

theorem witness_FrameOfCalls :
    realM.like8086 = true ∧ realM.prefetchStale = false ∧ (0xFFFF : Dword).toNat ≤ 0xFFFF ∧ realS.canPush 2 ∧
      realS.canPush 4 ∧ (realS.next + 0xFDFC).toNat ≤ 0xFFFF ∧
      State.canPushAll false 2 [realM.seg.cs.selector.setWidth 32, realM.next] realM ∧
      State.canPushAll false 4 [realM.seg.cs.selector.setWidth 32, realM.next] realM ∧
      readFarPtr .w16 at0620 realM = .ok (0xFFFF, 0x3000) realM :=
  ⟨rfl, rfl, by decide, canPush_realS 2 (by decide), canPush_realS 4 (by decide), by decide,
   fits_realM_2, fits_realM_4, rfl⟩

theorem witness_FrameOfInterruptAndReturn :
    (v50.prefetchStale = false ∧ ({ v50 with eip := v50.next } : State).canEnterReal
      { vector := 3, cls := .trap, err := none, ip := v50.next, restart := v50.eip } 0x00500400) ∧
    (v70.mode = .real ∧ State.canPopAll 2 [0x21, 0x1000, 0x202] v70) ∧
    State.canPopAll 4 [0xFFFF, 0x3000, 0x10202] v70d :=
  ⟨witness_BreakpointInstruction, ⟨rfl, canPop_v70⟩, canPop_v70d⟩

/-- A step from a state that meets the invariant (not the reset state). -/
theorem witness_StepKeepsInvariant :
    let s := realS.placeInstr [0xEB, 0xFE]
    s.MemOk ∧ s.ModeOk ∧ s.PcOk ∧ s.SegOk ∧ s.Dr7Ok ∧ s.TrapsOk ∧ s.TlbUnique ∧ s.TlbPlaced ∧
      after (step s) (fun t => t.eip == 0x200) = true :=
  ⟨by change Memory.wf _ = true; decide +kernel, inv_realS.mode, inv_realS.pc, inv_realS.seg, inv_realS.dr7, inv_realS.traps,
   inv_realS.unique, inv_realS.placed, by decide +kernel⟩

end Sys2Proof.Tests
end

section
/-! PROOFS. Settles O54 and O56: the frame of the calls in real-address and V86 mode (`40_init_mode_switch.md` R153,
R155, `10_state.md` R23), and the invariant at RESET (`10_state.md` R65). -/

namespace Sys2Proof.Machine

/-! ## The frame of a call -/

/-- `t` differs from `s` in what a call changes, among what `Obligations.FrameOfCalls` names: ESP, CS, RF, and the bytes
that `k` pushes of `n` bytes store. -/
structure CallFrame (s t : State) (n k : Nat) : Prop where
  gpr    : ∀ q, q ≠ .esp → t.gpr.get q = s.gpr.get q
  flags  : t.flags = s.flags.resumed
  cpl    : t.cpl = s.cpl
  system : t.system = s.system
  seg    : t.seg = { s.seg with cs := t.seg.cs }
  mem    : ∀ x, s.outsidePushes n x k → t.byteAt x = s.byteAt x

/-- The state in which a call ends that began in `s`: the items `l` pushed in `u`, CS, the A31-20 latch and EIP
loaded. -/
def callEnd (s u : State) (n : Nat) (l : List Dword) (cs : SegReg) (latch : Bool) (eip : Dword) : State :=
  complete s false
    { State.pushedAll false n l u with seg := { u.seg with cs := cs }, latch := latch, eip := eip }

theorem callEnd_frame (s u : State) (n : Nat) (l : List Dword) (cs : SegReg) (latch : Bool) (eip : Dword) :
    CallFrame u (callEnd s u n l cs latch eip) n l.length := by
  obtain ⟨hgpr, hmem⟩ := pushedAll_frame false n l u
  obtain ⟨g, m, t, q, hp⟩ := pushedAll_same false n l u
  refine ⟨hgpr, ?_, ?_, ?_, rfl, hmem⟩ <;> rw [callEnd, hp]
  · simp only [complete, Eflags.resumed, Bool.and_false]
  · rfl
  · rfl

/-- What a read of a pointer may change, the debug trap conditions among it, is outside the frame of a call. -/
theorem CallFrame.of_reads {α : Type} {m : M α} {s u t : State} {a : α} {n k : Nat} (hr : Reads m)
    (e : m s = .ok a u) (h : CallFrame u t n k) : CallFrame s t n k := by
  obtain ⟨f, b, tr, q, rfl⟩ := hr _ _ _ e
  obtain ⟨hgpr, hflags, hcpl, hsystem, hseg, hmem⟩ := h
  refine ⟨hgpr, hflags, hcpl, hsystem, hseg, fun x hx => hmem x ?_⟩
  refine (outsidePushes_congr ?_ ?_ ?_ ?_ n x k).2 hx <;> rfl

/-! ## The calls -/

/-- A near call that fits its stack and its segment completes. -/
theorem exec_callRel {s : State} (d : Rel) (hs : s.prefetchStale = false) (hp : s.canPush (sizeBytes (relSize d)))
    (ht : (nearTarget s.next (relDisp d) (relSize d)).toNat ≤ 0xFFFF) :
    exec (.callRel d) s = .next (callEnd s s (sizeBytes (relSize d)) [s.next] s.seg.cs s.latch
      (nearTarget s.next (relDisp d) (relSize d))) :=
  runInstr_ok (by simp [hs]) (nearCall_run _ _ hp fun _ => ht)

/-- A direct far call that fits its stack and its segment completes. -/
theorem exec_callPtr {s : State} (p : FarPtr) (h8 : s.like8086 = true) (hs : s.prefetchStale = false)
    (ho : (farPtrOffset p).toNat ≤ 0xFFFF)
    (hp : State.canPushAll false (sizeBytes (farPtrSize p)) [s.seg.cs.selector.setWidth 32, s.next] s) :
    exec (.callPtr p) s = .next (callEnd s s (sizeBytes (farPtrSize p)) [s.seg.cs.selector.setWidth 32, s.next]
      (s.seg.cs.load8086 (farPtrSelector p)) false (farPtrOffset p)) :=
  runInstr_ok (by simp [hs]) (farCall_real _ _ _ h8 ho hp)

/-- A far call through memory pushes in the state `u` that reading its pointer leaves (log 44). -/
theorem exec_callMem {s u : State} (sz : OpSize) (m : MemOp) {off : Dword} {sel : Selector} (h8 : s.like8086 = true)
    (hs : s.prefetchStale = false) (ho : off.toNat ≤ 0xFFFF) (hread : readFarPtr sz m s = .ok (off, sel) u)
    (hp : State.canPushAll false (sizeBytes sz) [u.seg.cs.selector.setWidth 32, u.next] u) :
    exec (.callMem sz m) s = .next (callEnd s u (sizeBytes sz) [u.seg.cs.selector.setWidth 32, u.next]
      (u.seg.cs.load8086 sel) false off) := by
  have hu : u.like8086 = true := by rw [(readFarPtr_reads sz m).stores.stacks.like8086 hread, h8]
  have hbody : farCallMem sz m s = farCall sz sel off u := by simp only [farCallMem, bind_run, hread]
  exact runInstr_ok (by simp [hs]) (hbody.trans (farCall_real sz sel off hu ho hp))

/-- A 16-bit offset lies in a 64K segment. -/
theorem word_offset_le (w : Word) : (w.setWidth 32 : Dword).toNat ≤ 0xFFFF := by
  rw [← zext16_setWidth]
  exact zext16_le _

/-- Settles O54: each of the five calls ends in a `callEnd`, whose frame is `callEnd_frame`; the pointer of a call
through memory is read before (`CallFrame.of_reads`). -/
theorem frameOfCalls : Obligations.FrameOfCalls := by
  intro s u sz m d w e off sel i h8 hs ho
  dsimp only
  intro h
  have key : ∃ t, exec i s = .next t ∧
      ((∃ x, i = .callRel x) ∧ CallFrame s t (sizeBytes sz) 1 ∧ t.seg = s.seg ∧ t.latch = s.latch ∨
        (¬ ∃ x, i = .callRel x) ∧ CallFrame s t (sizeBytes sz) 2) := by
    rcases h with ⟨rfl, rfl, hp⟩ | ⟨rfl, rfl, hp, ht⟩ | ⟨rfl, rfl, hp⟩ | ⟨rfl, rfl, hp⟩ | ⟨rfl, hread, hp⟩
    · exact ⟨_, exec_callRel (.rel16 d) hs hp (zext16_le _),
        .inl ⟨⟨_, rfl⟩, callEnd_frame s s 2 [s.next] _ _ _, rfl, rfl⟩⟩
    · exact ⟨_, exec_callRel (.rel32 e) hs hp ht, .inl ⟨⟨_, rfl⟩, callEnd_frame s s 4 [s.next] _ _ _, rfl, rfl⟩⟩
    · exact ⟨_, exec_callPtr (.ptr16 w sel) h8 hs (word_offset_le w) hp,
        .inr ⟨by simp, callEnd_frame s s 2 [_, _] _ _ _⟩⟩
    · exact ⟨_, exec_callPtr (.ptr32 off sel) h8 hs ho hp, .inr ⟨by simp, callEnd_frame s s 4 [_, _] _ _ _⟩⟩
    · have hr := readFarPtr_reads sz m
      rw [← hr.stores.stacks.seg hread, ← hr.stores.stacks.next hread] at hp
      exact ⟨_, exec_callMem sz m h8 hs ho hread hp,
        .inr ⟨by simp, .of_reads hr hread (callEnd_frame s u _ [_, _] _ _ _)⟩⟩
  obtain ⟨t, he, ⟨hnear, hf, hseg, hlatch⟩ | ⟨hfar, hf⟩⟩ := key
  · exact ⟨t, he, hf.gpr, hf.flags, hf.cpl, hf.system, hf.seg, fun _ => ⟨hseg, hlatch, hf.mem⟩,
      fun hn => absurd hnear hn⟩
  · exact ⟨t, he, hf.gpr, hf.flags, hf.cpl, hf.system, hf.seg, fun hn => absurd hn hfar, fun _ => hf.mem⟩

/-! ## RESET -/

/-- Every entry of the TLB is empty after RESET (`10_state.md` R59). -/
theorem reset_tlb (i : Fin 32) : State.reset.tlb[i.val] = resetEntry := Vector.getElem_replicate _

theorem reset_mode : State.reset.mode = .real := rfl

/-- A segment register with selector and base 0 has the base the 8086 would form (`20_memory.md` R84). -/
theorem resetSegment_is8086 : (resetSegment 0).Is8086 := ⟨by decide, rfl, rfl⟩

/-- Settles O56, part by part; no entry of the TLB is valid or written (`reset_tlb`). -/
theorem resetMeetsInvariant : Obligations.ResetMeetsInvariant where
  mem := Memory.wf_reset
  mode := ⟨fun _ => ⟨rfl, rfl, rfl, rfl⟩, fun h => nomatch reset_mode.symm.trans h⟩
  pc _ := by decide
  seg _ := ⟨⟨resetSegment_is8086, resetSegment_is8086, resetSegment_is8086, resetSegment_is8086, resetSegment_is8086⟩,
    .inr ⟨reset_mode, rfl, rfl, rfl, rfl, rfl⟩⟩
  dr7 := ⟨by decide, by decide⟩
  traps := ⟨by decide, by decide⟩
  unique i j hi := by rw [reset_tlb] at hi; cases hi
  placed i := by rw [reset_tlb]; exact ⟨nofun, nofun⟩

end Sys2Proof.Machine
end

section
/-! PROOFS. Settles O11, O52 and O53: the addresses of 8086 code (`20_memory.md` R84, R85), and the frames of the
instructions that store nothing, the readers of an operand (`40_init_mode_switch.md` R157 to R159, R162) and the jumps
(R152, R154). -/

namespace Sys2Proof.Machine

/-! ## Addresses of 8086 code -/

/-- The sum of selector times 16 and offset is exact in 32 bits, also for the bytes that follow in a 64K segment. -/
theorem lin_add_toNat {s : State} {r : SReg} {off : Dword} {i : Nat} (h : (s.seg.get r).Is8086)
    (hi : off.toNat + i ≤ 0xFFFF) :
    (s.lin r off + BitVec.ofNat 32 i).toNat = (s.seg.get r).selector.toNat * 16 + off.toNat + i := by
  have hsel := (s.seg.get r).selector.isLt
  simp only [State.lin, h.1, BitVec.toNat_add, BitVec.toNat_shiftLeft, BitVec.toNat_setWidth, BitVec.toNat_ofNat,
    Nat.shiftLeft_eq]
  omega

/-- That sum is at most FFFF0H + FFFFH: the carry out of bit 19 is kept. -/
theorem lin_add_le {s : State} {r : SReg} {off : Dword} {i : Nat} (h : (s.seg.get r).Is8086)
    (hi : off.toNat + i ≤ 0xFFFF) : (s.lin r off + BitVec.ofNat 32 i).toNat ≤ 0x10FFEF := by
  have hsel := (s.seg.get r).selector.isLt
  rw [lin_add_toNat h hi]
  omega

/-- In V86 mode every segment register has its 8086 base: the base of RESET is one of real-address mode. -/
theorem State.SegOk.is8086_of_v86 {s : State} (h : s.SegOk) (hm : s.mode = .v86) (r : SReg) :
    (s.seg.get r).Is8086 := by
  obtain ⟨⟨hes, hss, hds, hfs, hgs⟩, hcs⟩ := h (like8086_mode.2 (.inr hm))
  cases r with
  | es => exact hes
  | ss => exact hss
  | ds => exact hds
  | fs => exact hfs
  | gs => exact hgs
  | cs =>
    rcases hcs with hcs | ⟨hreal, -⟩
    · exact hcs
    · exact nomatch hm.symm.trans hreal

/-- Once CS has its 8086 base, the A31-20 latch makes no difference to a data access. -/
theorem dataLin_eq_lin {s : State} {r : SReg} (off : Dword) (h : (s.seg.get r).Is8086) :
    s.dataLin r off = s.lin r off := by
  unfold State.dataLin
  split
  · rename_i hc
    obtain ⟨rfl, -⟩ : r = .cs ∧ s.latch = true := by simpa using hc
    exact congrArg (· + off) h.1.symm
  · rfl

/-- An access inside the 64K of a segment passes the checks of real-address and V86 mode. -/
theorem checkAccess_inside {s : State} (r : SReg) {off : Dword} {n : Nat} (h8 : s.like8086 = true)
    (hn : off.toNat + n ≤ 0x10000) : checkAccess r off n s = .ok () s := by
  have hend : pastEnd off n = false := by simpa [pastEnd] using hn
  simp [checkAccess, h8, hend]

/-- Settles O11: the sum is exact (`lin_add_toNat`), and in V86 mode every segment register has its 8086 base
(`State.SegOk.is8086_of_v86`). -/
theorem v86AddressesStayInRange : Obligations.V86AddressesStayInRange := by
  refine ⟨fun s r off h => ?_, fun s r off n hinv hm hpos hle hn => ?_⟩
  · have hoff : (off.setWidth 32 : Dword).toNat + 0 ≤ 0xFFFF := word_offset_le off
    have hval := lin_add_toNat h hoff
    have hbound := lin_add_le h hoff
    rw [BitVec.add_zero] at hval hbound
    rw [Nat.add_zero, BitVec.toNat_setWidth_of_le (by decide)] at hval
    exact ⟨hval, hbound⟩
  · have h := hinv.seg.is8086_of_v86 hm r
    exact ⟨checkAccess_inside r (like8086_mode.2 (.inr hm)) hn, dataLin_eq_lin off h,
      fun i hi => lin_add_le h (by omega)⟩

/-! ## Instructions that store nothing -/

/-- `t` has the general registers, the memory and every flag but RF of `s`, and RF is clear. -/
structure ReadFrame (s t : State) : Prop where
  gpr   : t.gpr = s.gpr
  flags : t.flags = s.flags.resumed
  mem   : s.sameMemory t

/-- An instruction whose body leaves these alone ends in their frame. -/
theorem complete_readFrame (s0 : State) {s x : State} (hgpr : x.gpr = s.gpr) (hflags : x.flags = s.flags)
    (hmem : x.mem = s.mem) : ReadFrame s (complete s0 false x) where
  gpr := hgpr
  flags := by rw [complete_flags, hflags, resumed_eq]
  mem a := congrArg (·.read a.toNat) hmem

/-! ## Loads of a segment register -/

/-- The instruction that loads a segment register from an operand; none loads CS (`40_init_mode_switch.md` R157). -/
def movSegInstr (src : Rm16) : SReg → Option Instr
  | .es => some (.movEs src)
  | .ss => some (.movSs src)
  | .ds => some (.movDs src)
  | .fs => some (.movFs src)
  | .gs => some (.movGs src)
  | .cs => none

/-- The state in which a load of `r` with `w` ends that began in `s` and read its operand up to `u`. -/
def segLoadEnd (s u : State) (r : SReg) (w : Word) : State :=
  complete s false
    { u with seg := u.seg.set r ((u.seg.get r).load8086 w), eip := u.next, holdOff := decide (r = .ss) || u.holdOff }

theorem movSreg_real {s u : State} (r : SReg) {src : Rm16} {w : Word} (h8 : s.like8086 = true)
    (hread : readRm16 src s = .ok w u) :
    movSreg r src s = .ok false { u with seg := u.seg.set r ((u.seg.get r).load8086 w), eip := u.next } := by
  have hu : u.like8086 = true := by rw [(readRm16_reads src).stores.stacks.like8086 hread, h8]
  simp only [movSreg, bind_run, hread, loadSegment_real r w hu, toNext_run]

theorem movSs_real {s u : State} {src : Rm16} {w : Word} (h8 : s.like8086 = true)
    (hread : readRm16 src s = .ok w u) :
    movSs src s =
      .ok false { u with seg := u.seg.set .ss ((u.seg.get .ss).load8086 w), eip := u.next, holdOff := true } := by
  simp only [movSs, bind_run, movSreg_real .ss h8 hread, update_run, pure_run]

/-- A load of a segment register in real-address and V86 mode completes. -/
theorem exec_movSeg {s u : State} {src : Rm16} {r : SReg} {i : Instr} {w : Word} (hi : movSegInstr src r = some i)
    (h8 : s.like8086 = true) (hs : s.prefetchStale = false) (hread : readRm16 src s = .ok w u) :
    exec i s = .next (segLoadEnd s u r w) := by
  have hjmp : (s.prefetchStale && !false) = false := by simp [hs]
  have hbody := movSreg_real r h8 hread
  cases r with
  | cs => cases hi
  | ss => cases hi; exact runInstr_ok hjmp (movSs_real h8 hread)
  | es => cases hi; exact runInstr_ok hjmp hbody
  | ds => cases hi; exact runInstr_ok hjmp hbody
  | fs => cases hi; exact runInstr_ok hjmp hbody
  | gs => cases hi; exact runInstr_ok hjmp hbody

/-- `t` differs from `s` in what a load of the segment register `r` changes, among what
`Obligations.FrameOfOperandReaders` names. -/
structure SegLoadFrame (s t : State) (r : SReg) : Prop extends ReadFrame s t where
  cpl    : t.cpl = s.cpl
  system : t.system = s.system
  latch  : t.latch = s.latch
  other  : ∀ q, q ≠ r → t.seg.get q = s.seg.get q

theorem segLoadEnd_frame {s u : State} (r : SReg) {src : Rm16} {w : Word} (hread : readRm16 src s = .ok w u) :
    SegLoadFrame s (segLoadEnd s u r w) r := by
  obtain ⟨f, b, tr, q, rfl⟩ := readRm16_reads src _ _ _ hread
  exact ⟨complete_readFrame s rfl rfl rfl, rfl, rfl, rfl, fun p hp => s.seg.get_set_other _ hp⟩

/-! ## LMSW -/

theorem writeCr0_system (s : State) (v : Cr0) : (s.writeCr0 v).system = { s.system with cr0 := v } := by
  unfold State.writeCr0
  split <;> rfl

/-- CPL starts at zero only where PE goes from 0 to 1 (`40_init_mode_switch.md` R163). -/
theorem writeCr0_cpl {s : State} (v : Cr0) (hpe : s.cr0.pe = true) : (s.writeCr0 v).cpl = s.cpl := by
  unfold State.writeCr0
  simp [hpe]

/-- LMSW at level 0 completes. -/
theorem exec_lmsw {s u : State} {src : Rm16} {w : Word} (hs : s.prefetchStale = false) (hl : s.level = 0)
    (hread : readRm16 src s = .ok w u) :
    exec (.lmsw src) s = .next (complete s false { u.writeCr0 (u.cr0.lmsw w) with eip := u.next }) := by
  refine runInstr_ok (by simp [hs]) ?_
  simp only [lmswBody, bind_run, requireLevel0_run hl, hread, update_run, toNext_run, writeCr0_next]

/-- `t` differs from `s` in what LMSW changes, among what `Obligations.FrameOfOperandReaders` names. -/
structure LmswFrame (s t : State) : Prop extends ReadFrame s t where
  seg    : t.seg = s.seg
  system : t.system = { s.system with cr0 := t.cr0 }
  cpl    : s.cr0.pe = true → t.cpl = s.cpl

theorem lmsw_frame {s u : State} {src : Rm16} {w : Word} (v : Cr0) (hread : readRm16 src s = .ok w u) :
    LmswFrame s (complete s false { u.writeCr0 v with eip := u.next }) := by
  obtain ⟨f, b, tr, q, rfl⟩ := readRm16_reads src _ _ _ hread
  refine ⟨complete_readFrame s (writeCr0_gpr _ _) (writeCr0_flags _ _) (writeCr0_mem _ _), writeCr0_seg _ _, ?_,
    fun hpe => writeCr0_cpl _ hpe⟩
  rw [complete_cr0, writeCr0_cr0]
  exact writeCr0_system _ v

/-! ## LIDT and LGDT -/

/-- The state in which LIDT or LGDT ends that began in `s` and read its operand up to `u`. -/
def tableLoadEnd (s u : State) (gdtr idtr : TableReg) : State :=
  complete s false { u with gdtr := gdtr, idtr := idtr, eip := u.next }

/-- LIDT at level 0 completes. -/
theorem exec_lidt {s u : State} {sz : OpSize} {m : MemOp} {v : TableReg} (hs : s.prefetchStale = false)
    (hl : s.level = 0) (hread : readTable sz m s = .ok v u) :
    exec (.lidt sz m) s = .next (tableLoadEnd s u u.gdtr v) := by
  refine runInstr_ok (by simp [hs]) ?_
  simp only [lidtBody, bind_run, requireLevel0_run hl, hread, update_run, toNext_run]

/-- LGDT at level 0 completes. -/
theorem exec_lgdt {s u : State} {sz : OpSize} {m : MemOp} {v : TableReg} (hs : s.prefetchStale = false)
    (hl : s.level = 0) (hread : readTable sz m s = .ok v u) :
    exec (.lgdt sz m) s = .next (tableLoadEnd s u v u.idtr) := by
  refine runInstr_ok (by simp [hs]) ?_
  simp only [lgdtBody, bind_run, requireLevel0_run hl, hread, update_run, toNext_run]

/-- `t` differs from `s` in IDTR, GDTR and RF, among what `Obligations.FrameOfOperandReaders` names. -/
structure TableLoadFrame (s t : State) : Prop extends ReadFrame s t where
  seg    : t.seg = s.seg
  cpl    : t.cpl = s.cpl
  system : t.system = { s.system with gdtr := t.gdtr, idtr := t.idtr }
  tlb    : t.tlb = s.tlb

/-- With paging off only the data breakpoints see the operand (`State.sawOperand`). -/
theorem tableLoadEnd_frame (s : State) (m : MemOp) (gdtr idtr : TableReg) :
    TableLoadFrame s (tableLoadEnd s ((s.sawOperand m 0 2).sawOperand m 2 4) gdtr idtr) :=
  ⟨complete_readFrame s rfl rfl rfl, rfl, rfl, rfl, rfl⟩

/-- Settles O52, one clause for each kind of reader: the frames are `segLoadEnd_frame`, `lmsw_frame` and
`tableLoadEnd_frame`. -/
theorem frameOfOperandReaders : Obligations.FrameOfOperandReaders := by
  intro s u src w sz m limit base hs
  refine ⟨fun h8 hread i hi => ?_, fun hl hread => ?_, fun hl hlimit hbase => ?_⟩
  · obtain ⟨r, hr⟩ : ∃ r, movSegInstr src r = some i := by
      rcases hi with rfl | rfl | rfl | rfl | rfl
      exacts [⟨.es, rfl⟩, ⟨.ss, rfl⟩, ⟨.ds, rfl⟩, ⟨.fs, rfl⟩, ⟨.gs, rfl⟩]
    have hf := segLoadEnd_frame r hread
    have other : ∀ q {j}, movSegInstr src q = some j → i ≠ j → (segLoadEnd s u r w).seg.get q = s.seg.get q :=
      fun q j hj hne => hf.other q fun e => hne (Option.some.inj ((e ▸ hr).symm.trans hj))
    have cs : SReg.cs ≠ r := fun e => nomatch (e ▸ hr : movSegInstr src .cs = some i)
    exact ⟨_, exec_movSeg hr h8 hs hread, hf.gpr, hf.flags, hf.cpl, hf.system, hf.mem, hf.other .cs cs,
      hf.latch, other .es rfl, other .ss rfl, other .ds rfl, other .fs rfl, other .gs rfl⟩
  · have hf := lmsw_frame (u.cr0.lmsw w) hread
    exact ⟨_, exec_lmsw hs hl hread, hf.gpr, hf.flags, hf.seg, hf.mem, hf.system, hf.cpl⟩
  · have hread := readTable_run sz hlimit hbase
    have ft := tableLoadEnd_frame s m s.gdtr
    have fv := fun v => tableLoadEnd_frame s m v s.idtr
    exact ⟨_, _, exec_lidt hs hl hread, exec_lgdt hs hl hread, (ft _).gpr, (fv _).gpr, (ft _).flags, (fv _).flags,
      (ft _).seg, (fv _).seg, (ft _).cpl, (fv _).cpl, (ft _).mem, (fv _).mem, (ft _).system, (fv _).system,
      (ft _).tlb, (fv _).tlb⟩

/-! ## Jumps -/

/-- `t` differs from `s` in CS and RF, among what `Obligations.FrameOfJumps` names. -/
structure JumpFrame (s t : State) : Prop extends ReadFrame s t where
  cpl    : t.cpl = s.cpl
  system : t.system = s.system
  seg    : t.seg = { s.seg with cs := t.seg.cs }

/-- The state in which a jump ends that began in `s` and read its pointer up to `u`: CS, the A31-20 latch and EIP
loaded, and the prefetch queue flushed. -/
def jumpEnd (s u : State) (cs : SegReg) (latch : Bool) (eip : Dword) : State :=
  complete s false { u with seg := { u.seg with cs := cs }, latch := latch, eip := eip, prefetchStale := false }

theorem jumpEnd_frame (s u : State) (cs : SegReg) (latch : Bool) (eip : Dword) :
    JumpFrame u (jumpEnd s u cs latch eip) :=
  ⟨complete_readFrame s rfl rfl rfl, rfl, rfl, rfl⟩

/-- What a read of a pointer may change is outside the frame of a jump. -/
theorem JumpFrame.of_reads {α : Type} {m : M α} {s u t : State} {a : α} (hr : Reads m) (e : m s = .ok a u)
    (h : JumpFrame u t) : JumpFrame s t := by
  obtain ⟨f, b, tr, q, rfl⟩ := hr _ _ _ e
  exact ⟨⟨h.gpr, h.flags, h.mem⟩, h.cpl, h.system, h.seg⟩

/-- A near jump inside its segment completes. -/
theorem exec_jmpRel8 {s : State} (sz : OpSize) (b : Byte)
    (ht : (nearTarget s.next (b.signExtend 32) sz).toNat ≤ 0xFFFF) :
    exec (.jmpRel8 sz b) s =
      .next (jumpEnd s s s.seg.cs s.latch (nearTarget s.next (b.signExtend 32) sz)) :=
  runInstr_ok (by simp) (nearJump_run _ _ fun _ => ht)

theorem exec_jmpRel {s : State} (d : Rel) (ht : (nearTarget s.next (relDisp d) (relSize d)).toNat ≤ 0xFFFF) :
    exec (.jmpRel d) s = .next (jumpEnd s s s.seg.cs s.latch (nearTarget s.next (relDisp d) (relSize d))) :=
  runInstr_ok (by simp) (nearJump_run _ _ fun _ => ht)

/-- A direct far jump inside the segment it goes to completes. -/
theorem exec_jmpPtr {s : State} (p : FarPtr) (h8 : s.like8086 = true) (ho : (farPtrOffset p).toNat ≤ 0xFFFF) :
    exec (.jmpPtr p) s =
      .next (jumpEnd s s (s.seg.cs.load8086 (farPtrSelector p)) false (farPtrOffset p)) :=
  runInstr_ok (by simp) (farJump_real _ _ h8 ho)

/-- A far jump through memory goes on in the state `u` that reading its pointer leaves. -/
theorem exec_jmpMem {s u : State} (sz : OpSize) (m : MemOp) {off : Dword} {sel : Selector} (h8 : s.like8086 = true)
    (ho : off.toNat ≤ 0xFFFF) (hread : readFarPtr sz m s = .ok (off, sel) u) :
    exec (.jmpMem sz m) s = .next (jumpEnd s u (u.seg.cs.load8086 sel) false off) := by
  have hu : u.like8086 = true := by rw [(readFarPtr_reads sz m).stores.stacks.like8086 hread, h8]
  have hbody : farJumpMem sz m s = farJump sel off u := by simp only [farJumpMem, bind_run, hread]
  exact runInstr_ok (by simp) (hbody.trans (farJump_real sel off hu ho))

/-- Settles O53: each jump ends in a `jumpEnd`, whose frame is `jumpEnd_frame`; a near one keeps CS and the latch. -/
theorem frameOfJumps : Obligations.FrameOfJumps := by
  intro s u sz m b d w e off sel i h8 ho h
  have key : ∃ t, exec i s = .next t ∧ JumpFrame s t ∧
      ((∃ z x, i = .jmpRel8 z x) ∨ (∃ x, i = .jmpRel x) → t.seg = s.seg ∧ t.latch = s.latch) := by
    rcases h with rfl | rfl | ⟨rfl, ht⟩ | ⟨rfl, ht⟩ | rfl | rfl | ⟨rfl, hread⟩
    · exact ⟨_, exec_jmpRel8 .w16 b (zext16_le _), jumpEnd_frame s s _ _ _, fun _ => ⟨rfl, rfl⟩⟩
    · exact ⟨_, exec_jmpRel (.rel16 d) (zext16_le _), jumpEnd_frame s s _ _ _, fun _ => ⟨rfl, rfl⟩⟩
    · exact ⟨_, exec_jmpRel8 .w32 b ht, jumpEnd_frame s s _ _ _, fun _ => ⟨rfl, rfl⟩⟩
    · exact ⟨_, exec_jmpRel (.rel32 e) ht, jumpEnd_frame s s _ _ _, fun _ => ⟨rfl, rfl⟩⟩
    · exact ⟨_, exec_jmpPtr (.ptr16 w sel) h8 (word_offset_le w), jumpEnd_frame s s _ _ _, by simp⟩
    · exact ⟨_, exec_jmpPtr (.ptr32 off sel) h8 ho, jumpEnd_frame s s _ _ _, by simp⟩
    · exact ⟨_, exec_jmpMem sz m h8 ho hread, .of_reads (readFarPtr_reads sz m) hread (jumpEnd_frame s u _ _ _),
        by simp⟩
  obtain ⟨t, he, hf, hnear⟩ := key
  exact ⟨t, he, hf.gpr, hf.flags, hf.cpl, hf.system, hf.mem, hf.seg, hnear⟩

end Sys2Proof.Machine
end

section
/-! PROOFS. Settles O26: the privileged instructions outside level 0 (`40_init_mode_switch.md` R150 (g), `43_v86.md`
R266) and what taking a fault does (`60_exceptions.md` R294 step 6). -/

namespace Sys2Proof.Machine

/-! ## The level of each mode -/

/-- CPL counts as 3 in V86 mode (`10_state.md` R62). -/
theorem level_of_v86 {s : State} (h : s.mode = .v86) : s.level = 3 := by
  simp only [State.level, h]

/-- CPL counts as 0 in real-address mode (`10_state.md` R62). -/
theorem level_of_real {s : State} (h : s.mode = .real) : s.level = 0 := by
  simp only [State.level, h]

/-! ## Taking a fault -/

/-- An exception without DR6 bits is delivered as a fault in the rolled-back state, and nothing follows its delivery. -/
theorem takeFault_deliver {e : Exn} (h : e.dr6 = 0) (s t : State) :
    takeFault e s t = Delivery.outcome
      (deliver { vector := e.vector, cls := .fault, err := e.err, ip := s.eip, restart := s.eip }
        { s.rollback t with cr2 := e.cr2.getD s.cr2 })
      entered :=
  if_pos h

/-- Settles O26: the level check of a privileged instruction raises before anything changes (`privileged_raise`), and a
fault is delivered in the rolled-back state (`takeFault_deliver`). -/
theorem privilegedInstructionsFaultOutsideLevelZero : Obligations.PrivilegedInstructionsFaultOutsideLevelZero :=
  ⟨fun _ _ hi hl hs => privileged_raise hi hs hl, fun _ => level_of_v86, fun _ => level_of_real, fun _ => rfl,
    fun _ s t h => takeFault_deliver h s t⟩

end Sys2Proof.Machine
end

section
/-! PROOFS. Settles O50, O51 and O55: the frames of the moves from and to the special registers
(`40_init_mode_switch.md` R160, R161, `41_tlb_test.md` R182 to R185, `42_debug.md` R212, R213), and of INT 3 and IRET in
real-address mode (`42_debug.md` R232, `43_v86.md` R258, `60_exceptions.md` R301). -/

namespace Sys2Proof.Machine

/-! ## The end of a move -/

/-- The state in which a move from or to a special register ends that began in `s` and has made the state `x`: the
status flags are the free value `k`, and the next instruction follows. -/
def moveEnd (s x : State) (k : Nat) : State :=
  complete s false { x with flags := x.flags.setStatus (Config.freeWord k), free := k + 1, eip := x.next }

/-- `t` has of `s` what every move from or to a special register leaves alone, and goes on after it. -/
structure MoveFrame (s t : State) : Prop where
  flags : s.flags.sameControl t.flags
  seg   : t.seg = s.seg
  latch : t.latch = s.latch
  mem   : s.sameMemory t
  eip   : t.eip = s.next

theorem moveEnd_frame {s x : State} (k : Nat) (hflags : x.flags = s.flags) (hseg : x.seg = s.seg)
    (hlatch : x.latch = s.latch) (hmem : x.mem = s.mem) (hnext : x.next = s.next) :
    MoveFrame s (moveEnd s x k) where
  flags := hflags ▸ setStatus_control x.flags _
  seg := hseg
  latch := hlatch
  mem a := congrArg (·.read a.toNat) hmem
  eip := hnext

/-- A move whose body ends as one to a special register does completes. -/
theorem runInstr_finishWrite {body : M Bool} {s x : State} (hs : s.prefetchStale = false)
    (hb : body s = finishWrite x) : runInstr false body s = .next (moveEnd s x x.free) :=
  runInstr_ok (by simp [hs]) (hb.trans (finishWrite_run x))

/-- A move whose body ends as one from a special register does completes, with some value in its register. -/
theorem runInstr_finishRead {body : M Bool} {s : State} {r : Reg} {v mask : Dword} (hs : s.prefetchStale = false)
    (hb : body s = finishRead r v mask s) :
    ∃ w k, runInstr false body s = .next (moveEnd s { s with gpr := s.gpr.set r w } k) :=
  ⟨_, _, runInstr_ok (by simp [hs]) (hb.trans (finishRead_run r v mask s))⟩

/-! ## Moves from a special register -/

/-- A move from a special register at level 0, with GD clear, completes with some value in its general register. -/
theorem exec_specialRead {s : State} {r : Reg} {n : Fin 4} {d : Dr67} {i : Instr} (hl : s.level = 0)
    (hg : s.dr7.getLsbD 13 = false) (hs : s.prefetchStale = false)
    (hi : i = .movFromCr0 r ∨ i = .movFromCr3 r ∨ i = .movFromDr03 r n ∨ i = .movFromDr67 r d ∨ i = .movFromTr6 r ∨
      i = .movFromTr7 r) :
    ∃ w k, exec i s = .next (moveEnd s { s with gpr := s.gpr.set r w } k) := by
  have h0 := requireLevel0_run hl
  have hd := requireDebug_run hl hg
  rcases hi with rfl | rfl | rfl | rfl | rfl | rfl
  · exact runInstr_finishRead hs (by simp only [movFromCr0, bind_run, h0, asks_run]; rfl)
  · exact runInstr_finishRead hs (by simp only [movFromCr3, bind_run, h0, asks_run]; rfl)
  · exact ⟨s.dr n, _, runInstr_finishWrite hs
      (by simp only [movFromDr03, bind_run, hd, asks_run, update_run])⟩
  · exact runInstr_finishRead hs (by simp only [movFromDr67, bind_run, hd, asks_run]; rfl)
  · exact runInstr_finishRead hs (by simp only [movFromTr6, bind_run, h0, asks_run]; rfl)
  · exact runInstr_finishRead hs (by simp only [movFromTr7, bind_run, h0, asks_run]; rfl)

/-- Settles O50: every read ends in a `moveEnd` that has changed one general register (`exec_specialRead`). -/
theorem frameOfSpecialRegisterReads : Obligations.FrameOfSpecialRegisterReads := by
  intro s r n d i hi hl hg hs
  obtain ⟨w, k, he⟩ := exec_specialRead hl hg hs hi
  have hf : MoveFrame s (moveEnd s { s with gpr := s.gpr.set r w } k) := moveEnd_frame k rfl rfl rfl rfl rfl
  exact ⟨_, he, fun q hq => s.gpr.get_set_other w hq, hf.flags, hf.seg, hf.latch, rfl, rfl, rfl, hf.mem, hf.eip⟩

/-! ## Moves to a special register -/

/-- A move from `r` to a special register other than CR0, with the state `x` its write leaves of `s`. -/
inductive SpecialWrite (s : State) (r : Reg) : Instr → State → Prop
  | cr3 : SpecialWrite s r (.movToCr3 r) (s.writeCr3 (s.gpr.get r))
  | dr03 (n : Fin 4) : SpecialWrite s r (.movToDr03 n r) (s.setDr n (s.gpr.get r))
  | dr6 : SpecialWrite s r (.movToDr67 .dr6 r) { s with dr6 := s.gpr.get r }
  | dr7 : SpecialWrite s r (.movToDr67 .dr7 r) { s with dr7 := s.gpr.get r }
  | tr6 {x : State} (h : TlbOnly { s with tr6 := Tr6.ofWord (s.gpr.get r) } x) : SpecialWrite s r (.movToTr6 r) x
  | tr7 : SpecialWrite s r (.movToTr7 r) { s with tr7 := Tr7.ofWord (s.gpr.get r) }

/-- The check of a DR7 value lets it pass or refuses it. -/
theorem checkDr7_cases (v : Dword) (s : State) :
    checkDr7 v s = .ok () s ∨ ∃ q, checkDr7 v s = .error (.refused q) s := by
  unfold checkDr7
  split
  · exact .inr ⟨_, rfl⟩
  · split
    · exact .inr ⟨_, rfl⟩
    · exact .inl rfl

/-- A MOV DR7 that completes has written DR7. -/
theorem exec_movToDr7 {s t : State} {r : Reg} (hl : s.level = 0) (hg : s.dr7.getLsbD 13 = false)
    (h : exec (.movToDr67 .dr7 r) s = .next t) :
    t = moveEnd s { s with dr7 := s.gpr.get r } s.free := by
  have hd := requireDebug_run hl hg
  rcases checkDr7_cases (s.gpr.get r) s with hc | ⟨q, hc⟩
  · exact tail_exec h (by simp only [movToDr67, writeDr67, bind_run, hd, asks_run, hc, update_run])
  · have hb : movToDr67 .dr7 r s = .error (.refused q) s := by
      simp only [movToDr67, writeDr67, bind_run, hd, asks_run, hc]
    exact nomatch h.symm.trans (runInstr_refused (by simp [stale_of_next h]) hb)

/-- A MOV TR6 that completes has written TR6 and run a TLB command; neither command raises an exception. -/
theorem exec_movToTr6 {s t : State} {r : Reg} (hl : s.level = 0) (h : exec (.movToTr6 r) s = .next t) :
    ∃ x, TlbOnly { s with tr6 := Tr6.ofWord (s.gpr.get r) } x ∧ t = moveEnd s x x.free := by
  have hb : movToTr6 r s = (tlbCommand (Tr6.ofWord (s.gpr.get r)).c >>= fun _ => finishWrite)
      { s with tr6 := Tr6.ofWord (s.gpr.get r) } := by
    simp only [movToTr6, bind_run, requireLevel0_run hl, update_run, asks_run]
  obtain ⟨-, ⟨rf, u, hok, -⟩ | ⟨e, u, herr, -⟩⟩ := runInstr_next h
  · obtain ⟨_, x, hc, -⟩ := bind_ok (hb.symm.trans hok)
    exact ⟨x, command_only hc, tail_exec h (by rw [hb, bind_run, hc])⟩
  · rcases bind_err (hb.symm.trans herr) with hc | ⟨_, x, -, hf⟩
    · exact (command_noexn hc).elim
    · exact nomatch (finishWrite_run x).symm.trans hf

/-- A write at level 0, with GD clear, that completes ends in a `moveEnd`. -/
theorem exec_specialWrite {s t : State} {r : Reg} {n : Fin 4} {i : Instr} (hl : s.level = 0)
    (hg : s.dr7.getLsbD 13 = false)
    (hi : i = .movToCr3 r ∨ i = .movToDr03 n r ∨ i = .movToDr67 .dr6 r ∨ i = .movToDr67 .dr7 r ∨ i = .movToTr6 r ∨
      i = .movToTr7 r)
    (h : exec i s = .next t) : ∃ x k, SpecialWrite s r i x ∧ t = moveEnd s x k := by
  have h0 := requireLevel0_run hl
  have hd := requireDebug_run hl hg
  rcases hi with rfl | rfl | rfl | rfl | rfl | rfl
  · exact ⟨_, _, .cr3, tail_exec h (by simp only [movToCr3, bind_run, h0, update_run])⟩
  · exact ⟨_, _, .dr03 n, tail_exec h (by simp only [movToDr03, bind_run, hd, update_run])⟩
  · exact ⟨_, _, .dr6, tail_exec h (by simp only [movToDr67, writeDr67, bind_run, hd, asks_run, update_run])⟩
  · exact ⟨_, _, .dr7, exec_movToDr7 hl hg h⟩
  · obtain ⟨x, hx, ht⟩ := exec_movToTr6 hl h
    exact ⟨x, _, .tr6 hx, ht⟩
  · exact ⟨_, _, .tr7, tail_exec h (by simp only [movToTr7, bind_run, h0, update_run])⟩

/-- `t` has of `s` what a move to a special register other than CR0 leaves alone. -/
structure WriteFrame (s t : State) : Prop extends MoveFrame s t where
  gpr : t.gpr = s.gpr
  cpl : t.cpl = s.cpl

theorem SpecialWrite.frame {s x : State} {r : Reg} {i : Instr} (h : SpecialWrite s r i x) (k : Nat) :
    WriteFrame s (moveEnd s x k) := by
  cases h with
  | cr3 | dr6 | dr7 | tr7 => exact ⟨moveEnd_frame k rfl rfl rfl rfl rfl, rfl, rfl⟩
  | dr03 n =>
    exact ⟨moveEnd_frame k (setDr_flags s n _) (setDr_seg s n _) (setDr_latch s n _) (setDr_mem s n _)
      (setDr_next s n _), setDr_gpr s n _, setDr_cpl s n _⟩
  | tr6 h =>
    obtain ⟨_, _, _, _, _, rfl⟩ := h
    exact ⟨moveEnd_frame k rfl rfl rfl rfl rfl, rfl, rfl⟩

/-- Only MOV CR3 and MOV TR6 change the TLB. -/
theorem SpecialWrite.tlb {s x : State} {r : Reg} {i : Instr} (h : SpecialWrite s r i x) (h3 : i ≠ .movToCr3 r)
    (h6 : i ≠ .movToTr6 r) : x.tlb = s.tlb := by
  cases h with
  | cr3 => exact absurd rfl h3
  | tr6 => exact absurd rfl h6
  | dr03 n => exact setDr_tlb s n _
  | dr6 | dr7 | tr7 => rfl

/-- MOV TR6 changes TR6 and TR7 of the system registers. -/
theorem SpecialWrite.system_of_tr6 {s x : State} {r : Reg} (h : SpecialWrite s r (.movToTr6 r) x) :
    x.system = { s.system with tr6 := x.tr6, tr7 := x.tr7 } := by
  cases h with
  | tr6 h =>
    obtain ⟨_, _, _, _, _, rfl⟩ := h
    rfl

/-! ## MOV CR0 -/

theorem checkCr0_run {s : State} {v : Cr0} (h : v.pe = true ∨ (s.cr0.pe = false ∧ v.pg = false)) :
    checkCr0 v s = .ok () s := by
  unfold checkCr0
  rcases h with hpe | ⟨hpe, hpg⟩
  · simp [hpe]
  · simp [hpe, hpg]

/-- A MOV CR0 at level 0 of a value that CR0 takes completes. -/
theorem exec_movToCr0 {s : State} {r : Reg} (hl : s.level = 0) (hs : s.prefetchStale = false)
    (hv : (Cr0.ofWord (s.gpr.get r)).pe = true ∨ (s.cr0.pe = false ∧ (Cr0.ofWord (s.gpr.get r)).pg = false)) :
    ∃ k, exec (.movToCr0 r) s = .next (moveEnd s (s.writeCr0 (Cr0.ofWord (s.gpr.get r))) k) :=
  ⟨_, runInstr_finishWrite hs
    (by simp only [movToCr0, bind_run, requireLevel0_run hl, asks_run, checkCr0_run hv, update_run])⟩

/-- A write of CR0 that leaves PE as it was leaves CPL. -/
theorem writeCr0_cpl_of_pe {s : State} {v : Cr0} (h : s.cr0.pe = v.pe) : (s.writeCr0 v).cpl = s.cpl := by
  simp [State.writeCr0, h]

/-- Settles O51: a write that completes ends in a `moveEnd` (`exec_specialWrite`) with the frame
`SpecialWrite.frame`; MOV CR0 ends in one of `State.writeCr0`. -/
theorem frameOfSpecialRegisterWrites : Obligations.FrameOfSpecialRegisterWrites := by
  refine ⟨fun s t r n i hl hg hi h => ?_, fun s r hl hs hv => ?_⟩
  · obtain ⟨x, k, hw, rfl⟩ := exec_specialWrite hl hg hi h
    have hf := hw.frame k
    refine ⟨hf.gpr, hf.flags, hf.seg, hf.latch, hf.cpl, hf.mem, hf.eip, ?_, ?_, ?_, ?_,
      fun e => (e ▸ hw).system_of_tr6, ?_, hw.tlb⟩
    all_goals
      rintro rfl
      cases hw
      rfl
  · obtain ⟨k, he⟩ := exec_movToCr0 hl hs hv
    have hf : MoveFrame s (moveEnd s (s.writeCr0 (Cr0.ofWord (s.gpr.get r))) k) :=
      moveEnd_frame k (writeCr0_flags _ _) (writeCr0_seg _ _) (writeCr0_latch _ _) (writeCr0_mem _ _)
        (writeCr0_next _ _)
    exact ⟨_, he, writeCr0_gpr _ _, hf.flags, hf.seg, writeCr0_system _ _, writeCr0_tlb _ _, hf.mem,
      writeCr0_cpl_of_pe, hf.eip⟩

/-! ## INT 3 and IRET in real-address mode -/

/-- `t` has of `s` what INT 3 and IRET in real-address mode leave alone of the registers. -/
structure RealFrame (s t : State) : Prop where
  gpr    : ∀ q, q ≠ .esp → t.gpr.get q = s.gpr.get q
  cpl    : t.cpl = s.cpl
  system : t.system = s.system
  seg    : t.seg = { s.seg with cs := t.seg.cs }

/-- In real-address mode an event that fits its table and its stack reaches its handler. -/
theorem deliver_real {s : State} {e : Event} {entry : Dword} (h : s.canEnterReal e entry) :
    deliver e s = .next (.handler, s.enteredReal e entry) := by
  have ha : attempt e s = .ok .handler (s.enteredReal e entry) := by
    simp only [attempt, bind_run, asks_run, h.1, deliverReal_run h]
  simp only [deliver, ha]

/-- An INT 3 in real-address mode whose delivery fits completes in its handler. -/
theorem exec_int3_real {s : State} {entry : Dword} (hs : s.prefetchStale = false)
    (h : ({ s with eip := s.next } : State).canEnterReal (breakpointEvent s) entry) :
    exec .int3 s =
      .next (complete s false (State.enteredReal { s with eip := s.next } (breakpointEvent s) entry)) := by
  change execInt3 s = _
  rw [execInt3, if_neg (by simp [hs]), deliver_real h]

/-- A delivery in real-address mode stores its three words and nothing else. -/
theorem enteredReal_frame (s : State) (e : Event) (entry : Dword) :
    RealFrame s (s.enteredReal e entry) ∧
      ∀ x, s.outsidePushes 2 x 3 → (s.enteredReal e entry).byteAt x = s.byteAt x := by
  obtain ⟨tr, q, hn⟩ := noteImplicit_cases s (s.entryLin e.vector) 4 .read
  obtain ⟨hgpr, hmem⟩ := pushedAll_frame true 2 (s.realFrame e) (s.noteImplicit (s.entryLin e.vector) 4 .read)
  obtain ⟨g, m, tr', q', hp⟩ := pushedAll_same true 2 (s.realFrame e) (s.noteImplicit (s.entryLin e.vector) 4 .read)
  refine ⟨⟨fun r hr => (hgpr r hr).trans (by rw [hn]), ?_, ?_, rfl⟩, fun x hx => (hmem x ?_).trans (by rw [hn]; rfl)⟩
  · rw [State.enteredReal, hp, hn]
  · rw [State.enteredReal, hp, hn]
    rfl
  · rw [hn]
    exact (outsidePushes_congr rfl rfl rfl rfl 2 x 3).2 hx

/-- The state in which an IRET in real-address mode ends that began in `s`: three items of `n` bytes popped, CS, EIP
and the flags loaded. -/
def iretRealEnd (s : State) (n : Nat) (sel : Selector) (off : Dword) (f : Eflags) : State :=
  complete s true { (State.poppedAll n 3 s).farTo8086 sel off with flags := f }

/-- An IRET in real-address mode whose frame can be popped completes. -/
theorem exec_iret_real {s : State} {sz : OpSize} {off sel fl : Dword} (hs : s.prefetchStale = false)
    (hm : s.mode = .real) (hp : State.canPopAll (sizeBytes sz) [off, sel, fl] s) (ho : off.toNat ≤ 0xFFFF) :
    exec (.iret sz) s =
      .next (iretRealEnd s (sizeBytes sz) (low16 sel) off (s.flags.iretReal sz fl)) := by
  refine runInstr_ok (by simp [hs]) ?_
  obtain ⟨h1, h2, h3, -⟩ := hp
  simp only [iretBody, iretReal, bind_run, asks_run, hm, pop_run h1, pop_run h2, pop_run h3,
    checkTarget_run fun _ => ho, update_run, pure_run]
  rfl

/-- The pops of an IRET store nothing. -/
theorem iretRealEnd_frame (s : State) (n : Nat) (sel : Selector) (off : Dword) (f : Eflags) :
    RealFrame s (iretRealEnd s n sel off f) ∧ s.sameMemory (iretRealEnd s n sel off f) := by
  obtain ⟨g, tr, q, hp⟩ := poppedAll_same n 3 s
  refine ⟨⟨popped_frame n 3 s, ?_, ?_, ?_⟩, fun x => ?_⟩ <;> rw [iretRealEnd, hp] <;> rfl

/-- Settles O55: INT 3 is a delivery (`exec_int3_real`, `enteredReal_frame`), IRET three pops (`exec_iret_real`,
`iretRealEnd_frame`). -/
theorem frameOfInterruptAndReturn : Obligations.FrameOfInterruptAndReturn := by
  intro s sz entry off sel fl hs
  refine ⟨fun hint => ?_, fun hm hp ho => ?_⟩
  · obtain ⟨hf, hmem⟩ := enteredReal_frame { s with eip := s.next } (breakpointEvent s) entry
    exact ⟨_, exec_int3_real hs hint, hf.gpr, hf.cpl, hf.system, hf.seg, rfl,
      fun x hx => hmem x ((outsidePushes_congr rfl rfl rfl rfl 2 x 3).2 hx)⟩
  · obtain ⟨hf, hmem⟩ := iretRealEnd_frame s (sizeBytes sz) (low16 sel) off (s.flags.iretReal sz fl)
    exact ⟨_, exec_iret_real hs hm hp ho, hf.gpr, hf.cpl, hf.system, hf.seg, hmem⟩

end Sys2Proof.Machine
end

section
/-! PROOFS. Settles O8: the first fetch after RESET, and near jumps made with the base of RESET
(`70_reset_and_hazards.md` R341, `10_state.md` R65). -/

namespace Sys2Proof.Machine

/-! ## The step that runs an instruction -/

/-- An instruction address that no breakpoint register holds meets no breakpoint, enabled or not (`42_debug.md` R219). -/
theorem fetchMatch_of_ne {s : State} {lin : Dword} {n : Fin 4} (h : s.dr n ≠ lin) : fetchMatch s lin n = false := by
  simp [fetchMatch, h]

theorem fetchHits_of_ne {s : State} {lin : Dword} (h : ∀ n, s.dr n ≠ lin) : fetchHits s lin = 0 := by
  simp [fetchHits, bBits, fetchMatch_of_ne (h _)]

theorem fetchQuiet_of_ne {s : State} {lin : Dword} (h : ∀ n, s.dr n ≠ lin) : fetchQuiet s lin = 0 := by
  simp [fetchQuiet, bBits, fetchMatch_of_ne (h _)]

/-- Where the instruction that starts meets no disabled breakpoint, none joins `quiet`. -/
theorem noteFetch_eq_self {s : State} (h : fetchQuiet s s.linPc = 0) : s.noteFetch = s := by
  simp [State.noteFetch, h]

/-- With paging off, a step that nothing at the boundary takes runs the instruction that the bytes at `Lin(CS, EIP)`
hold (`60_exceptions.md` R294). -/
theorem step_runs_code {s : State} {bs : List Byte} {i : Instr} {n : Nat} (hgo : s.goesOn) (hpg : s.cr0.pg = false)
    (hd : decode s.defaultSize bs = .ok i n) (hn : n ≤ maxLen) (hc : s.codeIs bs n) :
    step s = exec i { s.pastBoundary with next := s.advance n } := by
  have hf : fetchInstr s.pastBoundary = .ok (i, n) s.pastBoundary := fetchInstr_run hpg hd hn hc
  simp only [step, goesOn_boundary hgo, fetchStep, hf]
  rfl

/-! ## The state RESET leaves -/

section
variable (q : Config.ResetParams) (s : State)

/-- The base of RESET and the instruction pointer of RESET add up to the address of the first fetch. -/
theorem resetEvent_linPc : (s.resetEvent q).linPc = 0xFFFFFFF0 := by
  have hsum : (s.resetEvent q).linPc = 0xFFFF0000 + 0xFFF0 := rfl
  exact hsum.trans (by decide)

/-- The breakpoint registers are 0 after RESET, which is not where the first instruction lies. -/
theorem resetEvent_dr_ne_linPc (n : Fin 4) : (s.resetEvent q).dr n ≠ (s.resetEvent q).linPc := by
  have hdr : (s.resetEvent q).dr n = 0 := by fin_cases n <;> rfl
  rw [hdr, resetEvent_linPc]
  decide

/-- Nothing of what was pending before RESET is taken after it. -/
theorem resetEvent_goesOn (hi : s.inputs = []) : (s.resetEvent q).goesOn :=
  ⟨rfl, hi, .inr ⟨rfl, external_none rfl (.inl rfl)⟩, .inr (fetchHits_of_ne (resetEvent_dr_ne_linPc q s))⟩

/-- The boundary before the first fetch finds nothing to change. -/
theorem resetEvent_pastBoundary : (s.resetEvent q).pastBoundary = s.resetEvent q := by
  have hpast : (s.resetEvent q).pastEvents = s.resetEvent q := rfl
  rw [State.pastBoundary, hpast, noteFetch_eq_self (fetchQuiet_of_ne (resetEvent_dr_ne_linPc q s))]

/-- An instruction of at most 15 bytes at FFF0H leaves the instruction pointer in its 64K segment. -/
theorem resetEvent_advance {n : Nat} (hn : n ≤ 15) : (s.resetEvent q).advance n = 0xFFF0 + BitVec.ofNat 32 n := by
  have hsum : (s.resetEvent q).advance n = zext16 (0xFFF0 + BitVec.ofNat 32 n) := rfl
  apply BitVec.eq_of_toNat_eq
  have heip : (0xFFF0 : Dword).toNat = 0xFFF0 := rfl
  rw [hsum, zext16_toNat, BitVec.toNat_add, BitVec.toNat_ofNat, heip]
  omega

/-- No byte of an instruction of at most 15 bytes at FFF0H lies past offset FFFFH. -/
theorem resetEvent_codeIs {bs : List Byte} {n : Nat} (hn : n ≤ 15)
    (hb : ∀ k (h : k < bs.length), k < n → s.byteAt (0xFFFFFFF0 + BitVec.ofNat 32 k) = some bs[k]) :
    (s.resetEvent q).codeIs bs n := by
  intro k hk hkn
  have heip : (s.resetEvent q).eip.toNat = 0xFFF0 := rfl
  rw [resetEvent_linPc, heip]
  exact ⟨hb k hk hkn, fun _ => by omega⟩

/-- The first instruction after RESET. -/
theorem step_resetEvent {bs : List Byte} {i : Instr} {n : Nat} (hi : s.inputs = []) (hd : decode .w16 bs = .ok i n)
    (hn : n ≤ 15) (hb : ∀ k (h : k < bs.length), k < n → s.byteAt (0xFFFFFFF0 + BitVec.ofNat 32 k) = some bs[k]) :
    step (s.resetEvent q) = exec i { s.resetEvent q with next := 0xFFF0 + BitVec.ofNat 32 n } := by
  rw [step_runs_code (resetEvent_goesOn q s hi) rfl hd hn (resetEvent_codeIs q s hn hb),
    resetEvent_pastBoundary, resetEvent_advance q s hn]

end

/-! ## Near jumps with the base of RESET -/

/-- With the base of RESET in CS, every 16-bit offset lies in FFFF0000H to FFFFFFFFH. -/
theorem lin_ge_of_resetBase {s : State} {off : Dword} (hb : s.seg.cs.base = 0xFFFF0000) (ho : off.toNat ≤ 0xFFFF) :
    0xFFFF0000 ≤ (s.lin .cs off).toNat := by
  have hlin : s.lin .cs off = 0xFFFF0000 + off := congrArg (· + off) hb
  have hbase : (0xFFFF0000 : Dword).toNat = 0xFFFF0000 := rfl
  rw [hlin, BitVec.toNat_add, hbase]
  omega

/-- Settles O8: the first step after RESET is `step_resetEvent`; a near jump keeps CS (`exec_jmpRel`), and its target
has 16 bits (`lin_ge_of_resetBase`). -/
theorem firstFetchIsAtFFFFFFF0 : Obligations.FirstFetchIsAtFFFFFFF0 := by
  refine ⟨fun q s => ⟨resetEvent_linPc q s, rfl, rfl⟩, fun q s _ _ _ hi hd hn hb => step_resetEvent q s hi hd hn hb,
    fun s d hb => ?_⟩
  have hoff : (nearTarget s.next (relDisp (.rel16 d)) .w16).toNat ≤ 0xFFFF := zext16_le _
  exact ⟨_, exec_jmpRel (.rel16 d) hoff, rfl, lin_ge_of_resetBase hb hoff⟩

end Sys2Proof.Machine
end

section
/-! PROOFS. Settles O1: the decoder on what the encoder writes, one lemma for each shape of an encoding
(`30_encoding.md` R120 to R131). -/

namespace Sys2Proof.Machine

/-! ## Special-register moves -/

theorem decode_encMove {b : Byte} {n : BitVec 3} {r : Reg} {i : Instr} (d : OpSize) (rest : List Byte)
    (hb : isMove b = true) (h1 : b ≠ 1) (h : moveOf b n r = .ok i 0) :
    decode d (encMove b n r ++ rest) = .ok i (encMove b n r).length := by
  change decode d (0x0F :: b :: modrm 3 n r.num :: rest) = .ok i 3
  rw [decode_move d b _ rest hb h1, fieldMid_modrm, fieldLo_modrm, Reg.ofNum_num, h]
  exact finish_eq _ _ _ _ (by omega)

theorem moveOf_fromDr03 (n : Fin 4) (r : Reg) : moveOf 0x21 (BitVec.ofNat 3 n.val) r = .ok (.movFromDr03 r n) 0 := by
  fin_cases n <;> rfl

theorem moveOf_toDr03 (n : Fin 4) (r : Reg) : moveOf 0x23 (BitVec.ofNat 3 n.val) r = .ok (.movToDr03 n r) 0 := by
  fin_cases n <;> rfl

/-! ## Immediate operands -/

/-- The bytes of an instruction without a ModRM operand: 66H where the operand size is not the default, an opcode and
its immediate operand. -/
theorem decode_encImm {d sz : OpSize} {b : Byte} {imm rest : List Byte} {i : Instr} (h : plainByte b)
    (hi : ∀ p total, p.opSize d = sz → decodeOp d p total (b :: (imm ++ rest)) = finish total i rest) :
    decode d (encOp d sz ++ b :: imm ++ rest) = .ok i (encOp d sz ++ b :: imm).length := by
  have hsz : Pre.opSize { op := decide (sz ≠ d), addr := false, seg := none } d = sz := opSize_enc d sz
  rw [List.append_assoc, List.cons_append, decode_op d sz b _ h, hi _ _ hsz]
  exact finish_eq _ _ _ _ (by simp only [List.length_append, List.length_cons]; omega)

/-! ## Memory operands -/

/-- An instruction with a memory operand: the decoder arrives at the opcode and the bytes `m`, `u` of the operand, with
the sizes and the override that the bytes before the opcode name. -/
theorem decode_encMem {d osz : OpSize} {b : Byte} {bs : List Byte} (reg : BitVec 3) {x : MemOp} (rest : List Byte)
    (h : plainByte b) (hx : x.ea.wf = true) :
    ∃ m u, fieldHi m ≠ 3 ∧ fieldMid m = reg ∧
      takeEa x.ea.size (fieldHi m) (fieldLo m) (u ++ rest) = some (x.ea, rest) ∧
      decode d (encMem d (encOp d osz) (b :: bs) reg x ++ rest) =
        decodeOp d { op := decide (osz ≠ d), addr := decide (x.ea.size ≠ d), seg := x.seg }
          ((encMem d (encOp d osz) (b :: bs) reg x).length + rest.length) (b :: bs ++ m :: (u ++ rest)) := by
  obtain ⟨m, u, he, hhi, hmid, ht⟩ := takeEa_encEa reg hx rest
  have hbytes : encMem d (encOp d osz) (b :: bs) reg x ++ rest =
      encSeg x.seg ++ encAddr d x.ea.size ++ encOp d osz ++ b :: (bs ++ m :: (u ++ rest)) := by
    simp [encMem, he]
  refine ⟨m, u, hhi, hmid, ht, ?_⟩
  rw [hbytes, decode_mem d _ osz _ b _ h, ← hbytes, List.length_append, List.cons_append]

/-- An opcode whose operand must be memory. -/
theorem decode_encMem_withMem {d osz : OpSize} {b : Byte} {bs rest : List Byte} {reg : BitVec 3} {x : MemOp}
    (k : OpSize → MemOp → Instr) (h : plainByte b) (hx : x.ea.wf = true)
    (hk : ∀ p total m t, fieldMid m = reg →
      decodeOp d p total (b :: bs ++ m :: t) = withMem (p.addrSize d) p total m t (k (p.opSize d))) :
    decode d (encMem d (encOp d osz) (b :: bs) reg x ++ rest) =
      .ok (k osz x) (encMem d (encOp d osz) (b :: bs) reg x).length := by
  obtain ⟨m, u, hhi, hmid, ht, he⟩ := decode_encMem (d := d) (osz := osz) (bs := bs) reg rest h hx
  rw [he, hk _ _ _ _ hmid, withMem_enc _ hhi ht rfl rfl]
  exact congrArg (fun sz => DecodeResult.ok (k sz x) _) (opSize_enc d osz)

/-- An opcode with an `r/m16` operand. -/
theorem decode_encRm {d : OpSize} {b : Byte} {bs rest : List Byte} {reg : BitVec 3} {x : Rm16} (k : Rm16 → Instr)
    (h : plainByte b) (hx : x.wf = true)
    (hk : ∀ p total m t, fieldMid m = reg →
      decodeOp d p total (b :: bs ++ m :: t) = withRm (p.addrSize d) p total m t k) :
    decode d (encRm d (b :: bs) reg x ++ rest) = .ok (k x) (encRm d (b :: bs) reg x).length := by
  cases x with
  | reg r =>
    have hbytes : encRm d (b :: bs) reg (.reg r) ++ rest = b :: bs ++ modrm 3 reg r.num :: rest := by simp [encRm]
    rw [hbytes, List.cons_append, decode_bare d b _ h, ← List.cons_append, hk _ _ _ _ (fieldMid_modrm 3 reg r.num),
      withRm, if_pos (fieldHi_modrm 3 reg r.num), fieldLo_modrm, Reg.ofNum_num]
    exact finish_eq _ _ _ _ (by simp [encRm]; omega)
  | mem x =>
    have hop : encOp d d = [] := if_pos rfl
    obtain ⟨m, u, hhi, hmid, ht, he⟩ := decode_encMem (d := d) (osz := d) (bs := bs) reg rest h hx
    rw [hop] at he
    change decode d (encMem d [] (b :: bs) reg x ++ rest) = _
    rw [he, hk _ _ _ _ hmid, withRm_enc _ hhi ht rfl rfl]
    rfl

/-- The opcodes are none of the bytes that stand before an opcode. -/
theorem plainByte_opcode :
    ∀ b ∈ ([0xEB, 0xE9, 0xE8, 0xEA, 0x9A, 0xFF, 0x8E, 0x0F, 0xCC, 0xCF] : List Byte), plainByte b := by
  unfold plainByte
  decide

/-- Settles O1, instruction by instruction: each encoding has one of the shapes of `decode_encImm`,
`decode_encMem_withMem`, `decode_encRm` and `decode_encMove`. -/
theorem decodeEncodeRoundTrip : Obligations.DecodeEncodeRoundTrip := by
  intro d i rest hwf
  have plain {b : Byte} := plainByte_opcode b
  cases i with
  | jmpRel8 sz x => exact decode_encImm (imm := [x]) (plain (by decide)) fun p total h => by simp [decodeOp, h]
  | jmpRel x =>
    cases x with
    | rel16 x => exact decode_encImm (plain (by decide)) fun p total h => by simp [decodeOp, h]
    | rel32 x => exact decode_encImm (plain (by decide)) fun p total h => by simp [decodeOp, h]
  | callRel x =>
    cases x with
    | rel16 x => exact decode_encImm (plain (by decide)) fun p total h => by simp [decodeOp, h]
    | rel32 x => exact decode_encImm (plain (by decide)) fun p total h => by simp [decodeOp, h]
  | jmpPtr x =>
    cases x with
    | ptr16 o s => exact decode_encImm (plain (by decide)) fun p total h => by simp [decodeOp, h]
    | ptr32 o s => exact decode_encImm (plain (by decide)) fun p total h => by simp [decodeOp, h]
  | callPtr x =>
    cases x with
    | ptr16 o s => exact decode_encImm (plain (by decide)) fun p total h => by simp [decodeOp, h]
    | ptr32 o s => exact decode_encImm (plain (by decide)) fun p total h => by simp [decodeOp, h]
  | int3 =>
    exact (decode_plain d 0xCC rest (by decide) (by decide) (by decide)).trans (finish_eq _ _ _ _ (Nat.add_comm _ _))
  | iret sz => exact decode_encImm (imm := []) (plain (by decide)) fun p total h => by simp [decodeOp, h]
  | jmpMem sz m =>
    exact decode_encMem_withMem .jmpMem (plain (by decide)) hwf fun p total m t h => by simp [decodeOp, h]
  | callMem sz m =>
    exact decode_encMem_withMem .callMem (plain (by decide)) hwf fun p total m t h => by simp [decodeOp, h]
  | lidt sz m =>
    exact decode_encMem_withMem .lidt (plain (by decide)) hwf fun p total m t h => by simp [decodeOp, decode0F, h]
  | lgdt sz m =>
    exact decode_encMem_withMem .lgdt (plain (by decide)) hwf fun p total m t h => by simp [decodeOp, decode0F, h]
  | lmsw x => exact decode_encRm .lmsw (plain (by decide)) hwf fun p total m t h => by simp [decodeOp, decode0F, h]
  | movEs x => exact decode_encRm .movEs (plain (by decide)) hwf fun p total m t h => by simp [decodeOp, movSregOf, h]
  | movSs x => exact decode_encRm .movSs (plain (by decide)) hwf fun p total m t h => by simp [decodeOp, movSregOf, h]
  | movDs x => exact decode_encRm .movDs (plain (by decide)) hwf fun p total m t h => by simp [decodeOp, movSregOf, h]
  | movFs x => exact decode_encRm .movFs (plain (by decide)) hwf fun p total m t h => by simp [decodeOp, movSregOf, h]
  | movGs x => exact decode_encRm .movGs (plain (by decide)) hwf fun p total m t h => by simp [decodeOp, movSregOf, h]
  | movFromCr0 r => exact decode_encMove d rest rfl (by decide) rfl
  | movFromCr3 r => exact decode_encMove d rest rfl (by decide) rfl
  | movToCr0 r => exact decode_encMove d rest rfl (by decide) rfl
  | movToCr3 r => exact decode_encMove d rest rfl (by decide) rfl
  | movFromDr03 r n => exact decode_encMove d rest rfl (by decide) (moveOf_fromDr03 n r)
  | movToDr03 n r => exact decode_encMove d rest rfl (by decide) (moveOf_toDr03 n r)
  | movFromDr67 r n => cases n <;> exact decode_encMove d rest rfl (by decide) rfl
  | movToDr67 n r => cases n <;> exact decode_encMove d rest rfl (by decide) rfl
  | movFromTr6 r => exact decode_encMove d rest rfl (by decide) rfl
  | movFromTr7 r => exact decode_encMove d rest rfl (by decide) rfl
  | movToTr6 r => exact decode_encMove d rest rfl (by decide) rfl
  | movToTr7 r => exact decode_encMove d rest rfl (by decide) rfl

end Sys2Proof.Machine
end

section
/-! PROOFS. Settles O27 and O57 to O60: what every step keeps. Each property is closed under the changes that the
machine ever makes to its state (`Closed`, `ClosedCore`), so every step keeps it. -/

namespace Sys2Proof.Machine

/-! ## Invariants -/

/-- Settles O57: memory is canonical after every change, and none touches the map or the parameters. -/
theorem stepKeepsMemoryCanonical : Obligations.StepKeepsMemoryCanonical := fun s _ hmem h =>
  ⟨step_keeps memOk_closed (fun hp => hp) hmem h,
    step_keeps (fixed_closed s.map s.params) (fun hp => hp) ⟨rfl, rfl⟩ h⟩

/-- Settles O58: mode, instruction pointer and segments are kept together (`PlaceOk`), since each change depends on
the mode. -/
theorem stepKeepsModeAndSegments : Obligations.StepKeepsModeAndSegments := by
  intro s t hmode hpc hseg h
  obtain ⟨hmode', hpc', hseg'⟩ := step_keeps placeOk_closed (fun hp => hp.congr rfl rfl rfl rfl rfl rfl rfl)
    ⟨hmode, hpc, hseg⟩ h
  exact ⟨hmode', hpc', hseg'⟩

/-- Settles O59: DR7 and T are kept apart; the single-step trap adds BS to T (`trapsOk_steps`). -/
theorem stepKeepsDebugStateLegal : Obligations.StepKeepsDebugStateLegal := fun _ _ hdr7 htraps h =>
  ⟨step_keeps dr7Ok_closed (fun hp => hp) hdr7 h, step_keeps trapsOk_closed trapsOk_steps htraps h⟩

/-- Settles O60: tags and places are kept together (`TlbOk`), since a fill is placed where no valid entry has its
page. -/
theorem stepKeepsTlbUniqueAndPlaced : Obligations.StepKeepsTlbUniqueAndPlaced := fun _ _ hunique hplaced h =>
  step_keeps tlbOk_closed (fun hp => hp) ⟨hunique, hplaced⟩ h

/-! ## Outside level 0 -/

/-- Settles O27: outside level 0 only the changes of `ClosedCore` are made, which keep these registers
(`system_closedCore`). -/
theorem onlyLevelZeroChangesPrivilegedRegisters : Obligations.OnlyLevelZeroChangesPrivilegedRegisters := by
  intro s t hl hr h
  have hreset : s.takeInput.1 = none := by
    cases hi : s.inputs with
    | nil => rw [takeInput_nil hi]
    | cons p rest => simpa [State.takeInput, hi] using hr p (by simp [hi])
  obtain ⟨hcr0, hgdtr, hidtr, htr6, htr7, h0, h1, h2, h3, hdr7⟩ := step_keeps_core
    (system_closedCore s.cr0 s.gdtr s.idtr s.tr6 s.tr7 s.dr0 s.dr1 s.dr2 s.dr3 (s.dr7 &&& 0xFFFFDFAA))
    (fun hp => hp) hl hreset ⟨rfl, rfl, rfl, rfl, rfl, rfl, rfl, rfl, rfl, rfl⟩ h
  refine ⟨hcr0, hgdtr, hidtr, htr6, htr7, fun n => ?_, hdr7⟩
  fin_cases n
  exacts [h0, h1, h2, h3]

end Sys2Proof.Machine
end

section
/-! PROOFS. Settles O2 and O4: the encodings of `30_encoding.md` R130 written out, and the encodings that are no
instructions (R136, R137). -/

namespace Sys2Proof.Machine

/-- Settles O2, by running the decoder on each word. -/
theorem writtenOutWordsDecode : Obligations.WrittenOutWordsDecode := by
  unfold Obligations.WrittenOutWordsDecode
  decide

/-! ## Reserved register numbers and illegal operand forms -/

/-- A special-register move of which the tables make no instruction decodes to their answer. -/
theorem decode_noMove {d : OpSize} {b m : Byte} {rest : List Byte} {res : DecodeResult} (hb : isMove b = true)
    (h1 : b ≠ 1) (h : ∀ r, moveOf b (fieldMid m) r = res) (hres : ∀ i n, res ≠ .ok i n) :
    decode d (0x0F :: b :: m :: rest) = res := by
  rw [decode_move d b m rest hb h1, h]
  cases res with
  | ok i n => exact absurd rfl (hres i n)
  | more | invalid | unsupported w => rfl

/-- There is no CR1, and none from CR4 on. -/
theorem moveOf_noCr {n : BitVec 3} (h : n = 1 ∨ 4 ≤ n.toNat) (r : Reg) :
    moveOf 0x20 n r = .invalid ∧ moveOf 0x22 n r = .invalid := by
  have h0 : n ≠ 0#3 := by rintro rfl; simp at h
  have h2 : n ≠ 2#3 := by rintro rfl; simp at h
  have h3 : n ≠ 3#3 := by rintro rfl; simp at h
  simp [moveOf, h0, h2, h3]

/-- DR4 and DR5 are reserved. -/
theorem moveOf_noDr {n : BitVec 3} (h : n = 4 ∨ n = 5) (r : Reg) :
    moveOf 0x21 n r = .invalid ∧ moveOf 0x23 n r = .invalid := by
  rcases h with rfl | rfl <;> exact ⟨rfl, rfl⟩

/-- TR6 and TR7 are the only test registers. -/
theorem moveOf_noTr {n : BitVec 3} (h : n.toNat < 6) (r : Reg) :
    moveOf 0x24 n r = .invalid ∧ moveOf 0x26 n r = .invalid := by
  have h6 : n ≠ 6#3 := by rintro rfl; simp at h
  have h7 : n ≠ 7#3 := by rintro rfl; simp at h
  simp [moveOf, h6, h7]

/-- The memory operand of JMP, CALL, LGDT and LIDT cannot be a register. -/
theorem withMem_reg {asz : OpSize} {p : Pre} {total : Nat} {m : Byte} {bs : List Byte} {k : MemOp → Instr}
    (h : fieldHi m = 3) : withMem asz p total m bs k = .invalid := if_pos h

theorem decode_farReg {d : OpSize} {m : Byte} (rest : List Byte) (hhi : fieldHi m = 3)
    (hmid : fieldMid m = 3 ∨ fieldMid m = 5) : decode d (0xFF :: m :: rest) = .invalid := by
  rw [decode_plain d 0xFF _ (by decide) (by decide) (by decide)]
  rcases hmid with hmid | hmid <;> simp [decodeOp, hmid, withMem_reg hhi]

theorem decode_tableReg {d : OpSize} {m : Byte} (rest : List Byte) (hhi : fieldHi m = 3)
    (hmid : fieldMid m = 2 ∨ fieldMid m = 3) : decode d (0x0F :: 0x01 :: m :: rest) = .invalid := by
  rw [decode_plain d 0x0F _ (by decide) (by decide) (by decide)]
  rcases hmid with hmid | hmid <;> simp [decodeOp, decode0F, hmid, withMem_reg hhi]

/-- MOV loads neither CS nor a segment register numbered 6 or 7. -/
theorem decode_noSreg {d : OpSize} {m : Byte} (rest : List Byte)
    (hmid : fieldMid m = 1 ∨ fieldMid m = 6 ∨ fieldMid m = 7) : decode d (0x8E :: m :: rest) = .invalid := by
  rw [decode_plain d 0x8E _ (by decide) (by decide) (by decide)]
  rcases hmid with hmid | hmid | hmid <;> simp [decodeOp, movSregOf, hmid]

/-! ## The step that meets them -/

/-- The fetch stops at bytes that are no instruction. -/
theorem fetchInstr_invalid {s : State} {bs : List Byte} (hpg : s.cr0.pg = false)
    (hd : decode s.defaultSize bs = .invalid) (hm : ∀ k, k < bs.length → decode s.defaultSize (bs.take k) = .more)
    (hn : bs.length ≤ maxLen) (hc : s.codeIs bs bs.length) : fetchInstr s = invalidOpcode s := by
  have hpos : 0 < bs.length := by
    cases bs with
    | nil => cases hd
    | cons b t => simp
  exact fetchLoop_invalid hpg hd hm hc maxLen 0 hpos (by omega)

/-- Settles O4: the tables have no instruction for these bytes, and the fetch that meets them ends in
`invalidOpcode`. -/
theorem illegalEncodingsTakeVectorSix : Obligations.IllegalEncodingsTakeVectorSix := by
  refine ⟨fun d m rest => ⟨fun h => ?_, fun h => ?_, fun h => ?_, fun h => ?_, decode_farReg rest,
    decode_tableReg rest, decode_noSreg rest⟩, fun s bs hgo hpg hd hm hn hc => ?_⟩
  · exact ⟨decode_noMove rfl (by decide) (fun r => (moveOf_noCr h r).1) (by simp),
      decode_noMove rfl (by decide) (fun r => (moveOf_noCr h r).2) (by simp)⟩
  · exact ⟨decode_noMove rfl (by decide) (fun r => by rw [h]; rfl) (by simp),
      decode_noMove rfl (by decide) (fun r => by rw [h]; rfl) (by simp)⟩
  · exact ⟨decode_noMove rfl (by decide) (fun r => (moveOf_noDr h r).1) (by simp),
      decode_noMove rfl (by decide) (fun r => (moveOf_noDr h r).2) (by simp)⟩
  · exact ⟨decode_noMove rfl (by decide) (fun r => (moveOf_noTr h r).1) (by simp),
      decode_noMove rfl (by decide) (fun r => (moveOf_noTr h r).2) (by simp)⟩
  · have hf : fetchInstr s.pastBoundary = invalidOpcode s.pastBoundary := fetchInstr_invalid hpg hd hm hn hc
    have hstale : s.pastBoundary.prefetchStale = s.prefetchStale := rfl
    constructor <;> intro hs <;>
      simp only [step, goesOn_boundary hgo, fetchStep, hf, invalidOpcode, hstale, hs, Bool.false_eq_true, if_false,
        if_true]

end Sys2Proof.Machine
end

section
/-! PROOFS. Settles O10, O12, O13 and O14: bytes in memory (`20_memory.md` R92, R100, `70_reset_and_hazards.md` R343),
translation (`20_memory.md` R90, R99) and operands (`30_encoding.md` R123 to R126). -/

namespace Sys2Proof.Machine

/-! ## Bytes in memory -/

/-- Settles O10: a store to RAM leaves `Memory.store`, whose bytes are read back (`Memory.read_store_byte`,
`Memory.load_store`). -/
theorem storeThenReadIsLittleEndian : Obligations.StoreThenReadIsLittleEndian := by
  refine ⟨fun s cpl k n a v hpg hn hr => ⟨{ s with mem := s.mem.store n a v }, writeLin_run hpg hr, ?_, ?_, ?_⟩,
    fun s p b => ⟨fun h => ?_, fun h => ?_⟩⟩
  · exact fun i hi => Memory.read_store_byte s.mem n a v i hi hn
  · exact fun x hx => Memory.read_store_outside s.mem n a v x hx
  · exact readLin_run (s := { s with mem := s.mem.store n a v }) hpg (Memory.load_store s.mem n a v hn)
  · simp only [writePhys, h]
  · simp only [writePhys, h]

/-! ## Translation -/

/-- With paging on, the one valid entry of the page translates. -/
theorem translate_hit {s : State} {lin : Dword} {e : TlbEntry} (k : Config.Access) (cpl : Level)
    (hpg : s.cr0.pg = true) (h : s.tlbHits (pageOf lin) = [e]) :
    translate lin k cpl s = translateHit lin k cpl e s := by
  simp only [translate, bind_run, asks_run, hpg, if_true, h]

/-- Where no entry or several hold the page, the walk answers (log 33). -/
theorem translate_miss {s : State} {lin : Dword} (k : Config.Access) (cpl : Level) (hpg : s.cr0.pg = true)
    (h : ∀ e, s.tlbHits (pageOf lin) ≠ [e]) : translate lin k cpl s = translateMiss lin k cpl s := by
  simp only [translate, bind_run, asks_run, hpg, if_true]
  cases hl : s.tlbHits (pageOf lin) with
  | nil => rfl
  | cons e l =>
    cases l with
    | nil => exact absurd hl (h e)
    | cons e' l => rfl

/-- A supervisor page refuses CPL 3, and no other level (`20_memory.md` R99). -/
theorem user_allowed {cpl : Level} {u : Bool} (h : cpl ≠ 3 ∨ u = true) : (cpl = 3 && !u) = false := by
  simpa [imp_iff_not_or] using h

/-- What the open permission check answers for a TLB hit takes effect (`41_tlb_test.md` R194). -/
theorem translateHit_allowed {s : State} {lin : Dword} {k : Config.Access} {cpl : Level} {e : TlbEntry}
    (h : cpl ≠ 3 ∨ e.u = true) :
    translateHit lin k cpl e s =
      match Config.tlbHitCheck s.free e.d e.u e.w k cpl with
      | none => .ok (e.phys ++ lin.extractLsb' 0 12) { s with free := s.free + 1 }
      | some err => .error (.exn (pageFault lin err)) { s with free := s.free + 1 } := by
  simp only [translateHit, user_allowed h, Bool.false_eq_true, if_false, bind_run, drawIndex_run]
  cases Config.tlbHitCheck s.free e.d e.u e.w k cpl <;> rfl

theorem translateHit_supervisor {s : State} {lin : Dword} {k : Config.Access} {cpl : Level} {e : TlbEntry}
    (hc : cpl = 3) (hu : e.u = false) :
    translateHit lin k cpl e s =
      .error (.exn (pageFault lin (Config.freeWord s.free))) { s with free := s.free + 1 } := by
  simp only [translateHit, hc, hu, decide_true, Bool.not_false, Bool.and_true, if_true, bind_run, draw_run, raise_run]

/-- A page fault that the walk answers is taken. -/
theorem translateMiss_fault {s : State} {lin err : Dword} {k : Config.Access} {cpl : Level}
    (hw : Config.pageWalk s.free lin k cpl = .fault err) :
    translateMiss lin k cpl s = .error (.exn (pageFault lin err)) { s with free := s.free + 1 } := by
  simp only [translateMiss, bind_run, drawIndex_run, hw, raise_run]

section
variable {s : State} {lin : Dword} {k : Config.Access} {cpl : Level} {frame : PageNo} {d u w : Bool}
  {fill : Option (BitVec 2)} {reads : List (Dword × Nat)}
  (hw : Config.pageWalk s.free lin k cpl = .page frame d u w fill reads)
include hw

/-- A supervisor page that the walk answers refuses CPL 3 and fills nothing. -/
theorem translateMiss_supervisor (hc : cpl = 3) (hu : u = false) :
    translateMiss lin k cpl s =
      .error (.exn (pageFault lin (Config.freeWord (s.free + 1))))
        { ({ s with free := s.free + 1 } : State).noteReads reads with free := s.free + 2 } := by
  subst hc hu
  simp only [translateMiss, bind_run, drawIndex_run, hw, update_run, decide_true, Bool.not_false, Bool.and_true,
    if_true,
    draw_run, raise_run, noteReads_free]

/-- The frame that the walk answers translates, and the block it names takes the translation (`10_state.md` R59). -/
theorem translateMiss_page (h : cpl ≠ 3 ∨ u = true) :
    translateMiss lin k cpl s = .ok (frame ++ inPage lin)
      ((({ s with free := s.free + 1 } : State).noteReads reads).fillTlb fill (pageOf lin) frame d u w) := by
  simp only [translateMiss, bind_run, drawIndex_run, hw, update_run, user_allowed h, Bool.false_eq_true, if_false,
    pure_run]

end

/-- A fill changes nothing but the TLB, and that by the TLB and the parameters alone. -/
theorem fillTlb_eq {s t : State} (htlb : t.tlb = s.tlb) (hparams : t.params = s.params) (fill : Option (BitVec 2))
    (page frame : PageNo) (d u w : Bool) :
    t.fillTlb fill page frame d u w = { t with tlb := (s.fillTlb fill page frame d u w).tlb } := by
  cases fill with
  | none => rw [State.fillTlb, State.fillTlb, ← htlb]
  | some b => simp only [State.fillTlb, State.setTlb, htlb, hparams]

/-- Settles O12: without paging by `translate_off`, which the invariant gives in real-address mode; with it by the
entry that holds the page (`translate_hit`) or by the walk (`translate_miss`). -/
theorem linearAddressesTranslate : Obligations.LinearAddressesTranslate := by
  refine ⟨fun s lin k cpl h => ?_, fun s lin k cpl e hpg hh => ⟨fun h => ?_, fun hc hu => ?_⟩,
    fun s lin k cpl hpg => ?_⟩
  · rcases h with hpg | ⟨hinv, hm⟩
    · exact translate_off lin k cpl hpg
    · exact translate_off lin k cpl (hinv.mode.1 hm).1
  · exact (translate_hit k cpl hpg hh).trans (translateHit_allowed h)
  · exact (translate_hit k cpl hpg hh).trans (translateHit_supervisor hc hu)
  · dsimp only
    intro hh
    have hmiss := translate_miss k cpl hpg hh
    cases hw : Config.pageWalk s.free lin k cpl with
    | fault err => exact hmiss.trans (translateMiss_fault hw)
    | page frame d u w fill reads =>
      refine ⟨fun h => hmiss.trans (translateMiss_supervisor hw h.1 h.2), fun h => ?_⟩
      have htlb : (({ s with free := s.free + 1 } : State).noteReads reads).tlb = s.tlb := noteReads_tlb _ _
      have hparams : (({ s with free := s.free + 1 } : State).noteReads reads).params = s.params :=
        noteReads_params _ _
      rw [hmiss, translateMiss_page hw h, fillTlb_eq htlb hparams]
      cases fill <;> rfl

/-! ## Operands -/

/-- Settles O13: each operand is read by `readMem` (`readMem_run`), and the checks of an access come first. -/
theorem operandsReadTheirBytes : Obligations.OperandsReadTheirBytes := by
  refine ⟨fun s r => rfl, fun s m v h => ?_, fun s m off sel => ⟨fun h1 h2 => ?_, fun h1 h2 => ?_⟩,
    fun s r off n h8 hn => ?_⟩
  · simp only [readRm16, bind_run, readMem_run h, pure_run]
  · have h2' : (s.sawOperand m 0 2).operandIs m 2 2 sel := sawOperand_operandIs h2
    simp only [readFarPtr, sizeBytes, bind_run, readMem_run h1, readMem_run h2', pure_run]
  · have h2' : (s.sawOperand m 0 4).operandIs m 4 2 sel := sawOperand_operandIs h2
    simp only [readFarPtr, sizeBytes, bind_run, readMem_run h1, readMem_run h2', pure_run]
  · have hc : checkAccess r off n s = .error (.refused .pastSegmentEnd) s := by simp [checkAccess, h8, pastEnd, hn]
    simp only [readData, bind_run, hc]

end Sys2Proof.Machine
end

section
/-! PROOFS. Settles O14: effective addresses as integers (`30_encoding.md` R125). -/

namespace Sys2Proof.Machine

/-! ## Doublewords as integers modulo 2^32 -/

theorem eq_ofInt_toNat (v : Dword) : v = BitVec.ofInt 32 v.toNat := by
  rw [BitVec.ofInt_natCast, BitVec.ofNat_toNat, BitVec.setWidth_eq]

theorem eq_ofInt_add {v w : Dword} {i j : Int} (hv : v = BitVec.ofInt 32 i) (hw : w = BitVec.ofInt 32 j) :
    v + w = BitVec.ofInt 32 (i + j) := by
  rw [hv, hw, BitVec.ofInt_add]

theorem eq_ofInt_shiftLeft {v : Dword} {i : Int} (k : Nat) (hv : v = BitVec.ofInt 32 i) :
    v <<< k = BitVec.ofInt 32 (2 ^ k * i) := by
  have hpow : BitVec.twoPow 32 k = BitVec.ofInt 32 (2 ^ k) := by
    have hcast : ((2 : Int) ^ k) = ((2 ^ k : Nat) : Int) := by push_cast; rfl
    rw [hcast, BitVec.ofInt_natCast]
    exact BitVec.eq_of_toNat_eq (BitVec.toNat_twoPow 32 k)
  rw [hv, BitVec.shiftLeft_eq_mul_twoPow, BitVec.mul_comm, hpow, BitVec.ofInt_mul]

theorem toNat_of_eq_ofInt {v : Dword} {i : Int} (hv : v = BitVec.ofInt 32 i) : (v.toNat : Int) = i % 2 ^ 32 := by
  rw [hv, BitVec.toNat_ofInt]
  omega

/-- A 16-bit address size takes the low 16 bits of the sum. -/
theorem zext16_toNat_of_eq_ofInt {v : Dword} {i : Int} (hv : v = BitVec.ofInt 32 i) :
    ((zext16 v).toNat : Int) = i % 2 ^ 16 := by
  have h := toNat_of_eq_ofInt hv
  rw [zext16_toNat]
  omega

theorem word_toNat (d : Word) : ((d.setWidth 32 : Dword).toNat : Int) = d.toNat := by
  rw [BitVec.toNat_setWidth_of_le (by decide)]

/-- Settles O14: each part of an address is an integer modulo 2^32, and so is their sum (`eq_ofInt_add`). -/
theorem effectiveAddresses : Obligations.EffectiveAddresses := by
  intro g n base short long index at'
  have hn : ∀ r, g.get r = BitVec.ofInt 32 (n r) := fun r => eq_ofInt_toNat _
  have hbase : ∀ b, base16 g b = BitVec.ofInt 32 (base b) := fun b => by
    cases b with
    | bxSi => exact eq_ofInt_add (hn .ebx) (hn .esi)
    | bxDi => exact eq_ofInt_add (hn .ebx) (hn .edi)
    | bpSi => exact eq_ofInt_add (hn .ebp) (hn .esi)
    | bpDi => exact eq_ofInt_add (hn .ebp) (hn .edi)
    | si => exact hn .esi
    | di => exact hn .edi
    | bp => exact hn .ebp
    | bx => exact hn .ebx
  have hshort : ∀ d, disp16 d = BitVec.ofInt 32 (short d) := fun d => by
    cases d with
    | none => rfl
    | d8 x => rfl
    | d16 x => exact (eq_ofInt_toNat _).trans (congrArg (BitVec.ofInt 32) (word_toNat x))
  have hlong : ∀ d, disp32 d = BitVec.ofInt 32 (long d) := fun d => by
    cases d with
    | none => rfl
    | d8 x => rfl
    | d32 x => exact eq_ofInt_toNat x
  have hindex : ∀ sc x, scaledIndex g sc x = BitVec.ofInt 32 (index sc x) := fun sc x => by
    cases x with
    | none => cases sc <;> rfl
    | some r =>
      cases sc with
      | x1 => exact hn r
      | x2 => exact eq_ofInt_shiftLeft 1 (hn r)
      | x4 => exact eq_ofInt_shiftLeft 2 (hn r)
      | x8 => exact eq_ofInt_shiftLeft 3 (hn r)
  have hseg : ∀ b, (if ssBase b then SReg.ss else .ds) = if b = .esp ∨ b = .ebp then .ss else .ds := fun b => by
    cases b <;> rfl
  refine ⟨fun b d => ⟨zext16_toNat_of_eq_ofInt (eq_ofInt_add (hbase b) (hshort d)), ?_, fun _ => rfl⟩,
    fun d => ⟨word_toNat d, rfl, fun _ => rfl⟩,
    fun b d => ⟨toNat_of_eq_ofInt (eq_ofInt_add (hn b) (hlong d)), hseg b, fun _ => rfl⟩,
    fun d => ⟨rfl, rfl, fun _ => rfl⟩,
    fun sc x b d => ⟨toNat_of_eq_ofInt (eq_ofInt_add (eq_ofInt_add (hn b) (hindex sc x)) (hlong d)), hseg b,
      fun _ => rfl⟩,
    fun sc x d => ⟨toNat_of_eq_ofInt (eq_ofInt_add (hindex sc x) (eq_ofInt_toNat d)), rfl, fun _ => rfl⟩⟩
  cases b <;> rfl

end Sys2Proof.Machine
end

section
/-! PROOFS. Settles O15, O16, O17 and O25: the transfers (`40_init_mode_switch.md` R152 to R155) where they complete,
where a push crosses the end of the stack (`20_memory.md` R87), where the target lies beyond the segment, and while the
prefetch queue may be stale (`20_memory.md` R104). -/

namespace Sys2Proof.Machine

theorem stale_call {s : State} (hs : s.prefetchStale = false) : (s.prefetchStale && !false) = false := by simp [hs]

theorem stale_jump (s : State) : (s.prefetchStale && !true) = false := by simp

/-! ## Near transfers -/

theorem exec_jmpRel8_next {s : State} (sz : OpSize) (b : Byte)
    (ht : s.like8086 = true → (nearTarget s.next (b.signExtend 32) sz).toNat ≤ 0xFFFF) :
    exec (.jmpRel8 sz b) s = .next (complete s false
      { s with eip := nearTarget s.next (b.signExtend 32) sz, prefetchStale := false }) :=
  runInstr_ok (stale_jump s) (nearJump_run sz _ ht)

theorem exec_jmpRel_next {s : State} (d : Rel)
    (ht : s.like8086 = true → (nearTarget s.next (relDisp d) (relSize d)).toNat ≤ 0xFFFF) :
    exec (.jmpRel d) s = .next (complete s false
      { s with eip := nearTarget s.next (relDisp d) (relSize d), prefetchStale := false }) :=
  runInstr_ok (stale_jump s) (nearJump_run _ _ ht)

theorem exec_callRel_next {s : State} (d : Rel) (hs : s.prefetchStale = false)
    (hp : s.canPush (sizeBytes (relSize d)))
    (ht : s.like8086 = true → (nearTarget s.next (relDisp d) (relSize d)).toNat ≤ 0xFFFF) :
    exec (.callRel d) s = .next (complete s false
      { s.pushed false (sizeBytes (relSize d)) s.next with eip := nearTarget s.next (relDisp d) (relSize d) }) :=
  runInstr_ok (stale_call hs) (nearCall_run _ _ hp ht)

/-- A near call whose push crosses the end of the stack. -/
theorem exec_callRel_crosses {s : State} (d : Rel) (hs : s.prefetchStale = false)
    (h : s.pushCrosses (sizeBytes (relSize d)) = true) :
    exec (.callRel d) s =
      if s.like8086 then .refused .pastSegmentEnd
      else takeFault (Exn.plain 12 (some (Config.freeWord s.free))) s { s with free := s.free + 1 } := by
  cases h8 : s.like8086 with
  | true => exact runInstr_refused (stale_call hs) (nearCall_past _ _ h8 h)
  | false => exact runInstr_raise (stale_call hs) (nearCall_crosses _ _ h8 h)

/-- Settles O15: jumps and calls complete where their target lies in the segment and their push fits, and a push that
crosses the end of the stack is one with SP below its size (`pushCrosses_iff`). -/
theorem nearTransfers : Obligations.NearTransfers := by
  intro s b w d
  refine ⟨exec_jmpRel8_next .w16 b fun _ => zext16_le _, exec_jmpRel_next (.rel16 w) fun _ => zext16_le _,
    exec_jmpRel8_next .w32 b, exec_jmpRel_next (.rel32 d),
    fun hs hp => exec_callRel_next (.rel16 w) hs hp fun _ => zext16_le _,
    fun hs hp ht => exec_callRel_next (.rel32 d) hs hp ht, fun hs hpos => ⟨fun hlt => ?_, fun hlt => ?_⟩⟩
  · exact exec_callRel_crosses (.rel16 w) hs ((pushCrosses_iff s 2 (by decide)).2 ⟨hpos, hlt⟩)
  · exact exec_callRel_crosses (.rel32 d) hs ((pushCrosses_iff s 4 (by decide)).2 ⟨hpos, hlt⟩)

/-! ## Far transfers -/

theorem exec_callPtr_refused {s : State} (p : FarPtr) (h8 : s.like8086 = true) (hs : s.prefetchStale = false)
    (h : s.pushCrosses (sizeBytes (farPtrSize p)) = true ∨ (s.canPush (sizeBytes (farPtrSize p)) ∧
      (s.pushed false (sizeBytes (farPtrSize p)) (s.seg.cs.selector.setWidth 32)).pushCrosses
        (sizeBytes (farPtrSize p)) = true)) :
    exec (.callPtr p) s = .refused .pastSegmentEnd := by
  obtain ⟨t, ht⟩ := farCall_past (farPtrSize p) (farPtrSelector p) (farPtrOffset p) h8 h
  exact runInstr_refused (stale_call hs) ht

/-- A far call through memory calls in the state that reading its pointer leaves. -/
theorem farCallMem_run {s t : State} {sz : OpSize} {m : MemOp} {off : Dword} {sel : Selector}
    (hread : readFarPtr sz m s = .ok (off, sel) t) : farCallMem sz m s = farCall sz sel off t := by
  simp only [farCallMem, bind_run, hread]

theorem farJumpMem_run {s t : State} {sz : OpSize} {m : MemOp} {off : Dword} {sel : Selector}
    (hread : readFarPtr sz m s = .ok (off, sel) t) : farJumpMem sz m s = farJump sel off t := by
  simp only [farJumpMem, bind_run, hread]

theorem readFarPtr_like8086 {s t : State} {sz : OpSize} {m : MemOp} {p : Dword × Selector}
    (hread : readFarPtr sz m s = .ok p t) : t.like8086 = s.like8086 :=
  (readFarPtr_reads sz m).stores.stacks.like8086 hread

theorem readFarPtr_seg {s t : State} {sz : OpSize} {m : MemOp} {p : Dword × Selector}
    (hread : readFarPtr sz m s = .ok p t) : t.seg = s.seg :=
  (readFarPtr_reads sz m).stores.stacks.seg hread

theorem readFarPtr_next {s t : State} {sz : OpSize} {m : MemOp} {p : Dword × Selector}
    (hread : readFarPtr sz m s = .ok p t) : t.next = s.next :=
  (readFarPtr_reads sz m).stores.stacks.next hread

theorem exec_callMem_refused {s t : State} {sz : OpSize} {m : MemOp} {off : Dword} {sel : Selector}
    (h8 : s.like8086 = true) (hs : s.prefetchStale = false) (hread : readFarPtr sz m s = .ok (off, sel) t)
    (h : t.pushCrosses (sizeBytes sz) = true ∨ (t.canPush (sizeBytes sz) ∧
      (t.pushed false (sizeBytes sz) (t.seg.cs.selector.setWidth 32)).pushCrosses (sizeBytes sz) = true)) :
    exec (.callMem sz m) s = .refused .pastSegmentEnd := by
  obtain ⟨u, hu⟩ := farCall_past sz sel off ((readFarPtr_like8086 hread).trans h8) h
  exact runInstr_refused (stale_call hs) ((farCallMem_run hread).trans hu)

/-- The first or the second of two pushes crosses the end of the stack, by the stack pointer. -/
theorem crosses_of_sp {s : State} {n : Nat} (v : Dword) (hn : n ≤ 4)
    (h : (0 < s.sp.toNat ∧ s.sp.toNat < n) ∨ (n < s.sp.toNat ∧ s.sp.toNat < 2 * n ∧ s.canPush n)) :
    s.pushCrosses n = true ∨ (s.canPush n ∧ (s.pushed false n v).pushCrosses n = true) := by
  rcases h with h | ⟨h1, h2, hp⟩
  · exact .inl ((pushCrosses_iff s n hn).2 h)
  · exact .inr ⟨hp, pushed_crosses v hn h1 h2⟩

theorem sizeBytes_le (sz : OpSize) : sizeBytes sz ≤ 4 := by cases sz <;> decide

/-- Settles O16: the far transfers complete as `exec_jmpPtr`, `exec_jmpMem`, `exec_callPtr` and `exec_callMem` say, and
calls whose pushes cross the end of the stack are refused (`crosses_of_sp`). -/
theorem farTransfersAsThe8086 : Obligations.FarTransfersAsThe8086 := by
  intro s sz m w off sel h8
  refine ⟨exec_jmpPtr (.ptr16 w sel) h8 (word_offset_le w), fun ho => exec_jmpPtr (.ptr32 off sel) h8 ho,
    fun t hread ho => ?_, fun hs hp => exec_callPtr (.ptr16 w sel) h8 hs (word_offset_le w) hp,
    fun hs hp ho => exec_callPtr (.ptr32 off sel) h8 hs ho hp, fun t hs hread hp ho => ?_,
    fun hs hc => exec_callPtr_refused (.ptr16 w sel) h8 hs (crosses_of_sp _ (sizeBytes_le _) hc),
    fun hs hc => exec_callPtr_refused (.ptr32 off sel) h8 hs (crosses_of_sp _ (sizeBytes_le _) hc),
    fun t hs hread hc => exec_callMem_refused h8 hs hread (crosses_of_sp _ (sizeBytes_le sz) hc)⟩
  · rw [exec_jmpMem sz m h8 ho hread, jumpEnd, readFarPtr_seg hread]
    rfl
  · rw [← readFarPtr_seg hread, ← readFarPtr_next hread] at hp ⊢
    exact exec_callMem sz m h8 hs ho hread hp

/-! ## Targets beyond the segment -/

theorem nearJump_raise {s : State} {sz : OpSize} {disp : Dword} (h8 : s.like8086 = true)
    (ht : 0xFFFF < (nearTarget s.next disp sz).toNat) :
    nearJump sz disp s = .error (.exn (generalProtection 0)) s := by
  simp only [nearJump, bind_run, asks_run, checkTarget_raise h8 ht]

theorem nearCall_raise {s : State} {sz : OpSize} {disp : Dword} (h8 : s.like8086 = true)
    (ht : 0xFFFF < (nearTarget s.next disp sz).toNat) (hp : s.canPush (sizeBytes sz)) :
    nearCall sz disp s = .error (.exn (generalProtection 0)) (s.pushed false (sizeBytes sz) s.next) := by
  have h8' : (s.pushed false (sizeBytes sz) s.next).like8086 = true := (pushed_like _ _ _ _).trans h8
  simp only [nearCall, bind_run, asks_run, push_run false s.next hp, checkTarget_raise h8' ht]

theorem farJump_raise {s : State} {off : Dword} (sel : Selector) (h8 : s.like8086 = true) (ho : 0xFFFF < off.toNat) :
    farJump sel off s = .error (.exn (generalProtection 0)) s := by
  simp only [farJump, farJumpTo, bind_run, asks_run, h8, if_true, checkTarget_raise h8 ho]

theorem iretReal_raise {s : State} {sz : OpSize} {off sel fl : Dword} (hm : s.mode = .real) (ho : 0xFFFF < off.toNat)
    (hp : State.canPopAll (sizeBytes sz) [off, sel, fl] s) :
    iretBody sz s = .error (.exn (generalProtection 0)) (State.poppedAll (sizeBytes sz) 3 s) := by
  have h8 : (State.poppedAll (sizeBytes sz) 3 s).like8086 = true := like8086_mode.2 (.inl hm)
  obtain ⟨h1, h2, h3, -⟩ := hp
  simp only [iretBody, iretReal, bind_run, asks_run, hm, pop_run h1, pop_run h2, pop_run h3]
  have := checkTarget_raise h8 ho
  simp only [State.poppedAll] at this ⊢
  rw [this]

/-- Settles O17: the check of the target raises general protection, and what a call has pushed or an IRET popped before
it is rolled back (`takeFault_free`). -/
theorem targetsBeyondSegmentFault : Obligations.TargetsBeyondSegmentFault := by
  intro s b d off fl sel m h8
  refine ⟨fun ht => runInstr_raise (stale_jump s) (nearJump_raise (sz := .w32) h8 ht),
    fun ht => runInstr_raise (stale_jump s) (nearJump_raise (sz := .w32) h8 ht), fun ht hs hp => ?_,
    fun ho => runInstr_raise (stale_jump s) (farJump_raise sel h8 ho), fun ho hs hp => ?_, fun t ho hread => ?_,
    fun t ho hs hread hp => ?_, fun ho hm hs hp => ?_⟩
  · exact (runInstr_raise (stale_call hs) (nearCall_raise (sz := .w32) h8 ht hp)).trans
      (takeFault_free _ _ _ _ (pushed_free _ _ _ _))
  · exact (runInstr_raise (stale_call hs) (farCall_raise .w32 sel off h8 ho hp)).trans
      (takeFault_free _ _ _ _ (pushedAll_free _ _ _ _))
  · exact runInstr_raise (stale_jump s)
      ((farJumpMem_run hread).trans (farJump_raise sel ((readFarPtr_like8086 hread).trans h8) ho))
  · rw [← readFarPtr_seg hread, ← readFarPtr_next hread] at hp
    exact (runInstr_raise (stale_call hs) ((farCallMem_run hread).trans
      (farCall_raise .w32 sel off ((readFarPtr_like8086 hread).trans h8) ho hp))).trans
      (takeFault_free _ _ _ _ (pushedAll_free _ _ _ _))
  · exact (runInstr_raise (stale_call hs) (iretReal_raise (sz := .w32) hm ho hp)).trans
      (takeFault_free _ _ _ _ rfl)

/-! ## While the prefetch queue may be stale -/

/-- Every instruction but a JMP is refused. -/
theorem exec_stale {i : Instr} {s : State} (hs : s.prefetchStale = true) (hi : isJump i = false) :
    exec i s = .refused .notJumpAfterPe := by
  cases i with
  | jmpRel8 | jmpRel | jmpPtr | jmpMem => cases hi
  | int3 => exact if_pos hs
  | _ => exact runInstr_stale hs

/-- The bodies of the JMPs. -/
theorem exec_jump {i : Instr} (hi : isJump i = true) :
    ∃ body : M Bool, (∀ s, exec i s = runInstr true body s) ∧
      ∀ s rf t, body s = .ok rf t → t.prefetchStale = false := by
  have hfar : ∀ sel off s rf t, farJump sel off s = .ok rf t → t.prefetchStale = false := by
    intro sel off s rf t h
    obtain ⟨_, u, -, h⟩ := bind_ok h
    cases h
    rfl
  have hnear : ∀ sz disp s rf t, nearJump sz disp s = .ok rf t → t.prefetchStale = false := by
    intro sz disp s rf t h
    obtain ⟨_, _, -, h⟩ := bind_ok h
    obtain ⟨_, _, -, h⟩ := bind_ok h
    cases h
    rfl
  cases i with
  | jmpRel8 sz d => exact ⟨_, fun _ => rfl, hnear _ _⟩
  | jmpRel d => exact ⟨_, fun _ => rfl, hnear _ _⟩
  | jmpPtr p => exact ⟨_, fun _ => rfl, hfar _ _⟩
  | jmpMem sz m =>
    refine ⟨_, fun _ => rfl, fun s rf t h => ?_⟩
    obtain ⟨p, u, -, h⟩ := bind_ok h
    exact hfar _ _ _ _ _ h
  | _ => cases hi

/-- Settles O25: only a JMP is not refused (`exec_stale`), and one that completes has flushed the queue
(`exec_jump`). -/
theorem onlyJumpsRunWhileStale : Obligations.OnlyJumpsRunWhileStale := by
  refine ⟨fun s v h0 h1 => by simp [State.writeCr0, h0, h1], fun i s hs hi => exec_stale hs hi,
    fun s b => ⟨_, exec_jmpRel8 .w16 b (zext16_le _), rfl, rfl⟩, fun i s t hi hs h => ?_⟩
  obtain ⟨body, hbody, hflush⟩ := exec_jump hi
  obtain ⟨-, ⟨rf, u, hok, rfl⟩ | ⟨e, u, -, hf⟩⟩ := runInstr_next ((hbody s).symm.trans h)
  · exact .inl (hflush s rf u hok)
  · exact .inr ⟨e, u, hf⟩

end Sys2Proof.Machine
end

section
/-! PROOFS. Settles O18: far transfers and segment loads in protected mode (`40_init_mode_switch.md` R154, R155, R157)
take what the open interfaces answer (`92_eei_decisions.md` D23). -/

namespace Sys2Proof.Machine

/-! ## Instructions that end after a computation -/

/-- How an instruction that began in `s` ends after a computation that answers its final state. -/
def ended (s : State) : EStateM.Result Stop State State → Host.Outcome State Fault Refusal
  | .ok t _ => .next t
  | .error (.exn e) t => takeFault e s t
  | .error (.fault f) _ => .fault f
  | .error (.refused r) _ => .refused r

/-- An instruction whose body is the computation `x` run from `v` and then the change `g`. -/
theorem runInstr_ended {α : Type} {isJmp rf : Bool} {body : M Bool} {x : M α} {s v : State} {g : State → State}
    (h : (s.prefetchStale && !isJmp) = false)
    (hb : body s = (do let _ ← x; update g; pure rf) v) :
    runInstr isJmp body s = ended s ((do let _ ← x; asks fun t => complete s rf (g t)) v) := by
  rw [runInstr_run body h, hb]
  simp only [bind_run, update_run, pure_run, asks_run]
  cases x v with
  | ok a t => rfl
  | error e t => cases e <;> rfl

/-! ## Far jumps and calls -/

section
variable {u : State} (h8 : u.like8086 = false)
include h8

/-- The state in which an interface is asked. -/
theorem drawn_level : ({ u with free := u.free + 1 } : State).level = u.cpl :=
  prot_level (s := { u with free := u.free + 1 }) h8

theorem farJump_prot (sel : Selector) (off : Dword) :
    farJump sel off u =
      (do let sw ← farJumpOutcome (Config.farJump u.free sel off u.cpl)
          update fun s => { s with prefetchStale := false }
          pure sw) { u with free := u.free + 1 } := by
  simp only [farJump, farJumpTo, bind_run, asks_run, h8, Bool.false_eq_true, if_false, drawIndex_run, drawn_level h8]

theorem farCall_prot (sz : OpSize) (sel : Selector) (off : Dword) :
    farCall sz sel off u =
      farCallOutcome (Config.farCall u.free sel off u.cpl) { u with free := u.free + 1 } := by
  simp only [farCall, bind_run, asks_run, h8, Bool.false_eq_true, if_false, drawIndex_run, drawn_level h8]

end

/-- `u` is `s`, or what reading an operand leaves of it. -/
def ReadFrom (s u : State) : Prop := ∃ f t tr q, u = { s with free := f, tlb := t, traps := tr, quiet := q }

theorem ReadFrom.refl (s : State) : ReadFrom s s := ⟨_, _, _, _, rfl⟩

theorem ReadFrom.cpl {s u : State} (h : ReadFrom s u) : u.cpl = s.cpl := by
  obtain ⟨_, _, _, _, rfl⟩ := h
  rfl

theorem ReadFrom.like8086 {s u : State} (h : ReadFrom s u) : u.like8086 = s.like8086 := by
  obtain ⟨_, _, _, _, rfl⟩ := h
  rfl

theorem ReadFrom.drawn {s u : State} (h : ReadFrom s u) : ReadFrom s { u with free := u.free + 1 } := by
  obtain ⟨_, _, _, _, rfl⟩ := h
  exact ⟨_, _, _, _, rfl⟩

/-- A far JMP, direct or through memory, jumps in the state `u` that its operand leaves. -/
theorem exec_farJump {i : Instr} {s u : State} {sz : OpSize} {m : MemOp} {w : Word} {off : Dword} {sel : Selector}
    (hi : (i = .jmpPtr (.ptr16 w sel) ∧ off = w.setWidth 32 ∧ u = s) ∨ (i = .jmpPtr (.ptr32 off sel) ∧ u = s) ∨
      (i = .jmpMem sz m ∧ readFarPtr sz m s = .ok (off, sel) u)) :
    ReadFrom s u ∧ ∃ body, exec i s = runInstr true body s ∧ body s = farJump sel off u := by
  rcases hi with ⟨rfl, rfl, rfl⟩ | ⟨rfl, rfl⟩ | ⟨rfl, hread⟩
  · exact ⟨.refl _, _, rfl, rfl⟩
  · exact ⟨.refl _, _, rfl, rfl⟩
  · exact ⟨readFarPtr_reads sz m _ _ _ hread, _, rfl, farJumpMem_run hread⟩

/-- A far CALL, direct or through memory, calls in the state `u` that its operand leaves. -/
theorem exec_farCall {i : Instr} {s u : State} {sz : OpSize} {m : MemOp} {w : Word} {off : Dword} {sel : Selector}
    (hi : (i = .callPtr (.ptr16 w sel) ∧ off = w.setWidth 32 ∧ u = s) ∨ (i = .callPtr (.ptr32 off sel) ∧ u = s) ∨
      (i = .callMem sz m ∧ readFarPtr sz m s = .ok (off, sel) u)) :
    ReadFrom s u ∧ ∃ body sz', exec i s = runInstr false body s ∧ body s = farCall sz' sel off u := by
  rcases hi with ⟨rfl, rfl, rfl⟩ | ⟨rfl, rfl⟩ | ⟨rfl, hread⟩
  · exact ⟨.refl _, _, _, rfl, rfl⟩
  · exact ⟨.refl _, _, _, rfl, rfl⟩
  · exact ⟨readFarPtr_reads sz m _ _ _ hread, _, _, rfl, farCallMem_run hread⟩

/-- What the answer of a far JMP does. -/
theorem farJumpOutcome_code (c : Config.FarCode) (v : State) :
    (do let sw ← farJumpOutcome (.code c)
        update fun s => { s with prefetchStale := false }
        pure sw) v =
      (do let _ ← storeBytes c.stores
          update fun t => { t.farToCode c with prefetchStale := false }
          pure false) (v.noteReads c.reads) := by
  simp only [farJumpOutcome, farTables, bind_run, update_run, pure_run]
  cases storeBytes c.stores (v.noteReads c.reads) <;> rfl

theorem farJumpOutcome_task (k : Config.TaskSwitch) (v : State) :
    (do let sw ← farJumpOutcome (.task k)
        update fun s => { s with prefetchStale := false }
        pure sw) v =
      (do let _ ← instrTaskSwitch k
          update fun t => { t with prefetchStale := false }
          pure true) v := by
  simp only [farJumpOutcome, bind_run, update_run, pure_run]
  cases instrTaskSwitch k v <;> rfl

/-- The pushes of a far CALL within the task that began in `s` (log 22): on the stack of the procedure, if it has one of
its own. -/
def callPushes (s : State) (c : Config.FarCode) (size : OpSize) (inner : Option (SegReg × Dword)) (args : List Dword) :
    M Unit := do
  update fun t => t.toCallStack c inner
  pushList (sizeBytes size) (s.callFrame inner args)

theorem callFrame_congr {s t : State} (hseg : t.seg = s.seg) (hgpr : t.gpr = s.gpr) (hnext : t.next = s.next)
    (inner : Option (SegReg × Dword)) (args : List Dword) : t.callFrame inner args = s.callFrame inner args := by
  simp only [State.callFrame, hseg, hgpr, hnext]

/-- The tables that the processor reads and writes do not change what a far CALL pushes. -/
theorem callFrame_tables {s u v : State} {c : Config.FarCode} (hu : ReadFrom s u)
    (h : storeBytes c.stores (u.noteReads c.reads) = .ok () v) (inner : Option (SegReg × Dword)) (args : List Dword) :
    v.callFrame inner args = s.callFrame inner args := by
  obtain ⟨-, hseg, hgpr, -⟩ := stores_flags h
  have hnext := (storeBytes_stores c.stores).stacks.next h
  obtain ⟨_, _, _, _, rfl⟩ := hu
  exact callFrame_congr (hseg.trans (noteReads_seg _ _)) (hgpr.trans (noteReads_gpr _ _))
    (hnext.trans (noteReads_next _ _)) inner args

/-- What the answer of a far CALL does; the frame is that of the state `s` in which the instruction began. -/
theorem farCallOutcome_code {s v : State} (c : Config.FarCode) (size : OpSize) (inner : Option (SegReg × Dword))
    (args : List Dword) (hv : ReadFrom s v) :
    farCallOutcome (.code c size inner args) v =
      (do let _ ← (do storeBytes c.stores
                      callPushes s c size inner args)
          update fun t => t.farToCode c
          pure false) (v.noteReads c.reads) := by
  simp only [farCallOutcome, farCallCode, farTables, callPushes, bind_run, update_run, pure_run, asks_run]
  cases hst : storeBytes c.stores (v.noteReads c.reads) with
  | error e t => rfl
  | ok a t =>
    simp only [callFrame_tables hv hst]
    cases pushList (sizeBytes size) (s.callFrame inner args) (t.toCallStack c inner) <;> rfl

theorem farCallOutcome_task (k : Config.TaskSwitch) (v : State) :
    farCallOutcome (.task k) v =
      (do let _ ← instrTaskSwitch k
          update fun t => t
          pure true) v := by
  simp only [farCallOutcome, bind_run, update_run, pure_run]

/-! ## Loads of a segment register -/

/-- What the answer of `LoadDescriptor` does, up to the end of the instruction; SS holds off events
(`40_init_mode_switch.md` R157). -/
theorem exec_movSeg_prot {i : Instr} {s u : State} {src : Rm16} {sel : Selector} {q : SReg}
    (hi : (i = .movEs src ∧ q = .es) ∨ (i = .movSs src ∧ q = .ss) ∨ (i = .movDs src ∧ q = .ds) ∨
      (i = .movFs src ∧ q = .fs) ∨ (i = .movGs src ∧ q = .gs))
    (hread : readRm16 src s = .ok sel u) :
    ∃ body, exec i s = runInstr false body s ∧
      body s = (do loadSegment q sel
                   update fun t => { t with eip := t.next, holdOff := t.holdOff || decide (q = SReg.ss) }
                   pure false) u := by
  have hmov : ∀ r, r ≠ .ss → movSreg r src s =
      (do loadSegment r sel
          update fun t => { t with eip := t.next, holdOff := t.holdOff || decide (r = SReg.ss) }
          pure false) u := by
    intro r hr
    simp only [movSreg, bind_run, hread, toNext_run, update_run, pure_run, hr, decide_false, Bool.or_false]
  rcases hi with ⟨rfl, rfl⟩ | ⟨rfl, rfl⟩ | ⟨rfl, rfl⟩ | ⟨rfl, rfl⟩ | ⟨rfl, rfl⟩
  · exact ⟨_, rfl, hmov .es (by decide)⟩
  · refine ⟨_, rfl, ?_⟩
    simp only [movSs, movSreg, bind_run, hread, toNext_run, update_run, pure_run, decide_true, Bool.or_true]
    cases loadSegment .ss sel u <;> rfl
  · exact ⟨_, rfl, hmov .ds (by decide)⟩
  · exact ⟨_, rfl, hmov .fs (by decide)⟩
  · exact ⟨_, rfl, hmov .gs (by decide)⟩

theorem loadSegment_loaded {u : State} {q : SReg} {sel : Selector} {base limit : Dword} {rights : Word}
    {big usable : Bool} {reads : List (Dword × Nat)} {stores : List (Dword × Byte)} (h8 : u.like8086 = false)
    (ha : Config.loadDescriptor u.free sel u.cpl = .loaded base limit rights big usable reads stores) :
    (do loadSegment q sel
        update fun t => { t with eip := t.next, holdOff := t.holdOff || decide (q = SReg.ss) }
        pure false) u =
      (do let _ ← storeBytes stores
          update fun t =>
            { t with seg := t.seg.set q { selector := sel, base := base, limit := limit, rights := rights, big := big,
                                          usable := usable },
                     eip := t.next, holdOff := t.holdOff || decide (q = SReg.ss) }
          pure false) (({ u with free := u.free + 1 } : State).noteReads reads) := by
  simp only [bind_run, loadSegment_prot q sel h8, ha, update_run, pure_run]
  cases storeBytes stores _ <;> rfl

/-! ## Exceptions of the interfaces -/

/-- An exception carries an error code where its vector has one (`60_exceptions.md` R291). -/
theorem ofVector_eq (v : Vec) (code lin : Dword) :
    Exn.ofVector v code lin =
      { vector := v, dr6 := 0, cr2 := if v = 14 then some lin else none,
        err := if v = 8 then some 0 else if v ∈ [10, 11, 12, 13, 14] then some code else none } := by
  by_cases h : v = 8
  · subst h
    rfl
  · have h8 : v ≠ 8#8 := h
    have hcode : hasErrorCode v = true ↔ v ∈ ([10, 11, 12, 13, 14] : List Vec) := by
      simp [hasErrorCode, h8, or_assoc]
    simp only [Exn.ofVector, hcode, if_neg h]

/-- Settles O18: each instruction runs to the interface (`exec_farJump`, `exec_farCall`, `exec_movSeg_prot`), and what
the answer does is a computation and a change after it (`runInstr_ended`). -/
theorem protectedTransfersFollowInterfaces : Obligations.ProtectedTransfersFollowInterfaces := by
  refine ⟨fun s u sz m src w off sel h8 => ⟨fun i hi => ?_, fun i hs hi => ?_, fun i q hs hread hi => ?_⟩,
    fun _ _ _ h => pushList_run h, fun _ => rfl, fun _ _ _ _ => rfl, ofVector_eq⟩
  · obtain ⟨hu, body, he, hb⟩ := exec_farJump hi
    replace hb := hb.trans (farJump_prot (hu.like8086.trans h8) sel off)
    rw [he, ← hu.cpl]
    cases ha : Config.farJump u.free sel off u.cpl with
    | code c => exact runInstr_ended (stale_jump s) ((hb.trans (by rw [ha])).trans (farJumpOutcome_code c _))
    | task k => exact runInstr_ended (stale_jump s) ((hb.trans (by rw [ha])).trans (farJumpOutcome_task k _))
    | fault x code lin => exact runInstr_raise (stale_jump s) (hb.trans (by rw [ha]; rfl))
  · obtain ⟨hu, body, sz', he, hb⟩ := exec_farCall hi
    replace hb := hb.trans (farCall_prot (hu.like8086.trans h8) sz' sel off)
    rw [he, ← hu.cpl]
    cases ha : Config.farCall u.free sel off u.cpl with
    | code c size inner args =>
      have hcode := (hb.trans (by rw [ha])).trans (farCallOutcome_code c size inner args hu.drawn)
      refine (runInstr_ended (stale_call hs) hcode).trans ?_
      rw [bind_assoc]
      rcases inner with _ | ⟨ss, esp⟩ <;> simp only [callPushes, bind_assoc] <;> rfl
    | task k => exact runInstr_ended (stale_call hs) ((hb.trans (by rw [ha])).trans (farCallOutcome_task k _))
    | fault x code lin => exact runInstr_raise (stale_call hs) (hb.trans (by rw [ha]; rfl))
  · obtain ⟨body, he, hb⟩ := exec_movSeg_prot hi hread
    have hu : ReadFrom s u := readRm16_reads src _ _ _ hread
    have hu8 := hu.like8086.trans h8
    rw [he, ← hu.cpl]
    cases ha : Config.loadDescriptor u.free sel u.cpl with
    | fault x code lin =>
      exact runInstr_raise (stale_call hs) (hb.trans (by simp only [bind_run, loadSegment_prot q sel hu8, ha]))
    | loaded base limit rights big usable reads stores =>
      exact runInstr_ended (stale_call hs) (hb.trans (loadSegment_loaded hu8 ha))

end Sys2Proof.Machine
end

section
/-! PROOFS. Settles `GeneralDetectProtectsDebugRegisters`, `DataBreakpointsMatchOverlap`, `InstructionBreakpointFaults`,
`RfLastsOneInstruction` and `SingleStepTrapFollows`. -/

namespace Sys2Proof.Machine

/-! ## The general detect fault -/

theorem requireDebug_detect {s : State} (hl : s.level = 0) (hg : s.dr7.getLsbD 13 = true) :
    requireDebugAccess s = .error (.exn generalDetect) s := by
  simp [requireDebugAccess, gd, hl, hg]

/-- The general detect fault is taken as the debug exception, with the disabled breakpoints met. -/
theorem takeFault_generalDetect (s : State) :
    takeFault generalDetect s s = raiseDebug .fault (0x2000 ||| s.quiet) { s with traps := 0, quiet := 0 } := rfl

/-- A move whose body begins with the access check takes the debug fault under GD = 1. -/
theorem guarded_detect {k : Unit → M Bool} {s : State} (hl : s.level = 0) (hg : s.dr7.getLsbD 13 = true)
    (hs : s.prefetchStale = false) :
    runInstr false (requireDebugAccess >>= k) s =
      raiseDebug .fault (0x2000 ||| s.quiet) { s with traps := 0, quiet := 0 } := by
  rw [runInstr_raise (by simp [hs]) (by rw [bind_run, requireDebug_detect hl hg]), takeFault_generalDetect]

theorem clearGd_on {s : State} (h : s.params.gdClearedOnEntry = true) :
    s.clearGd = { s with dr7 := s.dr7 &&& 0xFFFFDFFF } := if_pos h

theorem clearGd_off {s : State} (h : s.params.gdClearedOnEntry = false) : s.clearGd = s := by
  simp [State.clearGd, h]

/-- Settles O29: all four moves begin with the access check, and the debug handler is the only entry that drops GD. -/
theorem generalDetectProtectsDebugRegisters : Obligations.GeneralDetectProtectsDebugRegisters := by
  refine ⟨fun s r n k i hi hl hg hs => ?_, fun _ _ _ => rfl, fun d _ => ?_, fun x t => ⟨?_, ?_, ?_⟩⟩
  · rcases hi with rfl | rfl | rfl | rfl <;> exact guarded_detect hl hg hs
  · cases d <;> rfl
  · rintro (rfl | rfl) h <;> exact clearGd_on h
  · rintro (rfl | rfl) h <;> exact clearGd_off h
  · rintro rfl
    rfl

/-! ## Breakpoint ranges and matches -/

/-- The range of a breakpoint whose length is 2^k bytes. -/
theorem inRange_iff {s : State} {n : Fin 4} {k : Nat} (a : Dword) (hk : k ≤ 2)
    (hm : lenMask (bpLen s.dr7 n) = BitVec.ofNat 32 (2 ^ k - 1)) :
    inRange s n a = true ↔ (s.dr n).toNat - (s.dr n).toNat % 2 ^ k ≤ a.toNat ∧
      a.toNat ≤ (s.dr n).toNat - (s.dr n).toNat % 2 ^ k + 2 ^ k - 1 := by
  rw [← inRange_nat _ _ (s.dr n).isLt a.isLt k hk, ← mask_toNat _ _ hk, ← mask_toNat _ _ hk, BitVec.toNat_inj]
  simp only [inRange, hm, beq_iff_eq]

theorem rwWatches_iff (rw : BitVec 2) (k : Config.Access) :
    rwWatches rw k = true ↔ (rw = 1 ∧ k = .write) ∨ (rw = 3 ∧ (k = .read ∨ k = .write)) := by
  cases k <;> simp [rwWatches]

theorem dataMatch_iff {s : State} {n : Fin 4} (lin : Dword) (width : Nat) (k : Config.Access)
    (hl : bpLen s.dr7 n ≠ 2) :
    dataMatch s lin width k n = true ↔
      ((bpRw s.dr7 n = 1 ∧ k = .write) ∨ (bpRw s.dr7 n = 3 ∧ (k = .read ∨ k = .write))) ∧
        ∃ i, i < width ∧ inRange s n (lin + BitVec.ofNat 32 i) = true := by
  simp only [dataMatch, Bool.and_eq_true, rwWatches_iff, bne_iff_ne, List.any_eq_true, List.mem_range]
  exact and_congr_left' (and_iff_left hl)

theorem dataHits_bit (s : State) (lin : Dword) (width : Nat) (k : Config.Access) (n : Fin 4) :
    (dataHits s lin width k).getLsbD n.val = (bpEnabled s.dr7 n && dataMatch s lin width k n) := bBits_bit _ n

theorem dataQuiet_bit (s : State) (lin : Dword) (width : Nat) (k : Config.Access) (n : Fin 4) :
    (dataQuiet s lin width k).getLsbD n.val =
      (s.params.bSetWhenDisabled && (!bpEnabled s.dr7 n && dataMatch s lin width k n)) := by
  unfold dataQuiet
  split <;> simp [*, bBits_bit]

theorem fetchHits_bit (s : State) (lin : Dword) (n : Fin 4) :
    (fetchHits s lin).getLsbD n.val = (bpEnabled s.dr7 n && fetchMatch s lin n) := bBits_bit _ n

theorem fetchQuiet_bit (s : State) (lin : Dword) (n : Fin 4) :
    (fetchQuiet s lin).getLsbD n.val =
      (s.params.bSetWhenDisabled && (!bpEnabled s.dr7 n && fetchMatch s lin n)) := by
  unfold fetchQuiet
  split <;> simp [*, bBits_bit]

theorem fetchMatch_iff (s : State) (lin : Dword) (n : Fin 4) :
    fetchMatch s lin n = true ↔ bpRw s.dr7 n = 0 ∧ bpLen s.dr7 n = 0 ∧ s.dr n = lin := by
  simp [fetchMatch, and_assoc]

theorem noteFetch_bit (s : State) (n : Fin 4) :
    s.noteFetch.quiet.getLsbD n.val =
      (s.quiet.getLsbD n.val || (!s.flags.rf && (fetchQuiet s s.linPc).getLsbD n.val)) := by
  unfold State.noteFetch
  cases s.flags.rf <;> simp

/-- Settles O30: the range of each length is a range of numbers, and each B bit is the condition of its breakpoint. -/
theorem dataBreakpointsMatchOverlap : Obligations.DataBreakpointsMatchOverlap := by
  refine ⟨fun s n a len h => ?_, fun s lin width k n hl => ⟨?_, ?_, rfl⟩, fun s n => ?_⟩
  · rcases h with ⟨hn, rfl⟩ | ⟨hn, rfl⟩ | ⟨hn, rfl⟩
    · exact inRange_iff (k := 0) a (by decide) (by rw [hn]; decide)
    · exact inRange_iff (k := 1) a (by decide) (by rw [hn]; decide)
    · exact inRange_iff (k := 2) a (by decide) (by rw [hn]; decide)
  · simp [State.noteAccess, dataHits_bit, dataMatch_iff lin width k hl]
  · simp [State.noteAccess, dataQuiet_bit, dataMatch_iff lin width k hl]
  · rw [noteFetch_bit, fetchQuiet_bit]
    simp [fetchMatch_iff]

/-! ## The instruction breakpoint -/

/-- The event that takes the place of an instruction is the step. -/
theorem step_of_done {s : State} {o : Host.Outcome State Fault Refusal} (h : boundary s = .done o) : step s = o := by
  simp [step, h]

theorem ofWord_or_rf (w : Dword) : Eflags.ofWord (w ||| 0x00010000) = { Eflags.ofWord w with rf := true } := by
  have h : (w ||| 0x00010000#32).extractLsb' 12 2 = w.extractLsb' 12 2 := by
    rw [BitVec.extractLsb'_or]
    simp
  simp [Eflags.ofWord, h]

/-- RF is bit 16 of the EFLAGS word. -/
theorem toWord_rf_set (f : Eflags) : ({ f with rf := true } : Eflags).toWord = f.toWord ||| 0x00010000 := by
  have hf := Eflags.toWord_ofWord f.toWord
  rw [Eflags.ofWord_toWord] at hf
  calc ({ f with rf := true } : Eflags).toWord
      = (Eflags.ofWord (f.toWord ||| 0x00010000)).toWord := by rw [ofWord_or_rf, Eflags.ofWord_toWord]
    _ = (f.toWord &&& 0x00037FD5 ||| 2) ||| 0x00010000 := by
        rw [Eflags.toWord_ofWord, BitVec.and_or_distrib_right, BitVec.or_assoc, BitVec.or_assoc]
        rfl
    _ = f.toWord ||| 0x00010000 := by rw [← hf]

theorem event_image (e : Event) (f : Eflags) :
    e.image f = if e.cls = .fault then f.toWord ||| 0x00010000 else f.toWord := by
  unfold Event.image Eflags.image
  split <;> simp [*, toWord_rf_set]

theorem fetchQuiet_off {s : State} (lin : Dword) (h : s.params.bSetWhenDisabled = false) :
    fetchQuiet s lin = 0 := by
  simp [fetchQuiet, h]

/-- Settles O31: the breakpoint is looked at before anything else that could take the step, and legal breakpoints of
kind 00 have length 00. -/
theorem instructionBreakpointFaults : Obligations.InstructionBreakpointFaults := by
  refine ⟨fun s hr hi hh ht hb hf hit => step_of_done ?_, fun s n hok => ?_, event_image⟩
  · obtain ⟨k, hk⟩ := eventStep_untrapped (s := s) (.inr ht)
    have hq : fetchHits s s.linPc ||| fetchQuiet s s.linPc = fetchHits s s.linPc := by
      simp [fetchQuiet_off _ hb]
    rw [boundary_running hr hi, hk, pastEvents_calm hh, breakpoint_hit (s := { s with quiet := 0 }) ⟨hf, hit⟩]
    exact congrArg (fun c => Boundary.done (raiseDebug .fault c { s with quiet := 0 })) hq
  · rw [fetchHits_bit, Bool.and_eq_true, fetchMatch_iff]
    exact ⟨fun ⟨he, hrw, _, hdr⟩ => ⟨he, hrw, hdr⟩, fun ⟨he, hrw, hdr⟩ => ⟨he, hrw, dr7ok_len hok n he hrw, hdr⟩⟩

/-! ## What a computation answers, and the flags it leaves -/

/-- A computation answers `a` whenever it completes. -/
def Answers {α : Type} (a : α) (m : M α) : Prop := ∀ s b t, m s = .ok b t → b = a

theorem Answers.bind {α β : Type} {b : β} {m : M α} {k : α → M β} (h : ∀ a, Answers b (k a)) :
    Answers b (m >>= k) := by
  intro s c t e
  obtain ⟨a, s1, -, e⟩ := bind_ok e
  exact h a s1 c t e

theorem Answers.pure {α : Type} (a : α) : Answers a (pure a : M α) := fun _ _ _ e => by cases e; rfl

/-- A computation that completes leaves the flags `F` of the flags it began with. -/
def LeavesFlags {α : Type} (F : Eflags → Eflags) (m : M α) : Prop :=
  ∀ s a t, m s = .ok a t → t.flags = F s.flags

section
variable {α β : Type} {F : Eflags → Eflags}

theorem Stacks.leavesFlags {m : M α} (h : Stacks m) : LeavesFlags id m := fun _ _ _ e => h.flags e

theorem LeavesFlags.update {f : State → State} (h : ∀ s, (f s).flags = F s.flags) : LeavesFlags F (update f) :=
  fun s _ _ e => by cases e; exact h s

theorem LeavesFlags.asks (f : State → α) : LeavesFlags id (asks f) := fun _ _ _ e => by cases e; rfl

theorem LeavesFlags.pure (a : α) : LeavesFlags id (pure a : M α) := fun _ _ _ e => by cases e; rfl

theorem LeavesFlags.after {m : M α} {k : α → M β} (hm : LeavesFlags id m) (hk : ∀ a, LeavesFlags F (k a)) :
    LeavesFlags F (m >>= k) := fun s b t e => by
  obtain ⟨a, s1, e1, e2⟩ := bind_ok e
  rw [hk a s1 b t e2, hm s a s1 e1, id]

theorem LeavesFlags.before {m : M α} {k : α → M β} (hm : LeavesFlags F m) (hk : ∀ a, LeavesFlags id (k a)) :
    LeavesFlags F (m >>= k) := fun s b t e => by
  obtain ⟨a, s1, e1, e2⟩ := bind_ok e
  rw [hk a s1 b t e2, id, hm s a s1 e1]

end

theorem push_leavesFlags (b : Bool) (n : Nat) (v : Dword) : LeavesFlags id (push b n v) :=
  (push_stacks b n v).leavesFlags

theorem deliverReal_flags (e : Event) : LeavesFlags (fun f => f.entered true) (deliverReal e) := by
  refine .after (.asks _) fun t => ?_
  split
  · exact fun _ _ _ h => nomatch h
  · exact .after (.update fun s => by simp) fun _ => .after (readLin_reads _ _ _ _).stores.stacks.leavesFlags fun _ =>
      .after (.asks _) fun _ => .after (.asks _) fun _ => .after (push_leavesFlags _ _ _) fun _ =>
      .after (push_leavesFlags _ _ _) fun _ => .after (push_leavesFlags _ _ _) fun _ =>
      .before (.update fun _ => rfl) fun _ => .pure _

theorem deliverReal_answers (e : Event) : Answers .handler (deliverReal e) := by
  refine .bind fun t => ?_
  split
  · exact fun _ _ _ h => nomatch h
  · exact .bind fun _ => .bind fun _ => .bind fun _ => .bind fun _ => .bind fun _ => .bind fun _ => .bind fun _ =>
      .bind fun _ => .pure _

/-! ## RF after an instruction of real-address mode -/

/-- RF is clear, or the processor has shut down. -/
def RfSpent (t : State) : Prop := t.flags.rf = false ∨ t.run = .shutdown

/-- A delivery in real-address mode reaches a handler, with RF clear. -/
theorem deliverReal_rf {e : Event} {s t : State} {a : Attempt} (h : deliverReal e s = .ok a t) :
    a = .handler ∧ t.flags.rf = false :=
  ⟨deliverReal_answers e s a t h, congrArg Eflags.rf (deliverReal_flags e s a t h)⟩

theorem attempt_of_real {s : State} (e : Event) (hm : s.mode = .real) : attempt e s = deliverReal e s := by
  simp [attempt, hm]

theorem doubleFault_rf {ip : Dword} {s t : State} {x : Entry} (hm : s.mode = .real)
    (h : doubleFault ip s = .next (x, t)) : RfSpent t := by
  unfold doubleFault at h
  rw [attempt_of_real _ hm] at h
  split at h
  case h_1 e => exact absurd (deliverReal_rf e).1 (by simp)
  case h_2 e => cases h; exact .inl (deliverReal_rf e).2
  case h_3 e => cases h; exact .inl (deliverReal_rf e).2
  case h_4 => cases h; exact .inr rfl
  case h_5 => cases h
  case h_6 => cases h

theorem deliver_rf {e : Event} {s t : State} {x : Entry} (hm : s.mode = .real) (h : deliver e s = .next (x, t)) :
    RfSpent t := by
  unfold deliver at h
  rw [attempt_of_real _ hm] at h
  split at h
  case h_1 e => exact absurd (deliverReal_rf e).1 (by simp)
  case h_2 e => cases h; exact .inl (deliverReal_rf e).2
  case h_3 e => cases h; exact .inl (deliverReal_rf e).2
  case h_4 s' _ => exact doubleFault_rf (s := s.rollback s') hm h
  case h_5 => cases h
  case h_6 => cases h

theorem outcome_rf {d : Delivery} {k : Entry → State → State} {t : State}
    (hk : ∀ x u, (k x u).flags = u.flags ∧ (k x u).run = u.run) (hd : ∀ x u, d = .next (x, u) → RfSpent u)
    (h : d.outcome k = .next t) : RfSpent t := by
  unfold Delivery.outcome at h
  split at h
  · next x u =>
    cases h
    have hu := hd x u rfl
    rwa [RfSpent, (hk x u).1, (hk x u).2]
  · cases h
  · cases h

theorem debugEntered_same (x : Entry) (u : State) :
    (debugEntered x u).flags = u.flags ∧ (debugEntered x u).run = u.run := by
  cases x <;> simp [debugEntered]

theorem takeFault_rf {e : Exn} {s s' t : State} (hm : s.mode = .real) (h : takeFault e s s' = .next t) :
    RfSpent t := by
  unfold takeFault at h
  split at h
  · exact outcome_rf (k := entered) (fun _ _ => ⟨rfl, rfl⟩)
      (fun _ _ hd => deliver_rf (s := { s.rollback s' with cr2 := e.cr2.getD s.cr2 }) hm hd) h
  · exact outcome_rf debugEntered_same
      (fun _ _ hd => deliver_rf (s := { s.rollback s' with dr6 := s.dr6 ||| (e.dr6 ||| s.quiet) }) hm hd) h

/-! ### What a body answers: whether it loaded RF -/

theorem answers_toNext : Answers false toNext := fun _ _ _ e => by cases e; rfl
theorem answers_finishWrite : Answers false finishWrite := fun s _ _ e => by rw [finishWrite_run] at e; cases e; rfl
theorem answers_finishRead (r : Reg) (v m : Dword) : Answers false (finishRead r v m) := fun s _ _ e => by
  rw [finishRead_run] at e; cases e; rfl

theorem nearJump_answers (sz : OpSize) (d : Dword) : Answers false (nearJump sz d) :=
  .bind fun _ => .bind fun _ => .bind fun _ => Answers.pure _

theorem nearCall_answers (sz : OpSize) (d : Dword) : Answers false (nearCall sz d) :=
  .bind fun _ => .bind fun _ => .bind fun _ => .bind fun _ => Answers.pure _

theorem movSreg_answers (r : SReg) (src : Rm16) : Answers false (movSreg r src) :=
  .bind fun _ => .bind fun _ => answers_toNext

/-- A far jump of real-address or V86 mode switches no task. -/
theorem farJump_rf {sel : Selector} {off : Dword} {s t : State} {b : Bool} (h8 : s.like8086 = true)
    (h : farJump sel off s = .ok b t) : b = false := by
  obtain ⟨sw, s1, hto, h⟩ := bind_ok h
  unfold farJumpTo at hto
  rw [bind_run, asks_run] at hto
  simp only [h8, if_true] at hto
  have hk : Answers false (checkTarget off >>= fun _ => update (fun s => s.farTo8086 sel off) >>= fun _ => pure false) :=
    .bind fun _ => .bind fun _ => Answers.pure _
  cases hk _ _ _ hto
  cases h
  rfl

/-- A far call of real-address or V86 mode switches no task. -/
theorem farCall_rf {sz : OpSize} {sel : Selector} {off : Dword} {s t : State} {b : Bool} (h8 : s.like8086 = true)
    (h : farCall sz sel off s = .ok b t) : b = false := by
  unfold farCall at h
  rw [bind_run, asks_run] at h
  simp only [h8, if_true] at h
  refine Answers.bind (fun _ => .bind fun _ => .bind fun _ => .bind fun _ => .bind fun _ => .bind fun _ => ?_) _ _ _ h
  exact Answers.pure _

/-- Outside protected mode every instruction but INT 3 and IRET runs a body that does not load RF. -/
theorem exec_body_rf {i : Instr} {s : State} (h8 : s.like8086 = true) (h3 : i ≠ .int3) (hi : ∀ sz, i ≠ .iret sz) :
    ∃ j body, exec i s = runInstr j body s ∧ ∀ b t, body s = .ok b t → b = false := by
  cases i with
  | int3 => exact absurd rfl h3
  | iret sz => exact absurd rfl (hi sz)
  | jmpRel8 sz d => exact ⟨_, _, rfl, nearJump_answers _ _ s⟩
  | jmpRel d => exact ⟨_, _, rfl, nearJump_answers _ _ s⟩
  | callRel d => exact ⟨_, _, rfl, nearCall_answers _ _ s⟩
  | jmpPtr p => exact ⟨_, _, rfl, fun _ _ => farJump_rf h8⟩
  | callPtr p => exact ⟨_, _, rfl, fun _ _ => farCall_rf h8⟩
  | jmpMem sz m =>
    refine ⟨_, _, rfl, fun b t h => ?_⟩
    obtain ⟨p, u, hread, h⟩ := bind_ok h
    exact farJump_rf ((readFarPtr_like8086 hread).trans h8) h
  | callMem sz m =>
    refine ⟨_, _, rfl, fun b t h => ?_⟩
    obtain ⟨p, u, hread, h⟩ := bind_ok h
    exact farCall_rf ((readFarPtr_like8086 hread).trans h8) h
  | movEs src => exact ⟨_, _, rfl, movSreg_answers _ _ s⟩
  | movDs src => exact ⟨_, _, rfl, movSreg_answers _ _ s⟩
  | movFs src => exact ⟨_, _, rfl, movSreg_answers _ _ s⟩
  | movGs src => exact ⟨_, _, rfl, movSreg_answers _ _ s⟩
  | movSs src =>
    refine ⟨_, _, rfl, fun b t h => ?_⟩
    obtain ⟨k, u, hload, h⟩ := bind_ok h
    cases movSreg_answers _ _ _ _ _ hload
    cases h
    rfl
  | lidt sz m => exact ⟨_, _, rfl, (Answers.bind fun _ => .bind fun _ => .bind fun _ => answers_toNext) s⟩
  | lgdt sz m => exact ⟨_, _, rfl, (Answers.bind fun _ => .bind fun _ => .bind fun _ => answers_toNext) s⟩
  | lmsw src => exact ⟨_, _, rfl, (Answers.bind fun _ => .bind fun _ => .bind fun _ => answers_toNext) s⟩
  | movFromCr0 r => exact ⟨_, _, rfl, (Answers.bind fun _ => .bind fun _ => answers_finishRead _ _ _) s⟩
  | movFromCr3 r => exact ⟨_, _, rfl, (Answers.bind fun _ => .bind fun _ => answers_finishRead _ _ _) s⟩
  | movFromTr6 r => exact ⟨_, _, rfl, (Answers.bind fun _ => .bind fun _ => answers_finishRead _ _ _) s⟩
  | movFromTr7 r =>
    exact ⟨_, _, rfl, (Answers.bind fun _ => .bind fun _ => .bind fun _ => answers_finishRead _ _ _) s⟩
  | movFromDr67 r n => exact ⟨_, _, rfl, (Answers.bind fun _ => .bind fun _ => answers_finishRead _ _ _) s⟩
  | movFromDr03 r n =>
    exact ⟨_, _, rfl, (Answers.bind fun _ => .bind fun _ => .bind fun _ => answers_finishWrite) s⟩
  | movToCr0 r =>
    exact ⟨_, _, rfl, (Answers.bind fun _ => .bind fun _ => .bind fun _ => .bind fun _ => answers_finishWrite) s⟩
  | movToCr3 r => exact ⟨_, _, rfl, (Answers.bind fun _ => .bind fun _ => answers_finishWrite) s⟩
  | movToDr03 n r => exact ⟨_, _, rfl, (Answers.bind fun _ => .bind fun _ => answers_finishWrite) s⟩
  | movToDr67 n r =>
    exact ⟨_, _, rfl, (Answers.bind fun _ => .bind fun _ => .bind fun _ => answers_finishWrite) s⟩
  | movToTr6 r =>
    exact ⟨_, _, rfl, (Answers.bind fun _ => .bind fun _ => .bind fun _ => .bind fun _ => answers_finishWrite) s⟩
  | movToTr7 r => exact ⟨_, _, rfl, (Answers.bind fun _ => .bind fun _ => answers_finishWrite) s⟩

theorem runInstr_rf {j : Bool} {body : M Bool} {s t : State} (hm : s.mode = .real)
    (hb : ∀ b u, body s = .ok b u → b = false) (h : runInstr j body s = .next t) : RfSpent t := by
  obtain ⟨-, ⟨b, u, hu, rfl⟩ | ⟨e, u, -, hf⟩⟩ := runInstr_next h
  · rw [hb b u hu]
    exact .inl (Bool.and_false _)
  · exact takeFault_rf hm hf

theorem execInt3_rf {s t : State} (hm : s.mode = .real) (h : execInt3 s = .next t) : RfSpent t := by
  unfold execInt3 at h
  split at h
  · cases h
  · have hd := fun x u => deliver_rf (e := breakpointEvent s) (s := { s with eip := s.next }) (x := x) (t := u) hm
    split at h
    case h_1 u e => cases h; exact .inl (Bool.and_false _)
    case h_2 u e => cases h; simpa [RfSpent, complete] using hd _ _ e
    case h_3 u e => cases h; exact hd _ _ e
    case h_4 => cases h
    case h_5 => cases h

/-- Settles O32: outside IRET no body loads RF, and a delivery in real-address mode clears it. -/
theorem rfLastsOneInstruction : Obligations.RfLastsOneInstruction := by
  intro i s t hm hi h
  by_cases h3 : i = .int3
  · subst h3
    exact execInt3_rf hm h
  · obtain ⟨j, body, hx, hb⟩ := exec_body_rf (like8086_real (mode_real hm)) h3 hi
    exact runInstr_rf hm hb (hx ▸ h)

/-! ## The single-step trap -/

/-- Every instruction but INT 3 runs a body inside the frame of an instruction. -/
theorem exec_body {i : Instr} (h3 : i ≠ .int3) : ∃ j body, exec i = runInstr j body := by
  cases i with
  | int3 => exact absurd rfl h3
  | _ => exact ⟨_, _, rfl⟩

theorem complete_bs {s : State} (b : Bool) (t : State) (h : s.flags.tf = true) :
    (complete s b t).traps.getLsbD 14 = true := by
  simp [complete, h, bsBit]

theorem execInt3_next {s t : State} (h : execInt3 s = .next t) :
    (∃ b u, t = complete s b u) ∨ deliver (breakpointEvent s) { s with eip := s.next } = .next (.replaced, t) := by
  unfold execInt3 at h
  split at h
  · cases h
  · split at h
    case h_1 u e => cases h; exact .inl ⟨_, _, rfl⟩
    case h_2 u e => cases h; exact .inl ⟨_, _, rfl⟩
    case h_3 u e => cases h; exact .inr e
    case h_4 => cases h
    case h_5 => cases h

/-- What an instruction run with TF = 1 leaves: BS, or a fault in its place. -/
theorem exec_bs {i : Instr} {s t : State} (htf : s.flags.tf = true) (h : exec i s = .next t) :
    t.traps.getLsbD 14 = true ∨ (∃ e u, takeFault e s u = .next t) ∨
      (i = .int3 ∧ deliver (breakpointEvent s) { s with eip := s.next } = .next (.replaced, t)) := by
  by_cases h3 : i = .int3
  · subst h3
    obtain ⟨b, u, rfl⟩ | hd := execInt3_next h
    · exact .inl (complete_bs b u htf)
    · exact .inr (.inr ⟨rfl, hd⟩)
  · obtain ⟨j, body, hx⟩ := exec_body h3
    rw [hx] at h
    obtain ⟨-, ⟨b, u, -, rfl⟩ | ⟨e, u, -, hf⟩⟩ := runInstr_next h
    · exact .inl (complete_bs b u htf)
    · exact .inr (.inl ⟨e, u, hf⟩)

/-- An instruction run with TF = 0 does not add BS. -/
theorem exec_noBs {i : Instr} {s t : State} (htf : s.flags.tf = false) (hs : s.traps.getLsbD 14 = false)
    (h : exec i s = .next t) : t.traps.getLsbD 14 = false :=
  exec_keeps (P := fun s => s.traps.getLsbD 14 = false) noBs_closed i (fun ht => by simp [htf] at ht)
    ⟨hs, .inr fun _ _ hp => hp⟩ h

theorem eventStep_trapped {s : State} (hh : s.holdOff = false) (ht : s.traps ≠ 0) :
    eventStep s = .done (raiseDebug .trap (s.traps ||| s.quiet) { s with traps := 0, quiet := 0 }) := by
  unfold eventStep
  rw [if_neg (by simp [hh]), if_pos ht]

/-- Settles O33: BS comes with `complete`, and a step takes the debug traps first. -/
theorem singleStepTrapFollows : Obligations.SingleStepTrapFollows := by
  refine ⟨fun i s t h => ⟨fun htf => exec_bs htf h, fun htf hs => exec_noBs htf hs h⟩, fun s d htf => ?_,
    fun _ _ _ => rfl, fun t hr hi hh ht => step_of_done ?_⟩
  · refine ⟨_, exec_jmpRel_next (.rel16 d) (fun _ => zext16_le _), ?_, rfl⟩
    simp [complete, htf, bsBit]
  · rw [boundary_running hr hi, eventStep_trapped hh ht]
    rfl

end Sys2Proof.Machine
end

section
/-! PROOFS. Settles `TlbWriteSetsTheEntry`, `TlbLookupReportsTheEntry` and `TlbWriteThenLookupHits`. -/

namespace Sys2Proof.Machine

/-! ## The write command -/

theorem tlbCommand_write {c : Bool} (h : c = false) : tlbCommand c = tlbWrite := by simp [tlbCommand, h]

theorem tlbCommand_lookup {c : Bool} (h : c = true) : tlbCommand c = tlbLookup := by simp [tlbCommand, h]

theorem tlbWrite_withoutHt {s : State} (h : s.tr7.ht = false) :
    tlbWrite s = .error (.refused .tlbWriteWithoutHt) s := by
  simp [tlbWrite, h]

theorem hasOther_false {s : State} {i : Fin 32} {p : PageNo}
    (h : ∀ j : Fin 32, j ≠ i → s.tlb[j.val].v = true → s.tlb[j.val].lin ≠ p) : s.hasOther i p = false := by
  rw [Bool.eq_false_iff, Ne, hasOther_iff]
  rintro ⟨j, hj, hv, hl⟩
  exact h j hj hv hl

/-- Settles O35: the command is `tlbWrite` in the state that holds the new TR6. -/
theorem tlbWriteSetsTheEntry : Obligations.TlbWriteSetsTheEntry := by
  intro s r hl hs q i hc
  refine ⟨fun hht huniq => ?_, fun hht => ?_, fun hht hv hdup => ?_⟩
  · obtain ⟨e, n, hrun, hlin, hvalid, hphys, hw, hpairs⟩ :=
      tlbWrite_run (s := { s with tr6 := q }) hht (fun hv => hasOther_false (huniq hv))
    refine ⟨_, e, movToTr6_run hl hs ((congrFun (tlbCommand_write hc) _).trans hrun), rfl, hlin, hvalid, hphys, hw,
      hpairs.1, hpairs.2.1, hpairs.2.2, ?_, setStatus_control _ _⟩
    simp [complete]
  · exact movToTr6_refused hl hs ((congrFun (tlbCommand_write hc) _).trans (tlbWrite_withoutHt hht))
  · obtain ⟨t, hrun⟩ := tlbWrite_dup (s := { s with tr6 := q }) hht hv (hasOther_iff.2 hdup)
    exact movToTr6_refused hl hs ((congrFun (tlbCommand_write hc) _).trans hrun)

/-! ## The lookup command -/

/-- An entry agrees with the request in TR6, where every pair of the request is a bit and its complement. -/
def Tr6.Finds (q : Tr6) (e : TlbEntry) : Prop := e.lin = q.lin ∧ e.v = q.v ∧ e.d = q.d ∧ e.u = q.u ∧ e.w = q.w

section
variable {s : State} (hd : s.tr6.dn = !s.tr6.d) (hu : s.tr6.un = !s.tr6.u) (hw : s.tr6.wn = !s.tr6.w)
include hd hu hw

theorem tlbMatches_single {i : Fin 32} (hi : s.tr6.Finds s.tlb[i.val])
    (huniq : ∀ j : Fin 32, s.tr6.Finds s.tlb[j.val] → j = i) : s.tlbMatches = [i] :=
  filter_single (List.nodup_finRange 32) (List.mem_finRange i) ((matches_iff hd hu hw).2 hi)
    fun j _ hj => huniq j ((matches_iff hd hu hw).1 hj)

theorem tlbMatches_none (h : ∀ i : Fin 32, ¬ s.tr6.Finds s.tlb[i.val]) : s.tlbMatches = [] :=
  List.filter_eq_nil_iff.2 fun i _ hi => h i ((matches_iff hd hu hw).1 hi)

/-- A hit on an entry that agrees with TR6 leaves TR6 as it was. -/
theorem lookupHit_found {i : Fin 32} (hi : s.tr6.Finds s.tlb[i.val]) :
    s.lookupHit i =
      { s with tr7 := { s.tr7 with ht := true, phys := s.tlb[i.val].phys, rep := BitVec.ofNat 2 (i.val / 8) },
               tlbMissed := false } := by
  obtain ⟨-, -, h3, h4, h5⟩ := hi
  simp only [State.lookupHit, h3, h4, h5, ← hd, ← hu, ← hw]

end

/-- Settles O36: the command is `tlbLookup` in the state that holds the new TR6. -/
theorem tlbLookupReportsTheEntry : Obligations.TlbLookupReportsTheEntry := by
  intro s r hl hs q match' hc
  have hcmd := tlbCommand_lookup hc
  refine ⟨?_, fun hd hu hw hdet => ⟨fun i hi huniq => ?_, fun hnone => ?_⟩⟩
  · obtain ⟨t, hrun, htlb, hnext, hlin⟩ := tlbLookup_frame { s with tr6 := q }
    exact ⟨_, movToTr6_run hl hs ((congrFun hcmd _).trans hrun), htlb, hnext, hlin⟩
  · have hrun := tlbLookup_hit (determined_iff (s := { s with tr6 := q }) hd hu hw hdet)
      (tlbMatches_single hd hu hw hi huniq)
    rw [lookupHit_found (s := { s with tr6 := q }) hd hu hw hi] at hrun
    exact movToTr6_run hl hs ((congrFun hcmd _).trans hrun)
  · have hrun := tlbLookup_miss (determined_iff (s := { s with tr6 := q }) hd hu hw hdet)
      (tlbMatches_none hd hu hw hnone)
    exact movToTr6_run hl hs ((congrFun hcmd _).trans hrun)

/-! ## A lookup after a write -/

/-- A write of a valid entry that completes met no other valid entry for the page. -/
theorem tlbWrite_unique {s t : State} {r : Reg} (hl : s.level = 0) (hs : s.prefetchStale = false)
    (hc : (Tr6.ofWord (s.gpr.get r)).c = false) (hv : (Tr6.ofWord (s.gpr.get r)).v = true) (hht : s.tr7.ht = true)
    (h : exec (.movToTr6 r) s = .next t) (j : Fin 32)
    (hj : j ≠ tlbSlot s.tr7.rep (tlbIndex s.params (Tr6.ofWord (s.gpr.get r)).lin)) (hjv : s.tlb[j.val].v = true) :
    s.tlb[j.val].lin ≠ (Tr6.ofWord (s.gpr.get r)).lin := by
  intro hlin
  have hdup := (tlbWriteSetsTheEntry s r hl hs hc).2.2 hht hv ⟨j, hj, hjv, hlin⟩
  exact nomatch h.symm.trans hdup

/-- Settles O37: the written entry is the one match of the lookup. -/
theorem tlbWriteThenLookupHits : Obligations.TlbWriteThenLookupHits := by
  intro s t u r q hl hs w hc hv hd hu hw hht h htlb hul hus hreg
  have hother := tlbWrite_unique hl hs hc hv hht h
  obtain ⟨hset, -, -⟩ := tlbWriteSetsTheEntry s r hl hs hc
  obtain ⟨t', e, ht', hte, helin, hev, hephys, -, hed, heu, hew, -, -⟩ := hset hht fun _ => hother
  cases h.symm.trans ht'
  let i := tlbSlot s.tr7.rep (tlbIndex s.params w.lin)
  have hq : Tr6.ofWord (u.gpr.get q) = { w with c := true } := by rw [hreg, ofWord_or1]
  have hslot : u.tlb[i.val] = e := by simp [htlb, hte, i, w]
  have hfinds : ({ w with c := true } : Tr6).Finds u.tlb[i.val] := by
    rw [hslot]
    exact ⟨helin, hev, hed hd, heu hu, hew hw⟩
  have huniq : ∀ j : Fin 32, ({ w with c := true } : Tr6).Finds u.tlb[j.val] → j = i := by
    rintro j ⟨hjl, hjv, -⟩
    by_contra hne
    have hj : u.tlb[j.val] = s.tlb[j.val] := by
      simp only [htlb, hte]
      exact Vector.getElem_set_ne _ _ fun hh => hne (Fin.ext hh.symm)
    rw [hj] at hjl hjv
    exact hother j hne (hjv.trans hv) hjl
  have hlook := tlbLookupReportsTheEntry u q hul hus
  rw [hq] at hlook
  obtain ⟨-, hdet⟩ := hlook rfl
  refine ⟨_, (hdet hd hu hw (.inl hv)).1 i hfinds huniq, rfl, ?_, slot_block _ _, htlb⟩
  simp [complete, hslot, hephys]

end Sys2Proof.Machine
end

section
/-! PROOFS. Settles `RealModeDelivery`, `UndeliverableEvents`, `FlagsOnDelivery`, `V86EventsGoThroughTheIdt`,
`V86ExitFrame` and `ProtectedEntryFrame`. -/

namespace Sys2Proof.Machine

/-- Settles O38. -/
theorem realModeDelivery : Obligations.RealModeDelivery := fun _ _ _ => deliver_real

/-! ## Events that cannot be delivered -/

/-- The double fault on an instruction at `ip`. -/
def doubleEvent (ip : Dword) : Event := { vector := 8, cls := .fault, err := some 0, ip := ip, restart := ip }

theorem attempt_beyond {s : State} {e : Event} (hm : s.mode = .real)
    (h : s.idtr.limit.toNat < 4 * e.vector.toNat + 3) : attempt e s = .error (.exn (Exn.plain 8 (some 0))) s := by
  simp [attempt_of_real _ hm, deliverReal, beyondTable, h, undeliverable]

/-- With IDTR.Limit = 0 no entry fits, in any mode. -/
theorem attempt_limit_zero {s : State} (e : Event) (h : s.idtr.limit = 0) :
    attempt e s = .error (.exn (Exn.plain 8 (some 0))) s := by
  cases hm : s.mode
  case real => exact attempt_beyond hm (by simp [h])
  case prot => simp [attempt, hm, deliverGate, h, undeliverable]
  case v86 => simp [attempt, hm, deliverGate, h, undeliverable]

theorem deliver_exn {s s' : State} {e : Event} {x : Exn} (h : attempt e s = .error (.exn x) s') :
    deliver e s = doubleFault e.restart (s.rollback s') := by
  simp only [deliver, h]

theorem deliver_denied {s s' : State} {e : Event} {code : Dword} (h : attempt e s = .ok (.denied code) s') :
    deliver e s = deniedFault code e.restart (s.rollback s') := by
  simp only [deliver, h]

theorem doubleFault_exn {s s' : State} {ip : Dword} {x : Exn} (h : attempt (doubleEvent ip) s = .error (.exn x) s') :
    doubleFault ip s = .next (.replaced, (s.rollback s').shutDown) := by
  unfold doubleEvent at h
  simp only [doubleFault, h]

theorem doubleFault_handler {s s' : State} {ip : Dword} (h : attempt (doubleEvent ip) s = .ok .handler s') :
    doubleFault ip s = .next (.replaced, s') := by
  unfold doubleEvent at h
  simp only [doubleFault, h]

/-- Neither the event nor the double fault can be delivered. -/
theorem deliver_shutdown {s : State} {e : Event} {x y : Exn} (h : attempt e s = .error (.exn x) s)
    (h8 : attempt (doubleEvent e.restart) (s.rollback s) = .error (.exn y) (s.rollback s)) :
    deliver e s = .next (.replaced, { s with run := .shutdown, traps := 0, quiet := 0 }) := by
  rw [deliver_exn h, doubleFault_exn h8]
  rfl

theorem attempt_enteredReal {s : State} {e : Event} {entry : Dword} (h : s.canEnterReal e entry) :
    attempt e s = .ok .handler (s.enteredReal e entry) := by
  rw [attempt_of_real _ h.1, deliverReal_run h]

/-- Settles O39: an attempt that raises an exception leads to the double fault, and one for that to shutdown. -/
theorem undeliverableEvents : Obligations.UndeliverableEvents := by
  refine ⟨fun s e => ⟨fun h0 => ?_, fun hm h h8 => ?_, fun h entry => ?_⟩, fun s e => ?_, fun s ip => ?_⟩
  · exact deliver_shutdown (attempt_limit_zero e h0) (attempt_limit_zero _ h0)
  · exact deliver_shutdown (attempt_beyond hm h) (attempt_beyond (s := s.rollback s) hm h8)
  · intro d u hd
    exact (deliver_exn (attempt_beyond (s := s) hd.1 h)).trans
      (doubleFault_handler (s := s.rollback s) (attempt_enteredReal hd))
  · unfold deliver
    rcases attempt e s with ⟨_ | _ | _, _⟩ | ⟨_ | _ | _, _⟩ <;> rfl
  · unfold doubleFault
    rcases attempt { vector := 8, cls := .fault, err := some 0, ip := ip, restart := ip } s with
      ⟨_ | _ | _, _⟩ | ⟨_ | _ | _, _⟩ <;> rfl

/-! ## The flags of a handler -/

/-- The flags of a handler entered with IF cleared or kept. -/
theorem entered_eq (f : Eflags) (b : Bool) :
    f.entered b = { f with tf := false, rf := false, vm := false, ifl := if b = true then false else f.ifl } := by
  cases b <;> simp [Eflags.entered]

theorem tables_leavesFlags (reads : List (Dword × Nat)) : LeavesFlags id (update fun s => s.noteReads reads) :=
  .update fun s => by simp

theorem switchStack_leavesFlags (g : Config.ProcGate) (n : Nat) (ss : Selector) (esp : Dword) :
    LeavesFlags id (switchStack g n ss esp) := by
  unfold switchStack
  split
  · exact .after (.update fun _ => rfl) fun _ => .after (push_leavesFlags _ _ _) fun _ => push_leavesFlags _ _ _
  · exact .pure _

theorem enterProcedure_flags (g : Config.ProcGate) (e : Event) :
    LeavesFlags (fun f => f.entered g.interrupt) (enterProcedure g e) :=
  .after (.asks _) fun _ => .after (.asks _) fun _ => .after (.asks _) fun _ =>
    .after (tables_leavesFlags _) fun _ => .after (storeBytes_stores _).stacks.leavesFlags fun _ =>
    .before (.update fun _ => rfl) fun _ => .after (switchStack_leavesFlags _ _ _ _) fun _ =>
    .after (push_leavesFlags _ _ _) fun _ => .after (push_leavesFlags _ _ _) fun _ =>
    .after (push_leavesFlags _ _ _) fun _ => .after (pushErr_stacks _ _).leavesFlags fun _ =>
    .after (.update fun _ => rfl) fun _ => .pure _

theorem enterFromV86_flags (g : Config.ProcGate) (e : Event) :
    LeavesFlags (fun f => f.entered g.interrupt) (enterFromV86 g e) :=
  .after (.asks _) fun _ => .after (.asks _) fun _ => .after (.asks _) fun _ =>
    .after (tables_leavesFlags _) fun _ => .after (storeBytes_stores _).stacks.leavesFlags fun _ =>
    .before (.update fun _ => rfl) fun _ =>
    .after (push_leavesFlags _ _ _) fun _ => .after (push_leavesFlags _ _ _) fun _ =>
    .after (push_leavesFlags _ _ _) fun _ => .after (push_leavesFlags _ _ _) fun _ =>
    .after (push_leavesFlags _ _ _) fun _ => .after (push_leavesFlags _ _ _) fun _ =>
    .after (push_leavesFlags _ _ _) fun _ => .after (push_leavesFlags _ _ _) fun _ =>
    .after (push_leavesFlags _ _ _) fun _ => .after (pushErr_stacks _ _).leavesFlags fun _ =>
    .after (.update fun _ => rfl) fun _ => .pure _

/-- Settles O41: of all that a delivery does, one update changes the flags. -/
theorem flagsOnDelivery : Obligations.FlagsOnDelivery := by
  refine fun s t e g => ⟨fun h => ?_, fun h => ?_⟩
  · exact (deliverReal_flags e s _ t h).trans (entered_eq _ true)
  · rcases h with h | h
    · exact (enterProcedure_flags g e s _ t h).trans (entered_eq _ _)
    · exact (enterFromV86_flags g e s _ t h).trans (entered_eq _ _)

/-! ## Through a gate -/

/-- What the gate's answer leads to, in protected mode and in V86 mode. -/
def gateOutcome (v86 : Bool) (e : Event) : Config.GateTransfer → M Attempt
  | .task t => enterTask t e
  | .denied code => pure (.denied code)
  | .fault v code lin => raise (Exn.ofVector v code lin)
  | .procedure g =>
    if v86 then
      if badV86Handler g then pure (.denied (g.cs.selector.setWidth 32)) else enterFromV86 g e
    else enterProcedure g e

/-- Outside real-address mode an event goes through the gate that the open interface answers. -/
theorem attempt_gate {s : State} (e : Event) (hm : s.mode ≠ .real) (h : s.idtr.limit ≠ 0) :
    attempt e s =
      gateOutcome s.like8086 e (Config.gateTransfer s.free e.vector s.level) { s with free := s.free + 1 } := by
  have hg : attempt e s = deliverGate e s := by
    cases hx : s.mode
    · exact absurd hx hm
    · simp [attempt, hx]
    · simp [attempt, hx]
  rw [hg, deliverGate, bind_run, asks_run]
  simp only [if_neg h]
  rfl

theorem badV86Handler_iff (g : Config.ProcGate) : badV86Handler g = true ↔ g.conforming = true ∨ g.dpl ≠ 0 := by
  simp [badV86Handler]

/-- A V86 task's handler that lies in a conforming segment or outside level 0 is refused. -/
theorem gateOutcome_procedure {s : State} (e : Event) (g : Config.ProcGate) :
    gateOutcome true e (.procedure g) s =
      if g.conforming = true ∨ g.dpl ≠ 0 then .ok (.denied (g.cs.selector.setWidth 32)) s else enterFromV86 g e s := by
  simp only [gateOutcome, if_true, badV86Handler_iff]
  split <;> rfl

theorem attempt_v86 {s : State} (e : Event) (hm : s.mode = .v86) (h : s.idtr.limit ≠ 0) :
    attempt e s = gateOutcome true e (Config.gateTransfer s.free e.vector 3) { s with free := s.free + 1 } := by
  rw [attempt_gate e (by simp [hm]) h, level_of_v86 hm, like8086_mode.2 (.inr hm)]

/-- Settles O43: both parts are `attempt_v86` and the definition of `deniedFault`, answer by answer. -/
theorem v86EventsGoThroughTheIdt : Obligations.V86EventsGoThroughTheIdt := by
  refine ⟨fun s e hm hl => ?_, fun s code ip => ?_⟩
  · intro s1
    have ha := attempt_v86 e hm hl
    revert ha
    cases Config.gateTransfer s.free e.vector 3 with
    | procedure g =>
      rw [gateOutcome_procedure]
      exact fun ha => ⟨ha, fun hbad => deliver_denied (ha.trans (if_pos hbad))⟩
    | task t => exact fun ha => ⟨ha, trivial⟩
    | denied code => exact fun ha => ⟨ha, deliver_denied ha⟩
    | fault v code lin => exact fun ha => ⟨ha, trivial⟩
  · unfold deniedFault
    rcases attempt { vector := 13, cls := .fault, err := some code, ip := ip, restart := ip } s with
      ⟨_ | _ | _, _⟩ | ⟨_ | _ | _, _⟩ <;> rfl

/-! ## The frames that a handler finds -/

/-- Several pushes of the processor's own, the first of the list first. -/
def pushImplicit (n : Nat) : List Dword → M Unit
  | [] => pure ()
  | v :: l => do
    push true n v
    pushImplicit n l

theorem pushImplicit_run {n : Nat} {l : List Dword} {s : State} (h : State.canPushAll true n l s) :
    pushImplicit n l s = .ok () (State.pushedAll true n l s) := by
  induction l generalizing s with
  | nil => rfl
  | cons v l ih =>
    rw [pushImplicit, bind_run, push_run true v h.1]
    exact ih h.2

theorem pushedAll_seg (b : Bool) (n : Nat) (l : List Dword) (s : State) :
    (State.pushedAll b n l s).seg = s.seg := by
  obtain ⟨g, m, t, q, h⟩ := pushedAll_same b n l s
  rw [h]

/-- The state in which the frame of a handler at level `cpl` with the stack `ss:esp` is pushed. -/
def State.atHandler (s : State) (g : Config.ProcGate) (cpl : Level) (ss : SegReg) (esp : Dword) : State :=
  { s with flags := s.flags.entered g.interrupt, cpl := cpl, seg := { s.seg with ss := ss },
           gpr := { s.gpr with esp := esp } }

theorem enterFromV86_eq (g : Config.ProcGate) (e : Event) (s : State) :
    enterFromV86 g e s = (do
      update fun s => s.noteReads g.reads
      storeBytes g.stores
      update fun s => s.atHandler g 0 g.ss g.esp
      pushImplicit 4 [s.seg.gs.selector.setWidth 32, s.seg.fs.selector.setWidth 32, s.seg.ds.selector.setWidth 32,
        s.seg.es.selector.setWidth 32, s.seg.ss.selector.setWidth 32, s.gpr.esp, e.image s.flags,
        s.seg.cs.selector.setWidth 32, e.ip]
      pushErr 4 e.err
      update fun s =>
        { s with seg := { s.seg with cs := g.cs, ds := s.seg.ds.loadNull, es := s.seg.es.loadNull,
                                     fs := s.seg.fs.loadNull, gs := s.seg.gs.loadNull },
                 latch := false, eip := g.eip }
      pure Attempt.handler) s := by
  simp only [pushImplicit, bind_assoc, pure_bind]
  rfl

/-- The processor's table accesses leave flags, segments and general registers alone. -/
theorem tables_same {s t : State} {reads : List (Dword × Nat)} {stores : List (Dword × Byte)}
    (h : storeBytes stores (s.noteReads reads) = .ok () t) : t.flags = s.flags ∧ t.seg = s.seg ∧ t.gpr = s.gpr := by
  obtain ⟨hf, hs, hg, -⟩ := stores_flags h
  simp at hf hs hg
  exact ⟨hf, hs, hg⟩

/-- The table accesses, the change to the handler's stack, and the frame there. -/
theorem entryFrame_run {α : Type} {g : Config.ProcGate} {n : Nat} {l : List Dword} {c : Option Dword}
    {f : State → State} {k : M α} {s t u : State} (ht : storeBytes g.stores (s.noteReads g.reads) = .ok () t) (hu : f t = u)
    (hfit : State.canPushAll true n (l ++ c.toList) u) :
    (do update fun s => s.noteReads g.reads
        storeBytes g.stores
        update f
        pushImplicit n l
        pushErr n c
        k) s = k (State.pushedAll true n (l ++ c.toList) u) := by
  rw [canPushAll_append] at hfit
  simp only [bind_run, update_run, ht, hu, pushImplicit_run hfit.1, pushErr_run hfit.2, pushedAll_append]

/-- Bit 17 of a saved image is VM. -/
theorem image_vm (e : Event) (f : Eflags) : (e.image f).getLsbD 17 = f.vm :=
  congrArg Eflags.vm (Eflags.ofWord_toWord (f.image (e.cls = .fault)))

/-- Settles O44: the pushes go to the new stack in one list, and nothing before them changed the old registers. -/
theorem v86ExitFrame : Obligations.V86ExitFrame := by
  intro s t g e hm ht z frame u null hfit
  obtain ⟨hf, hs, hg⟩ := tables_same ht
  have hu : t.atHandler g 0 g.ss g.esp = u := by
    simp only [State.atHandler, hf, hs, hg]
    rfl
  refine ⟨?_, (image_vm e s.flags).trans (mode_v86 hm).2⟩
  rw [enterFromV86_eq, entryFrame_run ht hu hfit]
  simp only [bind_run, update_run, pushedAll_seg]
  rfl

/-! ## The frame of a procedure of protected mode -/

/-- The stack of the old level, which the frame of a more privileged procedure starts with. -/
def oldStack (g : Config.ProcGate) (ss : Selector) (esp : Dword) : List Dword :=
  if g.inner then [ss.setWidth 32, esp] else []

theorem enterProcedure_eq (g : Config.ProcGate) (e : Event) (s : State) :
    enterProcedure g e s = (do
      update fun s => s.noteReads g.reads
      storeBytes g.stores
      update fun s => s.atHandler g g.cpl (if g.inner then g.ss else s.seg.ss) (if g.inner then g.esp else s.gpr.esp)
      pushImplicit (if g.gate32 then 4 else 2) (oldStack g s.seg.ss.selector s.gpr.esp ++
        [e.image s.flags, s.seg.cs.selector.setWidth 32, e.ip])
      pushErr (if g.gate32 then 4 else 2) e.err
      update fun s => { s.setCs g.cs with eip := g.eip }
      pure Attempt.handler) s := by
  cases h : g.inner
  · simp only [oldStack, h, pushImplicit, bind_assoc, pure_bind, List.nil_append, Bool.false_eq_true, if_false,
      enterProcedure, switchStack]
    rfl
  · simp only [oldStack, h, pushImplicit, bind_assoc, pure_bind, List.cons_append, List.nil_append, if_true,
      enterProcedure, switchStack]
    rfl

/-- Settles O45: as in V86 mode, with the old stack only on an inner one. -/
theorem protectedEntryFrame : Obligations.ProtectedEntryFrame := by
  refine ⟨fun s e hm hl => ?_, fun s t g e hm ht => ?_⟩
  · intro s1
    have h8 : s.like8086 = false := by simp [State.like8086, hm]
    rw [attempt_gate e (by simp [hm]) hl, prot_level h8, h8]
    cases Config.gateTransfer s.free e.vector s.cpl <;> rfl
  · intro n z frame u hfit
    obtain ⟨hf, hs, hg⟩ := tables_same ht
    have hu : t.atHandler g g.cpl (if g.inner then g.ss else t.seg.ss) (if g.inner then g.esp else t.gpr.esp) = u := by
      simp only [State.atHandler, hf, hs, hg]
      rfl
    refine (enterProcedure_eq g e s).trans ((entryFrame_run ht hu hfit).trans ?_)
    simp only [bind_run, update_run, State.setCs, pushedAll_seg]
    rfl

end Sys2Proof.Machine
end

section
/-! PROOFS. Settles `TaskSwitchLoadsTheTask`. -/

namespace Sys2Proof.Machine

/-! ## The task that is loaded -/

theorem taskFlags_386 {t : Config.TaskSwitch} (i : TaskImages) (h : t.taskReg.is386 = true) :
    taskFlags t i = Eflags.ofWord i.flags := by
  simp [taskFlags, h]

/-- An 80286 TSS, and the image of a task outside V86 mode, leave VM clear. -/
theorem taskFlags_vm_false {t : Config.TaskSwitch} {i : TaskImages}
    (h : t.taskReg.is386 = false ∨ (Eflags.ofWord i.flags).vm = false) : (taskFlags t i).vm = false := by
  cases hx : t.taskReg.is386
  · rw [taskFlags_286 t i hx]
  · rw [taskFlags_386 i hx]
    simpa [hx] using h

section
variable {s : State} {t : Config.TaskSwitch} {i : TaskImages}

/-- The V86 task that an 80386 TSS with VM = 1 makes. -/
theorem loadTask_v86 (hx : t.taskReg.is386 = true) (hv : (Eflags.ofWord i.flags).vm = true) :
    (s.loadTask t i).cpl = 3 ∧ (s.loadTask t i).eip = zext16 i.eip ∧
      (s.loadTask t i).seg = segs8086 s.seg i.es i.cs i.ss i.ds i.fs i.gs := by
  have hf : (taskFlags t i).vm = true := by rw [taskFlags_386 i hx, hv]
  simp only [loadTask_eq, hf, if_true, and_self]

theorem loadTask_not_v86 (h : t.taskReg.is386 = false ∨ (Eflags.ofWord i.flags).vm = false) :
    (s.loadTask t i).flags.vm = false ∧ (s.loadTask t i).cpl = t.cpl ∧ (s.loadTask t i).eip = i.eip ∧
      (s.loadTask t i).seg = segsOfTask t.segs i := by
  have hf := taskFlags_vm_false h
  simp [loadTask_eq, hf]

theorem loadTask_cr3_none (h : t.cr3 = none) :
    (s.loadTask t i).cr3 = s.cr3 ∧ (s.loadTask t i).tlb = s.tlb := by
  simp [loadTask_eq, h]

theorem loadTask_cr3_some {v : Dword} (h : t.cr3 = some v) :
    (s.loadTask t i).cr3 = v ∧ ∀ k : Fin 32, (s.loadTask t i).tlb[k.val] = { s.tlb[k.val] with v := false } := by
  simp [loadTask_eq, h]

theorem loadTask_dr7 {k : Nat} (h : k < 32) :
    (s.loadTask t i).dr7.getLsbD k = (s.dr7.getLsbD k && !(k = 0 || k = 2 || k = 4 || k = 6)) := by
  have hk := local_bits ⟨k, h⟩
  simp only [beq_eq_decide] at hk
  simp [loadTask_eq, hk, -BitVec.getLsbD_not]

end

/-- In a V86 task every base is the selector times 16. -/
theorem segs8086_base (f : SegFile) (es cs ss ds fs gs : Selector) (r : SReg) :
    ((segs8086 f es cs ss ds fs gs).get r).base =
      ((segs8086 f es cs ss ds fs gs).get r).selector.setWidth 32 <<< 4 := by
  cases r <;> rfl

/-! ## The images that are saved -/

/-- The part of a value that an image of `n` bytes holds. -/
def imageMask (n : Nat) : Dword := BitVec.ofNat 32 (2 ^ (8 * n) - 1)

/-- The size of the images of EIP, EFLAGS and the general registers. -/
def State.imageSize (s : State) : Nat := if s.taskReg.is386 then 4 else 2

theorem saveTask_run {s : State} {image ip : Dword} (hpg : s.cr0.pg = false)
    (hr : ∀ x ∈ s.taskImages image ip, s.ramAt x.2.1 x.1) :
    ∃ t q, saveTask image ip s =
      .ok () { s with mem := s.mem.storeImages (s.taskImages image ip), traps := t, quiet := q } := by
  rw [saveTask, bind_run, asks_run]
  exact storeImages_run hpg hr

/-- The general registers cut to the size of an image. -/
def GRegs.cut (g : GRegs) (m : Dword) : GRegs :=
  { eax := g.eax &&& m, ecx := g.ecx &&& m, edx := g.edx &&& m, ebx := g.ebx &&& m, esp := g.esp &&& m,
    ebp := g.ebp &&& m, esi := g.esi &&& m, edi := g.edi &&& m }

@[simp] theorem GRegs.get_cut (g : GRegs) (m : Dword) (r : Reg) : (g.cut m).get r = g.get r &&& m := by
  cases r <;> rfl

theorem and_imageMask_four (v : Dword) : v &&& imageMask 4 = v := BitVec.and_allOnes

theorem and_imageMask_two (v : Dword) : v &&& imageMask 2 = zext16 v := by
  apply BitVec.eq_of_toNat_eq
  rw [BitVec.toNat_and, zext16_toNat]
  exact Nat.and_two_pow_sub_one_eq_mod v.toNat 16

theorem GRegs.cut_four (g : GRegs) : g.cut (imageMask 4) = g := by
  simp [GRegs.cut, and_imageMask_four]

theorem low16_eq (v : Dword) : low16 v = v.setWidth 16 := (BitVec.setWidth_eq_extractLsb' (by decide)).symm

theorem low16_zext16 (v : Dword) : low16 (zext16 v) = low16 v := by simp [low16_eq, zext16]

theorem low16_selector (w : Word) : low16 (w.setWidth 32 &&& imageMask 2) = w := by
  simp [and_imageMask_two, low16_eq, zext16]

/-! ## Reading them back -/

/-- What the TSS that was saved shows of a register image. -/
theorem load_image {s : State} {image ip : Dword} (hap : imagesApart (s.taskImages image ip)) {n : Nat} {a v : Dword}
    (hx : (n, a, v) ∈ s.taskImages image ip) (hn : n ≤ 4) :
    (s.mem.storeImages (s.taskImages image ip)).load n a = some (v &&& imageMask n) :=
  Memory.load_storeImages hap hx hn

theorem imageSize_le (s : State) : s.imageSize ≤ 4 := by
  unfold State.imageSize
  split <;> omega

theorem taskImages_reg (s : State) (image ip : Dword) (r : Reg) :
    (s.imageSize, s.taskReg.base + (tssLayout s.params s.taskReg.is386).gprs.get r, s.gpr.get r) ∈
      s.taskImages image ip := by
  cases r <;> simp [State.taskImages, State.imageSize, GRegs.get]

/-- The debug mark of an 80386 TSS lies outside the images. -/
theorem load_mark {s : State} {l : List (Nat × Dword × Dword)} {b w : Dword} (hw : s.mem.load 2 b = some w)
    (hout : ∀ x ∈ l, outside x.2.1 x.1 b ∧ outside x.2.1 x.1 (b + 1)) :
    (s.mem.storeImages l).load 2 b = some w := by
  rw [Memory.load_storeImages_outside, hw]
  intro x hx i hi
  obtain ⟨h0, h1⟩ := hout x hx
  interval_cases i
  · simpa using h0
  · exact h1

/-- A task that was saved reads back: what an image of its size holds. -/
theorem readTask_saved {s : State} {t : Config.TaskSwitch} {image ip w : Dword} {tr q : Dword} (hpg : s.cr0.pg = false)
    (hap : imagesApart (s.taskImages image ip)) (ht : t.taskReg = s.taskReg)
    (hmark : s.taskReg.is386 = true → s.mem.load 2 (s.taskReg.base + 0x64) = some w ∧
      ∀ x ∈ s.taskImages image ip, outside x.2.1 x.1 (s.taskReg.base + 0x64) ∧
        outside x.2.1 x.1 (s.taskReg.base + 0x65)) :
    ∃ x v, readTask t { s with mem := s.mem.storeImages (s.taskImages image ip), traps := tr, quiet := q } = .ok x v ∧
      x.eip = ip &&& imageMask s.imageSize ∧ x.flags = image &&& imageMask s.imageSize ∧
      x.es = s.seg.es.selector ∧ x.cs = s.seg.cs.selector ∧ x.ss = s.seg.ss.selector ∧ x.ds = s.seg.ds.selector ∧
      (s.taskReg.is386 = true → x.gprs = s.gpr.cut (imageMask s.imageSize) ∧ x.fs = s.seg.fs.selector ∧
        x.gs = s.seg.gs.selector ∧ x.mark = w.getLsbD 0) ∧
      (s.taskReg.is386 = false →
        (∀ r, low16 (x.gprs.get r) = low16 ((s.gpr.cut (imageMask s.imageSize)).get r)) ∧ x.mark = false) := by
  have hread := readTask_run (t := t) (ip := ip &&& imageMask s.imageSize) (image := image &&& imageMask s.imageSize)
    (es := s.seg.es.selector.setWidth 32 &&& imageMask 2) (cs := s.seg.cs.selector.setWidth 32 &&& imageMask 2)
    (ss := s.seg.ss.selector.setWidth 32 &&& imageMask 2) (ds := s.seg.ds.selector.setWidth 32 &&& imageMask 2)
    (fs := s.seg.fs.selector.setWidth 32 &&& imageMask 2) (gs := s.seg.gs.selector.setWidth 32 &&& imageMask 2)
    (w := w) (g := s.gpr.cut (imageMask s.imageSize))
    (s := { s with mem := s.mem.storeImages (s.taskImages image ip), traps := tr, quiet := q }) hpg
  simp only [ht, low16_selector] at hread
  obtain ⟨x, f, tr', q', hrun, hx⟩ := hread
    (load_image hap (by simp [State.taskImages]) (imageSize_le s))
    (load_image hap (by simp [State.taskImages]) (imageSize_le s))
    (fun r => (load_image hap (taskImages_reg s image ip r) (imageSize_le s)).trans (by rw [GRegs.get_cut]))
    (load_image hap (by simp [State.taskImages]) (by decide)) (load_image hap (by simp [State.taskImages]) (by decide))
    (load_image hap (by simp [State.taskImages]) (by decide)) (load_image hap (by simp [State.taskImages]) (by decide))
    (fun h386 => ⟨load_image hap (by simp [State.taskImages, h386]) (by decide),
      load_image hap (by simp [State.taskImages, h386]) (by decide),
      load_mark (hmark h386).1 (by simpa [BitVec.add_assoc] using (hmark h386).2)⟩)
  exact ⟨x, _, hrun, hx⟩

/-! ## The images a delivery saves -/

/-- Bit 16 of the image that a fault saves is set. -/
theorem image_rf {e : Event} (f : Eflags) (h : e.cls = .fault) : (e.image f).getLsbD 16 = true := by
  have hb : (e.image f).getLsbD 16 = (f.image (e.cls = .fault)).rf :=
    congrArg Eflags.rf (Eflags.ofWord_toWord (f.image (e.cls = .fault)))
  simp [hb, Eflags.image, h]

theorem cut_386 {s : State} (h : s.taskReg.is386 = true) (v : Dword) : v &&& imageMask s.imageSize = v := by
  simp only [State.imageSize, h, if_true, and_imageMask_four]

theorem cut_286 {s : State} (h : s.taskReg.is386 = false) (v : Dword) : v &&& imageMask s.imageSize = zext16 v := by
  simp only [State.imageSize, h, Bool.false_eq_true, if_false, and_imageMask_two]

theorem gprs_cut_386 {s : State} (h : s.taskReg.is386 = true) : s.gpr.cut (imageMask s.imageSize) = s.gpr := by
  simp only [GRegs.cut, cut_386 h]

/-- Settles O46: what is loaded is read off `loadTask_eq`, and what is saved reads back from memory. -/
theorem taskSwitchLoadsTheTask : Obligations.TaskSwitchLoadsTheTask := by
  refine ⟨fun s t i => ?_, fun s image ip hpg => ?_, fun s t e => ?_⟩
  · intro f u
    obtain ⟨htraps, hgpr, -, hflags⟩ := loadTask_traps s t i
    refine ⟨fun h => hflags.trans (taskFlags_386 i h), fun h => hflags.trans (taskFlags_286 t i h), fun hx hv => ?_,
      loadTask_not_v86, hgpr, ?_, ?_, ?_, loadTask_cr3_none, fun v => loadTask_cr3_some, fun k => loadTask_dr7, htraps⟩
    · obtain ⟨hcpl, heip, hseg⟩ := loadTask_v86 (s := s) hx hv
      simp only [u, hcpl, heip, hseg, segs8086_base]
      exact ⟨trivial, trivial, ⟨rfl, rfl, rfl, rfl, rfl, rfl⟩, fun _ => trivial⟩
    all_goals simp [u, loadTask_eq]
  · intro b l z words all hr
    have hall : s.taskImages image ip = all := by
      cases h : s.taskReg.is386 <;> simp [State.taskImages, all, words, tssLayout, h, b, l, z]
    rw [← hall] at hr ⊢
    obtain ⟨tr, q, hsave⟩ := saveTask_run hpg hr
    refine ⟨⟨_, hsave, rfl⟩, fun hap t w ht hmark => ?_⟩
    obtain ⟨x, v, hread, heip, hfl, hes, hcs, hss, hds, h386, h286⟩ := readTask_saved hpg hap ht hmark
    refine ⟨_, x, v, hsave, hread, ⟨hes, hcs, hss, hds⟩, fun hx => ?_, fun hx => ?_⟩
    · obtain ⟨hg, hfs, hgs, hm⟩ := h386 hx
      rw [cut_386 hx] at heip hfl
      rw [gprs_cut_386 hx] at hg
      refine ⟨heip, hfl, hg, hfs, hgs, hm, fun hvm => ?_⟩
      have hx' : t.taskReg.is386 = true := by rw [ht, hx]
      have hv : (Eflags.ofWord x.flags).vm = true := by rw [hfl]; exact hvm
      obtain ⟨hcpl, hpc, hseg⟩ := loadTask_v86 (s := v) hx' hv
      refine ⟨?_, hcpl, hpc.trans (by rw [heip]), fun r => ?_⟩
      · rw [(loadTask_traps v t x).2.2.2, taskFlags_386 x hx', hv]
      · rw [hseg, hes, hcs, hss, hds, hfs, hgs]
        cases r <;> rfl
    · obtain ⟨hg, hm⟩ := h286 hx
      rw [cut_286 hx] at heip hfl
      exact ⟨heip, hfl, hm, fun r => (hg r).trans (by rw [GRegs.get_cut, cut_286 hx, low16_zext16])⟩
  · exact ⟨rfl, fun _ => rfl, fun _ _ => rfl, rfl, fun _ _ => rfl, fun hv => (image_vm e _).trans hv, image_rf _⟩

end Sys2Proof.Machine
end

section
/-! PROOFS. Settles `IretInRealMode`, `IretInProtectedMode` and `IretSetsVmOnlyAtLevelZero`. -/

namespace Sys2Proof.Machine

/-! ## Real-address mode -/

theorem iretBody_real {s : State} (sz : OpSize) (hm : s.mode = .real) : iretBody sz s = iretReal sz s := by
  simp [iretBody, hm]

/-- A pop of an IRET that passes the end of the stack is refused, whichever of the three it is. -/
theorem iretReal_past {s : State} {sz : OpSize} {l : List Dword} (hm : s.mode = .real) (hl : l.length < 3)
    (hp : State.canPopAll (sizeBytes sz) l s)
    (hend : 0x10000 < (State.poppedAll (sizeBytes sz) l.length s).sp.toNat + sizeBytes sz) :
    iretBody sz s = .error (.refused .pastSegmentEnd) (State.poppedAll (sizeBytes sz) l.length s) := by
  have h8 : (State.poppedAll (sizeBytes sz) l.length s).like8086 = true := by
    obtain ⟨g, t, q, h⟩ := poppedAll_same (sizeBytes sz) l.length s
    rw [h]
    exact like8086_mode.2 (.inl hm)
  have hpast := pop_past h8 hend
  rw [iretBody_real sz hm, iretReal]
  match l with
  | [] =>
    simp only [State.poppedAll, List.length_nil] at hpast ⊢
    simp only [bind_run, hpast]
  | [_] =>
    obtain ⟨h1, -⟩ := hp
    simp only [State.poppedAll, List.length_cons, List.length_nil] at hpast ⊢
    simp only [bind_run, pop_run h1, hpast]
  | [_, _] =>
    obtain ⟨h1, h2, -⟩ := hp
    simp only [State.poppedAll, List.length_cons, List.length_nil] at hpast ⊢
    simp only [bind_run, pop_run h1, pop_run h2, hpast]

theorem iretRealEnd_eq (s : State) (n : Nat) (sel : Selector) (off : Dword) (f : Eflags) :
    iretRealEnd s n sel off f = complete s true
      { State.poppedAll n 3 s with seg := { s.seg with cs := s.seg.cs.load8086 sel }, latch := false, eip := off,
                                   flags := f } := by
  obtain ⟨g, t, q, h⟩ := poppedAll_same n 3 s
  rw [iretRealEnd, h]
  rfl

/-- Settles O47. -/
theorem iretInRealMode : Obligations.IretInRealMode := by
  intro s off sel fl hm hs ho f cs
  refine ⟨fun hp => ?_, fun hp => ?_, fun l hl => ⟨fun hp hend => ?_, fun hp hend => ?_⟩⟩
  · rw [exec_iret_real (sz := .w16) hs hm hp ho, iretRealEnd_eq]
    rfl
  · rw [exec_iret_real (sz := .w32) hs hm hp ho, iretRealEnd_eq]
    rfl
  · exact runInstr_refused (stale_call hs) (iretReal_past (sz := .w16) hm hl hp hend)
  · exact runInstr_refused (stale_call hs) (iretReal_past (sz := .w32) hm hl hp hend)

/-! ## Protected mode -/

/-- An IRET of protected mode with NT = 0 pops three items, and enters V86 mode or returns within protected mode. -/
theorem iretBody_prot {s : State} {sz : OpSize} {off sel fl : Dword} (hm : s.mode = .prot) (hnt : s.flags.nt = false)
    (hp : State.canPopAll (sizeBytes sz) [off, sel, fl] s) :
    iretBody sz s =
      (if sz = .w32 && (Eflags.ofWord fl).vm && s.level = 0 then iretToV86 off sel fl else iretWithin sz off sel fl)
        (State.poppedAll (sizeBytes sz) 3 s) := by
  obtain ⟨h1, h2, h3, -⟩ := hp
  have hlvl : (((s.popped (sizeBytes sz)).popped (sizeBytes sz)).popped (sizeBytes sz)).level = s.level :=
    level_popped s (sizeBytes sz) 3
  simp only [iretBody, iretProt, bind_run, asks_run, hm, hnt, Bool.false_eq_true, if_false, pop_run h1, pop_run h2,
    pop_run h3, hlvl, State.poppedAll]

/-- The change that entering V86 mode makes once the nine items are popped. -/
def State.enterV86 (s : State) (off sel fl esp ss es ds fs gs : Dword) : State :=
  { s with flags := Eflags.ofWord fl, eip := zext16 off, cpl := 3, latch := false,
           seg := segs8086 s.seg (low16 es) (low16 sel) (low16 ss) (low16 ds) (low16 fs) (low16 gs),
           gpr := { s.gpr with esp := esp } }

theorem iretToV86_run {s : State} {off sel fl esp ss es ds fs gs : Dword}
    (hp : State.canPopAll 4 [esp, ss, es, ds, fs, gs] s) :
    iretToV86 off sel fl s = .ok true ((State.poppedAll 4 6 s).enterV86 off sel fl esp ss es ds fs gs) := by
  obtain ⟨h1, h2, h3, h4, h5, h6, -⟩ := hp
  simp only [iretToV86, bind_run, pop_run h1, pop_run h2, pop_run h3, pop_run h4, pop_run h5, pop_run h6, update_run,
    pure_run, State.poppedAll, State.enterV86]

/-- IRETD at level 0 with VM = 1 in the image. -/
theorem iretBody_toV86 {s : State} {off sel fl esp ss es ds fs gs : Dword} (hm : s.mode = .prot) (hl : s.level = 0)
    (hnt : s.flags.nt = false) (hvm : fl.getLsbD 17 = true)
    (hp : State.canPopAll 4 [off, sel, fl, esp, ss, es, ds, fs, gs] s) :
    iretBody .w32 s = .ok true ((State.poppedAll 4 9 s).enterV86 off sel fl esp ss es ds fs gs) := by
  obtain ⟨h1, h2, h3, hrest⟩ := hp
  have hv : (Eflags.ofWord fl).vm = true := hvm
  rw [iretBody_prot (sz := .w32) hm hnt ⟨h1, h2, h3, trivial⟩, if_pos (by simp [hl, hv])]
  exact iretToV86_run hrest

theorem enterV86_popped (s : State) (n k : Nat) (off sel fl esp ss es ds fs gs : Dword) :
    (State.poppedAll n k s).enterV86 off sel fl esp ss es ds fs gs =
      { State.poppedAll n k s with
        flags := Eflags.ofWord fl, eip := zext16 off, cpl := 3, latch := false,
        seg := segs8086 s.seg (low16 es) (low16 sel) (low16 ss) (low16 ds) (low16 fs) (low16 gs),
        gpr := { s.gpr with esp := esp } } := by
  obtain ⟨g, t, q, h⟩ := poppedAll_same n k s
  rw [State.enterV86, h]

/-- What the open interface's answer leads to, for a return within protected mode. -/
def returnOutcome (sz : OpSize) : Config.FarReturn → M Bool
  | .code c outer => do
    farTables c
    iretStack (sizeBytes sz) outer
    update fun s => s.farToCode c
    pure true
  | .fault v code lin => raise (Exn.ofVector v code lin)

theorem iretWithin_eq (sz : OpSize) (off sel fl : Dword) (s : State) :
    iretWithin sz off sel fl s =
      returnOutcome sz (Config.farReturn s.free (low16 sel) off s.level)
        { s with flags := s.flags.iretProt sz fl, free := s.free + 1 } := rfl

/-- Any other return with NT = 0 asks the open interface. -/
theorem iretBody_within {s : State} {sz : OpSize} {off sel fl : Dword} (hm : s.mode = .prot) (hnt : s.flags.nt = false)
    (hv : sz = .w16 ∨ fl.getLsbD 17 = false ∨ s.level ≠ 0) (hp : State.canPopAll (sizeBytes sz) [off, sel, fl] s) :
    iretBody sz s =
      returnOutcome sz (Config.farReturn s.free (low16 sel) off s.level)
        { State.poppedAll (sizeBytes sz) 3 s with flags := s.flags.iretProt sz fl, free := s.free + 1 } := by
  have hf : (Eflags.ofWord fl).vm = fl.getLsbD 17 := rfl
  have hno : ¬ (decide (sz = .w32) && (Eflags.ofWord fl).vm && decide (s.level = 0)) = true := by
    simp only [Bool.and_eq_true, decide_eq_true_eq, hf]
    rintro ⟨⟨rfl, hvm⟩, h0⟩
    rcases hv with h | h | h
    · cases h
    · exact absurd (h.symm.trans hvm) Bool.false_ne_true
    · exact h h0
  rw [iretBody_prot hm hnt hp, if_neg hno, iretWithin_eq, level_popped]
  rfl

section
variable {s u v : State} {sz : OpSize} {c : Config.FarCode}

theorem farTables_run {r : EStateM.Result Stop State Unit} (h : storeBytes c.stores (u.noteReads c.reads) = r) :
    farTables c u = r := h

/-- The return to the same level. -/
theorem returnOutcome_same (h : storeBytes c.stores (u.noteReads c.reads) = .ok () v) :
    returnOutcome sz (.code c none) u = .ok true (v.farToCode c) := by
  simp only [returnOutcome, bind_run, farTables_run h, iretStack, pure_run, update_run]

/-- The return to a less privileged level, whose ESP and SS are popped. -/
theorem returnOutcome_outer {ss : SegReg} {esp sel : Dword} (h : storeBytes c.stores (u.noteReads c.reads) = .ok () v)
    (hp : State.canPopAll (sizeBytes sz) [esp, sel] v) :
    returnOutcome sz (.code c (some ss)) u =
      let w : State := State.poppedAll (sizeBytes sz) 2 v
      let x : State := { w with seg := w.seg.set .ss { ss with selector := low16 sel } }
      .ok true ((x.setSp esp).farToCode c) := by
  obtain ⟨h1, h2, -⟩ := hp
  simp only [returnOutcome, bind_run, farTables_run h, iretStack, pop_run h1, pop_run h2, pure_run, update_run,
    State.poppedAll]

theorem returnOutcome_error {e : Stop} {outer : Option SegReg}
    (h : storeBytes c.stores (u.noteReads c.reads) = .error e v) :
    returnOutcome sz (.code c outer) u = .error e v := by
  simp only [returnOutcome, bind_run, farTables_run h]

end

/-- The flags of a return within protected mode. -/
theorem iretProt_flags (f : Eflags) (sz : OpSize) (w : Dword) :
    f.iretProt sz w = match sz with
      | .w16 => { Eflags.ofWord w with rf := f.rf, vm := f.vm }
      | .w32 => { Eflags.ofWord w with vm := f.vm } := by
  cases sz <;> rfl

/-- How an IRET ends whose body answers an error. -/
theorem exec_iret_error {s v : State} {sz : OpSize} {e : Stop} (hs : s.prefetchStale = false)
    (h : iretBody sz s = .error e v) : exec (.iret sz) s = ended s (.error e v) := by
  refine (runInstr_run _ (stale_call hs)).trans ?_
  rw [h]
  cases e <;> rfl

/-- What the open interface's answer leads to, for a return to another task. -/
def taskReturnOutcome : Config.TaskReturn → M Bool
  | .task k => do
    instrTaskSwitch k
    pure true
  | .fault x code lin => raise (Exn.ofVector x code lin)

/-- With NT = 1 a task is returned to. -/
theorem iretBody_task {s : State} (sz : OpSize) (hm : s.mode = .prot) (hnt : s.flags.nt = true) :
    iretBody sz s = taskReturnOutcome (Config.taskReturn s.free) { s with free := s.free + 1 } := by
  simp only [iretBody, iretProt, bind_run, asks_run, hm, hnt, if_true, drawIndex_run]
  cases Config.taskReturn s.free <;> rfl

/-- Settles O48. -/
theorem iretInProtectedMode : Obligations.IretInProtectedMode := by
  refine ⟨fun s off sel fl esp ss es ds fs gs hm hl hnt hs hvm hp => ?_, fun s sz off sel fl hm hnt hs hv hp => ?_,
    fun s sz hm hnt hs => ?_⟩
  · exact runInstr_ok (stale_call hs) ((iretBody_toV86 hm hl hnt hvm hp).trans (by rw [enterV86_popped]; rfl))
  · intro n t f u arrive
    have hb := iretBody_within hm hnt hv hp
    rw [iretProt_flags] at hb
    change iretBody sz s = returnOutcome sz _ u at hb
    cases hr : Config.farReturn s.free (low16 sel) off s.level with
    | fault x code lin => exact exec_iret_error hs (hb.trans (by rw [hr]; rfl))
    | code c outer =>
      rw [hr] at hb
      dsimp only
      cases hst : storeBytes c.stores (u.noteReads c.reads) with
      | error e v =>
        have hx := exec_iret_error hs (hb.trans (returnOutcome_error hst))
        cases e <;> exact hx
      | ok a v =>
        cases outer with
        | none => exact runInstr_ok (stale_call hs) (hb.trans (returnOutcome_same hst))
        | some ss =>
          intro esp sel' hpop
          exact runInstr_ok (stale_call hs) (hb.trans (returnOutcome_outer hst hpop))
  · intro u
    have hb := iretBody_task sz hm hnt
    cases hr : Config.taskReturn s.free with
    | fault x code lin => exact exec_iret_error hs (hb.trans (by rw [hr]; rfl))
    | task k =>
      rw [hr] at hb
      change iretBody sz s = (instrTaskSwitch k >>= fun _ => pure true) u at hb
      rw [bind_run] at hb
      dsimp only
      cases hsw : instrTaskSwitch k u with
      | ok a v => exact runInstr_ok (stale_call hs) (hb.trans (by rw [hsw]; rfl))
      | error e v =>
        have hx := exec_iret_error hs (hb.trans (by rw [hsw]))
        cases e <;> exact hx

/-! ## VM -/

/-- A computation that completes leaves VM as it was. -/
def KeepsVm {α : Type} (m : M α) : Prop := ∀ s a t, m s = .ok a t → t.flags.vm = s.flags.vm

section
variable {α β : Type}

theorem KeepsVm.bind {m : M α} {k : α → M β} (hm : KeepsVm m) (hk : ∀ a, KeepsVm (k a)) : KeepsVm (m >>= k) :=
  fun s b t e => by
    obtain ⟨a, s1, e1, e2⟩ := bind_ok e
    rw [hk a s1 b t e2, hm s a s1 e1]

theorem LeavesFlags.keepsVm {m : M α} (h : LeavesFlags id m) : KeepsVm m :=
  fun s a t e => congrArg Eflags.vm (h s a t e)

theorem KeepsVm.update {f : State → State} (h : ∀ s, (f s).flags.vm = s.flags.vm) : KeepsVm (update f) :=
  fun s _ _ e => by cases e; exact h s

end

theorem pop_keepsVm (n : Nat) : KeepsVm (pop n) := (pop_stacks n).leavesFlags.keepsVm

theorem iretReal_vm (f : Eflags) (sz : OpSize) (w : Dword) : (f.iretReal sz w).vm = f.vm := by cases sz <;> rfl

theorem iretProt_vm (f : Eflags) (sz : OpSize) (w : Dword) : (f.iretProt sz w).vm = f.vm := by cases sz <;> rfl

theorem iretReal_keepsVm (sz : OpSize) : KeepsVm (iretReal sz) :=
  .bind (pop_keepsVm _) fun _ => .bind (pop_keepsVm _) fun _ => .bind (pop_keepsVm _) fun _ =>
    .bind (fun _ _ _ e => by rw [(checkTarget_ok e).1]) fun _ =>
    .bind (.update fun _ => iretReal_vm _ _ _) fun _ => (LeavesFlags.pure _).keepsVm

theorem iretStack_keepsVm (n : Nat) (outer : Option SegReg) : KeepsVm (iretStack n outer) := by
  cases outer with
  | none => exact (LeavesFlags.pure _).keepsVm
  | some ss =>
    exact .bind (pop_keepsVm _) fun _ => .bind (pop_keepsVm _) fun _ => .bind (.update fun _ => rfl) fun _ =>
      .update fun _ => rfl

theorem iretWithin_keepsVm (sz : OpSize) (off sel fl : Dword) : KeepsVm (iretWithin sz off sel fl) := by
  refine .bind (fun _ _ _ e => by cases e; rfl) fun n => .bind (LeavesFlags.asks _).keepsVm fun lvl =>
    .bind (.update fun _ => iretProt_vm _ _ _) fun _ => ?_
  split
  · exact .bind (farTables_stores _).stacks.leavesFlags.keepsVm fun _ => .bind (iretStack_keepsVm _ _) fun _ =>
      .bind (.update fun _ => rfl) fun _ => (LeavesFlags.pure _).keepsVm
  · exact fun _ _ _ e => nomatch e

theorem Stacks.level {α : Type} {m : M α} {s t : State} {a : α} (h : Stacks m) (e : m s = .ok a t) :
    t.level = s.level := by
  rw [State.level, State.level, h.mode e, h.cpl e]

/-- Outside level 0, and with a 16-bit image, a return of protected mode with NT = 0 leaves VM. -/
theorem iretProt_vm_only {s t : State} {sz : OpSize} {b : Bool} (hnt : s.flags.nt = false)
    (h : iretProt sz s = .ok b t) : (s.level = 0 ∧ sz = .w32) ∨ t.flags.vm = s.flags.vm := by
  unfold iretProt at h
  rw [bind_run, asks_run] at h
  simp only [hnt, Bool.false_eq_true, if_false] at h
  obtain ⟨off, s1, h1, h⟩ := bind_ok h
  obtain ⟨sel, s2, h2, h⟩ := bind_ok h
  obtain ⟨fl, s3, h3, h⟩ := bind_ok h
  obtain ⟨lvl, s4, h4, h⟩ := bind_ok h
  cases h4
  have hl : s3.level = s.level :=
    ((pop_stacks _).level h3).trans (((pop_stacks _).level h2).trans ((pop_stacks _).level h1))
  have hv : s3.flags.vm = s.flags.vm := by
    rw [pop_keepsVm _ _ _ _ h3, pop_keepsVm _ _ _ _ h2, pop_keepsVm _ _ _ _ h1]
  split at h
  · next hc =>
    simp only [Bool.and_eq_true, decide_eq_true_eq, hl] at hc
    exact .inl ⟨hc.2, hc.1.1⟩
  · exact .inr ((iretWithin_keepsVm _ _ _ _ _ _ _ h).trans hv)

theorem iretBody_v86 {s : State} (sz : OpSize) (hm : s.mode = .v86) :
    iretBody sz s = .error (.refused .iretInV86) s := by
  simp [iretBody, hm]

/-- Settles O49: only the entry to V86 mode sets VM, and it asks for level 0 and a 32-bit image. -/
theorem iretSetsVmOnlyAtLevelZero : Obligations.IretSetsVmOnlyAtLevelZero := by
  refine ⟨fun s t sz rf hnt h hvm => ?_, fun s sz hm hs => runInstr_refused (stale_call hs) (iretBody_v86 sz hm)⟩
  cases hm : s.mode with
  | real =>
    rw [iretBody_real sz hm] at h
    have ht : t.flags.vm = false := (iretReal_keepsVm sz s rf t h).trans hvm
    simp [ht]
  | v86 =>
    rw [iretBody_v86 sz hm] at h
    cases h
  | prot =>
    have hnt : s.flags.nt = false := hnt.resolve_right (by simp [hm])
    have hb : iretBody sz s = iretProt sz s := by simp [iretBody, hm]
    rcases iretProt_vm_only hnt (hb ▸ h) with ⟨h0, hsz⟩ | hkeep
    · exact ⟨fun _ => ⟨h0, rfl, hsz⟩, fun hl => absurd h0 hl⟩
    · simp [hkeep.trans hvm]

end Sys2Proof.Machine
end

section
/-! PROOFS. Settles `StepRunsDecodedInstruction`, `EventsAreTakenInOrder`, `ResetEventSetsGivenValues`,
`InitialModeAndMasks`, `EflagsWordLayout` and `ShutdownIsLeftOnlyByReset`. -/

namespace Sys2Proof.Machine

/-! ## The step that runs an instruction -/

theorem step_of_run {s t : State} {i : Instr} (h : boundary s = .run i t) : step s = exec i t := by
  simp [step, h]

/-- Settles O3. -/
theorem stepRunsDecodedInstruction : Obligations.StepRunsDecodedInstruction := by
  refine ⟨fun s bs i n hgo hpg hd _ hn hc => step_runs_code hgo hpg hd hn hc, fun s t i n hgo hf => ?_⟩
  refine step_of_run ((goesOn_boundary hgo).trans ?_)
  simp only [fetchStep, hf]

/-! ## The order of events -/

/-- A running processor that the environment does not reset looks at its events. -/
theorem boundary_takeInput {s : State} (hr : s.run = .running) (hp : ∀ p ∈ s.inputs.head?, p.reset = none) :
    boundary s = eventStep s.takeInput.2 := by
  cases hi : s.inputs with
  | nil => rw [boundary_running hr hi, takeInput_nil hi]
  | cons p rest =>
    rw [boundary_presented hr hi (hp p (by simp only [hi, List.head?_cons, Option.mem_some])), State.takeInput]
    simp only [hi] <;> rfl

theorem not_hit {s : State} (h : ¬(s.flags.rf = false ∧ fetchHits s s.linPc ≠ 0)) :
    s.flags.rf = true ∨ fetchHits s s.linPc = 0 := by
  cases hrf : s.flags.rf
  · exact .inr (by simpa [hrf] using h)
  · exact .inl rfl

theorem external_intr {s : State} {v : Vec} (h : s.nmi = false) (hi : s.intr = some v) (hif : s.flags.ifl = true) :
    s.external = some (v, { s with intr := none }) := by
  simp [State.external, h, hi, hif]

theorem externalStep_some {s t : State} {v : Vec} (h : s.external = some (v, t)) :
    externalStep s = .done (deliverExternal v t) := by
  simp [externalStep, h]

/-- A step whose boundary is the fetch. -/
theorem step_of_fetch {s w : State} (h : boundary s = fetchStep w) :
    step s =
      match fetchInstr w with
      | .ok (i, n) t => exec i { t with next := t.advance n }
      | .error (.exn x) t => takeFault x w t
      | .error (.fault f) _ => .fault f
      | .error (.refused r) _ => .refused r := by
  rw [step, h, fetchStep]
  rcases fetchInstr w with ⟨⟨i, n⟩, t⟩ | ⟨_ | _ | _, t⟩ <;> rfl

theorem deliverExternal_eq (v : Vec) (t : State) :
    deliverExternal v t =
      match deliver { vector := v, cls := .interrupt, err := none, ip := t.eip, restart := t.eip } t with
      | .next (_, u) => .next u
      | .fault f => .fault f
      | .refused r => .refused r := by
  unfold deliverExternal
  rcases deliver { vector := v, cls := .interrupt, err := none, ip := t.eip, restart := t.eip } t with
    ⟨x, u⟩ | f | r <;> rfl

/-- Settles O5: `eventStep`, clause by clause, in the state that what is presented has joined. -/
theorem eventsAreTakenInOrder : Obligations.EventsAreTakenInOrder := by
  refine ⟨fun s hr hp => ?_, deliverExternal_eq⟩
  intro u hit
  have hu : s.takeInput.2 = u := by
    simp only [State.takeInput, u]
    cases s.inputs <;> rfl
  have hb := boundary_takeInput hr hp
  rw [hu] at hb
  refine ⟨fun hh ht => step_of_done (hb.trans (eventStep_trapped hh ht)), fun hh hhit => ?_,
    fun hh ht hno hn => ?_, fun v hh ht hno hn hi hif => ?_, fun hno hgo => ⟨⟨rfl, rfl, rfl, rfl⟩, ?_⟩⟩
  · obtain ⟨k, hk⟩ := eventStep_untrapped hh
    exact step_of_done (hb.trans (hk.trans (breakpoint_hit (s := u.pastEvents) hhit)))
  · rw [eventStep_external hh ht (not_hit hno), externalStep_some (external_nmi (s := { u with quiet := 0 }) hn)] at hb
    exact step_of_done hb
  · rw [eventStep_external hh ht (not_hit hno),
      externalStep_some (external_intr (s := { u with quiet := 0 }) hn hi hif)] at hb
    exact step_of_done hb
  · have h3 : u.holdOff = true ∨ (u.traps = 0 ∧ u.external = none) :=
      hgo.imp_right fun ⟨ht, hn, hi⟩ => ⟨ht, external_none hn hi⟩
    exact step_of_fetch (hb.trans (eventStep_goesOn h3 (not_hit hno)))

/-! ## RESET -/

theorem takeInput_cons {s : State} {p : Presented} {rest : List Presented} (hi : s.inputs = p :: rest) :
    s.takeInput.1 = p.reset ∧ s.takeInput.2.mem = s.mem ∧ s.takeInput.2.map = s.map ∧
      s.takeInput.2.params = s.params ∧ s.takeInput.2.inputs = rest := by
  simp [State.takeInput, hi]

/-- RESET is taken in every state, shutdown included. -/
theorem step_reset {s : State} {q : Config.ResetParams} (h : s.takeInput.1 = some q) :
    step s = .next (s.takeInput.2.resetEvent q) := by
  refine step_of_done ?_
  unfold boundary
  generalize s.takeInput = x at h ⊢
  obtain ⟨o, u⟩ := x
  cases h
  rfl

theorem resetEax_failed (c : Dword) : resetEax (.failed c) ≠ 0 := by
  change (if c = 0 then 1 else c) ≠ 0
  split
  · decide
  · assumption

theorem resetEdx_bytes (b : Byte) : high8 (resetEdx b) = 3 ∧ low8 (resetEdx b) = b := by
  constructor
  · unfold high8 resetEdx
    rw [BitVec.extractLsb'_append_eq_of_le (by decide)]
    decide
  · unfold low8 resetEdx
    rw [BitVec.extractLsb'_append_eq_right]

theorem resetEvent_flags (q : Config.ResetParams) (s : State) : (s.resetEvent q).flags.toWord = 2 := by
  have h : (s.resetEvent q).flags = State.reset.flags := rfl
  rw [h]
  decide

theorem resetEvent_tlb (q : Config.ResetParams) (s : State) (i : Fin 32) : (s.resetEvent q).tlb[i.val].v = false :=
  congrArg TlbEntry.v (Vector.getElem_replicate i.isLt)

/-- Settles O6: every value stands in `resetFrom`. -/
theorem resetEventSetsGivenValues : Obligations.ResetEventSetsGivenValues := by
  intro s p rest q hi hp
  obtain ⟨hreset, hmem, hmap, hparams, hinputs⟩ := takeInput_cons hi
  refine ⟨_, step_reset (hreset.trans hp), ⟨fun h => ?_, fun c h => ?_⟩, resetEdx_bytes q.revId, resetEvent_flags q _,
    rfl, ?_, rfl, ?_, rfl, ⟨rfl, rfl, rfl, rfl, rfl, rfl⟩, BitVec.zero_and, resetEvent_tlb q _, rfl, rfl, rfl, rfl, rfl,
    rfl, rfl, rfl, hmem, hmap, hparams, hinputs⟩
  · change resetEax q.selfTest = 0
    rw [h]
    rfl
  · change resetEax q.selfTest ≠ 0
    rw [h]
    exact resetEax_failed c
  · intro r
    cases r <;> rfl
  · intro r hr
    cases r
    case cs => exact absurd rfl hr
    all_goals rfl

/-- Settles O7. -/
theorem initialModeAndMasks : Obligations.InitialModeAndMasks := by
  refine ⟨fun q s => ⟨rfl, rfl, rfl, rfl, rfl⟩, fun q s hi => step_of_done ?_⟩
  have hhit : fetchHits (s.resetEvent q) (s.resetEvent q).linPc = 0 := fetchHits_of_ne (resetEvent_dr_ne_linPc q s)
  rw [boundary_running (s := { s.resetEvent q with nmi := true }) rfl hi,
    eventStep_external (s := { s.resetEvent q with nmi := true }) rfl rfl (.inr hhit),
    externalStep_some (external_nmi rfl)]
  rfl

/-! ## The EFLAGS word -/

/-- The fixed bits of an EFLAGS word (`10_state.md` R26). -/
theorem toWord_fixed (f : Eflags) : f.toWord &&& 0xFFFC802A = 2 := by
  have hf := Eflags.toWord_ofWord f.toWord
  rw [Eflags.ofWord_toWord] at hf
  calc f.toWord &&& 0xFFFC802A = (f.toWord &&& 0x00037FD5 ||| 2) &&& 0xFFFC802A := by rw [← hf]
    _ = f.toWord &&& (0x00037FD5 &&& 0xFFFC802A) ||| 2 &&& 0xFFFC802A := by
        rw [BitVec.and_or_distrib_right, BitVec.and_assoc]
    _ = 2 := by simp

/-- Settles O9: each flag is read off `Eflags.ofWord_toWord`, since `Eflags.ofWord` says where it stands. -/
theorem eflagsWordLayout : Obligations.EflagsWordLayout := by
  refine ⟨fun f => ?_, resetEvent_flags⟩
  have h := Eflags.ofWord_toWord f
  exact ⟨toWord_fixed f, congrArg (·.cf) h, congrArg (·.pf) h, congrArg (·.af) h, congrArg (·.zf) h,
    congrArg (·.sf) h, congrArg (·.tf) h, congrArg (·.ifl) h, congrArg (·.df) h, congrArg (·.ovf) h,
    congrArg (·.iopl) h, congrArg (·.nt) h, congrArg (·.rf) h, congrArg (·.vm) h, h⟩

/-! ## Shutdown -/

/-- A step in shutdown that presents no RESET. -/
theorem step_shutdown {s u : State} (ht : s.takeInput = (none, u)) (hu : u.run = .shutdown) :
    step s = atShutdown (!s.inputs.isEmpty) u :=
  step_of_done (by simp [boundary, ht, hu])

theorem atShutdown_nmi {s : State} (b : Bool) (hn : s.nmi = true) (hl : s.params.nmiLeavesShutdown = true) :
    atShutdown b s = deliverExternal 2 { s with run := .running, nmi := false } := by
  simp [atShutdown, hn, hl]

theorem atShutdown_stays {s : State} (b : Bool) (h : s.nmi = false ∨ s.params.nmiLeavesShutdown = false) :
    atShutdown b s = if b then .next s else .fault .shutdown := by
  rcases h with h | h <;> simp [atShutdown, h]

/-- Settles O40. -/
theorem shutdownIsLeftOnlyByReset : Obligations.ShutdownIsLeftOnlyByReset := by
  refine fun s hs => ⟨fun hi hn => ?_, fun p rest hi hp => ?_, fun p rest q hi hp => ?_, fun hi hn hl => ?_⟩
  · rw [step_shutdown (takeInput_nil hi) hs, atShutdown_stays _ hn, hi]
    rfl
  · intro u
    have ht : s.takeInput = (none, u) := by
      simp only [State.takeInput, hi, hp]
      rfl
    rw [step_shutdown ht hs]
    refine ⟨fun hn => ?_, fun hn hl => atShutdown_nmi _ hn hl⟩
    rw [atShutdown_stays (s := u) _ hn, hi]
    rfl
  · exact ⟨_, step_reset ((takeInput_cons hi).1.trans hp), rfl⟩
  · rw [step_shutdown (takeInput_nil hi) hs, atShutdown_nmi _ hn hl]

end Sys2Proof.Machine
end

section
/-! PROOFS. Settles `SegmentLoadsAsThe8086`, `TableLoadsReadSixBytes`, `ControlRegisterReads`,
`ControlRegisterWrites`, `LmswLoadsStatusWord`, `SettingPeEntersProtectedMode`, `DebugRegisterMoves`,
`TestRegisterMoves` and `BreakpointInstruction`. -/

namespace Sys2Proof.Machine

/-! ## Segment and table registers -/

/-- Settles O19. -/
theorem segmentLoadsAsThe8086 : Obligations.SegmentLoadsAsThe8086 := by
  intro s t src v h8 hs hread seg'
  have hseg : t.seg = s.seg := (readRm16_reads src).stores.stacks.seg hread
  have hnext : t.next = s.next := (readRm16_reads src).stores.stacks.next hread
  rw [← hseg, ← hnext]
  exact ⟨exec_movSeg (r := .es) rfl h8 hs hread, exec_movSeg (r := .ss) rfl h8 hs hread,
    exec_movSeg (r := .ds) rfl h8 hs hread, exec_movSeg (r := .fs) rfl h8 hs hread,
    exec_movSeg (r := .gs) rfl h8 hs hread⟩

/-- Settles O20. -/
theorem tableLoadsReadSixBytes : Obligations.TableLoadsReadSixBytes := by
  intro s sz m limit base hl hs h1 h2 table
  have hread := readTable_run sz h1 h2
  have ht : ({ base := if sz = .w16 then base &&& 0x00FFFFFF else base, limit := low16 limit } : TableReg) = table := by
    cases sz <;> rfl
  rw [ht] at hread
  exact ⟨exec_lidt hs hl hread, exec_lgdt hs hl hread⟩

/-! ## Moves from a special register -/

/-- A move from a special register at level 0, whose body asks for the level and reads. -/
theorem exec_read {s : State} {r : Reg} {v mask : Dword} {body : M Bool} (hs : s.prefetchStale = false)
    (hb : body s = finishRead r v mask s) :
    runInstr false body s = .next (complete s false
      { s with gpr := s.gpr.set r (drawBits v (Config.freeWord s.free) mask),
               flags := s.flags.setStatus (Config.freeWord (s.free + 1)), free := s.free + 2, eip := s.next }) :=
  runInstr_ok (stale_call hs) (hb.trans (finishRead_run r v mask s))

/-- Settles O21. -/
theorem controlRegisterReads : Obligations.ControlRegisterReads := by
  intro s r hl hs
  have h0 := requireLevel0_run hl
  refine ⟨exec_read hs ?_, exec_read hs ?_⟩
  · simp only [movFromCr0, bind_run, h0, asks_run]
    rfl
  · simp only [movFromCr3, bind_run, h0, asks_run]
    rfl

theorem tr7Mask_eq (s : State) :
    s.tr7Mask = if s.tlbMissed = true ∧ s.tr7.ht = false then 0xFFFFFFEF else 0x00000FE3 := by
  unfold State.tr7Mask
  cases s.tlbMissed <;> cases s.tr7.ht <;> rfl

/-- Settles O34. -/
theorem testRegisterMoves : Obligations.TestRegisterMoves := by
  intro s r hl hs
  have h0 := requireLevel0_run hl
  refine ⟨exec_read hs ?_, exec_read hs ?_,
    runInstr_finishWrite (x := { s with tr7 := Tr7.ofWord (s.gpr.get r) }) hs ?_⟩
  · simp only [movFromTr6, bind_run, h0, asks_run]
    rfl
  · simp only [movFromTr7, bind_run, h0, asks_run, tr7Mask_eq]
  · simp only [movToTr7, bind_run, h0, update_run]

/-! ## Debug registers -/

theorem bpReserved_false {v : Dword} (h : ∀ k, bpEnabled v k = true → bpLen v k ≠ 2 ∧ bpRw v k ≠ 2) :
    bpReserved v = false := by
  rw [Bool.eq_false_iff, Ne, bpReserved_eq]
  rintro ⟨k, he, hlen | hrw⟩
  · exact (h k he).1 hlen
  · exact (h k he).2 hrw

theorem bpBadLength_false {v : Dword} (h : ∀ k, bpEnabled v k = true → bpRw v k = 0 → bpLen v k = 0) :
    bpBadLength v = false := by
  rw [Bool.eq_false_iff, Ne, bpBad_eq]
  rintro ⟨k, he, hrw, hlen⟩
  exact hlen (h k he hrw)

theorem movToDr7_eq {s : State} (r : Reg) (hl : s.level = 0) (hg : s.dr7.getLsbD 13 = false) :
    movToDr67 .dr7 r s = (do
      checkDr7 (s.gpr.get r)
      update fun s => { s with dr7 := s.gpr.get r }
      finishWrite) s := by
  simp only [movToDr67, writeDr67, bind_run, requireDebug_run hl hg, asks_run]
  rcases checkDr7_cases (s.gpr.get r) s with hc | ⟨q, hc⟩ <;> rw [hc]
  rfl

theorem movToDr7_refused {s : State} {r : Reg} {q : Refusal} (hl : s.level = 0) (hg : s.dr7.getLsbD 13 = false)
    (hs : s.prefetchStale = false) (hc : checkDr7 (s.gpr.get r) s = .error (.refused q) s) :
    exec (.movToDr67 .dr7 r) s = .refused q :=
  runInstr_refused (s' := s) (stale_call hs) (by rw [movToDr7_eq r hl hg, bind_run, hc])

/-- Settles O28: a value for DR7 is checked by `checkDr7`. -/
theorem debugRegisterMoves : Obligations.DebugRegisterMoves := by
  intro s r n hl hg hs v f
  have hd := requireDebug_run hl hg
  refine ⟨runInstr_finishWrite (x := { s with gpr := s.gpr.set r (s.dr n) }) hs ?_, exec_read hs ?_, exec_read hs ?_,
    ?_, runInstr_finishWrite (x := { s with dr6 := v }) hs ?_, fun hok => ?_, fun hres => ?_, fun hok hbad => ?_⟩
  · simp only [movFromDr03, bind_run, hd, asks_run, update_run]
  · simp only [movFromDr67, bind_run, hd, asks_run]
    rfl
  · simp only [movFromDr67, bind_run, hd, asks_run]
    rfl
  · have hw := runInstr_finishWrite (body := movToDr03 n r) (x := s.setDr n v) hs
      (by simp only [movToDr03, bind_run, hd, update_run, v])
    exact hw.trans (by simp only [moveEnd, setDr_flags, setDr_free, setDr_next, f])
  · simp only [movToDr67, writeDr67, bind_run, hd, asks_run, update_run, v]
  · have hc : checkDr7 v s = .ok () s := by
      simp [checkDr7, bpReserved_false fun k he => ⟨(hok k he).1, (hok k he).2.1⟩,
        bpBadLength_false fun k he => (hok k he).2.2]
    exact runInstr_finishWrite (x := { s with dr7 := v }) hs
      (by rw [movToDr7_eq r hl hg, bind_run, hc]; rfl)
  · exact movToDr7_refused hl hg hs (by simp [checkDr7, bpReserved_eq.2 hres, v])
  · refine movToDr7_refused hl hg hs ?_
    simp [checkDr7, bpReserved_false hok, bpBad_eq.2 hbad, v]

/-! ## Writes of CR0 and CR3 -/

/-- A write of CR0 that leaves PE as it was. -/
theorem writeCr0_same {s : State} {v : Cr0} (h : v.pe = s.cr0.pe) : s.writeCr0 v = { s with cr0 := v } := by
  simp [State.writeCr0, h]

/-- A write of CR0 that sets PE. -/
theorem writeCr0_sets {s : State} {v : Cr0} (hv : v.pe = true) (hs : s.cr0.pe = false) :
    s.writeCr0 v = { s with cr0 := v, cpl := 0, prefetchStale := true } := by
  simp [State.writeCr0, hv, hs]

theorem movToCr0_error {s : State} {r : Reg} {e : Stop} (hl : s.level = 0)
    (he : checkCr0 (Cr0.ofWord (s.gpr.get r)) s = .error e s) :
    movToCr0 r s = .error e s := by
  simp only [movToCr0, bind_run, requireLevel0_run hl, asks_run, he]

section
variable {s : State} {r : Reg} (hl : s.level = 0) (hs : s.prefetchStale = false)
include hl hs

theorem exec_movToCr0_next (hv : (Cr0.ofWord (s.gpr.get r)).pe = true ∨
      (s.cr0.pe = false ∧ (Cr0.ofWord (s.gpr.get r)).pg = false)) :
    exec (.movToCr0 r) s = .next (complete s false
      { s.writeCr0 (Cr0.ofWord (s.gpr.get r)) with
        flags := s.flags.setStatus (Config.freeWord s.free), free := s.free + 1, eip := s.next }) := by
  have hw := runInstr_finishWrite (body := movToCr0 r) (x := s.writeCr0 (Cr0.ofWord (s.gpr.get r))) hs
    (by simp only [movToCr0, bind_run, requireLevel0_run hl, asks_run, checkCr0_run hv, update_run])
  exact hw.trans (by simp only [moveEnd, writeCr0_flags, writeCr0_free, writeCr0_next])

/-- Every value goes into CR3, and every entry of the TLB loses its V bit. -/
theorem exec_movToCr3 :
    exec (.movToCr3 r) s = .next (complete s false
      { s.writeCr3 (s.gpr.get r) with
        flags := s.flags.setStatus (Config.freeWord s.free), free := s.free + 1, eip := s.next }) :=
  runInstr_finishWrite (x := s.writeCr3 (s.gpr.get r)) hs
    (by simp only [movToCr3, bind_run, requireLevel0_run hl, update_run])

end

/-- Settles O22: the two refused writes are the branches of `checkCr0`. -/
theorem controlRegisterWrites : Obligations.ControlRegisterWrites := by
  intro s r hl hs v f
  refine ⟨fun hpg hpe => ?_, fun hv hpe => ?_, fun hpg hpe => ?_, fun hpg hpe hs1 => ?_,
    ⟨_, exec_movToCr3 hl hs, rfl, fun i => ?_, rfl⟩⟩
  · have hok : v.pe = true ∨ (s.cr0.pe = false ∧ v.pg = false) := by
      cases hvpe : v.pe
      · exact .inr ⟨hpe.symm.trans hvpe, by simpa [hvpe] using hpg⟩
      · exact .inl rfl
    have hx := exec_movToCr0_next hl hs hok
    rw [writeCr0_same hpe] at hx
    exact hx
  · have hx := exec_movToCr0_next hl hs (.inl hv)
    rw [writeCr0_sets hv hpe] at hx
    exact hx
  · exact runInstr_raise (stale_call hs) (movToCr0_error hl (by simp [checkCr0, hpg, hpe, v]))
  · exact runInstr_refused (stale_call hs) (movToCr0_error hl (by simp [checkCr0, hpg, hpe, hs1, v]))
  · exact Vector.getElem_map _ _

/-- LMSW at level 0, in terms of the state in which it began. -/
theorem exec_lmsw_next {s u : State} {src : Rm16} {w : Word} (hs : s.prefetchStale = false) (hl : s.level = 0)
    (hread : readRm16 src s = .ok w u) :
    exec (.lmsw src) s = .next (complete s false { u.writeCr0 (s.cr0.lmsw w) with eip := s.next }) := by
  rw [exec_lmsw hs hl hread, (readRm16_reads src).stores.stacks.cr0 hread,
    (readRm16_reads src).stores.stacks.next hread]

/-- Settles O23. -/
theorem lmswLoadsStatusWord : Obligations.LmswLoadsStatusWord := by
  intro s t src w hl hs hread v
  have hcr0 : t.cr0 = s.cr0 := (readRm16_reads src).stores.stacks.cr0 hread
  have hx := exec_lmsw_next hs hl hread
  refine ⟨fun hpe => ?_, fun hv hpe => ?_⟩
  · rw [writeCr0_same (v := s.cr0.lmsw w) (by rw [hcr0]; exact hpe)] at hx
    exact hx
  · rw [writeCr0_sets (v := s.cr0.lmsw w) hv (by rw [hcr0, hpe])] at hx
    exact hx

/-! ## The switch to protected mode -/

/-- The state in which an instruction ends that began in `s`, sets PE and leaves `f` as the flags. -/
def switchEnd (s : State) (v : Cr0) (f : Eflags) (free : Nat) (traps quiet : Dword) : State :=
  complete s false
    { s with cr0 := v, cpl := 0, prefetchStale := true, flags := f, free := free, eip := s.next, traps := traps,
             quiet := quiet }

/-- What the switch to protected mode sets and leaves, the flags aside. -/
theorem switchEnd_frame {s : State} {v : Cr0} {f : Eflags} (k : Nat) (tr q : Dword) (hv : v.pe = true)
    (hf : f.vm = false) :
    let t := switchEnd s v f k tr q
    t.mode = .prot ∧ t.cpl = 0 ∧ t.cr0.pe = true ∧ t.seg = s.seg ∧ t.gpr = s.gpr ∧ t.eip = s.next ∧
      t.latch = s.latch ∧ t.idtr = s.idtr ∧ t.gdtr = s.gdtr ∧ t.cr3 = s.cr3 ∧
      t.system = { s.system with cr0 := t.cr0 } ∧ t.tlb = s.tlb ∧ s.sameMemory t ∧ t.prefetchStale = true :=
  ⟨by simp [switchEnd, complete, State.mode, hv, hf], rfl, hv, rfl, rfl, rfl, rfl, rfl, rfl, rfl, rfl, rfl,
    fun _ => rfl, rfl⟩

theorem resumed_control (f : Eflags) : f.sameControl f.resumed := ⟨rfl, rfl, rfl, rfl, rfl, rfl, rfl⟩

/-- Settles O24: both instructions end in a `switchEnd`; with paging off LMSW's operand fills no TLB entry. -/
theorem settingPeEntersProtectedMode : Obligations.SettingPeEntersProtectedMode := by
  intro s u r src w i hinv hpe hi
  have hm : s.mode = .real := by simp [State.mode, hpe]
  obtain ⟨hpg, hvm, -, hs⟩ := hinv.mode.1 hm
  have hl := level_of_real hm
  rcases hi with ⟨rfl, hbit⟩ | ⟨rfl, hread, hbit⟩
  · have hx := exec_movToCr0_next hl hs (r := r) (.inl hbit)
    rw [writeCr0_sets hbit hpe] at hx
    obtain ⟨h1, h2, h3, h4, h5, h6, h7, h8, h9, h10, h11⟩ := switchEnd_frame (s := s)
      (v := Cr0.ofWord (s.gpr.get r)) (f := s.flags.setStatus (Config.freeWord s.free)) (s.free + 1) s.traps s.quiet
      hbit hvm
    exact ⟨_, hx, h1, h2, h3, h4, h5, h6, h7, h8, h9, h10, setStatus_control _ _, nofun, h11⟩
  · obtain ⟨tr, q, rfl⟩ := readRm16_unpaged hpg hread
    have hv : (s.cr0.lmsw w).pe = true := by simp [Cr0.lmsw, hbit]
    have hx := exec_lmsw_next hs hl hread
    rw [writeCr0_sets (s := { s with traps := tr, quiet := q }) hv hpe] at hx
    obtain ⟨h1, h2, h3, h4, h5, h6, h7, h8, h9, h10, h11⟩ := switchEnd_frame (s := s) (f := s.flags) s.free tr q hv hvm
    have hf : (switchEnd s (s.cr0.lmsw w) s.flags s.free tr q).flags = s.flags.resumed := resumed_eq s.flags
    exact ⟨_, hx, h1, h2, h3, h4, h5, h6, h7, h8, h9, h10, hf ▸ resumed_control _, fun _ => hf, h11⟩

/-! ## INT 3 -/

/-- Settles O42. -/
theorem breakpointInstruction : Obligations.BreakpointInstruction := by
  refine fun s hs => ⟨fun entry h => exec_int3_real hs h, ?_⟩
  change execInt3 s = _
  rw [execInt3, if_neg (by simp [hs])]
  rfl

end Sys2Proof.Machine
end
